-- ==== Sys2Proof/Word.lean ====
section
/-! DEFINITION. The plain words of the Ewerdazil: bytes, 64-bit words, vectors, masks, and the 129-bit
capability value (R5, R92). -/

namespace Sys2Proof

abbrev Byte := BitVec 8
abbrev W32 := BitVec 32
abbrev W64 := BitVec 64
/-- A vector register (R157). -/
abbrev Vec := BitVec 512
/-- A mask register (R158). -/
abbrev Mask := BitVec 16
/-- The number of a general, vector or mask register, or of an engine table entry (R5). -/
abbrev Reg := BitVec 5
abbrev KReg := BitVec 3
abbrev EReg := BitVec 3
/-- A 10-bit coordinate field (R2): row in bits 9:7, col in bits 6:3, core in bits 2:0. -/
abbrev Coord := BitVec 10

/-- A 128-bit capability image and its out-of-band tag (R92): the contents of a general register. -/
structure Cap where
  tag : Bool
  img : BitVec 128
  deriving DecidableEq, Repr

/-- The null capability: all 129 bits zero (R92). -/
def Cap.null : Cap := ⟨false, 0⟩

/-- A sparse table with Nat keys, sorted by key: an absent key holds the table's default. -/
abbrev Tbl (α : Type) := List (Nat × α)

end Sys2Proof
end

