-- ==== Sys2Proof/Config.lean ====
section
/-! DEFINITION. What this part fixes once and the values the manual leaves free. A free value is a constant
with no body: nothing can be proved about the number it stands for. Each is applied to a counter of the
state, so that two uses are two values (notes/assumptions/6.md, 7.md). -/

namespace Sys2Proof.Config

/-- The random source of Cornerstone: a fresh 512-bit AES-256-XTS key pair (R263, R332). FREE VALUE. -/
opaque randomKey : Nat → BitVec 512

/-- The key pair of a slot that holds none: what a gasket still sends out under it is sealed with a pair that nobody knows (R261). FREE VALUE. -/
opaque erasedPair : BitVec 512

/-- A measurement block of R347 or R366 whose bytes the manual does not give. FREE VALUE. -/
opaque measurement : Nat → BitVec 384

/-- Cornerstone's ECDSA signature over an attestation report (R341, R347). FREE VALUE. -/
opaque attestationSignature : Nat → BitVec 768

/-- What PENDVAL shows of a pending value that its uncached target has not given yet (R71, R126, R356). FREE VALUE. -/
opaque uncollected : Nat → BitVec 512

/-- The array cycles that an MLDW takes (R198): the manual gives none. FREE VALUE. -/
opaque mldwCycles : Nat → W64

/-- Where the fixed tree of an in-switch reduction divides the members from the i-th on (R349): the argument is 4,096 × i + their
number. The manual fixes the tree and does not say which it is. FREE VALUE. -/
opaque treeSplit : Nat → Nat

/-- Whether another module's network interface finds a handle of its own valid (R331). FREE VALUE. -/
opaque remoteAnswer : Nat → Bool

/-- The time of the domain as a JVX port completes training (R366). FREE VALUE. -/
opaque domainTime : Nat → W64

/-- The module that a JVX port leads to (R339, R340): the manual does not say which port leads where. FREE VALUE. -/
opaque jvxPartner : Nat → Nat

/-- This module's place in the scale-up domain, 0 to 2,303 (R228, R348): fixed for the machine, and no rule says where. FREE VALUE. -/
opaque modulePlace : Fin 2304

/-- This module's index as words and packets hold it. -/
def moduleIndex : BitVec 12 := BitVec.ofNat 12 modulePlace.val

end Sys2Proof.Config
end

