-- ==== Sys2Proof/Machine/Tbl.lean ====
section
/-! DEFINITION. Sparse tables kept in one canonical order: a list of keys and values, keys strictly rising. An
absent key holds the table's default. -/

namespace Sys2Proof

/-- The entry of a key, if there is one. -/
def Tbl.find {α : Type} (t : Tbl α) (k : Nat) : Option α :=
  match t with
  | [] => none
  | (j, x) :: r => if j = k then some x else Tbl.find r k

/-- The value of a key; an absent key holds `d`. -/
def Tbl.get {α : Type} (d : α) (t : Tbl α) (k : Nat) : α := (Tbl.find t k).getD d

/-- Give a key a value. -/
def Tbl.set {α : Type} (t : Tbl α) (k : Nat) (x : α) : Tbl α :=
  match t with
  | [] => [(k, x)]
  | (j, y) :: r => if k < j then (k, x) :: (j, y) :: r else if j = k then (k, x) :: r else (j, y) :: Tbl.set r k x

/-- Remove a key. -/
def Tbl.erase {α : Type} (t : Tbl α) (k : Nat) : Tbl α :=
  match t with
  | [] => []
  | (j, y) :: r => if j = k then r else (j, y) :: Tbl.erase r k

/-- Change every listed value. -/
def Tbl.mapVal {α : Type} (t : Tbl α) (f : Nat → α → α) : Tbl α := t.map fun p => (p.1, f p.1 p.2)

/-- Give every key of a list a value computed from its old one. -/
def Tbl.update {α : Type} (d : α) (t : Tbl α) (k : Nat) (f : α → α) : Tbl α := Tbl.set t k (f (Tbl.get d t k))

def Tbl.has {α : Type} (t : Tbl α) (k : Nat) : Bool := (Tbl.find t k).isSome

/-- The canonical order above a bound: keys strictly rising. -/
def Tbl.above {α : Type} (lo : Nat) : Tbl α → Bool
  | [] => true
  | (j, _) :: r => lo ≤ j && Tbl.above (j + 1) r

/-- A table in its canonical order. -/
def Tbl.wf {α : Type} (t : Tbl α) : Bool := Tbl.above 0 t

/-- Add a number to a sorted list without repeats. -/
def NatSet.insert (l : List Nat) (k : Nat) : List Nat :=
  match l with
  | [] => [k]
  | j :: r => if k < j then k :: j :: r else if j = k then j :: r else j :: NatSet.insert r k

/-- Remove a number from such a list. -/
def NatSet.erase (l : List Nat) (k : Nat) : List Nat := l.filter (· != k)

/-- A set of numbers in its canonical order above a bound: rising. -/
def NatSet.above (lo : Nat) : List Nat → Bool
  | [] => true
  | j :: r => lo ≤ j && NatSet.above (j + 1) r

/-- A set of numbers in its canonical order. -/
def NatSet.wf (l : List Nat) : Bool := NatSet.above 0 l

end Sys2Proof
end

