-- ==== Sys2Proof/Syntax.lean ====
section
/-! DEFINITION. The instructions, command words and events of the Ewerdazil: one constructor for every row of
spec/opcode_table.json. A control word's first field `m` is the switch marker S (R38). A command word's fields are
those of R244 and R264. An event carries the operands that say where it happens. -/

namespace Sys2Proof

/-- A rounding mode (R26). -/
inductive RM | rne | rtz | rdn | rup | rmm
  deriving DecidableEq, Repr

/-- A branch condition (R46). -/
inductive Cond | eq | ne | lt | ge | ltu | geu
  deriving DecidableEq, Repr

/-- A vector compare condition (R50). -/
inductive VCond | eq | ne | lt | le
  deriving DecidableEq, Repr

/-- The element type of a VFLT operation (R50). -/
inductive FTy | f32 | bf16 | f64
  deriving DecidableEq, Repr

/-- The element type of a VINT operation and of the strided and indexed accesses (R50, R54). -/
inductive ITy | i32 | i64
  deriving DecidableEq, Repr

/-- The element width of a VMOV operation (R51). -/
inductive MTy | w32 | w64 | w16
  deriving DecidableEq, Repr

/-- A VCVT type code (R52). -/
inductive CTy | f32 | i32 | bf16 | f64 | i64 | f8e4 | f8e5
  deriving DecidableEq, Repr

/-- An FCVT conversion code (R45, R80). -/
inductive Fcvt | sd | ds | sl | slu | dl | dlu | ls | lus | ld | lud
  deriving DecidableEq, Repr

/-- An atomic operation (R49, R132). -/
inductive AmoOp | add | and | or | xor | min | max | minu | maxu | swap
  deriving DecidableEq, Repr

/-- WFMT and AFMT of a matrix command, and the mode of a plane (R240, R244). -/
inductive MFmt | e4m3 | e5m2 | int8 | bf16
  deriving DecidableEq, Repr

/-- OFMT of MSTORE (R244). -/
inductive OFmt | fp32 | bf16 | e4m3 | e5m2
  deriving DecidableEq, Repr

/-- The sync fields of a copy command: none without the SYNC flag, else yent and yoff (R264). -/
structure SyncRef where
  on : Bool
  yent : EReg
  yoff : W32
  deriving DecidableEq, Repr

/-- A line address L: bits 47:7 of an intermediate address (R143). -/
abbrev Line := BitVec 41

/-- What the host or another module asks of a line (R344, R348); a host write brings no tags (R100). -/
inductive PeerOp
  | read
  | own
  | write (data : BitVec 1024) (tags : BitVec 8)
  deriving DecidableEq, Repr

/-- Which kind of request went unanswered for 1 ms (R348): an access, to one line or, when the partner answers nothing, to any; or a
writeback. -/
inductive LostRequest
  | access (line : Option Line)
  | writeback (line : Line)
  deriving DecidableEq, Repr

/-- Where an uncorrectable error lies (R360). -/
inductive EccPlace
  | l1 (core : Coord) (line : Line)
  | bank (bank : BitVec 11) (set : BitVec 5) (way : BitVec 4) (piece : BitVec 5)
  | memory (key : Nat)
  | registers (core : Coord)
  | array (cl : BitVec 7)
  deriving DecidableEq, Repr

/-- The element type of a reduction group (R349). -/
inductive ElemType | f32 | bf16 | i32 | i64
  deriving DecidableEq, Repr

/-- What the fuse map reports at the FUSE phase (R367): the failed units, by the physical unit. -/
structure FuseMap where
  /-- failed cores, each 16 × cluster + place: places 0 to 7 are the cluster's cores and 8 its spare -/
  cores : List Nat
  /-- failed banks, each 256 × die + place: places 0 to 191 are the die's banks and 192 to 199 its spares -/
  banks : List Nat
  /-- failed Plaza lanes, each 16 × port + lane: a port is a cluster by its index, or 128 + 24 × die + group for a bank group's -/
  lanes : List Nat
  /-- a fuse that cannot be read -/
  ok : Bool
  deriving DecidableEq, Repr

/-- A unit that fails at calibration, or at INIT while memory is zeroed: a core, a bank or a Plaza lane by its number in the fuse map, a way
by its bank, set and way, a 64 KiB frame of memory; or what has no unit to repair (R362, R366 to R368). -/
inductive FailedUnit
  | core (n : BitVec 11)
  | bank (n : BitVec 11)
  | lane (n : BitVec 13)
  | way (bank : BitVec 11) (set : BitVec 5) (way : BitVec 4)
  | frame (frame : BitVec 32)
  | other
  deriving DecidableEq, Repr

/-- How CALIB ends (R366): the error, 0 for success, and the unit that failed. -/
structure Calibration where
  err : Byte
  failed : FailedUnit
  deriving DecidableEq, Repr

/-- How the zeroing of INIT ends (R368): it is done or not, and the units in which it met an error. -/
structure Zeroing where
  ok : Bool
  errors : List FailedUnit
  deriving DecidableEq, Repr

/-- The queue pair that an incoming RDMA write comes through, and its remote key (R350). -/
structure RdmaKey where
  qp : BitVec 12
  rkey : BitVec 24
  deriving DecidableEq, Repr

/-- The secret of an SPDM session, and the IDE key that the session sets up for a CXL port, when it sets one up (R341, R347). -/
structure SessionKeys where
  secret : BitVec 256
  ide : Option (BitVec 1 × BitVec 256)
  deriving DecidableEq, Repr

/-- Up to 64 bytes that a store writes, the lowest of `value` first (R356). -/
structure WindowData where
  size : BitVec 7
  value : BitVec 512
  deriving DecidableEq, Repr

/-- A register of the device register aperture (R282), a system register reached from a core (R232), or what the supervisor sets up without
one: a decoder range that exposes device memory to the host (R341), a queue pair of the Ethernet ports (R350). -/
inductive RegTarget
  | aperture (off : BitVec 20)
  | system (c : Coord) (sl : BitVec 2) (index : BitVec 12)
  | decoder (n : BitVec 3)
  | queuePair (n : BitVec 12)
  deriving DecidableEq, Repr

inductive Instr where
  /-- ADD (R73): Writes the 64-bit wrapped sum of ga and gb to gd. -/
  | add (m : Bool) (d a b : Reg)
  /-- SUB (R73): Writes ga minus gb, wrapped, to gd. -/
  | sub (m : Bool) (d a b : Reg)
  /-- AND (R73): Writes the bitwise AND of ga and gb to gd. -/
  | and (m : Bool) (d a b : Reg)
  /-- OR (R73): Writes the bitwise OR of ga and gb to gd. -/
  | or (m : Bool) (d a b : Reg)
  /-- XOR (R73): Writes the bitwise XOR of ga and gb to gd. -/
  | xor (m : Bool) (d a b : Reg)
  /-- ANDN (R73): Writes ga AND NOT gb to gd. -/
  | andn (m : Bool) (d a b : Reg)
  /-- ORN (R73): Writes ga OR NOT gb to gd. -/
  | orn (m : Bool) (d a b : Reg)
  /-- SHL (R73): Shifts ga left by gb[5:0] into gd. -/
  | shl (m : Bool) (d a b : Reg)
  /-- SHR (R73): Shifts ga right with zero fill by gb[5:0] into gd. -/
  | shr (m : Bool) (d a b : Reg)
  /-- SRA (R73): Shifts ga right arithmetically by gb[5:0] into gd. -/
  | sra (m : Bool) (d a b : Reg)
  /-- ROL (R73): Rotates ga left by gb[5:0] into gd. -/
  | rol (m : Bool) (d a b : Reg)
  /-- ROR (R73): Rotates ga right by gb[5:0] into gd. -/
  | ror (m : Bool) (d a b : Reg)
  /-- SLT (R73): Writes 1 to gd if ga is less than gb signed, else 0. -/
  | slt (m : Bool) (d a b : Reg)
  /-- SLTU (R73): Writes 1 to gd if ga is less than gb unsigned, else 0. -/
  | sltu (m : Bool) (d a b : Reg)
  /-- MIN (R73): Writes the signed minimum of ga and gb to gd. -/
  | min (m : Bool) (d a b : Reg)
  /-- MAX (R73): Writes the signed maximum of ga and gb to gd. -/
  | max (m : Bool) (d a b : Reg)
  /-- MINU (R73): Writes the unsigned minimum of ga and gb to gd. -/
  | minu (m : Bool) (d a b : Reg)
  /-- MAXU (R73): Writes the unsigned maximum of ga and gb to gd. -/
  | maxu (m : Bool) (d a b : Reg)
  /-- MUL (R73): Writes the low 64 bits of ga times gb to gd as a deferred result. -/
  | mul (m : Bool) (d a b : Reg)
  /-- MULH (R73): Writes the high 64 bits of the signed 128-bit product to gd. -/
  | mulh (m : Bool) (d a b : Reg)
  /-- MULHU (R73): Writes the high 64 bits of the unsigned 128-bit product to gd. -/
  | mulhu (m : Bool) (d a b : Reg)
  /-- DIV (R73): Writes the signed quotient rounded toward zero, with the non-faulting division-by-zero and overflow results. -/
  | div (m : Bool) (d a b : Reg)
  /-- DIVU (R73): Writes the unsigned quotient, all ones on division by zero. -/
  | divu (m : Bool) (d a b : Reg)
  /-- REM (R73): Writes the signed remainder, the dividend on division by zero. -/
  | rem (m : Bool) (d a b : Reg)
  /-- REMU (R73): Writes the unsigned remainder, the dividend on division by zero. -/
  | remu (m : Bool) (d a b : Reg)
  /-- CLZ (R73): Writes the count of leading zero bits of ga to gd. -/
  | clz (m : Bool) (d a : Reg)
  /-- CTZ (R73): Writes the count of trailing zero bits of ga to gd. -/
  | ctz (m : Bool) (d a : Reg)
  /-- POPC (R73): Writes the count of one bits of ga to gd. -/
  | popc (m : Bool) (d a : Reg)
  /-- SEXT_B (R73): Sign-extends the low byte of ga into gd. -/
  | sextB (m : Bool) (d a : Reg)
  /-- SEXT_H (R73): Sign-extends the low half-word of ga into gd. -/
  | sextH (m : Bool) (d a : Reg)
  /-- SEXT_W (R73): Sign-extends the low word of ga into gd. -/
  | sextW (m : Bool) (d a : Reg)
  /-- ZEXT_B (R73): Zero-extends the low byte of ga into gd. -/
  | zextB (m : Bool) (d a : Reg)
  /-- ZEXT_H (R73): Zero-extends the low half-word of ga into gd. -/
  | zextH (m : Bool) (d a : Reg)
  /-- ZEXT_W (R73): Zero-extends the low word of ga into gd. -/
  | zextW (m : Bool) (d a : Reg)
  /-- SEL (R73): Writes ga to gd if gc is nonzero, else gb. -/
  | sel (m : Bool) (d a b c : Reg)
  /-- ADDI (R74): Writes ga plus the sign-extended immediate to gd. -/
  | addi (m : Bool) (d a : Reg) (imm : BitVec 15)
  /-- ANDI (R74): Writes ga AND the sign-extended immediate to gd. -/
  | andi (m : Bool) (d a : Reg) (imm : BitVec 15)
  /-- ORI (R74): Writes ga OR the sign-extended immediate to gd. -/
  | ori (m : Bool) (d a : Reg) (imm : BitVec 15)
  /-- XORI (R74): Writes ga XOR the sign-extended immediate to gd. -/
  | xori (m : Bool) (d a : Reg) (imm : BitVec 15)
  /-- SHLI (R74): Shifts ga left by an immediate amount into gd. -/
  | shli (m : Bool) (d a : Reg) (sh : BitVec 6)
  /-- SHRI (R74): Shifts ga right with zero fill by an immediate amount into gd. -/
  | shri (m : Bool) (d a : Reg) (sh : BitVec 6)
  /-- SRAI (R74): Shifts ga right with sign fill by an immediate amount into gd. -/
  | srai (m : Bool) (d a : Reg) (sh : BitVec 6)
  /-- SLTI (R74): Writes 1 if ga is less than the immediate signed, else 0. -/
  | slti (m : Bool) (d a : Reg) (imm : BitVec 15)
  /-- SLTIU (R74): Writes 1 if ga is less than the sign-extended immediate unsigned, else 0. -/
  | sltiu (m : Bool) (d a : Reg) (imm : BitVec 15)
  /-- LUI (R75): Writes the sign-extended imm20 shifted left by 12 to gd. -/
  | lui (m : Bool) (d : Reg) (imm : BitVec 20)
  /-- AUPCC (R76): Derives a capability from pcc with a word displacement, clearing the tag if unrepresentable. -/
  | aupcc (m : Bool) (d : Reg) (imm : BitVec 20)
  /-- FADD (R78): Writes the once-rounded floating sum of ga and gb. -/
  | fadd (m : Bool) (d a b : Reg) (p : Bool) (rm : RM)
  /-- FSUB (R78): Writes the once-rounded floating difference. -/
  | fsub (m : Bool) (d a b : Reg) (p : Bool) (rm : RM)
  /-- FMUL (R78): Writes the once-rounded floating product. -/
  | fmul (m : Bool) (d a b : Reg) (p : Bool) (rm : RM)
  /-- FDIV (R78): Writes the once-rounded floating quotient with IEEE special results. -/
  | fdiv (m : Bool) (d a b : Reg) (p : Bool) (rm : RM)
  /-- FSQRT (R78): Writes the once-rounded square root of ga. -/
  | fsqrt (m : Bool) (d a : Reg) (p : Bool) (rm : RM)
  /-- FMADD (R78): Writes a times b plus gd, formed exactly and rounded once. -/
  | fmadd (m : Bool) (d a b : Reg) (p : Bool) (rm : RM)
  /-- FMSUB (R78): Writes a times b minus gd, formed exactly and rounded once. -/
  | fmsub (m : Bool) (d a b : Reg) (p : Bool) (rm : RM)
  /-- FMIN (R79): Writes the smaller operand, -0 below +0, default NaN on NaN. -/
  | fmin (m : Bool) (d a b : Reg) (p : Bool)
  /-- FMAX (R79): Writes the larger operand, -0 below +0, default NaN on NaN. -/
  | fmax (m : Bool) (d a b : Reg) (p : Bool)
  /-- FEQ (R79): Writes 1 if the operands are equal, else 0. -/
  | feq (m : Bool) (d a b : Reg) (p : Bool)
  /-- FLT (R79): Writes 1 if ga is less than gb, else 0. -/
  | flt (m : Bool) (d a b : Reg) (p : Bool)
  /-- FLE (R79): Writes 1 if ga is less than or equal to gb, else 0. -/
  | fle (m : Bool) (d a b : Reg) (p : Bool)
  /-- FCVT (R80): Converts between floating and integer forms as the b-field code selects. -/
  | fcvt (m : Bool) (d a : Reg) (c : Fcvt) (rm : RM)
  /-- FCLASS (R81): Writes the operand's kind bit and sign bit. -/
  | fclass (m : Bool) (d a : Reg) (p : Bool)
  /-- FSGNJ (R82): Writes ga's magnitude with gb's sign. -/
  | fsgnj (m : Bool) (d a b : Reg) (p : Bool)
  /-- FSGNJ_ABS (R82): Writes ga's magnitude with sign 0. -/
  | fsgnjAbs (m : Bool) (d a : Reg) (p : Bool)
  /-- FSGNJ_NEG (R82): Writes ga with its sign inverted. -/
  | fsgnjNeg (m : Bool) (d a : Reg) (p : Bool)
  /-- FSGNJ_X (R82): Writes ga's magnitude with the xor of both signs. -/
  | fsgnjX (m : Bool) (d a b : Reg) (p : Bool)
  /-- B_COND (R83): Compares ga and gb and branches by a word displacement when the condition holds. -/
  | bCond (m : Bool) (c : Cond) (a b : Reg) (disp : BitVec 12)
  /-- J (R84): Parks, writes a sentry link to gd and jumps by a word displacement. -/
  | j (m : Bool) (d : Reg) (disp : BitVec 20)
  /-- JC (R85): Parks, checks ga, unseals a sentry, writes a link and makes ga the new pcc. -/
  | jc (m : Bool) (d a : Reg)
  /-- CGETADDR (R111): Writes the capability's address as an integer. -/
  | cgetaddr (m : Bool) (d a : Reg)
  /-- CGETBASE (R111): Writes the decoded base. -/
  | cgetbase (m : Bool) (d a : Reg)
  /-- CGETLEN (R111): Writes the decoded length, saturated. -/
  | cgetlen (m : Bool) (d a : Reg)
  /-- CGETPERM (R111): Writes the permission bits. -/
  | cgetperm (m : Bool) (d a : Reg)
  /-- CGETTYPE (R111): Writes the object type. -/
  | cgettype (m : Bool) (d a : Reg)
  /-- CGETTAG (R111): Writes the tag. -/
  | cgettag (m : Bool) (d a : Reg)
  /-- CSETADDR (R112): Sets the address, clearing the tag if sealed or unrepresentable. -/
  | csetaddr (m : Bool) (d a b : Reg)
  /-- CINCADDR (R112): Adds gb to the address, clearing the tag if sealed or unrepresentable. -/
  | cincaddr (m : Bool) (d a b : Reg)
  /-- CSETBNDS (R113): Sets bounds from the address, rounding outward, faulting if they exceed the source. -/
  | csetbnds (m : Bool) (d a b : Reg)
  /-- CSETBNDSE (R113): Sets exact bounds from the address or faults CAPBOUNDS. -/
  | csetbndse (m : Bool) (d a b : Reg)
  /-- CANDPERM (R114): Masks the permissions with gb, clearing the tag of a sealed source. -/
  | candperm (m : Bool) (d a b : Reg)
  /-- CCLRTAG (R114): Writes ga with its tag cleared. -/
  | cclrtag (m : Bool) (d a : Reg)
  /-- CSEAL (R115): Seals ga with the object type held in the authorising gb. -/
  | cseal (m : Bool) (d a b : Reg)
  /-- CUNSEAL (R115): Unseals ga when gb authorises its type. -/
  | cunseal (m : Bool) (d a b : Reg)
  /-- CSEALENT (R116): Makes an executable capability a sentry. -/
  | csealent (m : Bool) (d a : Reg)
  /-- CBUILD (R117): Rederives a tagged capability from an image under the authority in ga. -/
  | cbuild (m : Bool) (d a b : Reg)
  /-- CSUBSET (R118): Reports in bits how gb stands against ga. -/
  | csubset (m : Bool) (d a b : Reg)
  /-- CSAME (R118): Writes 1 when all 129 bits of ga and gb are equal. -/
  | csame (m : Bool) (d a b : Reg)
  /-- CFITLEN (R119): Writes the length rounded up to its representable multiple. -/
  | cfitlen (m : Bool) (d a : Reg)
  /-- CFITEXP (R119): Writes the exponent a length will need. -/
  | cfitexp (m : Bool) (d a : Reg)
  /-- CMOV (R111): Copies all 129 bits of ga to gd, subject to revocation painting. -/
  | cmov (m : Bool) (d a : Reg)
  /-- CINCADDRI (R112): Adds a signed immediate to the address, clearing the tag if sealed or unrepresentable. -/
  | cincaddri (m : Bool) (d a : Reg) (imm : BitVec 15)
  /-- CSETBNDSI (R113): Sets bounds of an unsigned immediate length from the address, rounding outward. -/
  | csetbndsi (m : Bool) (d a : Reg) (imm : BitVec 15)
  /-- LB (R121): Loads a sign-extended byte. -/
  | lb (m : Bool) (d a : Reg) (off : BitVec 15)
  /-- LBU (R121): Loads a zero-extended byte. -/
  | lbu (m : Bool) (d a : Reg) (off : BitVec 15)
  /-- LH (R121): Loads a sign-extended half-word. -/
  | lh (m : Bool) (d a : Reg) (off : BitVec 15)
  /-- LHU (R121): Loads a zero-extended half-word. -/
  | lhu (m : Bool) (d a : Reg) (off : BitVec 15)
  /-- LW (R121): Loads a sign-extended word. -/
  | lw (m : Bool) (d a : Reg) (off : BitVec 15)
  /-- LWU (R121): Loads a zero-extended word. -/
  | lwu (m : Bool) (d a : Reg) (off : BitVec 15)
  /-- LD (R121): Loads a doubleword. -/
  | ld (m : Bool) (d a : Reg) (off : BitVec 15)
  /-- LC (R123): Loads a 16-byte capability with its tag, subject to LOAD_CAP and revocation. -/
  | lc (m : Bool) (d a : Reg) (off : BitVec 15)
  /-- SB (R122): Stores the low byte of gs, clearing the unit's tag. -/
  | sb (m : Bool) (src a : Reg) (off : BitVec 15)
  /-- SH (R122): Stores the low half-word of gs. -/
  | sh (m : Bool) (src a : Reg) (off : BitVec 15)
  /-- SW (R122): Stores the low word of gs. -/
  | sw (m : Bool) (src a : Reg) (off : BitVec 15)
  /-- SD (R122): Stores the doubleword gs. -/
  | sd (m : Bool) (src a : Reg) (off : BitVec 15)
  /-- SC (R124): Stores a capability image and tag under STORE, STORE_CAP and STORE_LOCAL checks. -/
  | sc (m : Bool) (src a : Reg) (off : BitVec 15)
  /-- PF (R127): Requests a line into the issuing core's data L1 without faulting. -/
  | pf (m : Bool) (a : Reg) (off : BitVec 15)
  /-- CLEAN (R128): Writes the line's dirty pieces home at its chunk's commit, keeping copies valid. -/
  | clean (m : Bool) (a : Reg) (off : BitVec 15)
  /-- FLUSH (R128): Cleans the line and then invalidates it along the issuing path. -/
  | flush (m : Bool) (a : Reg) (off : BitVec 15)
  /-- DISCARD (R129): Drops a 128-byte line without writing it back, as a store at commit. -/
  | discard (m : Bool) (a : Reg) (off : BitVec 15)
  /-- AMO (R132): Atomically applies the selected operation to memory and returns the old value. -/
  | amo (m : Bool) (d a b : Reg) (op : AmoOp) (dbl : Bool)
  /-- CAS (R133): Compares memory with gd and stores gb when equal, returning the old value. -/
  | cas (m : Bool) (d a b : Reg) (dbl : Bool)
  /-- CASC (R134): Compares a 16-byte unit with its tag against gd and stores gb when equal. -/
  | casc (m : Bool) (d a b : Reg)
  /-- RAMO (R135): Performs an AMO at the named cluster's port as a one-instruction chunk. -/
  | ramo (m : Bool) (d a : Reg) (cl : BitVec 7) (op : AmoOp) (dbl : Bool)
  /-- CHOLD (R136): Starts a chunk that holds itself and the next n instructions. -/
  | chold (m : Bool) (n : BitVec 15)
  /-- VADD_FLOAT (R161): Adds floating elements under the mask, rounding once under RNE. -/
  | vaddFloat (m : Bool) (d a b : Reg) (t : FTy) (k : KReg)
  /-- VSUB_FLOAT (R161): Subtracts floating elements under the mask. -/
  | vsubFloat (m : Bool) (d a b : Reg) (t : FTy) (k : KReg)
  /-- VMUL_FLOAT (R161): Multiplies floating elements under the mask. -/
  | vmulFloat (m : Bool) (d a b : Reg) (t : FTy) (k : KReg)
  /-- VFMA (R161): Computes a times b plus d per element, rounded once. -/
  | vfma (m : Bool) (d a b : Reg) (t : FTy) (k : KReg)
  /-- VFNMA (R161): Computes d minus a times b per element, rounded once. -/
  | vfnma (m : Bool) (d a b : Reg) (t : FTy) (k : KReg)
  /-- VDIV (R161): Divides floating elements under the mask. -/
  | vdiv (m : Bool) (d a b : Reg) (t : FTy) (k : KReg)
  /-- VSQRT (R161): Takes the square root of each active element. -/
  | vsqrt (m : Bool) (d a : Reg) (t : FTy) (k : KReg)
  /-- VMIN_FLOAT (R161): Writes the floating minimum per active element. -/
  | vminFloat (m : Bool) (d a b : Reg) (t : FTy) (k : KReg)
  /-- VMAX_FLOAT (R161): Writes the floating maximum per active element. -/
  | vmaxFloat (m : Bool) (d a b : Reg) (t : FTy) (k : KReg)
  /-- VCMP_FLOAT (R162): Compares floating elements and writes the whole mask register kd. -/
  | vcmpFloat (m : Bool) (c : VCond) (kd : KReg) (a b : Reg) (t : FTy) (k : KReg)
  /-- VREDADD_FLOAT (R163): Sums floating elements in the fixed tree into lane 0. -/
  | vredaddFloat (m : Bool) (d a : Reg) (t : FTy) (k : KReg)
  /-- VREDMAX_FLOAT (R163): Reduces floating elements by maximum into lane 0. -/
  | vredmaxFloat (m : Bool) (d a : Reg) (t : FTy) (k : KReg)
  /-- VREDMIN_FLOAT (R163): Reduces floating elements by minimum into lane 0. -/
  | vredminFloat (m : Bool) (d a : Reg) (t : FTy) (k : KReg)
  /-- VADD_INT (R164): Adds integer elements modulo 2^w under the mask. -/
  | vaddInt (m : Bool) (d a b : Reg) (t : ITy) (k : KReg)
  /-- VSUB_INT (R164): Subtracts integer elements modulo 2^w. -/
  | vsubInt (m : Bool) (d a b : Reg) (t : ITy) (k : KReg)
  /-- VMUL_INT (R164): Multiplies integer elements, keeping the low bits. -/
  | vmulInt (m : Bool) (d a b : Reg) (t : ITy) (k : KReg)
  /-- VMIN_INT (R164): Writes the signed minimum per element. -/
  | vminInt (m : Bool) (d a b : Reg) (t : ITy) (k : KReg)
  /-- VMAX_INT (R164): Writes the signed maximum per element. -/
  | vmaxInt (m : Bool) (d a b : Reg) (t : ITy) (k : KReg)
  /-- VCMP_INT (R162): Compares integer elements signed and writes the whole mask register kd. -/
  | vcmpInt (m : Bool) (c : VCond) (kd : KReg) (a b : Reg) (t : ITy) (k : KReg)
  /-- VREDADD_INT (R163): Sums integer elements in the fixed tree, wrapping. -/
  | vredaddInt (m : Bool) (d a : Reg) (t : ITy) (k : KReg)
  /-- VREDMAX_INT (R163): Reduces integer elements by maximum. -/
  | vredmaxInt (m : Bool) (d a : Reg) (t : ITy) (k : KReg)
  /-- VREDMIN_INT (R163): Reduces integer elements by minimum. -/
  | vredminInt (m : Bool) (d a : Reg) (t : ITy) (k : KReg)
  /-- VAND (R164): Writes the bitwise AND per active element. -/
  | vand (m : Bool) (d a b : Reg) (t : ITy) (k : KReg)
  /-- VOR (R164): Writes the bitwise OR per active element. -/
  | vor (m : Bool) (d a b : Reg) (t : ITy) (k : KReg)
  /-- VXOR (R164): Writes the bitwise XOR per active element. -/
  | vxor (m : Bool) (d a b : Reg) (t : ITy) (k : KReg)
  /-- VSHL (R164): Shifts elements left by per-element amounts. -/
  | vshl (m : Bool) (d a b : Reg) (t : ITy) (k : KReg)
  /-- VSHR (R164): Shifts elements right with zero fill. -/
  | vshr (m : Bool) (d a b : Reg) (t : ITy) (k : KReg)
  /-- VSRA (R164): Shifts elements right with sign fill. -/
  | vsra (m : Bool) (d a b : Reg) (t : ITy) (k : KReg)
  /-- VSEL (R165): Writes every element from va or vb as k selects. -/
  | vsel (m : Bool) (d a b : Reg) (t : MTy) (k : KReg)
  /-- VPERM (R165): Permutes elements of va by indices in vb. -/
  | vperm (m : Bool) (d a b : Reg) (t : MTy) (k : KReg)
  /-- VBCAST (R165): Broadcasts the low bits of ga to every active element. -/
  | vbcast (m : Bool) (d a : Reg) (t : MTy) (k : KReg)
  /-- VIOTA (R165): Writes each active element's index. -/
  | viota (m : Bool) (d : Reg) (t : MTy) (k : KReg)
  /-- VMVS (R165): Moves one vector element to a g register, zero-extended. -/
  | vmvs (m : Bool) (d a : Reg) (index : BitVec 5) (t : MTy)
  /-- VMVV (R165): Copies active elements of va to vd. -/
  | vmvv (m : Bool) (d a : Reg) (t : MTy) (k : KReg)
  /-- VCVT (R166): Converts elements between the destination and source types. -/
  | vcvt (m : Bool) (d a : Reg) (dst src : CTy) (k : KReg)
  /-- KAND (R167): Writes ka AND kb to kd. -/
  | kand (m : Bool) (kd ka kb : KReg)
  /-- KOR (R167): Writes ka OR kb to kd. -/
  | kor (m : Bool) (kd ka kb : KReg)
  /-- KXOR (R167): Writes ka XOR kb to kd. -/
  | kxor (m : Bool) (kd ka kb : KReg)
  /-- KNOT (R167): Writes the complement of ka to kd. -/
  | knot (m : Bool) (kd ka : KReg)
  /-- KPOP (R167): Writes the population count of ka to gd. -/
  | kpop (m : Bool) (d : Reg) (ka : KReg)
  /-- VLD (R170): Loads sixteen 4-byte elements after checking every active element. -/
  | vld (m : Bool) (v a : Reg) (k : KReg)
  /-- VST (R171): Stores sixteen 4-byte elements indivisibly, clearing tags. -/
  | vst (m : Bool) (v a : Reg) (k : KReg)
  /-- VLDS (R170): Loads elements at a signed stride. -/
  | vlds (m : Bool) (v a b : Reg) (t : ITy) (k : KReg)
  /-- VSTS (R171): Stores elements at a signed stride. -/
  | vsts (m : Bool) (v a b : Reg) (t : ITy) (k : KReg)
  /-- VGATH (R170): Gathers elements at per-element offsets, all-or-nothing on faults. -/
  | vgath (m : Bool) (v a b : Reg) (t : ITy) (k : KReg)
  /-- VSCAT (R171): Scatters elements to per-element offsets in ascending order. -/
  | vscat (m : Bool) (v a b : Reg) (t : ITy) (k : KReg)
  /-- ARRIVE (R211): Sets the core's arrival bit for the channel at its chunk's commit. -/
  | arrive (m : Bool) (ch : BitVec 6)
  /-- ARRIVE_NC (R211): Sets the arrival bit at issue, not withdrawn by a squash. -/
  | arriveNc (m : Bool) (ch : BitVec 6)
  /-- WAIT (R211): Commits only when the core's arrival bit for the channel is 0. -/
  | wait (m : Bool) (ch : BitVec 6)
  /-- DQPUSH (R219): Pushes a continuation, sealing a record if needed, onto the core's deque at commit. -/
  | dqpush (m : Bool) (a : Reg)
  /-- DQPOP (R219): Pops the newest continuation of the core's deque at commit. -/
  | dqpop (m : Bool) (d : Reg)
  /-- DQSTEAL (R219): Steals the oldest continuation of the named core's deque at commit. -/
  | dqsteal (m : Bool) (d : Reg) (victim : Coord)
  /-- JOIN (R181): Decrements a join counter and pushes its guard when it reaches zero. -/
  | join (m : Bool) (a : Reg)
  /-- SUSPEND (R181): Writes a continuation record, parks it as a guard or pushes it, and frees the slot. -/
  | suspend (m : Bool) (a b : Reg)
  /-- END (R181): Ends the thread, frees its slot and decrements its kernel's LIVE. -/
  | endThread (m : Bool)
  /-- KLAUNCH (R221): Reads a launch record and performs acceptance and placement at commit. -/
  | klaunch (m : Bool) (a : Reg)
  /-- FORK (R224): Places matrix and copy program entries in the sequencers at commit and writes the stamp. -/
  | fork (m : Bool) (d a b : Reg)
  /-- RNDZ (R226): Commits only when every outstanding FORK and CMDQ entry of the thread has completed. -/
  | rndz (m : Bool)
  /-- ECSET (R222): Writes a capability into an engine table entry at the chunk's commit. -/
  | ecset (m : Bool) (e : EReg) (a : Reg)
  /-- CMDQ (R225): Checks one command word and queues it in the selected sequencer at commit. -/
  | cmdq (m : Bool) (a : Reg)
  /-- MLEASE (R227): Commits when the cluster grants the array lease to the core. -/
  | mlease (m : Bool)
  /-- MFREE (R227): Releases the core's array lease at commit. -/
  | mfree (m : Bool)
  /-- EPSEND (R228): Sends a 64-byte message through an endpoint handle once a destination slot is reserved. -/
  | epsend (m : Bool) (a b : Reg)
  /-- EPRECV (R229): Removes the oldest message of the core's queue into memory, or writes 0 when empty. -/
  | eprecv (m : Bool) (d a : Reg)
  /-- TRAP (R234): Freezes the core with TRAP and the code at its commit. -/
  | trap (m : Bool) (code : Reg)
  /-- BKPT (R235): Ends the chunk before itself and freezes the core with BKPT. -/
  | bkpt (m : Bool)
  /-- SNAP (R236): Arms a snapshot request with latch time TIME plus 4,096 ns at commit. -/
  | snap (m : Bool)
  /-- TSREAD (R237): Writes TIME as it stands at issue to gd. -/
  | tsread (m : Bool) (d : Reg)
  /-- PINV (R238): Invalidates page translations and commits once in-flight walks complete. -/
  | pinv (m : Bool) (a : Reg)
  /-- FENCE_XP (R130): Writes home the core's dirty non-coherent lines, waits for CLEAN and FLUSH, and drops clean non-coherent lines. -/
  | fenceXp (m : Bool)
  /-- FENCE_IO (R131): Waits until earlier uncached stores and host-line cleans are acknowledged. -/
  | fenceIo (m : Bool)
  /-- CBRK (R137): Ends the current chunk after itself. -/
  | cbrk (m : Bool)
  /-- SYSR (R231): Reads a system register into gd at issue. -/
  | sysr (m : Bool) (d : Reg) (x : BitVec 12)
  /-- SYSW (R231): Writes a system register at commit. -/
  | sysw (m : Bool) (x : BitVec 12) (a : Reg)
  /-- SYSS (R231): Sets bits of a system register at commit. -/
  | syss (m : Bool) (x : BitVec 12) (a : Reg)
  /-- SYSC (R231): Clears bits of a system register at commit. -/
  | sysc (m : Bool) (x : BitVec 12) (a : Reg)
  /-- VCDEF (R310): Defines a virtual cache by claiming ways in the named banks. -/
  | vcdef (m : Bool) (d a b : Reg)
  /-- VCRESHAPE (R310): Installs a new geometry for a virtual cache. -/
  | vcreshape (m : Bool) (d a b : Reg)
  /-- VCBIND (R310): Binds, rebinds or deletes an intermediate range's leaf, waiting for the flush-through. -/
  | vcbind (m : Bool) (d a b : Reg)
  /-- VCREPARENT (R310): Starts moving a virtual cache to a new parent. -/
  | vcreparent (m : Bool) (d a b : Reg)
  /-- VCFREE (R310): Frees a defined cache or starts draining a bound one. -/
  | vcfree (m : Bool) (d a : Reg)
  /-- VCQUERY (R311): Returns a virtual cache's state word at issue. -/
  | vcquery (m : Bool) (d a : Reg)
  /-- PFRANGE (R312): Places a CPFR entry in the copy sequencer to warm a range. -/
  | pfrange (m : Bool) (d a b : Reg)
  /-- MLDW (R245): Checks 256 weight scales and starts loading the shadow plane. -/
  | mldw (wfmt : MFmt) (went sent : EReg) (woff soff : W32)
  /-- MLDW_WEIGHTS_COMPLETE (R245): The weight chunk finishes loading, making the shadow plane READY. -/
  | mldwWeightsComplete (cl : BitVec 7)
  /-- MSWAP (R246): Exchanges the active and shadow weight planes. -/
  | mswap
  /-- MSTRM (R247): Streams activation rows against the active plane into accumulator rows. -/
  | mstrm (afmt : MFmt) (aent sent : EReg) (aoff soff : W32) (astride : BitVec 16) (acc : Coord) (rows rowoff : BitVec 11)
  /-- MZERO (R248): Writes +0 to accumulator rows. -/
  | mzero (acc : Coord) (rows : BitVec 11)
  /-- MSTORE (R249): Converts and writes accumulator rows to memory, optionally clearing them. -/
  | mstore (ofmt : OFmt) (nosat clear : Bool) (dent : EReg) (doff : W32) (dstride : BitVec 16) (acc : Coord) (rows : BitVec 11)
  /-- MEND (R250): Ends a matrix program once earlier MLDWs complete. -/
  | mend
  /-- CPY (R268): Copies len bytes in granule engine chunks. -/
  | cpy (tags : Bool) (dst src : EReg) (doff soff len : W32) (y : SyncRef)
  /-- CPY2D (R268): Copies rows at source and destination strides. -/
  | cpy2d (tags : Bool) (dst src : EReg) (doff soff : W32) (rows : BitVec 12) (rowlen : BitVec 20) (sstride dstride : W32) (y : SyncRef)
  /-- CPYG (R269): Gathers elements through an offset list. -/
  | cpyg (tags : Bool) (dst src ient : EReg) (doff soff : W32) (count : BitVec 17) (ioff : W32) (esize : BitVec 2) (y : SyncRef)
  /-- CFILL (R270): Fills a destination with a 32-bit pattern. -/
  | cfill (dst : EReg) (doff len val : W32) (y : SyncRef)
  /-- CPYU (R271): Decrypts a GCM-sealed model into cluster memory and verifies its tag. -/
  | cpyu (dst src : EReg) (doff soff len : W32) (slot : Byte) (y : SyncRef)
  /-- CPFR (R272): Brings a range into its virtual cache, optionally counting and arriving. -/
  | cpfr (src : EReg) (soff len : W32) (bar : Bool) (ch : BitVec 6) (y : SyncRef)
  /-- CSYNC (R273): Arms or disarms a sync word. -/
  | csync (yent : EReg) (target yoff : W32)
  /-- CEND (R273): Ends a copy program. -/
  | cend
  /-- COPY_ENGINE_CHUNK (R266): A registered copy engine chunk starts when conflict-free, moves its data and counts into the sync word. -/
  | copyEngineChunk (cl : BitVec 7)
  /-- PARK (R69): When every pending entry holds its value, writes them in order and lets the thread issue again. -/
  | park (c : Coord) (sl : BitVec 2)
  /-- CHUNK_LIMIT (R140): The chunk's instruction count reaches CHUNKCFG.LIMIT and the chunk ends. -/
  | chunkLimit (c : Coord) (sl : BitVec 2)
  /-- COMMIT (R147): The arbiter grants an ENDED chunk a stamp once its signatures and step conditions allow. -/
  | commit (c : Coord) (sl : BitVec 2)
  /-- INVALIDATION (R148): A core tests a committing write signature, squashes intersecting chunks, invalidates lines and acknowledges. -/
  | invalidation (c from_ : Coord) (fromSlot : BitVec 2)
  /-- COMMIT_COMPLETE (R148): The last acknowledgement arrives, the chunk is COMMITTED and held misses are served. -/
  | commitComplete (c : Coord) (sl : BitVec 2)
  /-- PINNED_START (R151): A thread waiting in pinned mode starts its chunk registered with the arbiter. -/
  | pinnedStart (c : Coord) (sl : BitVec 2)
  /-- CMO_COMPLETE (R128): The home acknowledges a CLEAN or FLUSH. -/
  | cmoComplete (c : Coord)
  /-- UNCACHED_ANSWER (R126): The target answers an uncached access and its chunk reaches COMMITTED. -/
  | uncachedAnswer (c : Coord) (sl : BitVec 2) (value : W64)
  /-- ACQUISITION (R184): An idle slot takes a continuation from its deque, a victim or an injection ring. -/
  | acquisition (c : Coord) (sl : BitVec 2)
  /-- LRTAIL (R192): A host write of the launch ring tail makes new entries available. -/
  | lrtail (value : W64)
  /-- LAUNCH_RING_ENTRY (R192): The device takes one launch ring entry, discards or rebuilds it, and passes it to acceptance. -/
  | launchRingEntry
  /-- KCANCEL (R233): Writing a running kernel id cancels that kernel. -/
  | kcancel (ctx : BitVec 12) (value : W64)
  /-- ENERGY_REPORT (R198): Every 4,096 cycles a cluster reports energy charges that reduce ENERGYLEFT. -/
  | energyReport (cl : BitVec 7)
  /-- GROUP_JOIN (R204): A MEMBERn write with VALID 1 joins a software group. -/
  | groupJoin (c : Coord) (n : BitVec 2) (value : W64)
  /-- GROUP_LEAVE (R204): A MEMBERn write with VALID 0 leaves a software group. -/
  | groupLeave (c : Coord) (n : BitVec 2) (value : W64)
  /-- RELEASE (R212): Mortar releases a complete phase, clearing arrivals and flipping the phase bit. -/
  | release (ctx : BitVec 12) (gid : BitVec 31) (ch : BitVec 6)
  /-- CHUNKCFG_WRITE (R142): A write sets the chunk instruction limit from the next chunk. -/
  | chunkcfgWrite (c : Coord) (sl : BitVec 2) (value : W64)
  /-- DQRING_WRITE (R177): A write of the deque ring capability, ignored unless the deque is empty. -/
  | dqringWrite (c : Coord) (value : Cap)
  /-- INJRING_WRITE (R183): A write of an injection ring capability, ignored unless the ring is empty. -/
  | injringWrite (ctx : BitVec 12) (die : BitVec 3) (cls : BitVec 2) (value : Cap)
  /-- REVPASS_START (R107): Writing START starts a revocation pass, squashing and scrubbing the context's cores. -/
  | revpassStart (ctx : BitVec 12)
  /-- REVOCATION_SWEEP (R107): The revocation engine clears painted tags in one granule as an engine chunk. -/
  | revocationSweep (ctx : BitVec 12)
  /-- REVOCATION_PASS_COMPLETE (R106): The sweep, scrubs and sequencer checks finish and BUSY clears. -/
  | revocationPassComplete (ctx : BitVec 12)
  /-- IAW_WRITE (R281): A window write squashes the context's chunks on other cores at its commit. -/
  | iawWrite (c : Coord) (n : BitVec 3) (value : BitVec 128)
  /-- NCW_WRITE (R314): A non-coherent window write squashes chunks and flushes lines in both ranges. -/
  | ncwWrite (c : Coord) (n : BitVec 4) (value : BitVec 128)
  /-- PTROOT_WRITE (R285): Sets the page-table root and enables or disables translation. -/
  | ptrootWrite (value : W64)
  /-- LEASE_GRANT (R253): A free lease is granted to the first waiter in least-recently-granted order. -/
  | leaseGrant (cl : BitVec 7)
  /-- MXLEASE_FORCE (R252): Writing FORCE moves a held lease to RELEASING. -/
  | mxleaseForce (cl : BitVec 7)
  /-- POWERTOK_WRITE (R255): Sets the die's token count, inserting or removing tokens. -/
  | powertokWrite (die : BitVec 3) (value : W64)
  /-- TOKEN_TAKE (R255): A waiting MSTRM takes an arriving free token and starts its burst. -/
  | tokenTake (cl : BitVec 7)
  /-- DRAIN (R256): A running MSTRM stops after entered rows complete, recording CONSUMED. -/
  | drain (cl : BitVec 7)
  /-- SWITCHAT_WRITE (R335): Arms the core's gang switch stop time. -/
  | switchatWrite (c : Coord) (value : W64)
  /-- GANG_SWITCH_STOP (R336): TIME reaches SWITCHAT and the core stops, squashing chunks and saving state. -/
  | gangSwitchStop (c : Coord)
  /-- SEQUENCER_SAVE (R278): A copy sequencer completes its chunk in flight and saves the context's entries. -/
  | sequencerSave (cl : BitVec 7)
  /-- CONTEXT_SAVED (R327): Every core stopped and every save complete moves the context to SAVED. -/
  | contextSaved (ctx : BitVec 12)
  /-- PARK_ENTRY (R338): A message for a switched-out context is written to the next park entry. -/
  | parkEntry (ctx : BitVec 12)
  /-- RESTART (R338): At RESUMEAT the restored cores restart and the context is RUNNING. -/
  | restart (ctx : BitVec 12)
  /-- LEASE_RESTORE (R257): A resumed context receives its saved lease at the next free moment. -/
  | leaseRestore (cl : BitVec 7)
  /-- CONTEXT_FREED (R327): Once all its resources are released a terminating context becomes FREE. -/
  | contextFreed (ctx : BitVec 12)
  /-- CREATE (R329): Creates a context and issues its authority. -/
  | create (blk : W64)
  /-- GRANT (R329): Adds cores to a context. -/
  | grant (blk : W64)
  /-- RETURN (R329): Removes and resets cores of a context. -/
  | returnCores (blk : W64)
  /-- MINT (R330): Creates an endpoint handle. -/
  | mint (blk : W64)
  /-- REVOKE (R331): Increments a context's handle generation. -/
  | revoke (blk : W64)
  /-- SEALKEY (R332): Generates a sealing key into a free slot. -/
  | sealkey (blk : W64)
  /-- MODELKEY (R334): Unwraps a model key into a MODEL slot. -/
  | modelkey (blk : W64)
  /-- FREESLOT (R329): Erases and unloads a key slot. -/
  | freeslot (blk : W64)
  /-- ROSTER (R333): Verifies and installs a signed domain roster on every JVX port. -/
  | roster (blk : W64)
  /-- RESUME (R338): Checks a save area and restores a saved context for restart. -/
  | resume (blk : W64)
  /-- DESTROY (R329): Moves a context to TERMINATING. -/
  | destroy (blk : W64)
  /-- MIGRATE (R293): Starts moving a page to a new location. -/
  | migrate (die : BitVec 3) (page : W32)
  /-- MIGRATION_CHUNK (R293): Copies one granule of a migrating page, or commits the final entry update. -/
  | migrationChunk (die : BitVec 3)
  /-- FLIP_BIAS_TO_HOST (R294): Writes back device copies and sets the page's bias to host. -/
  | flipBiasToHost (die : BitVec 3) (page : W32)
  /-- FLIP_BIAS_TO_DEVICE (R294): Back-invalidates the page's lines at the host. -/
  | flipBiasToDevice (die : BitVec 3) (page : W32)
  /-- BIAS_FLIP_COMPLETE (R294): All host responses arrive and the bias is set to device. -/
  | biasFlipComplete (die : BitVec 3)
  /-- RESHAPE_WALK (R304): The background walker moves or evicts a granule of the old geometry. -/
  | reshapeWalk (ctx : BitVec 12) (id : BitVec 5)
  /-- FLUSH_THROUGH (R303): Writes back and invalidates pieces up a path, then flips parents or serves held requests. -/
  | flushThrough (ctx : BitVec 12) (id : BitVec 5)
  /-- VC_DRAIN (R307): A draining cache's granules empty and its way-slices return to the common cache. -/
  | vcDrain (ctx : BitVec 12) (id : BitVec 5)
  /-- EVICTION_NOTICE (R318): A core's eviction notice reaches the directory, installing dirty pieces. -/
  | evictionNotice (c : Coord) (line : Line)
  /-- HOST_SNPINV (R342): A host SnpInv invalidates device copies and squashes intersecting chunks. -/
  | hostSnpinv (line : Line)
  /-- HOST_SNPDATA (R342): A host SnpData forwards dirty data and downgrades device copies. -/
  | hostSnpdata (line : Line)
  /-- HOST_REQUEST (R344): A host access to a device page takes effect between two stamps, winning any back-invalidate conflict. -/
  | hostRequest (line : Line) (op : PeerOp)
  /-- BISNP_RESPONSE (R343): The host answers a back-invalidate, allowing the waiting commit or miss. -/
  | bisnpResponse (line : Line) (data : Option (BitVec 1024))
  /-- PORT_TRAINING_START (R339): Reset release or a partner appearing starts port training. -/
  | portTrainingStart (port : BitVec 5)
  /-- TRAINING_COMPLETE (R339): Physical training completes and the port negotiates. -/
  | trainingComplete (port : BitVec 5)
  /-- NEGOTIATION (R340): Version masks are exchanged and the port becomes ACTIVE or DOWN. -/
  | negotiation (port : BitVec 5) (link cmd rec pkt : BitVec 16)
  /-- HOT_RESET (R346): A CXL hot reset terminates confidential contexts and erases keys and sessions. -/
  | hotReset (port : BitVec 5)
  /-- LINK_DOWN (R346): Loss of the partner or an uncorrectable link error takes the port DOWN. -/
  | linkDown (port : BitVec 5)
  /-- REMOTE_REQUEST (R348): A line request from another module is served at the remote home. -/
  | remoteRequest (from_ : BitVec 12) (line : Line) (op : PeerOp)
  /-- REQUEST_LOST (R348): A remote or host request unanswered after 1 ms completes as lost with POISON. -/
  | requestLost (partner : BitVec 12) (lost : LostRequest)
  /-- REDUCTION_RESULT (R349): An in-switch reduction sum arrives as engine chunks into the result buffer. -/
  | reductionResult (group : Byte) (piece : BitVec 10) (others : List (Nat × BitVec 512))
  /-- RDMA_WRITE (R350): An incoming RDMA write commits as engine chunks. -/
  | rdmaWrite (key : RdmaKey) (off : W32) (bytes : List Byte)
  /-- LOCK_INTERFACE (R347): Cornerstone locks a TDISP interface or reports it already locked. -/
  | lockInterface (tdi : BitVec 12)
  /-- ATTESTATION (R347): An SPDM request reports the measurement blocks under the identity key. -/
  | attestation (session : W32) (keys : SessionKeys)
  /-- FM_PUBLIC_KEY_WRITE (R347): A vendor SPDM message writes the fabric manager's public key once. -/
  | fmPublicKeyWrite (key : BitVec 768)
  /-- FAULT_PACKET (R353): Once every slot has stopped the frozen core sends its fault packet over Alley. -/
  | faultPacket (c : Coord)
  /-- ECC_UNCORRECTABLE (R360): An uncorrectable error is dropped, poisoned or made fatal by where it lies. -/
  | eccUncorrectable (place : EccPlace)
  /-- ECC_CORRECTABLE (R360): A correctable error is corrected in place and counted. -/
  | eccCorrectable (die : BitVec 3)
  /-- HALT (R355): Writing DBGCTL.HALT freezes the core with BKPT and information word 1. -/
  | halt (c : Coord)
  /-- DBG_RESUME (R358): Applies ENDSLOT, checks held reports and resumes every slot. -/
  | dbgResume (c : Coord)
  /-- STEP (R359): Runs one instruction of the chosen slot and refreezes with STEP. -/
  | step (c : Coord) (sl : BitVec 2)
  /-- DEBUG_WINDOW_WRITE (R357): A debug-window register or tag write, removing pending entries and checking tags against CTXAUTH. -/
  | debugWindowWrite (c : Coord) (off : BitVec 12) (data : WindowData)
  /-- DEBUG_SYSREG_WRITE (R364): A window write of a context or package register performed as a supervisor engine chunk. -/
  | debugSysregWrite (c : Coord) (tagWrite : Bool) (value : BitVec 128)
  /-- SNAPIN (R371): A rising SNAPIN edge arms a snapshot request. -/
  | snapin
  /-- SNAPCTL (R371): A supervisor write of T arms a snapshot request. -/
  | snapctl (value : W64)
  /-- SNAPSHOT_LATCH (R370): At TIME T every block latches its counters and SNAPTIME takes T. -/
  | snapshotLatch
  /-- POWER_ON (R366): Rails ramp and Cornerstone boots and measures firmware. -/
  | powerOn (ok : Bool)
  /-- FUSE (R367): Fuses load and repair is applied and measured. -/
  | fuse (map : FuseMap)
  /-- CALIB (R366): Clocks lock, TIME starts and memories and links train. -/
  | calib (end_ : Calibration)
  /-- INIT (R368): All state is zeroed and invalidated and the device becomes READY. -/
  | init (end_ : Zeroing)
  /-- POWER_INTERVAL (R369): Each 1 ms interval firmware lowers or restores token counts by measured power. -/
  | powerInterval (watts : BitVec 16)
  /-- REGISTER_WRITE (R231): A write to a register with no behaviour of its own, following its access codes. -/
  | registerWrite (reg : RegTarget) (value : Cap)
  /-- ILLEGAL (R41): A decoded word that is not an allocated instruction ends the chunk before itself and freezes the core with ILLEGAL. -/
  | illegal (word : W32)
  /-- FETCH_FAULT (R99): A fetch that fails the pcc checks, translation, an uncached target or poison ends the chunk before the word and freezes the core. -/
  | fetchFault (code : Byte) (info : W64)
  /-- CLUSTER_POWER_GATE (R345): Before a cluster is power-gated its device-held M and O host lines are written to the banks and the coherence island answers for it. -/
  | clusterPowerGate (cl : BitVec 7)
  /-- FORCED_RESET (R345): A forced reset puts the device in reset without time to save, and the island answers held M and O host lines with poisoned data and asserts viral. -/
  | forcedReset
  /-- SUPERVISOR_RESET (R355): Supervisor 0 of a die is held in or released from reset, redirecting fault packets to supervisor 1 meanwhile. -/
  | supervisorReset (die : BitVec 3) (held : Bool)
  /-- HOT_RESET_COMPLETE (R339): When the consequences of a hot reset have completed the CXL port moves from RESETTING to TRAINING. -/
  | hotResetComplete (port : BitVec 5)
  /-- REDUCTION_GROUP_CONFIG (R349): The fabric manager defines a reduction group, which is refused when it includes a partner that agreed only JVX version 1. -/
  | reductionGroupConfig (group : Byte) (members : List Nat) (elem : ElemType) (buffer : BitVec 48)
  /-- MEMORY_REGION_REGISTRATION (R350): A memory region for RoCE is registered from a capability, refused for a page with a nonzero KEY, giving a remote key of index and generation. -/
  | memoryRegionRegistration (ctx : BitVec 12) (region : Cap)
  deriving DecidableEq, Repr

end Sys2Proof
end

