-- ==== Sys2Proof/Machine/State.lean ====
section
/-! DEFINITION. The state of the Ewerdazil as plain data: everything the manual gives the machine, from a thread's
registers to the ports of the package, and the few fields of the model's own that say what happens next. Each
structure has its reset beside it; the machine's is State.reset. -/

namespace Sys2Proof.Machine

/-- Why the machine as a whole would stop. A fault of the manual is no stop: the core freezes and reports (R353), and
that is a next state. -/
inductive Fault
  /-- Raised by step when start-up has failed and nothing comes from outside (R366): the device then runs nothing until power is
  cycled or the host applies a CXL hot reset. Safe: the manual's machine stays in that state. -/
  | startUpFailed
  deriving DecidableEq, Repr

/-- Why an instruction has no meaning. -/
inductive Refusal
  /-- Raised by the arms of exec of an instruction not modelled, by its mnemonic. Safe: nothing is claimed of it. -/
  | notModelled (mnemonic : String)
  deriving DecidableEq, Repr

/-! ### A thread slot -/

/-- An entry of the pending list (R69): a register and the value it will take; an uncached load's value is absent until
its target answers (R126). -/
inductive Pend
  | g (d : Reg) (val : Option Cap)
  | v (d : Reg) (val : Vec)
  | k (d : KReg) (val : Mask)
  deriving DecidableEq, Repr

/-- The registers that a checkpoint holds (R138): g0 to g31, pcc, v0 to v31, k0 to k7 and the pending list. -/
structure Regs where
  g : Tbl Cap
  pcc : Cap
  v : Tbl Vec
  k : Tbl Mask
  pending : List Pend
  deriving DecidableEq, Repr

/-- Zeroed register files and tags (R368). -/
def Regs.reset : Regs := ⟨[], Cap.null, [], [], []⟩

/-- A line of a write buffer: the bytes written (byte i of the line in bits 8i + 7 to 8i), which bytes they are, the
tags written and which units' tags they are. -/
structure LineBuf where
  data : BitVec 1024
  mask : BitVec 128
  tags : BitVec 8
  tagMask : BitVec 8
  deriving DecidableEq, Repr

def LineBuf.empty : LineBuf := ⟨0, 0, 0, 0⟩

/-- A line's bytes and tags. -/
structure LineVal where
  data : BitVec 1024
  tags : BitVec 8
  deriving DecidableEq, Repr

/-- The states of R139 that a chunk held by a slot can have. -/
inductive ChunkStatus | executing | ended | committing
  deriving DecidableEq, Repr

/-- A CLEAN or FLUSH that starts at its chunk's commit or has not been acknowledged (R128): the line is an intermediate
line address. -/
structure Cmo where
  flush : Bool
  nonCoherent : Bool
  line : Nat
  ctx : Nat
  deriving DecidableEq, Repr

/-- A chunk (R138): the checkpoint, what it read and wrote, and what its commit brings about. -/
structure Chunk where
  status : ChunkStatus
  /-- the checkpoint taken at its start -/
  check : Regs
  /-- instructions executed (R140) -/
  count : Nat
  /-- the lines of the read signature (R143): line addresses of 41 bits -/
  reads : List Nat
  /-- the lines of the write signature and footprint (R143) -/
  writes : List Nat
  /-- the read record RS(t) (R154): each coherent line read, with the value first read -/
  rs : Tbl LineVal
  /-- the speculative write buffer (R154), by line -/
  ws : Tbl LineBuf
  /-- the non-coherent write buffer (R154), by line -/
  nws : Tbl LineBuf
  /-- where the written lines lay as they were written: physical line and key -/
  homes : Tbl (Nat × Byte)
  /-- lines discarded: coherent ones at the commit, non-coherent ones in program order (R129) -/
  discards : List Nat
  ncDiscards : List Nat
  /-- non-coherent lines that its atomics have read: they are atomic against the core's other accesses (R125) -/
  ncAtomics : List Nat
  /-- pages accessed, and whether written: A and D bits at the commit (R284) -/
  pages : Tbl Bool
  /-- pages that its instructions were fetched from, outside non-coherent windows (R99, R284, R288) -/
  fetched : List Nat
  /-- misses counted by page at the commit (R291) -/
  misses : List Nat
  /-- engine table writes held with the chunk (R222) -/
  ecset : Tbl Cap
  /-- CLEAN and FLUSH that start at the commit (R128) -/
  cmos : List Cmo
  /-- the command word that CMDQ read at issue (R225) -/
  word : BitVec 256
  /-- the instruction of a one-instruction chunk, whose external effect takes place at the commit (R141, R216) -/
  effect : Option Instr
  /-- the stamp, once granted (R147) -/
  stamp : W64
  /-- the cores and slots whose acknowledgement has not arrived (R148): 4 × core + slot -/
  acks : List Nat
  /-- instructions of a CHOLD span still to run, and the CHOLD's word (R136) -/
  hold : Nat
  span : W32
  /-- it had ended before the step under way on its core began (R359) -/
  beforeStep : Bool
  /-- consecutive counted squashes of this chunk (R142, R151) -/
  squashes : BitVec 2
  deriving DecidableEq, Repr

/-- A chunk that has just started from these registers. -/
def Chunk.start (r : Regs) : Chunk :=
  { status := .executing, check := r, count := 0, reads := [], writes := [], rs := [], ws := [], nws := [], homes := [], discards := [],
    ncDiscards := [], ncAtomics := [], pages := [], fetched := [], misses := [], ecset := [], cmos := [], word := 0, effect := none, stamp := 0, acks := [],
    hold := 0, span := 0, beforeStep := false, squashes := 0 }

/-- A thread slot of a core. -/
structure Slot where
  /-- the slot holds a thread (R184) -/
  busy : Bool
  regs : Regs
  /-- the younger chunk: EXECUTING, or ENDED behind an older one (R138) -/
  cur : Chunk
  /-- the older chunk, ENDED or COMMITTING (R138) -/
  older : Option Chunk
  /-- the thread waits in a park (R69) -/
  parked : Bool
  /-- THREADID.KERNEL (R233) -/
  kernel : BitVec 16
  /-- PRIO.CLASS as the thread started (R200) -/
  prio : BitVec 2
  /-- CHUNKCFG (R142): a LIMIT that a SYSW writes applies from the next chunk on -/
  limit : BitVec 13
  pin : Bool
  /-- waiting to run pinned, with its place in arrival order (R151) -/
  pinWait : Option Nat
  /-- COMMITSTAMP (R142) -/
  commitStamp : W64
  /-- entries of the sequencers the thread has placed and that have not completed (R226) -/
  outstanding : List Nat
  deriving DecidableEq, Repr

/-- A slot without a thread. -/
def Slot.reset : Slot :=
  { busy := false, regs := Regs.reset, cur := Chunk.start Regs.reset, older := none, parked := false, kernel := 0,
    prio := 0, limit := 0x400, pin := false, pinWait := none, commitStamp := 0, outstanding := [] }

/-! ### A core -/

/-- A fault packet (R352), field by field. -/
structure Packet where
  ctx : BitVec 12
  code : Byte
  slot : BitVec 2
  source : BitVec 2
  unit : Bool
  coord : Coord
  pcc : W64
  word : W32
  info : W64
  stamp : W64
  time : W64
  kernel : BitVec 16
  modIdx : BitVec 16
  deriving DecidableEq, Repr

/-- A line of a data L1 (R322): 128 bytes, 8 tags, clean or dirty, coherent or not, and when it was last used. A line of host memory is
M when dirty and sole, O when dirty and not sole, E when clean and sole, S otherwise (R342). -/
structure L1Line where
  line : Nat
  nonCoherent : Bool
  dirty : Bool
  sole : Bool
  data : BitVec 1024
  tags : BitVec 8
  /-- the physical line it was read from, and the key it is encrypted under there -/
  loc : Nat
  key : Byte
  used : Nat
  deriving DecidableEq, Repr

/-- An uncached store that has left its core and that its target has not acknowledged (R126, R131): the slot, the key of its first byte,
its size and its bytes. -/
structure IoStore where
  slot : Nat
  key : Nat
  size : Nat
  data : W64
  deriving DecidableEq, Repr

/-- A message of an endpoint queue (R228): 64 bytes with four tags, and the sender word. -/
structure Message where
  payload : BitVec 512
  tags : BitVec 4
  sender : W64
  deriving DecidableEq, Repr

/-- A core: four slots and what they share. -/
structure Core where
  /-- the context that owns it, 0 for none (R326) -/
  owner : BitVec 12
  slots : Tbl Slot
  /-- e0 to e7 (R65) -/
  engine : Tbl Cap
  /-- MEMBER0 to MEMBER3 (R201) -/
  member : Tbl W64
  /-- DOMLVL.PHASE: bit n is the phase of level n (R201) -/
  phase : BitVec 4
  /-- BARST.ARRIVED (R210) -/
  arrived : BitVec 40
  dqring : Cap
  bottom : W32
  top : W32
  /-- SWITCHAT (R335), and whether the core has stopped for it (R336) -/
  switchAt : W64
  stopped : Bool
  /-- endpoint queue, oldest first (R228), and messages sent under the message key (R263) -/
  mail : List Message
  sent : BitVec 44
  /-- frozen (R353); the slot that found the fault and its packet until it is sent -/
  frozen : Bool
  report : Option Packet
  /-- held reports, oldest first (R353) -/
  held : List Packet
  /-- the debug window (R356): PACKET, ENDSLOT, TAGREF, SEL, SRINDEX -/
  packet : BitVec 512
  endSlot : BitVec 4
  tagRef : Bool
  selPend : BitVec 5
  selVreg : BitVec 5
  selSlot : BitVec 2
  srIndex : BitVec 12
  /-- the slot being stepped (R359) -/
  stepping : Option (BitVec 2)
  l1 : List L1Line
  /-- the lines that the instruction L1 holds, the most recent first: 64 sets of 8 ways (R1, R285) -/
  code : List Nat
  /-- CLEAN and FLUSH not acknowledged (R128) and uncached stores not acknowledged (R131), with the slot -/
  cmos : List Cmo
  ioStores : List IoStore
  /-- lines whose eviction notice has not reached the directory (R318), and whether deferred (R149) -/
  notices : List Nat
  deriving DecidableEq, Repr

/-- A core after INIT (R368) or RETURN (R329). -/
def Core.reset : Core :=
  { owner := 0, slots := [], engine := [], member := [], phase := 0, arrived := 0, dqring := Cap.null, bottom := 0,
    top := 0, switchAt := BitVec.allOnes 64, stopped := false, mail := [], sent := 0, frozen := false, report := none,
    held := [], packet := 0, endSlot := 0, tagRef := false, selPend := 0, selVreg := 0, selSlot := 0, srIndex := 0,
    stepping := none, l1 := [], code := [], cmos := [], ioStores := [], notices := [] }

/-! ### A cluster -/

/-- The states of a weight plane (R241). -/
inductive PlaneState | empty | loading | ready
  deriving DecidableEq, Repr

/-- A weight plane (R239, R240): byte b of the weights in bits 8b + 7 to 8b, scale i in bits 32i + 31 to 32i. -/
structure Plane where
  state : PlaneState
  mode : MFmt
  weights : BitVec 524288
  scales : BitVec 8192
  deriving DecidableEq, Repr

def Plane.reset : Plane := ⟨.empty, .e4m3, 0, 0⟩

/-- The states of an array's lease (R252). -/
inductive LeaseState | free | held | releasing
  deriving DecidableEq, Repr

/-- An entry of a sequencer's queue (R223): a forked program, whose capability's address is that of the next word, or one
command word; a CPFR entry of PFRANGE carries its source (R312). -/
structure Entry where
  program : Option Cap
  word : BitVec 256
  /-- where a CMDQ word was read from (R64) -/
  addr : W64
  range : Option Cap
  table : Tbl Cap
  core : Coord
  slot : BitVec 2
  ctx : BitVec 12
  kernel : BitVec 16
  stamp : W64
  id : Nat
  deriving DecidableEq, Repr

/-- An MLDW whose weight chunk has registered and not committed (R242): the entry it belongs to, its command and the command
word's address, the first byte's virtual address, and its mode. -/
structure Loading where
  entry : Entry
  cmd : Instr
  wordAt : W64
  addr : W64
  mode : MFmt
  deriving DecidableEq, Repr

/-- What a CPYU under way carries from chunk to chunk (R271, R278): its key, read once, the blob's first 16 bytes, the running
authentication value and the ciphertext bytes not yet in it. -/
structure Unseal where
  key : BitVec 256
  head : BitVec 128
  hash : BitVec 128
  rest : List Byte
  deriving DecidableEq, Repr

def Unseal.reset : Unseal := ⟨0, 0, 0, []⟩

/-- A sequencer (R223): its queue, head first and running; entries restored by a resume, which run before the queue; and
how far the running command has come. -/
structure Sequencer where
  queue : List Entry
  restored : List Entry
  /-- the running command, rewritten as its rows complete (R247), once its checks have passed -/
  command : Option Instr
  /-- its next chunk (R266, R278), and the bytes its committed chunks have moved (R276, R279), or the rows that the burst of an MSTRM has
  accumulated (R256) -/
  position : Nat
  done : W32
  /-- the offset list of a CPYG, read once (R265), and a CPYU's state -/
  offsets : List W32
  gcm : Unseal
  /-- the contexts that a gang switch saves here: the sequencer begins nothing for them (R257, R277) -/
  saving : List Nat
  /-- the revocation check of the table copy is due at the next command boundary (R107) -/
  check : Bool
  deriving DecidableEq, Repr

def Sequencer.reset : Sequencer :=
  { queue := [], restored := [], command := none, position := 0, done := 0, offsets := [], gcm := Unseal.reset,
    saving := [], check := false }

/-- A cluster (R1): its array, lease, sequencers and counters. -/
structure Cluster where
  active : Plane
  shadow : Plane
  /-- accumulator rows of 256 FP32 columns, column j in bits 32j + 31 to 32j (R239) -/
  acc : Tbl (BitVec 8192)
  lease : LeaseState
  holder : BitVec 3
  /-- charges of the current lease, and the bound read at its grant (R253) -/
  used : BitVec 9
  bound : BitVec 9
  /-- LEASEMAX.MAX (R254) -/
  leaseMax : BitVec 9
  /-- the least-recently-granted order (R253) -/
  order : List Nat
  /-- the context of the previous holder (R252) -/
  lastCtx : BitVec 12
  matrix : Sequencer
  copy : Sequencer
  /-- an MLDW beside later work (R242) -/
  loading : Option Loading
  /-- MXSTAT.CONSUMED (R259) -/
  consumed : BitVec 11
  /-- an MSTRM waits for a token since this cycle, or is draining (R255, R256) -/
  waiting : Option Nat
  draining : Bool
  /-- it holds a token for its burst (R255) -/
  token : Bool
  /-- MXTOK.STALL (R255) -/
  stall : W32
  /-- energy charged and not reported, by context and kernel (R198): context × 65,536 + kernel -/
  energy : Tbl Nat
  /-- the counters of the snapshot words (R370), and the latched words -/
  counters : Tbl W64
  latched : Tbl W64
  /-- power-gated: the coherence island answers for it (R345) -/
  gated : Bool
  deriving DecidableEq, Repr

def Cluster.reset : Cluster :=
  { active := Plane.reset, shadow := Plane.reset, acc := [], lease := .free, holder := 0, used := 0, bound := 0,
    leaseMax := 0x20, order := [0, 1, 2, 3, 4, 5, 6, 7], lastCtx := 0, matrix := Sequencer.reset,
    copy := Sequencer.reset, loading := none, consumed := 0, waiting := none, draining := false, token := false,
    stall := 0, energy := [], counters := [], latched := [], gated := false }

/-! ### A die -/

/-- A page command in progress (R292, R293): operation 1 migrate, 2 flip to host, 3 flip to device; the page's first
intermediate address, its size in granules, the next granule, and the location it leaves and goes to. -/
structure PageCommand where
  op : Nat
  page : Nat
  granules : Nat
  next : Nat
  old : Nat
  new : Nat
  /-- lines whose back-invalidate the host has not answered (R294) -/
  waits : List Nat
  deriving DecidableEq, Repr

/-- A directory entry (R315): pointer form with slots s0 to s3, each in use or free (SV), or coarse form with marked clusters. -/
structure DirEntry where
  line : Nat
  coarse : Bool
  modified : Bool
  clusters : BitVec 128
  slots : List (Option Nat)
  used : Nat
  deriving DecidableEq, Repr

/-- A packet that waits at a Plaza input (R320): the outputs it goes to, one for a unicast, and its beats. -/
structure PlazaPacket where
  input : Nat
  outputs : List Nat
  beats : Nat
  deriving DecidableEq, Repr

/-- A die's Plaza (R320), a crossbar of 48 inputs and outputs (R1): the multicast order, which every crosspoint copies, the
least-recently-granted order of each output, the beats for which an output is still held, the waiting packets, oldest first, and the grants. -/
structure Plaza where
  multicast : List Nat
  unicast : Tbl (List Nat)
  held : Tbl Nat
  waiting : List PlazaPacket
  grants : W64
  deriving DecidableEq, Repr

/-- The inputs in ascending order, as every order stands at reset. -/
def Plaza.inputs : List Nat := List.range 48

def Plaza.reset : Plaza := ⟨Plaza.inputs, [], [], [], 0⟩

/-- A die (R1): its token ring, page command interface, supervisors, directory and counters. -/
structure Die where
  /-- POWERTOK.COUNT (R255), and by how much firmware has lowered it (R369) -/
  tokenCount : BitVec 5
  lowered : Nat
  /-- the free tokens: a token stands at cluster (p + cycle) mod 16 of the die -/
  tokens : List Nat
  /-- PGDEST (R292), PGSTAT.ERR, and the command in progress (PGSTAT.BUSY) -/
  pgdest : W64
  pgerr : Byte
  page : Option PageCommand
  /-- supervisor inboxes (R355) and supervisor 0 in reset -/
  inbox0 : List Packet
  inbox1 : List Packet
  supReset : Bool
  /-- unit reports that wait for room in the inbox, oldest first (R355, R362) -/
  units : List Packet
  /-- correctable errors (R360) -/
  eccCount : W32
  /-- walks (R370) -/
  walks : W64
  latched : Tbl W64
  directory : List DirEntry
  plaza : Plaza
  deriving DecidableEq, Repr

def Die.reset : Die :=
  { tokenCount := 0x10, lowered := 0, tokens := [0, 1, 2, 3, 4, 5, 6, 7, 8, 9, 10, 11, 12, 13, 14, 15], pgdest := 0, pgerr := 0,
    page := none, inbox0 := [], inbox1 := [], supReset := false, units := [], eccCount := 0, walks := 0, latched := [],
    directory := [], plaza := Plaza.reset }

/-! ### A context -/

/-- The states of a context (R327). -/
inductive Life | free | created | running | switching | saved | resuming | terminating
  deriving DecidableEq, Repr

/-- The states of a kernel (R196). -/
inductive KernelState | running | retired | cancelled | faulted | refused
  deriving DecidableEq, Repr

/-- A kernel of a context (R193 to R200). -/
structure Kernel where
  state : KernelState
  live : Nat
  budget : W64
  left : W64
  cls : BitVec 2
  demotions : W32
  charged : W64
  doneCap : Cap
  /-- the cores of the region, in order, and the group each belongs to (R193, R205) -/
  region : List Coord
  stamp : W64
  time : W64
  /-- energy not yet charged, in the unit below the millijoule of ENERGYLEFT (R198) -/
  fraction : Nat
  deriving DecidableEq, Repr

/-- The states of a virtual cache (R302). -/
inductive VcState | undefined | defined | bound | reshaping | reparenting | draining
  deriving DecidableEq, Repr

/-- The geometry of a virtual cache (R298): ways per bank, its banks in ascending order, and the way-slices claimed, each
bank × 16 + way. -/
structure Geometry where
  ways : Nat
  banks : List Nat
  slices : List Nat
  deriving DecidableEq, Repr

/-- A virtual cache (R298, R302). -/
structure VCache where
  state : VcState
  geo : Geometry
  old : Option Geometry
  parent : Nat
  newParent : Nat
  deriving DecidableEq, Repr

def VCache.reset : VCache := ⟨.undefined, ⟨0, [], []⟩, none, 0, 0⟩

/-- A binding (R299): intermediate bytes [base, base + len) to a leaf. -/
structure Binding where
  base : Nat
  len : Nat
  leaf : Nat
  deriving DecidableEq, Repr

/-- What a gang switch saves of one cluster (R257, R278): the array, its lease, and the sequencers' entries. -/
structure SavedCluster where
  cluster : Cluster
  /-- the matrix part, with a lease held or releasing, is still to restore (R257) -/
  lease : Bool
  /-- the copy part is still to restore (R278) -/
  copy : Bool
  /-- the switch under way has saved it (R336) -/
  now : Bool
  deriving DecidableEq, Repr

/-- A message under way to a switched-out context or parked (R338): destination core, stamp and message; the count in the tweak that
its payload is sealed with on the Plaza (R263); and its park entry. -/
structure Parked where
  dest : Nat
  stamp : W64
  msg : Message
  count : BitVec 44
  entry : Nat
  deriving DecidableEq, Repr

/-- An EPSEND of another module that has reached this one (R331, R333): the module, its handle, and the message as it crosses the
fabric, its payload in plaintext (R263). -/
structure RemoteSend where
  source : Nat
  handle : Cap
  msg : Message
  deriving DecidableEq, Repr

/-- The fields of a context that exist once per die (R232). -/
structure CtxDie where
  injring : Tbl Cap
  injHead : Tbl W32
  injTail : Tbl W32
  /-- pass counts P0 to P3 (R186) -/
  passes : Tbl Nat
  deriving DecidableEq, Repr

def CtxDie.reset : CtxDie := ⟨[], [], [], []⟩

/-- A context (R326 to R338). -/
structure Context where
  life : Life
  conf : Bool
  sys : Bool
  hostLaunch : Bool
  quota : W32
  saveBase : W64
  saveSize : W64
  authority : Cap
  gen : BitVec 18
  revmap : Cap
  revbase : W64
  revBusy : Bool
  revCount : W32
  /-- granules the sweep has still to visit, by intermediate address / 2,048 -/
  sweep : List Nat
  iaw : Tbl (BitVec 128)
  ncw : Tbl (BitVec 128)
  dies : Tbl CtxDie
  kernels : Tbl Kernel
  vcs : Tbl VCache
  binds : List Binding
  /-- switched out: its cores, arrays and messages (R336 to R338) -/
  savedCores : Tbl Core
  savedClusters : Tbl SavedCluster
  parkedMsgs : List Parked
  /-- messages on the Plaza for it whose EPSEND has committed (R338) -/
  transit : List Parked
  /-- RESUMEAT (R329, R338) -/
  resumeAt : W64
  deriving DecidableEq, Repr

def Context.reset : Context :=
  { life := .free, conf := false, sys := false, hostLaunch := false, quota := 0, saveBase := 0, saveSize := 0,
    authority := Cap.null, gen := 0, revmap := Cap.null, revbase := 0, revBusy := false, revCount := 0, sweep := [],
    iaw := [], ncw := [], dies := [], kernels := [], vcs := [], binds := [], savedCores := [], savedClusters := [],
    parkedMsgs := [], transit := [], resumeAt := 0 }

/-! ### The package -/

/-- Memory: bytes by key, keys strictly rising, zero bytes not listed. A key below 2^64 is a local physical address (R282);
2^64 + a is host physical address a (LOC 2); 2^65 × (m + 1) + a is intermediate address a of another package m (LOC 3). -/
structure Memory where
  bytes : List Host.Cell
  /-- tagged 16-byte units, by key / 16 (R100); regions whose summary bit is 1, by key / 8,192 (R101); poisoned units, by
  key / 16 (R360) -/
  tags : List Nat
  summary : List Nat
  poison : List Nat
  deriving DecidableEq, Repr

def Memory.empty : Memory := ⟨[], [], [], []⟩

/-- The kind and contents of a key slot (R332). -/
inductive KeySlot
  | empty
  | seal (owner : BitVec 12) (pair : BitVec 512)
  | model (owner : BitVec 12) (key : BitVec 256)
  deriving DecidableEq, Repr

/-- A granule of the bank pool (R296): piece i in bits 512i + 511 to 512i of its data. -/
structure Granule where
  addr : Nat
  present : BitVec 32
  dirty : BitVec 32
  tags : BitVec 128
  data : BitVec 16384
  owner : BitVec 12
  /-- the physical granule it was filled from, and its page's key -/
  loc : Nat
  key : Byte
  used : Nat
  deriving DecidableEq, Repr

/-- The states of a port (R339). -/
inductive PortState | down | training | negotiating | active | resetting
  deriving DecidableEq, Repr

structure Port where
  state : PortState
  version : Byte
  /-- a partner is there; training has completed -/
  partner : Bool
  deriving DecidableEq, Repr

def Port.reset : Port := ⟨.down, 0, false⟩

/-- Who has registered signatures with the arbiter (R152): a pinned thread, an MLDW's weight chunk, or an engine chunk that
waits to start: a sequencer's, the revocation engine's for a context, the migration engine's of a die, or an operation of the sync
engines, which registers and commits within one step. -/
inductive RegOwner
  | pinned (core : Nat) (slot : Nat)
  | mldw (cl : Nat)
  | matrix (cl : Nat)
  | copy (cl : Nat)
  | sweep (ctx : Nat)
  | migrate (die : Nat)
  | device
  deriving DecidableEq, Repr

/-- A registered chunk (R152), oldest first in the list: its lines, its context, and whether it has started. -/
structure Registered where
  owner : RegOwner
  ctx : BitVec 12
  reads : List Nat
  writes : List Nat
  started : Bool
  deriving DecidableEq, Repr

/-- An SPDM session (R334, R347): its id, its application secret, and whether its requester attested the device. -/
structure Session where
  id : W32
  secret : BitVec 256
  attested : Bool
  deriving DecidableEq, Repr

/-- An attestation report (R347): its measurement blocks and Cornerstone's signature over them. -/
structure Report where
  session : W32
  blocks : List (BitVec 384)
  signature : BitVec 768
  deriving DecidableEq, Repr

/-- The bytes of one 64-byte piece that this package's member has contributed, which they are, and the sync word that counts the
sum's arrival: its context and address (R349). -/
structure Contribution where
  data : BitVec 512
  mask : BitVec 64
  ctx : BitVec 12
  sync : Option W64
  deriving DecidableEq, Repr

/-- A reduction group (R349). -/
structure Reduction where
  members : List Nat
  elem : ElemType
  buffer : BitVec 48
  /-- this package's contributions that wait for the sum, by piece of the page -/
  contrib : Tbl Contribution
  deriving DecidableEq, Repr

/-- A memory region registered for RoCE (R350). -/
structure Region where
  ctx : BitVec 12
  cap : Cap
  gen : Byte
  deriving DecidableEq, Repr

/-- Which of its parts an agent is: a thread slot, or the matrix or copy sequencer of the core's cluster. -/
inductive Part | slot | matrix | copy
  deriving DecidableEq, Repr

/-- An agent that executes control words or command words. -/
structure Agent where
  core : Coord
  slot : BitVec 2
  part : Part
  deriving DecidableEq, Repr

structure State where
  cores : Tbl Core
  clusters : Tbl Cluster
  dies : Tbl Die
  contexts : Tbl Context
  mem : Memory
  /-- TIME (R237) and the next stamp (R146) -/
  time : W64
  stamp : W64
  /-- PTROOT (R285), COUNTBASE (R291), and the cached translations of the home slices: pages with their leaf, the key of the
  leaf entry and whether the page is large (R286) -/
  ptroot : W64
  countbase : W64
  tlb : Tbl (BitVec 128 × Nat × Bool)
  /-- pages handled as SHARED before the chunk that records it commits (R288) -/
  shared : List Nat
  /-- 64 KiB frames whose pages have been retired: no leaf that the device writes names them (R295) -/
  retired : List Nat
  /-- the bank pool (R296), keyed by (bank × 32 + set) × 16 + way; owners of way-slices, keyed by bank × 16 + way: context ×
  32 + id; ways lost for good (R362) and sets whose spare way is in use -/
  banks : Tbl Granule
  slices : Tbl Nat
  lostWays : List Nat
  spares : List Nat
  /-- LRCFG, LRTAIL, LRHEAD (R192) -/
  lrcfg : W64
  lrtail : W32
  lrhead : W32
  lrdropped : W32
  /-- Cornerstone (R328): queued request blocks, requests completed, generations (R331), key slots (R332), the message key
  (R263), the roster (R333) -/
  doors : List W64
  csDone : W32
  gens : Tbl (BitVec 18)
  keys : Tbl KeySlot
  messageKey : BitVec 512
  rosterSerial : W64
  roster : List Nat
  /-- SPDM sessions, locked interfaces, the fabric manager's key and the attestation reports given (R346, R347) -/
  sessions : List Session
  locks : List Nat
  /-- the interfaces named by LOCK_INTERFACE's error responses, oldest first (R347) -/
  lockErrors : List Nat
  /-- the IDE keys of the CXL ports, as set up through SPDM (R341, R346); and what of device memory the supervisor exposes to the host: each
  decoder range's first location and its size (R341) -/
  ideKeys : Tbl (BitVec 256)
  exposed : List (Nat × Nat)
  fmKey : Option (BitVec 768)
  reports : List Report
  /-- the 24 ports (R339), the CXL ports that are viral (R345), lines the host caches (R343): 2 when it owns them, and lines of host memory the
  device holds as the host sees them: 1 S, 2 M, 3 E (R342) -/
  ports : Tbl Port
  viral : List Nat
  hostHolds : Tbl Nat
  hostLines : Tbl Nat
  /-- lines of host memory that a power-gating or a save has written to the banks, for which the coherence island answers (R345) -/
  island : List Nat
  /-- back-invalidates sent and not answered, and which of them are BISnpInv (R343) -/
  bisnp : List Nat
  bisnpInv : List Nat
  /-- lines whose BISnpData the host has answered for a device miss that has not been served yet (R343) -/
  answered : List Nat
  /-- EPSENDs of other modules that wait for this one's answer, oldest first, and the answers given: the module, and whether the handle was
  valid (R331) -/
  remoteSends : List RemoteSend
  remoteAnswers : List (Nat × Bool)
  /-- reduction groups (R349); RDMA regions, the queue pairs that exist and the completion entries of incoming writes, oldest first: the
  queue pair and the stamp of the last engine chunk (R350) -/
  reductions : Tbl Reduction
  regions : Tbl Region
  queuePairs : List Nat
  completions : List (Nat × W64)
  /-- packages that do not answer, 4,095 for the host, and single lines whose request was lost (R348) -/
  lost : List Nat
  lostLines : List Nat
  /-- BOOTSTAT (R366): PHASE, ERR, READY -/
  phase : BitVec 3
  bootErr : Byte
  ready : Bool
  /-- repair (R367): the fuse map as read; the log's entries, each kind × 2^32 + unit with kind 0 a core, 1 a bank and 2 a Plaza lane by
  its number in the fuse map, 3 a way by its key, 4 a failure without a unit by its ERR code, 5 a frame of memory; clusters and banks out of use; REPAIRSTAT -/
  fuses : FuseMap
  repairs : List Nat
  unavailable : List Nat
  badBanks : List Nat
  repairstat : W64
  /-- measurement blocks (R366, R347) -/
  measured : List (BitVec 384)
  /-- SNAPCTL, SNAPSTAT.ARMED and SOURCE, SNAPTIME (R371), and the latch time T (R370) -/
  snapctl : W64
  armed : Bool
  snapSource : BitVec 2
  snapTime : W64
  latchAt : W64
  /-- firmware: milliseconds the power has been below the limit (R369) -/
  calm : Nat
  /-- the thread that runs pinned, 4 × core + slot (R151); the commit requests that wait, in arrival order (R147); and the chunks registered
  with the arbiter (R152) -/
  pinned : Option Nat
  requests : List Nat
  registered : List Registered
  /-- other modules listed as sharers of lines whose home is here, by line, and the module that owns a line and has its newest bytes (R348) -/
  remoteHolds : Tbl (List Nat)
  remoteOwns : Tbl Nat
  /-- THE MODEL'S OWN: who acts next; events due from outside; a chunk that ends asks for its stamp in the same step; what
  TIME gains in a step; the counter behind the free values; the counter of steps, which orders recency and moves the token
  rings; the next place in an arrival order (notes/assumptions/47.md); and the lines that the host filter of a home slice has room for
  (notes/assumptions/64.md) -/
  turn : Agent
  sched : List Agent
  inputs : List Instr
  eager : Bool
  pace : W64
  fresh : Nat
  cycle : Nat
  order : Nat
  filterLines : Nat
  deriving DecidableEq, Repr

/-- HBM, cluster memory and second-tier memory, whole, as three decoder ranges. DESIGN CHOICE: the spec gives the decoders no reset value; a machine starts
with all of device memory exposed, until the supervisor sets a decoder (notes/assumptions/61.md). -/
def allMemory : List (Nat × Nat) := [(0, 2 ^ 39), (0xe00000000000, 2 ^ 30), (2 ^ 44, 1524 * 2 ^ 30)]

/-- The machine as power comes on (R366): PHASE 0, every register at its reset value, memory listing nothing. The phases
POWER_ON, FUSE, CALIB and INIT are events that step then brings about. -/
def State.reset : State :=
  { cores := [], clusters := [], dies := [], contexts := [], mem := Memory.empty, time := 0, stamp := 1, ptroot := 0,
    countbase := 0, tlb := [], shared := [], retired := [], banks := [], slices := [], lostWays := [], spares := [], lrcfg := 0,
    lrtail := 0, lrhead := 0, lrdropped := 0, doors := [], csDone := 0, gens := [], keys := [], messageKey := 0,
    rosterSerial := 0, roster := [], sessions := [], locks := [], lockErrors := [], ideKeys := [], exposed := allMemory, fmKey := none, reports := [], ports := [],
    viral := [], hostHolds := [], hostLines := [], island := [], bisnp := [], bisnpInv := [], answered := [], remoteSends := [], remoteAnswers := [], reductions := [], regions := [], queuePairs := [],
    completions := [], lost := [], lostLines := [],
    phase := 0, bootErr := 0, ready := false, fuses := ⟨[], [], [], true⟩, repairs := [], unavailable := [], badBanks := [], repairstat := 0,
    measured := [], snapctl := BitVec.allOnes 64, armed := false, snapSource := 0, snapTime := 0, latchAt := 0,
    calm := 0, pinned := none, requests := [], registered := [], remoteHolds := [], remoteOwns := [], turn := ⟨0, 0, .slot⟩, sched := [], inputs := [],
    eager := true, pace := 1, fresh := 0, cycle := 0, order := 0, filterLines := 65536 }

end Sys2Proof.Machine
end

