-- ==== Sys2Proof/Machine/Capability.lean ====
section
/-! DEFINITION. Capability values: fields (R92 to R94), bounds (R95 to R97), access checks (R98), and the codes of faults
(R351). -/

namespace Sys2Proof.Machine

/-! ### Fault codes (R351) -/

def Code.illegal : Byte := 1
def Code.capTag : Byte := 2
def Code.capBounds : Byte := 3
def Code.capPerm : Byte := 4
def Code.capSeal : Byte := 5
def Code.capType : Byte := 6
def Code.align : Byte := 7
def Code.mapFault : Byte := 8
def Code.scale : Byte := 9
def Code.cmdVer : Byte := 10
def Code.lease : Byte := 11
def Code.endpoint : Byte := 12
def Code.poison : Byte := 13
def Code.engine : Byte := 14
def Code.step : Byte := 15
def Code.bkpt : Byte := 16
def Code.trap : Byte := 17

/-! ### Fields (R92) -/

def capAddr (c : Cap) : W64 := c.img.extractLsb' 0 64
def capB (c : Cap) : BitVec 16 := c.img.extractLsb' 64 16
def capT (c : Cap) : BitVec 16 := c.img.extractLsb' 80 16
def capE (c : Cap) : BitVec 6 := c.img.extractLsb' 96 6
def capRsv (c : Cap) : BitVec 2 := c.img.extractLsb' 102 2
def capOtype (c : Cap) : BitVec 12 := c.img.extractLsb' 104 12
def capPerms (c : Cap) : BitVec 12 := c.img.extractLsb' 116 12

/-- A capability from its fields. -/
def capMake (tag : Bool) (perms otype : BitVec 12) (rsv : BitVec 2) (e : BitVec 6) (t b : BitVec 16) (addr : W64) : Cap :=
  ⟨tag, perms ++ otype ++ rsv ++ e ++ t ++ b ++ addr⟩

def capSetAddr (c : Cap) (a : W64) : Cap := ⟨c.tag, c.img.extractLsb' 64 64 ++ a⟩
def capSetOtype (c : Cap) (o : BitVec 12) : Cap := ⟨c.tag, c.img.extractLsb' 116 12 ++ o ++ c.img.extractLsb' 0 104⟩
def capSetPerms (c : Cap) (p : BitVec 12) : Cap := ⟨c.tag, p ++ c.img.extractLsb' 0 116⟩
def capSetTag (c : Cap) (t : Bool) : Cap := ⟨t, c.img⟩

/-- An integer result: bits 127:64 and the tag are zero (R67). -/
def capInt (x : W64) : Cap := ⟨false, 0#64 ++ x⟩

/-- The permission bits of R93, numbered within PERMS. -/
def Perm.vcbind : Nat := 0
def Perm.engine : Nat := 1
def Perm.system : Nat := 2
def Perm.unseal : Nat := 3
def Perm.sealing : Nat := 4
def Perm.storeLocal : Nat := 5
def Perm.storeCap : Nat := 6
def Perm.loadCap : Nat := 7
def Perm.store : Nat := 8
def Perm.load : Nat := 9
def Perm.exec : Nat := 10
def Perm.global : Nat := 11

def capHas (c : Cap) (perm : Nat) : Bool := (capPerms c).getLsbD perm

/-! ### Bounds -/

/-- Decode (R95): the base and the top of a capability image. -/
def capDecode (c : Cap) : Nat × Nat :=
  let e := (capE c).toNat
  if 49 ≤ e then (0, 2 ^ 64)
  else
    let w := 2 ^ (e + 16)
    let anchor := (capAddr c).toNat + 2 ^ (e + 12)
    let base := (anchor + 2 ^ 64 - (anchor + w - (capB c).toNat * 2 ^ e) % w) % 2 ^ 64
    (base, base + (capT c - capB c).toNat * 2 ^ e)

/-- Representable (R96), of the bounds an image decoded to before its address changed. -/
def addrRepresentable (e base a : Nat) : Bool :=
  if 49 ≤ e then true else (a + 2 ^ 64 - base + 2 ^ (e + 12)) % 2 ^ 64 < 2 ^ (e + 16)

/-- An image's own address lies in its representable region. -/
def capRepresentable (c : Cap) : Bool := addrRepresentable (capE c).toNat (capDecode c).1 (capAddr c).toNat

/-- Change the address; the tag survives only inside the representable region of the old bounds (R96). -/
def capMove (c : Cap) (a : W64) : Cap :=
  let r := capSetAddr c a
  if addrRepresentable (capE c).toNat (capDecode c).1 a.toNat then r else capSetTag r false

/-- Bounds as R97 encodes them: E, B, T and the bounds returned. -/
structure Bounds where
  e : BitVec 6
  b : BitVec 16
  t : BitVec 16
  lo : Nat
  hi : Nat
  deriving DecidableEq, Repr

/-- The loop of R97 from exponent `e`, with `n` exponents to try. -/
def encodeFrom (base top : Nat) (e : Nat) : Nat → Bounds
  | 0 => ⟨63, 0, 0, 0, 2 ^ 64⟩
  | n + 1 =>
    let lo := base - base % 2 ^ e
    let hi := top + (2 ^ e - top % 2 ^ e) % 2 ^ e
    if hi ≤ 2 ^ 64 ∧ (hi - lo) / 2 ^ e ≤ 0xefff then
      ⟨BitVec.ofNat 6 e, BitVec.ofNat 16 (lo / 2 ^ e), BitVec.ofNat 16 (hi / 2 ^ e), lo, hi⟩
    else encodeFrom base top (e + 1) n

/-- Encode (R97). -/
def encodeBounds (base top : Nat) : Bounds :=
  if base = 0 ∧ top = 2 ^ 64 then ⟨63, 0, 0, 0, 2 ^ 64⟩ else encodeFrom base top 0 49

/-- A capability with new bounds and its address at `addr`. -/
def capSetBounds (c : Cap) (x : Bounds) (addr : W64) : Cap :=
  ⟨c.tag, c.img.extractLsb' 102 26 ++ x.e ++ x.t ++ x.b ++ addr⟩

/-- The smallest exponent that fits a length (R119), from `e` with `n` to try; 63 when none does. -/
def fitExpFrom (len : Nat) (e : Nat) : Nat → Nat
  | 0 => 63
  | n + 1 => if (len + 2 ^ e - 1) / 2 ^ e ≤ 0xefff then e else fitExpFrom len (e + 1) n

def fitExp (len : Nat) : Nat := fitExpFrom len 0 49

/-! ### Access checks -/

/-- CheckAccess (R98) of `n` bytes at `a` through `c`; `al` says whether alignment is required. The first failing check
gives the fault. -/
def checkAccess (c : Cap) (a n perm : Nat) (al : Bool) : Option Byte :=
  if !c.tag then some Code.capTag
  else if capOtype c != 0 then some Code.capSeal
  else if !capHas c perm then some Code.capPerm
  else if a < (capDecode c).1 || (capDecode c).2 < a + n then some Code.capBounds
  else if al && a % n != 0 then some Code.align
  else none

/-- CheckAccess for each permission an entry names, in the order named (R109 step 1). -/
def checkPerms (c : Cap) (a n : Nat) (al : Bool) : List Nat → Option Byte
  | [] => none
  | p :: ps => (checkAccess c a n p al).or (checkPerms c a n al ps)

/-- CheckAccess for each permission with an alignment of its own, where an entry states one. -/
def checkAligned (c : Cap) (a n al : Nat) : List Nat → Option Byte
  | [] => none
  | p :: ps => ((checkAccess c a n p false).or (if a % al != 0 then some Code.align else none)).or (checkAligned c a n al ps)

/-- The rights to store `x` through `c` beyond STORE (R104). -/
def mayStoreCap (c x : Cap) : Bool := !x.tag || (capHas c Perm.storeCap && (capHas x Perm.global || capHas c Perm.storeLocal))

/-- CBUILD's checks of an image against an authority (R117). -/
def buildCheck (auth : Cap) (img : BitVec 128) : Option Byte :=
  let c : Cap := ⟨true, img⟩
  if !auth.tag then some Code.capTag
  else if capOtype auth != 0 then some Code.capSeal
  else if capOtype c != 0 && capOtype c != 1 then some Code.capType
  else if capPerms c &&& ~~~ (capPerms auth) != 0 then some Code.capPerm
  else if capOtype c == 1 && !capHas c Perm.exec then some Code.capPerm
  else if capRsv c != 0 || 0xefff < (capT c - capB c).toNat then some Code.capBounds
  else
    let (b, t) := capDecode c
    let (ab, at_) := capDecode auth
    if 2 ^ 64 < t || b < ab || at_ < t || !capRepresentable c then some Code.capBounds else none

/-- The package's root (R103): whole space, every permission, unsealed. -/
def capRoot : Cap := capMake true 0xfff 0 0 63 0 0 0

end Sys2Proof.Machine
end

