-- ==== Sys2Proof/Machine/Crypto.lean ====
section
/-! DEFINITION. The ciphers that the manual names by their standards: AES-256 and its XTS mode over one 64-byte piece
(R262), AES-256-GCM (R271, R332, R334), SHA-384 and ECDSA P-384 (R333). PRESUMED: their definitions are those of FIPS 197,
IEEE 1619, NIST SP 800-38D, FIPS 180-4 and FIPS 186-4 (notes/assumptions/8.md). Byte strings are lists of numbers below
256; the bytes of a register or a piece are little-endian (R11). -/

namespace Sys2Proof.Machine

/-- The S-box: byte x in bits 8x + 7 to 8x. -/
def aesSbox : Nat := 0x16bb54b00f2d99416842e6bf0d89a18cdf2855cee9871e9b948ed9691198f8e19e1dc186b95735610ef6034866b53e708a8bbd4b1f74dde8c6b4a61c2e2578ba08ae7a65eaf4566ca94ed58d6d37c8e779e4959162acd3c25c2406490a3a32e0db0b5ede14b8ee4688902a22dc4f816073195d643d7ea7c41744975fec130ccdd2f3ff1021dab6bcf5389d928f40a351a89f3c507f02f94585334d43fbaaefd0cf584c4a39becb6a5bb1fc20ed00d153842fe329b3d63b52a05a6e1b1a2c830975b227ebe28012079a059618c323c7041531d871f1e5a534ccf73f362693fdb7c072a49cafa2d4adf04759fa7dc982ca76abd7fe2b670130c56f6bf27b777c63
/-- Its inverse. -/
def aesInvSbox : Nat := 0x7d0c2155631469e126d677ba7e042b17619953833cbbebc8b0f52aae4d3be0a0ef9cc9939f7ae52d0d4ab519a97f51605fec8027591012b131c7078833a8dd1ff45acd78fec0db9a2079d2c64b3e56fc1bbe18aa0e62b76f89c5291d711af1476edf751ce837f9e28535ade72274ac9673e6b4f0cecff297eadc674f4111913a6b8a130103bdafc1020f3fca8f1e2cd00645b3b80558e4f70ad3bc8c00abd890849d8da75746155edab9edfd5048706c92b6655dcc5ca4d41698688664f6f87225d18b6d49a25b76b224d92866a12e084ec3fa420b954cee3d23c2a632947b54cbe9dec444438e3487ff2f9b8239e37cfbd7f3819ea340bf38a53630d56a0952

def aesSub (x : Nat) : Nat := aesSbox / 2 ^ (8 * x) % 256
def aesInvSub (x : Nat) : Nat := aesInvSbox / 2 ^ (8 * x) % 256

/-- Multiplication by x in GF(2^8). -/
def aesTwice (x : Nat) : Nat := if x < 128 then 2 * x else Nat.xor (2 * x - 256) 0x1b

/-- Multiplication by a constant below 16. -/
def aesMul (c x : Nat) : Nat :=
  let x2 := aesTwice x
  let x4 := aesTwice x2
  let x8 := aesTwice x4
  Nat.xor (Nat.xor (if c % 2 == 1 then x else 0) (if c / 2 % 2 == 1 then x2 else 0))
    (Nat.xor (if c / 4 % 2 == 1 then x4 else 0) (if c / 8 % 2 == 1 then x8 else 0))

def bytesXor (a b : List Nat) : List Nat := List.zipWith Nat.xor a b

/-- The bytes of a number, least significant first. -/
def bytesOf (n : Nat) : Nat → List Nat
  | 0 => []
  | k + 1 => n % 256 :: bytesOf (n / 256) k

/-- The number of a byte string, least significant first. -/
def bytesVal : List Nat → Nat
  | [] => 0
  | b :: r => b + 256 * bytesVal r

/-- The number of a byte string, most significant first. -/
def bytesValBE (l : List Nat) : Nat := bytesVal l.reverse

def bytesOfBE (n k : Nat) : List Nat := (bytesOf n k).reverse

/-- One column of the key schedule after another; `w` holds the newest eight columns, newest first. -/
def aesExpand (i : Nat) (rcon : Nat) (w : List (List Nat)) (out : List (List Nat)) : Nat → List (List Nat)
  | 0 => out.reverse
  | n + 1 =>
    let last := w.headD []
    let old := w.getD 7 []
    let t :=
      if i % 8 == 0 then
        match last with
        | a :: r => bytesXor ((r ++ [a]).map aesSub) [rcon, 0, 0, 0]
        | [] => []
      else if i % 8 == 4 then last.map aesSub else last
    let c := bytesXor old t
    aesExpand (i + 1) (if i % 8 == 0 then aesTwice rcon else rcon) (c :: w.take 7) (c :: out) n

/-- Cut a list into pieces of n; `k` bounds their number. -/
def piecesOf (n : Nat) (l : List Nat) : Nat → List (List Nat)
  | 0 => []
  | k + 1 => if l.isEmpty then [] else l.take n :: piecesOf n (l.drop n) k

/-- The 15 round keys of a 32-byte key. -/
def aesKeys (key : List Nat) : List (List Nat) :=
  let cols := piecesOf 4 key 8
  let all := cols ++ aesExpand 8 1 cols.reverse [] 52
  piecesOf 16 all.flatten 15

def aesShift (s : List Nat) : List Nat := [0, 5, 10, 15, 4, 9, 14, 3, 8, 13, 2, 7, 12, 1, 6, 11].map fun i => s.getD i 0
def aesInvShift (s : List Nat) : List Nat := [0, 13, 10, 7, 4, 1, 14, 11, 8, 5, 2, 15, 12, 9, 6, 3].map fun i => s.getD i 0

def aesMixCol (a b c d : Nat) (col : List Nat) : List Nat :=
  match col with
  | [w, x, y, z] =>
    let f (p q r t : Nat) := Nat.xor (Nat.xor (aesMul p w) (aesMul q x)) (Nat.xor (aesMul r y) (aesMul t z))
    [f a b c d, f d a b c, f c d a b, f b c d a]
  | _ => []

def aesMix (s : List Nat) : List Nat := ((piecesOf 4 s 4).map (aesMixCol 2 3 1 1)).flatten
def aesInvMix (s : List Nat) : List Nat := ((piecesOf 4 s 4).map (aesMixCol 14 11 13 9)).flatten

def aesRounds (s : List Nat) : List (List Nat) → List Nat
  | [] => s
  | [k] => bytesXor (aesShift (s.map aesSub)) k
  | k :: r => aesRounds (bytesXor (aesMix (aesShift (s.map aesSub))) k) r

/-- AES-256 of one block. -/
def aesEncrypt (key block : List Nat) : List Nat :=
  match aesKeys key with
  | [] => []
  | k :: r => aesRounds (bytesXor block k) r

def aesInvRounds (s : List Nat) : List (List Nat) → List Nat
  | [] => s
  | [k] => bytesXor ((aesInvShift s).map aesInvSub) k
  | k :: r => aesInvRounds (aesInvMix (bytesXor ((aesInvShift s).map aesInvSub) k)) r

/-- The inverse cipher. -/
def aesDecrypt (key block : List Nat) : List Nat :=
  match (aesKeys key).reverse with
  | [] => []
  | k :: r => aesInvRounds (bytesXor block k) r

/-- Multiplication of an XTS tweak by x. -/
def xtsTwice (t : Nat) : Nat := if t < 2 ^ 127 then 2 * t else Nat.xor (2 * t - 2 ^ 128) 0x87

def xtsBlocks (f : List Nat → List Nat) (t : Nat) : List (List Nat) → List (List Nat)
  | [] => []
  | b :: r => bytesXor (f (bytesXor b (bytesOf t 16))) (bytesOf t 16) :: xtsBlocks f (xtsTwice t) r

/-- AES-256-XTS over one 64-byte piece (R262): the pair's first 32 bytes are the data key. -/
def xtsPiece (decrypt : Bool) (pair : BitVec 512) (tweak : Nat) (piece : BitVec 512) : BitVec 512 :=
  let ks := bytesOf pair.toNat 64
  let t := bytesVal (aesEncrypt (ks.drop 32) (bytesOf tweak 16))
  let f := if decrypt then aesDecrypt (ks.take 32) else aesEncrypt (ks.take 32)
  BitVec.ofNat 512 (bytesVal (xtsBlocks f t (piecesOf 16 (bytesOf piece.toNat 64) 4)).flatten)

/-- Multiplication in the field of GHASH: blocks as numbers with the first bit most significant. -/
def ghashMul (x v z : Nat) : Nat → Nat
  | 0 => z
  | i + 1 =>
    ghashMul x (if v % 2 == 1 then Nat.xor (v / 2) (0xe1 * 2 ^ 120) else v / 2)
      (if x / 2 ^ i % 2 == 1 then Nat.xor z v else z) i

def padded (l : List Nat) : List Nat := l ++ List.replicate ((16 - l.length % 16) % 16) 0

def ghash (h : Nat) (l : List (List Nat)) : Nat := l.foldl (fun y b => ghashMul (Nat.xor y (bytesValBE b)) h 0 128) 0

/-- The key stream of GCM from a counter on, xored into the blocks. -/
def gcmStream (key iv : List Nat) (ctr : Nat) : List (List Nat) → List Nat
  | [] => []
  | b :: r => bytesXor b (aesEncrypt key (iv ++ bytesOfBE ctr 4)) ++ gcmStream key iv (ctr + 1) r

/-- GCM counter mode over a byte string with a 96-bit IV, from byte 16 × first on. -/
def gcmCrypt (key iv : List Nat) (first : Nat) (text : List Nat) : List Nat :=
  gcmStream key iv (2 + first) (piecesOf 16 text (text.length / 16 + 1))

/-- The GCM tag of additional data and ciphertext. -/
def gcmTag (key iv aad text : List Nat) : List Nat :=
  let h := bytesValBE (aesEncrypt key (List.replicate 16 0))
  let lens := bytesOfBE (8 * aad.length) 8 ++ bytesOfBE (8 * text.length) 8
  let all := padded aad ++ padded text ++ lens
  bytesXor (bytesOfBE (ghash h (piecesOf 16 all (all.length / 16))) 16) (aesEncrypt key (iv ++ [0, 0, 0, 1]))

/-! ### SHA-384 -/

/-- The 80 round constants, 64 bits each from the lowest. -/
def shaK : Nat := 0x6c44198c4a4758175fcb6fab3ad6faec597f299cfc657e2a4cc5d4becb3e42b6431d67c49c100d4c3c9ebe0a15c9bebc32caab7b40c7249328db77f523047d841b710b35131c471b113f9804bef90dae0a637dc5a2c898a606f067aa72176fbaf57d4f7fee6ed178eada7dd6cde0eb1ed186b8c721c0c207ca273eceea26619cc67178f2e372532bbef9a3f7b2c67915a4506cebde82bde990befffa23631e288cc702081a6439ec84c87814a1f0ab7278a5636f43172f60748f82ee5defb2fc682e6ff3d6b2b8a35b9cca4f7763e3734ed8aa4ae3418acb391c0cb3c5c95a6334b0bcb5e19b48a82748774cdf8eeb991e376c085141ab5319a4c116b8d2d0c8106aa07032bbd1b8f40e35855771202ad69906245565a910d192e819d6ef5218c76c51a30654be30c24b8b70d0f89791a81a664bbc423001a2bfe8a14cf1036492722c851482353b81c2c92e47edaee6766a0abb3c77b2a8650a73548baf63de53380d139d95b3df4d2c6dfc5ac42aed2e1b21385c26c92627b70a8546d22ffc142929670a0e6e7006ca6351e003826fd5a79147930aa725c6e00bf33da88fc2bf597fc7beef0ee4b00327c898fb213fa831c66d2db43210983e5152ee66dfab76f988da831153b55cb0a9dcbd41fbd44a7484aa6ea6e4832de92c6f592b0275240ca1cc77ac9c650fc19dc68b8cd5b5efbe4786384f25e3e49b69c19ef14ad2c19bf174cf6926949bdc06a725c7123580deb1fe3b1696b172be5d74f27b896f550c7dc3d5ffb4e2243185be4ee4b28c12835b0145706fbed807aa98a3030242ab1c5ed5da6d8118923f82a4af194f9b59f111f1b605d0193956c25bf348b538e9b5dba58189dbbcb5c0fbcfec4d3b2f7137449123ef65cd428a2f98d728ae22

def shaRot (x n : Nat) : Nat := Nat.lor (x / 2 ^ n) (x * 2 ^ (64 - n) % 2 ^ 64)
def shaNot (x : Nat) : Nat := 2 ^ 64 - 1 - x

/-- The message schedule, newest word first. -/
def shaSchedule (w : List Nat) : Nat → List Nat
  | 0 => w.reverse
  | n + 1 =>
    let a := w.getD 14 0
    let b := w.getD 1 0
    let s0 := Nat.xor (Nat.xor (shaRot a 1) (shaRot a 8)) (a / 2 ^ 7)
    let s1 := Nat.xor (Nat.xor (shaRot b 19) (shaRot b 61)) (b / 2 ^ 6)
    shaSchedule ((w.getD 15 0 + s0 + w.getD 6 0 + s1) % 2 ^ 64 :: w) n

def shaRounds (k : Nat) (a b c d e f g h : Nat) : List Nat → List Nat
  | [] => [a, b, c, d, e, f, g, h]
  | w :: r =>
    let s1 := Nat.xor (Nat.xor (shaRot e 14) (shaRot e 18)) (shaRot e 41)
    let ch := Nat.xor (Nat.land e f) (Nat.land (shaNot e) g)
    let t1 := h + s1 + ch + k % 2 ^ 64 + w
    let s0 := Nat.xor (Nat.xor (shaRot a 28) (shaRot a 34)) (shaRot a 39)
    let maj := Nat.xor (Nat.xor (Nat.land a b) (Nat.land a c)) (Nat.land b c)
    shaRounds (k / 2 ^ 64) ((t1 + s0 + maj) % 2 ^ 64) a b c ((d + t1) % 2 ^ 64) e f g r

def shaBlock (h : List Nat) (block : List Nat) : List Nat :=
  let w := shaSchedule ((piecesOf 8 block 16).map bytesValBE).reverse 64
  let g (i : Nat) := h.getD i 0
  List.zipWith (fun x y => (x + y) % 2 ^ 64) h (shaRounds shaK (g 0) (g 1) (g 2) (g 3) (g 4) (g 5) (g 6) (g 7) w)

/-- SHA-384 of a byte string, as 48 bytes. -/
def sha384 (m : List Nat) : List Nat :=
  let p := m ++ [128] ++ List.replicate ((239 - m.length % 128) % 128) 0 ++ bytesOfBE (8 * m.length) 16
  let h := (piecesOf 128 p (p.length / 128)).foldl shaBlock [0xcbbb9d5dc1059ed8, 0x629a292a367cd507, 0x9159015a3070dd17, 0x152fecd8f70e5939, 0x67332667ffc00b31, 0x8eb44a8768581511, 0xdb0c2e0d64f98fa7, 0x47b5481dbefa4fa4]
  ((h.take 6).map fun x => bytesOfBE x 8).flatten

/-! ### ECDSA on P-384 -/

def p384P : Nat := 2 ^ 384 - 2 ^ 128 - 2 ^ 96 + 2 ^ 32 - 1
def p384N : Nat := 0xffffffffffffffffffffffffffffffffffffffffffffffffc7634d81f4372ddf581a0db248b0a77aecec196accc52973
def p384B : Nat := 0xb3312fa7e23ee7e4988e056be3f82d19181d9c6efe8141120314088f5013875ac656398d8a2ed19d2a85c8edd3ec2aef
def p384Gx : Nat := 0xaa87ca22be8b05378eb1c71ef320ad746e1d3b628ba79b9859f741e082542a385502f25dbf55296c3a545e3872760ab7
def p384Gy : Nat := 0x3617de4a96262c6f5d9e98bf9292dc29f8f41dbd289a147ce9da3113b5f0b8c00a60b1ce1d7e819d7a431d7c90ea0e5f

/-- a^e mod m over the low n bits of e. -/
def powMod (a e m : Nat) : Nat → Nat
  | 0 => 1 % m
  | n + 1 =>
    let r := powMod (a * a % m) (e / 2) m n
    if e % 2 == 1 then r * a % m else r

/-- The inverse modulo a 384-bit prime. -/
def invMod (a m : Nat) : Nat := powMod (a % m) (m - 2) m 384

/-- A point of the curve in Jacobian coordinates; z = 0 is the point at infinity. -/
structure Point where
  x : Nat
  y : Nat
  z : Nat
  deriving DecidableEq, Repr

def subP (a b : Nat) : Nat := (a + p384P - b % p384P) % p384P

def pointDouble (a : Point) : Point :=
  let d := a.z * a.z % p384P
  let g := a.y * a.y % p384P
  let b := a.x * g % p384P
  let w := 3 * subP a.x d * ((a.x + d) % p384P) % p384P
  let x := subP (w * w % p384P) (8 * b)
  ⟨x, subP (w * subP (4 * b) x % p384P) (8 * (g * g)), 2 * a.y * a.z % p384P⟩

def pointAdd (a b : Point) : Point :=
  if a.z == 0 then b
  else if b.z == 0 then a
  else
    let z1 := a.z * a.z % p384P
    let z2 := b.z * b.z % p384P
    let u1 := a.x * z2 % p384P
    let u2 := b.x * z1 % p384P
    let s1 := a.y * b.z % p384P * z2 % p384P
    let s2 := b.y * a.z % p384P * z1 % p384P
    if u1 == u2 then (if s1 == s2 then pointDouble a else ⟨1, 1, 0⟩)
    else
      let h := subP u2 u1
      let r := subP s2 s1
      let h2 := h * h % p384P
      let h3 := h2 * h % p384P
      let v := u1 * h2 % p384P
      let x := subP (subP (r * r % p384P) h3) (2 * v)
      ⟨x, subP (r * subP v x % p384P) (s1 * h3), h * a.z % p384P * b.z % p384P⟩

/-- The multiple of a point by the low n bits of k. -/
def pointMul (k : Nat) (a : Point) : Nat → Point
  | 0 => ⟨1, 1, 0⟩
  | n + 1 =>
    let r := pointMul (k / 2) (pointDouble a) n
    if k % 2 == 1 then pointAdd r a else r

/-- ECDSA P-384 with SHA-384: a public key x then y, a signature r then s, each number big-endian in 48 bytes. -/
def ecdsaVerify (key : BitVec 768) (msg sig : List Nat) : Bool :=
  let kb := bytesOf key.toNat 96
  let qx := bytesValBE (kb.take 48)
  let qy := bytesValBE (kb.drop 48)
  let r := bytesValBE (sig.take 48)
  let t := bytesValBE (sig.drop 48)
  let e := bytesValBE (sha384 msg)
  let w := invMod t p384N
  let p := pointAdd (pointMul (e * w % p384N) ⟨p384Gx, p384Gy, 1⟩ 384) (pointMul (r * w % p384N) ⟨qx, qy, 1⟩ 384)
  let zi := invMod p.z p384P
  let onCurve := qx < p384P && qy < p384P && qy * qy % p384P == (subP (qx * qx % p384P * qx) (3 * qx) + p384B) % p384P
  onCurve && 0 < r && r < p384N && 0 < t && t < p384N && p.z != 0 && p.x * (zi * zi % p384P) % p384P % p384N == r

end Sys2Proof.Machine
end

