-- ==== Sys2Proof/Machine/Memory.lean ====
section
/-! DEFINITION. Memory: bytes, tags and poison by key, and the seal gasket between plaintext and what memory and the
banks hold (R100, R101, R261, R262, R360). An unlisted byte reads as zero: INIT zeroes all memory (R368). -/

namespace Sys2Proof.Machine

/-! ### Bytes -/

/-- The byte at a key. -/
def cellRead (l : List Host.Cell) (k : Nat) : Byte :=
  match l with
  | [] => 0
  | (j, b) :: r => if j = k then b else cellRead r k

/-- Write the byte at a key, keeping the canonical form: keys rising, no zero byte listed. -/
def cellWrite (l : List Host.Cell) (k : Nat) (x : Byte) : List Host.Cell :=
  match l with
  | [] => if x = 0 then [] else [(k, x)]
  | (j, b) :: r =>
    if k < j then (if x = 0 then (j, b) :: r else (k, x) :: (j, b) :: r)
    else if j = k then (if x = 0 then r else (k, x) :: r)
    else (j, b) :: cellWrite r k x

/-- The canonical form above a bound. -/
def cellsAbove (lo : Nat) : List Host.Cell → Bool
  | [] => true
  | (j, b) :: r => lo ≤ j && b != 0 && cellsAbove (j + 1) r

/-- The canonical form of memory: byte keys strictly rising and no byte listed that reads as an unlisted one does; tagged units, summary
bits and poisoned units in rising order. -/
def Memory.wf (m : Memory) : Bool := cellsAbove 0 m.bytes && NatSet.wf m.tags && NatSet.wf m.summary && NatSet.wf m.poison

def memByte (m : Memory) (k : Nat) : Byte := cellRead m.bytes k

/-- n bytes from k, little-endian (R11). -/
def memBytes (m : Memory) (k : Nat) : Nat → Nat
  | 0 => 0
  | n + 1 => (memByte m k).toNat + 256 * memBytes m (k + 1) n

def memSetByte (m : Memory) (k : Nat) (x : Byte) : Memory := { m with bytes := cellWrite m.bytes k x }

/-- Write n bytes from k, little-endian. -/
def memPut (m : Memory) (k : Nat) (v : Nat) : Nat → Memory
  | 0 => m
  | n + 1 => memPut (memSetByte m k (BitVec.ofNat 8 v)) (k + 1) (v / 256) n

/-! ### Tags and poison -/

/-- Host memory keeps no tags (R100). -/
def isHost (k : Nat) : Bool := 2 ^ 64 ≤ k && k < 2 ^ 65

/-- Local cluster memory (R282). -/
def isClusterMem (k : Nat) : Bool := 0xe00000000000 ≤ k && k < 0xe00000000000 + 128 * 2 ^ 23

/-- The cluster whose memory holds a key. -/
def clusterOfKey (k : Nat) : Nat := (k - 0xe00000000000) / 2 ^ 23

/-- The tag of the unit that holds a key. -/
def memTag (m : Memory) (k : Nat) : Bool := m.tags.contains (k / 16)

/-- Set or clear the tag of a unit; setting one sets the summary bit of its 8 KiB region (R101). -/
def memSetTag (m : Memory) (k : Nat) (t : Bool) : Memory :=
  if t && !isHost k then
    { m with tags := NatSet.insert m.tags (k / 16), summary := NatSet.insert m.summary (k / 8192) }
  else { m with tags := NatSet.erase m.tags (k / 16) }

def memPoisoned (m : Memory) (k : Nat) : Bool := m.poison.contains (k / 16)
def memSetPoison (m : Memory) (k : Nat) : Memory := { m with poison := NatSet.insert m.poison (k / 16) }
def memClearPoison (m : Memory) (k : Nat) : Memory := { m with poison := NatSet.erase m.poison (k / 16) }

/-- Whether any unit of [k, k + n) is poisoned. -/
def anyPoison (m : Memory) (k n : Nat) : Bool := m.poison.any fun u => k < (u + 1) * 16 && u * 16 < k + n

/-- The tags of the n units from a 16-byte aligned key, unit 0 in bit 0. -/
def memTags (m : Memory) (k : Nat) : Nat → Nat
  | 0 => 0
  | n + 1 => (if memTag m k then 1 else 0) + 2 * memTags m (k + 16) n

/-- Write the tags of n units. -/
def memPutTags (m : Memory) (k : Nat) (v : Nat) : Nat → Memory
  | 0 => m
  | n + 1 => memPutTags (memSetTag m k (v % 2 == 1)) (k + 16) (v / 2) n

/-! ### Lines -/

def memLine (m : Memory) (k : Nat) : LineVal := ⟨BitVec.ofNat 1024 (memBytes m k 128), BitVec.ofNat 8 (memTags m k 8)⟩

def memPutLine (m : Memory) (k : Nat) (v : LineVal) : Memory :=
  memPutTags (memPut m k v.data.toNat 128) k v.tags.toNat 8

/-- Spread n mask bits over the bytes they stand for. -/
def byteMask (mask : Nat) : Nat → Nat
  | 0 => 0
  | n + 1 => (if mask % 2 == 1 then 255 else 0) + 256 * byteMask (mask / 2) n

/-- A line under a write buffer (R154, R155). -/
def lineOver (v : LineVal) (b : LineBuf) : LineVal :=
  let m := BitVec.ofNat 1024 (byteMask b.mask.toNat 128)
  ⟨(v.data &&& ~~~ m) ||| (b.data &&& m), (v.tags &&& ~~~ b.tagMask) ||| (b.tags &&& b.tagMask)⟩

/-- One write buffer over an older one. -/
def bufOver (old new : LineBuf) : LineBuf :=
  let m := BitVec.ofNat 1024 (byteMask new.mask.toNat 128)
  ⟨(old.data &&& ~~~ m) ||| (new.data &&& m), old.mask ||| new.mask, (old.tags &&& ~~~ new.tagMask) ||| (new.tags &&& new.tagMask),
    old.tagMask ||| new.tagMask⟩

/-- The write of n bytes at offset `off` of a line: the tags of the units touched are cleared (R101), or the one unit's tag is
written with its 16 bytes. -/
def bufWrite (off n v : Nat) (tag : Bool) : LineBuf :=
  let units := (2 ^ ((off + n - 1) / 16 - off / 16 + 1) - 1) * 2 ^ (off / 16)
  ⟨BitVec.ofNat 1024 (v % 2 ^ (8 * n) * 2 ^ (8 * off)), BitVec.ofNat 128 ((2 ^ n - 1) * 2 ^ off),
    if tag then BitVec.ofNat 8 units else 0, BitVec.ofNat 8 units⟩

/-- n bytes at offset `off` of a line. -/
def lineBytes (v : LineVal) (off n : Nat) : Nat := v.data.toNat / 2 ^ (8 * off) % 2 ^ (8 * n)

/-! ### The seal gasket -/

/-- The seal of a 64-byte piece under a key slot (R261, R262); key 0 passes it unchanged. DESIGN CHOICE: under a slot that
holds no pair any more it is sealed with a pair that nothing is known of (notes/assumptions/72.md). -/
def gasketPiece (s : State) (open_ : Bool) (key : Byte) (ia : Nat) (piece : BitVec 512) : BitVec 512 :=
  if key == 0 then piece
  else
    match Tbl.get .empty s.keys key.toNat with
    | .seal _ pair => xtsPiece open_ pair (ia / 64 * 64) piece
    | _ => xtsPiece open_ Config.erasedPair (ia / 64 * 64) piece

/-- The key under which memory itself holds a page's data: cluster memory lies inside its port and holds plaintext (R261, R282). -/
def heldKey (loc : Nat) (key : Byte) : Byte := if isClusterMem loc then 0 else key

/-- A piece as it stands at a location, and as it travels outside a port, sealed under its page's key: cluster memory seals what leaves it
and opens what enters it. -/
def pieceOut (s : State) (loc : Nat) (key : Byte) (ia : Nat) (piece : BitVec 512) : BitVec 512 :=
  if isClusterMem loc then gasketPiece s false key ia piece else piece
def pieceIn (s : State) (loc : Nat) (key : Byte) (ia : Nat) (piece : BitVec 512) : BitVec 512 :=
  if isClusterMem loc then gasketPiece s true key ia piece else piece

/-- Both pieces of a line. -/
def gasketLine (s : State) (open_ : Bool) (key : Byte) (ia : Nat) (d : BitVec 1024) : BitVec 1024 :=
  if key == 0 then d
  else gasketPiece s open_ key (ia + 64) (d.extractLsb' 512 512) ++ gasketPiece s open_ key ia (d.extractLsb' 0 512)

end Sys2Proof.Machine
end

