-- ==== Sys2Proof/Machine/Translate.lean ====
section
/-! DEFINITION. From a virtual address to a location: windows (R280), the page table and its walks (R282 to R287), and the
coherent physical reads that walks make. -/

namespace Sys2Proof.Machine

/-! ### Physical reads -/

/-- The dirty coherent line that some core holds of a physical line. -/
def dirtyAt (s : State) (loc : Nat) : Option L1Line :=
  s.cores.findSome? fun c => c.2.l1.find? fun l => l.loc == loc && l.dirty && !l.nonCoherent

/-- The bank granule that holds a piece of a physical line: its data as the bank holds it. -/
def granuleAt (s : State) (piece : Nat) : Option Granule :=
  (s.banks.find? fun g => g.2.loc / 64 + 32 > piece && g.2.loc / 64 ≤ piece && g.2.present.getLsbD (piece - g.2.loc / 64)).map (·.2)

def granulePiece (g : Granule) (i : Nat) : BitVec 512 := g.data.extractLsb' (512 * i) 512

/-- A 64-byte piece of local memory as a coherent physical read finds it, sealed as memory holds it. -/
def physPiece (s : State) (piece : Nat) : BitVec 512 :=
  match dirtyAt s (piece / 2 * 128) with
  | some l => gasketPiece s false l.key (l.line * 128 + piece % 2 * 64) (l.data.extractLsb' (512 * (piece % 2)) 512)
  | none =>
    match granuleAt s piece with
    | some g => granulePiece g (piece - g.loc / 64)
    | none => BitVec.ofNat 512 (memBytes s.mem (piece * 64) 64)

/-- n bytes at an offset of one piece, as a coherent physical read finds them. -/
def physBytes (s : State) (k n : Nat) : Nat :=
  match dirtyAt s (k / 128 * 128), granuleAt s (k / 64) with
  | none, none => memBytes s.mem k n
  | _, _ => (physPiece s (k / 64)).toNat / 2 ^ (8 * (k % 64)) % 2 ^ (8 * n)

/-! ### Windows -/

/-- The intermediate address a window gives a virtual address, when it matches (R280). -/
def windowMatch (w : BitVec 128) (va : Nat) : Option Nat :=
  let size := (w.extractLsb' 112 6).toNat
  let ib := (w.extractLsb' 80 32).toNat * 2 ^ 16
  let vb := (w.extractLsb' 16 48).toNat * 2 ^ 16
  if w.getLsbD 127 && 16 ≤ size && size ≤ 48 && vb % 2 ^ size == 0 && ib % 2 ^ size == 0 && ib + 2 ^ size ≤ 2 ^ 48 &&
      vb ≤ va && va < vb + 2 ^ size then some (ib + (va - vb)) else none

/-- The lowest-numbered window that matches. -/
def windowFind (c : Context) (va : Nat) : Option Nat :=
  [0, 1, 2, 3, 4, 5, 6, 7].findSome? fun i => windowMatch (Tbl.get 0 c.iaw i) va

/-- The intermediate image of [b, t) through the one window that holds it all (R308). -/
def windowImage (c : Context) (b t : Nat) : Option Nat :=
  [0, 1, 2, 3, 4, 5, 6, 7].findSome? fun i =>
    match windowMatch (Tbl.get 0 c.iaw i) b with
    | some ia =>
      match windowMatch (Tbl.get 0 c.iaw i) (t - 1) with
      | some _ => some ia
      | none => none
    | none => none

/-- A non-coherent window covers a line (R313). -/
def ncwCovers (w : BitVec 128) (line : Nat) : Bool :=
  w.getLsbD 127 && (w.extractLsb' 0 41).toNat ≤ line && line ≤ (w.extractLsb' 64 41).toNat

def nonCoherentLine (c : Context) (line : Nat) : Bool := c.ncw.any fun w => ncwCovers w.2 line

/-! ### The page table -/

/-- Where an access comes from: a core, a sequencer of a cluster, or an agent that belongs to no cluster (R261). -/
inductive Origin
  | core (c : Nat)
  | cluster (k : Nat)
  | outside
  deriving DecidableEq, Repr

def leafOwner (l : BitVec 128) : BitVec 12 := l.extractLsb' 116 12
def leafKey (l : BitVec 128) : Byte := l.extractLsb' 108 8
def leafAci (l : BitVec 128) : BitVec 20 := l.extractLsb' 88 20
def leafModule (l : BitVec 128) : BitVec 12 := l.extractLsb' 76 12
def leafPcore (l : BitVec 128) : Coord := l.extractLsb' 66 10
def leafCls (l : BitVec 128) : BitVec 2 := l.extractLsb' 64 2
def leafTarget (l : BitVec 128) : Nat := (l.extractLsb' 16 48).toNat * 2 ^ 16
def leafIo (l : BitVec 128) : Bool := l.getLsbD 9
def leafBias (l : BitVec 128) : Bool := l.getLsbD 5
def leafLoc (l : BitVec 128) : BitVec 2 := l.extractLsb' 3 2
def leafRet (l : BitVec 128) : Bool := l.getLsbD 1
def leafV (l : BitVec 128) : Bool := l.getLsbD 0

/-- Local HBM that a leaf may name: below 63.5 GiB of each stack (R282). -/
def inHbm (a : Nat) : Bool := a < 8 * 2 ^ 36 && a % 2 ^ 36 < 127 * 2 ^ 29
def inAperture (a : Nat) : Bool := 0xf00000000000 ≤ a && a < 0xf00000100000
def inTier2 (a : Nat) : Bool := 0x100000000000 ≤ a && a < 0x100000000000 + 1524 * 2 ^ 30

/-- Whether a leaf of R284 can be used, RET apart. -/
def leafUsable (l : BitVec 128) (large : Bool) : Bool :=
  let t := leafTarget l
  let last := t + (if large then 2 ^ 25 else 2 ^ 16) - 1
  leafV l && l.getLsbD 2 && l.extractLsb' 10 6 == 0 && leafCls l != 3 &&
    (match (leafLoc l).toNat with
     | 0 => if leafIo l then inAperture t && inAperture last else (inHbm t && inHbm last) || (isClusterMem t && !large)
     | 1 => inTier2 t && inTier2 last && !leafIo l
     | 2 => true
     | _ => !leafIo l && t < 2 ^ 48) &&
    !(leafOwner l == 0xfff && leafKey l != 0) && (!large || t % 2 ^ 25 == 0)

/-- The key of memory that a leaf gives an intermediate address (R282). -/
def leafPlace (l : BitVec 128) (large : Bool) (ia : Nat) : Nat :=
  let a := leafTarget l + ia % (if large then 2 ^ 25 else 2 ^ 16)
  match (leafLoc l).toNat with
  | 2 => 2 ^ 64 + a
  | 3 => 2 ^ 65 * ((leafModule l).toNat + 1) + a
  | _ => a

/-- What a walk finds (R286). -/
inductive Walk
  | leaf (l : BitVec 128) (entry : Nat) (large : Bool)
  | bad
  | poisoned
  deriving DecidableEq, Repr

/-- The table a pointing entry names: V 1, LEAF 0, every other field zero, TARGET in local HBM outside the carve-outs (R283, R284). -/
def pointerOf (e : BitVec 128) : Option Nat :=
  if leafV e && e &&& ~~~ ((0xffffffffffff#48 ++ 0#15 ++ 1#1).setWidth 128) == 0 && inHbm (leafTarget e) then some (leafTarget e) else none

/-- A coherent read of a 16-byte entry; none when its unit is poisoned. -/
def readEntry (s : State) (at_ : Nat) : Option (BitVec 128) :=
  if memPoisoned s.mem at_ then none else some (BitVec.ofNat 128 (physBytes s at_ 16))

/-- Walk the three levels (R283, R286). -/
def walk (s : State) (ia : Nat) : Walk :=
  let e1 := (s.ptroot.toNat / 2 ^ 18) * 2 ^ 18 + 16 * (ia / 2 ^ 34 % 2 ^ 14)
  match readEntry s e1 with
  | none => .poisoned
  | some p1 =>
    match pointerOf p1 with
    | none => .bad
    | some t2 =>
      let e2 := t2 + 16 * (ia / 2 ^ 25 % 512)
      match readEntry s e2 with
      | none => .poisoned
      | some p2 =>
        if p2.getLsbD 2 then .leaf p2 e2 true
        else
          match pointerOf p2 with
          | none => .bad
          | some t3 =>
            let e3 := t3 + 16 * (ia / 2 ^ 16 % 512)
            match readEntry s e3 with
            | none => .poisoned
            | some p3 => .leaf p3 e3 false

/-- The first page of the entry that maps a page: a large entry stands for 512 (R283). -/
def entryPage (page : Nat) (large : Bool) : Nat := if large then page / 512 * 512 else page

/-- A translated address: where it lies, under which key, by which leaf, held at which entry. -/
structure Place where
  ia : Nat
  loc : Nat
  key : Byte
  leaf : BitVec 128
  entry : Nat
  large : Bool
  uncached : Bool
  deriving DecidableEq, Repr

/-- The result of a translation: a place, a MAPFAULT with its cause and intermediate address, or a poisoned entry, which acts
at the POISON step (R286, R287). -/
inductive Trans
  | ok (p : Place)
  | fault (cause : Nat) (ia : Nat)
  | poisoned (ia : Nat)
  deriving DecidableEq, Repr

/-- The SEAL slots that the gasket of a cluster carries: those of every context with a core there, the lowest 16 when there are more
(R332; notes/assumptions/49.md). -/
def gasketSlots (s : State) (cl : Nat) : List Nat :=
  ((s.keys.filter fun k =>
    match k.2 with
    | .seal o _ => [0, 1, 2, 3, 4, 5, 6, 7].any fun i => (Tbl.get Core.reset s.cores (8 * cl + i)).owner == o
    | _ => false).map (·.1)).take 16

/-- The key test of R287: a SEAL slot of the accessing context that the gasket of the core's or sequencer's cluster carries; for an
agent that belongs to no cluster every SEAL slot of its context counts as loaded (R261). -/
def keyOk (s : State) (ctx : BitVec 12) (o : Origin) (k : Byte) : Bool :=
  k == 0 ||
    ((match Tbl.get .empty s.keys k.toNat with
      | .seal w _ => w == ctx
      | _ => false) &&
      match o with
      | .core c => (gasketSlots s (c / 8)).contains k.toNat
      | .cluster cl => (gasketSlots s cl).contains k.toNat
      | .outside => true)

def ctxOf (s : State) (ctx : BitVec 12) : Context := Tbl.get Context.reset s.contexts ctx.toNat

/-- The bank pool holds both pieces of a line. -/
def lineInPool (s : State) (line : Nat) : Bool :=
  [0, 1].all fun i => s.banks.any fun g => g.2.addr == line / 16 && g.2.present.getLsbD (line * 2 % 32 + i)

/-- The caches that an access of a context goes through hold the whole line, so that it reaches no home slice (R285): the accessing core's
L1, and for a coherent access the bank pool; a non-coherent miss reads the home (R125). -/
def lineCached (s : State) (ctx : BitVec 12) (o : Origin) (ia : Nat) : Bool :=
  let nc := nonCoherentLine (ctxOf s ctx) (ia / 128)
  (match o with
   | .core c => (Tbl.get Core.reset s.cores c).l1.any fun l => l.line == ia / 128 && l.nonCoherent == nc
   | _ => false) || (!nc && lineInPool s (ia / 128))

/-- While a page migrates, a granule whose chunk has committed lies at the new location (R293). -/
def relocated (s : State) (ia loc : Nat) : Nat :=
  (s.dies.findSome? fun d =>
    match d.2.page with
    | some c =>
      if c.op == 1 && c.page ≤ ia && ia < c.page + c.granules * 2048 && (ia - c.page) / 2048 < c.next then some (c.new + (ia - c.page)) else none
    | none => none).getD loc

def portActive (s : State) (n : Nat) : Bool := (Tbl.get Port.reset s.ports n).state == .active

/-- A request to this location gets no answer: the host (partner 4,095) behind a CXL port that is not ACTIVE, a module that is no member of the
roster or has stopped answering, or a line whose request was lost (R333, R346, R348). -/
def locLost (s : State) (ia loc : Nat) : Bool :=
  if isHost loc then !portActive s (ia / 128 % 2) || s.lost.contains 4095 || s.lostLines.contains (ia / 128)
  else if 2 ^ 65 ≤ loc then !s.roster.contains (loc / 2 ^ 65 - 1) || s.lost.contains (loc / 2 ^ 65 - 1) || s.lostLines.contains (ia / 128)
  else false

/-- Checks of a leaf for a context (R287). -/
def leafCheck (s : State) (ctx : BitVec 12) (o : Origin) (ia : Nat) (l : BitVec 128) (entry : Nat) (large : Bool) : Trans :=
  if leafV l && leafRet l then .fault 5 ia
  else if !leafUsable l large then .fault 2 ia
  else if leafOwner l != 0xfff && leafOwner l != ctx then .fault 3 ia
  else if !keyOk s ctx o (leafKey l) then .fault 4 ia
  else .ok ⟨ia, relocated s ia (leafPlace l large ia), leafKey l, l, entry, large, leafIo l⟩

/-- Translate an intermediate address for a context: by a cached translation if the home slice has one, else by a walk. -/
def transIa (s : State) (ctx : BitVec 12) (o : Origin) (ia : Nat) : Trans :=
  if !s.ptroot.getLsbD 0 && !lineCached s ctx o ia then .fault 8 ia
  else
    match Tbl.find s.tlb (ia / 2 ^ 16) with
    | some (l, e, g) => leafCheck s ctx o ia l e g
    | none =>
      match walk s ia with
      | .poisoned => .poisoned ia
      | .bad => .fault 2 ia
      | .leaf l e g => leafCheck s ctx o ia l e g

/-- Translate a virtual address for a context. -/
def transVa (s : State) (ctx : BitVec 12) (o : Origin) (va : Nat) : Trans :=
  match windowFind (ctxOf s ctx) va with
  | none => .fault 1 0
  | some ia => transIa s ctx o ia

/-- The home slice of a page counts a walk (R370). -/
def bumpWalks (s : State) (page : Nat) : State :=
  { s with dies := Tbl.update Die.reset s.dies (page % 8) fun d => { d with walks := d.walks + 1 } }

/-- The home slice keeps the translation of a completed walk of a usable leaf (R286), and counts the walk. -/
def tlbFill (s : State) (p : Place) : State :=
  match Tbl.find s.tlb (p.ia / 2 ^ 16) with
  | some _ => s
  | none => bumpWalks { s with tlb := Tbl.set s.tlb (p.ia / 2 ^ 16) (p.leaf, p.entry, p.large) } (p.ia / 2 ^ 16)

/-- A walk that gives the access no place is a walk too (R370): a table or leaf that cannot be used, another's page, a key that is not loaded, a
poisoned entry. A home slice that holds the translation walks nothing. -/
def failedWalk (s : State) (page : Nat) : State := if Tbl.has s.tlb page then s else bumpWalks s page

/-- The walks of an access that goes no further: those of its parts in ascending order up to the first that faults. -/
def walkParts (s : State) (ctx : BitVec 12) (o : Origin) : List (Nat × Nat) → State
  | [] => s
  | (a, _) :: r =>
    match transVa s ctx o (a % 2 ^ 64) with
    | .ok p => walkParts (tlbFill s p) ctx o r
    | .poisoned ia => walkParts (failedWalk s (ia / 2 ^ 16)) ctx o r
    | .fault c ia => if 2 ≤ c && c ≤ 5 then failedWalk s (ia / 2 ^ 16) else s

/-- A walk that ended in a MAPFAULT is counted (R370): causes 2 to 5 come from one. -/
def faultWalk (s : State) (code : Byte) (info : W64) : State :=
  if code == Code.mapFault && 2 ≤ info.toNat / 2 ^ 60 && info.toNat / 2 ^ 60 ≤ 5 then failedWalk s (info.toNat % 2 ^ 48 / 2 ^ 16) else s

/-- The information word of a MAPFAULT (R287). -/
def mapInfo (cause ia : Nat) : W64 := BitVec.ofNat 64 (cause * 2 ^ 60 + ia)

/-- The parts of [a, a + n) page by page, ascending; `k` bounds their number. -/
def pageParts (a n : Nat) : Nat → List (Nat × Nat)
  | 0 => []
  | k + 1 =>
    if n == 0 then []
    else
      let m := min n (2 ^ 16 - a % 2 ^ 16)
      (a, m) :: pageParts (a + m) (n - m) k

/-- Translate every page part of [a, a + n), in ascending order; the first failure decides (R109 step 2). Addresses wrap
modulo 2^64. -/
def transParts (s : State) (ctx : BitVec 12) (o : Origin) : List (Nat × Nat) → Except (Nat × Nat) (List (Nat × Nat × Option Place))
  | [] => .ok []
  | (a, n) :: r =>
    match transVa s ctx o (a % 2 ^ 64) with
    | .fault c ia => .error (c, ia)
    | t =>
      match transParts s ctx o r with
      | .error e => .error e
      | .ok l => .ok ((a % 2 ^ 64, n, match t with | .ok p => some p | _ => none) :: l)

end Sys2Proof.Machine
end

