-- ==== Sys2Proof/Machine/Cache.lean ====
section
/-! DEFINITION. What lies between a core and memory: the data L1 (R322), the bank pool and its virtual caches (R296 to R301,
R303 to R305, R323), the directory's listing (R315, R316), the line as a coherent access finds it, and what a revocation pass clears
(R105, R107, R365). -/

namespace Sys2Proof.Machine

/-- Indexes 0 to n − 1. -/
def upTo (n : Nat) : List Nat := List.range n

def coreAt (s : State) (c : Nat) : Core := Tbl.get Core.reset s.cores c
def setCore (s : State) (c : Nat) (x : Core) : State := { s with cores := Tbl.set s.cores c x }
def updCore (s : State) (c : Nat) (f : Core → Core) : State := setCore s c (f (coreAt s c))
def slotAt (s : State) (c l : Nat) : Slot := Tbl.get Slot.reset (coreAt s c).slots l
def setSlot (s : State) (c l : Nat) (x : Slot) : State := updCore s c fun k => { k with slots := Tbl.set k.slots l x }
def clusterAt (s : State) (k : Nat) : Cluster := Tbl.get Cluster.reset s.clusters k
def setCluster (s : State) (k : Nat) (x : Cluster) : State := { s with clusters := Tbl.set s.clusters k x }
def updCluster (s : State) (k : Nat) (f : Cluster → Cluster) : State := setCluster s k (f (clusterAt s k))
def dieAt (s : State) (d : Nat) : Die := Tbl.get Die.reset s.dies d
def setDie (s : State) (d : Nat) (x : Die) : State := { s with dies := Tbl.set s.dies d x }
def updDie (s : State) (d : Nat) (f : Die → Die) : State := setDie s d (f (dieAt s d))
def setCtx (s : State) (c : Nat) (x : Context) : State := { s with contexts := Tbl.set s.contexts c x }
def updCtx (s : State) (c : Nat) (f : Context → Context) : State := setCtx s c (f (Tbl.get Context.reset s.contexts c))

/-- The cluster of a core: 16 × row + col (R2). -/
def clusterOf (c : Nat) : Nat := c / 8
/-- The die of a cluster: 4 × (row / 4) + col / 4 (R2). -/
def dieOfCluster (k : Nat) : Nat := 4 * (k / 16 / 4) + k % 16 / 4
def dieOf (c : Nat) : Nat := dieOfCluster (clusterOf c)

/-- Take the next place in an order. -/
def tick (s : State) : State := { s with order := s.order + 1 }

/-! ### Counters (R198, R370) -/

/-- Add to counter i of a cluster's snapshot words: 0 instructions and 1 chunks committed, 2 chunks squashed, 4 copy bytes, 5 L1
fills, 6 L1 writebacks, 7 energy in pJ. -/
def bump (s : State) (cl i n : Nat) : State :=
  updCluster s cl fun k => { k with counters := Tbl.update 0 k.counters i fun x => x + BitVec.ofNat 64 n }

/-- Charge energy in pJ to a kernel of a context (R198). -/
def chargeKernel (s : State) (cl : Nat) (ctx : BitVec 12) (kernel : BitVec 16) (pj : Nat) : State :=
  bump (updCluster s cl fun k => { k with energy := Tbl.update 0 k.energy (ctx.toNat * 65536 + kernel.toNat) fun x => x + pj }) cl 7 pj

/-- The context and the kernel of who acts: a slot's thread, or the command at the head of a sequencer. -/
def actingKernel (s : State) : BitVec 12 × BitVec 16 :=
  let c := s.turn.core.toNat
  let head (q : Sequencer) : BitVec 12 × BitVec 16 :=
    match q.restored ++ q.queue with
    | e :: _ => (e.ctx, e.kernel)
    | [] => (0, 0)
  match s.turn.part with
  | .slot => ((coreAt s c).owner, (slotAt s c s.turn.slot.toNat).kernel)
  | .matrix => head (clusterAt s (clusterOf c)).matrix
  | .copy => head (clusterAt s (clusterOf c)).copy

/-- Charge the kernel of who acts (R198; notes/assumptions/15.md). -/
def chargeTurn (s : State) (pj : Nat) : State := chargeKernel s (clusterOf s.turn.core.toNat) (actingKernel s).1 (actingKernel s).2 pj

/-- A dirty line leaves a core's L1: a writeback, charged to who acts (R198, R370). -/
def countWriteback (s : State) (core : Nat) : State := chargeTurn (bump s (clusterOf core) 6 1) 1000

/-! ### Virtual caches: geometry and paths -/

def vcAt (c : Context) (id : Nat) : VCache := Tbl.get VCache.reset c.vcs id

/-- From a cache up to MEM, over parent links (R299); at most 4 virtual caches and the common one. -/
def chainUp (c : Context) (id : Nat) : Nat → List Nat
  | 0 => []
  | n + 1 => if id == 31 then [] else if id == 0 then [0] else id :: chainUp c (vcAt c id).parent n

def chainOf (c : Context) (id : Nat) : List Nat := chainUp c id 6

/-- The lowest common ancestor of two chains, as what follows from it on (R303); none but MEM gives the empty list. -/
def commonTail (a b : List Nat) : List Nat :=
  match a with
  | [] => []
  | x :: r => if b.contains x then x :: r else commonTail r b

/-- The leaf that binds an intermediate address, or the common cache (R299). -/
def leafOf (c : Context) (ia : Nat) : Nat :=
  match c.binds.find? fun b => b.base ≤ ia && ia < b.base + b.len with
  | some b => b.leaf
  | none => 0

/-- Above a cache that is being re-parented, evictions go straight to the ancestor both chains share (R305); `fuel` bounds the caches. -/
def skipUp (c : Context) (l : List Nat) : Nat → List Nat
  | 0 => l
  | fuel + 1 =>
    match l with
    | [] => []
    | x :: r =>
      if (vcAt c x).state == .reparenting then x :: skipUp c (commonTail r (chainOf c (vcAt c x).newParent)) fuel else x :: skipUp c r fuel

def skipReparent (c : Context) (l : List Nat) : List Nat := skipUp c l 6

/-- The caches above one that its evictions install into (R301, R305). -/
def evictPath (c : Context) (id : Nat) : List Nat := (skipReparent c (chainOf c id)).drop 1

/-- The path of an address in a context, for lookups, and for installs and evictions. -/
def pathOf (c : Context) (ia : Nat) : List Nat := chainOf c (leafOf c ia)
def installPath (c : Context) (ia : Nat) : List Nat := skipReparent c (pathOf c ia)

/-- The xor of the 16-bit fields of ga[47:19] (R300). -/
def fold16 (x : Nat) : Nat := Nat.xor (x % 2 ^ 16) (x / 2 ^ 16)

/-- The bank of a granule in a geometry (R300). -/
def bankIn (g : Geometry) (ia : Nat) : Nat :=
  g.banks.getD ((Nat.xor (Nat.xor (ia / 2 ^ 16 % 2 ^ 11) (ia / 2 ^ 27 % 2 ^ 11)) (ia / 2 ^ 38 % 2 ^ 10)) % g.banks.length) 0

def commonBank (ia : Nat) : Nat := 192 * (ia / 2 ^ 16 % 8) + fold16 (ia / 2 ^ 19 % 2 ^ 29) % 192

/-- The bank-table keys of the ways searched for an address in a geometry. -/
def geometryWays (s : State) (g : Geometry) (ia : Nat) : List Nat :=
  let b := bankIn g ia
  let set := ia / 2 ^ 11 % 32
  ((g.slices.filter fun x => x / 16 == b).map fun x => (b * 32 + set) * 16 + x % 16).filter fun k => !s.lostWays.contains k

/-- The ways searched in the common cache: those of its bank that no virtual cache holds (R300). -/
def commonWays (s : State) (ia : Nat) : List Nat :=
  let b := commonBank ia
  let set := ia / 2 ^ 11 % 32
  if s.badBanks.contains b then []
  else
    (([0, 1, 2, 3, 4, 5, 6, 7, 8, 9, 10, 11, 12, 13, 14, 15].filter fun w => !Tbl.has s.slices (b * 16 + w)).map
      fun w => (b * 32 + set) * 16 + w).filter fun k => !s.lostWays.contains k

def waysOf (s : State) (c : Context) (id ia : Nat) : List Nat :=
  if id == 0 then commonWays s ia else geometryWays s (vcAt c id).geo ia

/-- Where a valid granule of an address lies among some ways. -/
def findWay (s : State) (ways : List Nat) (ia : Nat) : Option Nat :=
  ways.find? fun k =>
    match Tbl.find s.banks k with
    | some g => g.addr == ia / 2048 && g.present != 0
    | none => false

/-- The way to take: the lowest-numbered invalid one, else the least recent (R300). -/
def victimWay (s : State) (ways : List Nat) : Option Nat :=
  match ways.find? fun k => !Tbl.has s.banks k with
  | some k => some k
  | none =>
    ways.foldl (fun b k =>
      match b with
      | none => some k
      | some j => if ((Tbl.find s.banks k).map (·.used)).getD 0 < ((Tbl.find s.banks j).map (·.used)).getD 0 then some k else some j) none

/-! ### Moving pieces -/

/-- A lost writeback marks every unit of its line poisoned (R348). -/
def poisonUnits (m : Memory) (loc : Nat) : Memory := (upTo 8).foldl (fun m u => memSetPoison m (loc / 128 * 128 + 16 * u)) m

/-- Write a granule's dirty pieces to memory, with their tags; `n` pieces from `i`. -/
def piecesToMem (s : State) (m : Memory) (g : Granule) (i : Nat) : Nat → Memory
  | 0 => m
  | n + 1 =>
    let at_ := g.loc + 64 * i
    let m' :=
      if g.dirty.getLsbD i then
        if locLost s (g.addr * 2048 + 64 * i) at_ then poisonUnits m at_
        else memPutTags (memPut m at_ (pieceIn s at_ g.key (g.addr * 2048 + 64 * i) (granulePiece g i)).toNat 64) at_
          ((g.tags.extractLsb' (4 * i) 4).toNat) 4
      else m
    piecesToMem s m' g (i + 1) n

/-- The bytes of a mask of pieces. -/
def pieceMask (mask : Nat) : Nat → Nat
  | 0 => 0
  | n + 1 => (if mask % 2 == 1 then 2 ^ 512 - 1 else 0) + 2 ^ 512 * pieceMask (mask / 2) n

def tagMaskOf (mask : Nat) : Nat → Nat
  | 0 => 0
  | n + 1 => (if mask % 2 == 1 then 15 else 0) + 16 * tagMaskOf (mask / 2) n

/-- Put the pieces that `g` marks dirty over an older granule of the same address. -/
def granuleMerge (old g : Granule) (mask : BitVec 32) (used : Nat) : Granule :=
  let dm := BitVec.ofNat 16384 (pieceMask mask.toNat 32)
  let tm := BitVec.ofNat 128 (tagMaskOf mask.toNat 32)
  { old with
    present := old.present ||| mask, dirty := (old.dirty &&& ~~~ mask) ||| (g.dirty &&& mask),
    data := (old.data &&& ~~~ dm) ||| (g.data &&& dm), tags := (old.tags &&& ~~~ tm) ||| (g.tags &&& tm), used := used }

/-- The way of the old geometry of a RESHAPING cache that holds a granule of an address (R304). -/
def oldWay (s : State) (c : Context) (id ia : Nat) : Option Nat :=
  match (vcAt c id).state, (vcAt c id).old with
  | .reshaping, some og => findWay s (geometryWays s og ia) ia
  | _, _ => none

/-- Allocate a granule in cache v, whose victim, if it needs one, `up` takes (R300, R301); a cache without a way for it passes its
pieces up. -/
def allocate (c : Context) (up : State → Granule → State) (v : Nat) (s : State) (g : Granule) : State :=
  match victimWay s (waysOf s c v (g.addr * 2048)) with
  | none => up s g
  | some k =>
    let s1 :=
      match Tbl.find s.banks k with
      | some old => if old.dirty == 0 then s else up s { old with present := old.dirty }
      | none => s
    { tick s1 with banks := Tbl.set s1.banks k { g with used := s1.order } }

/-- A granule of a RESHAPING cache's old geometry moves whole into the new one before it is served or written (R304). -/
def moveOld (c : Context) (up : State → Granule → State) (v : Nat) (s : State) (ia : Nat) : State :=
  match oldWay s c v ia with
  | none => s
  | some k =>
    match Tbl.find s.banks k with
    | some g => allocate c up v { s with banks := Tbl.erase s.banks k } g
    | none => s

/-- Install pieces into the first cache of a path, which may evict a granule into the next one, and so on to memory (R301). The
pieces are those `g` has PRESENT; those it marks DIRTY are dirty. -/
def installIn (c : Context) (s : State) (g : Granule) : List Nat → State
  | [] => { s with mem := piecesToMem s s.mem g 0 32 }
  | v :: rest =>
    let up (s : State) (g : Granule) : State := installIn c s g rest
    let s := moveOld c up v s (g.addr * 2048)
    match findWay s (waysOf s c v (g.addr * 2048)) (g.addr * 2048) with
    | some k =>
      let old := (Tbl.find s.banks k).getD g
      { tick s with banks := Tbl.set s.banks k (granuleMerge old g g.present s.order) }
    | none => allocate c up v s g

/-- A lookup's hit in the old geometry of a RESHAPING cache (R304). -/
def reshapeMove (s : State) (c : Context) (id ia : Nat) : State := moveOld c (fun s g => installIn c s g (evictPath c id)) id s ia

/-- Remove a piece from a granule; a granule without pieces is invalid. -/
def clearPiece (s : State) (k : Nat) (i : Nat) : State :=
  match Tbl.find s.banks k with
  | none => s
  | some g =>
    let m := ~~~ (1#32 <<< i)
    let g' := { g with present := g.present &&& m, dirty := g.dirty &&& m }
    if g'.present == 0 then { s with banks := Tbl.erase s.banks k } else { s with banks := Tbl.set s.banks k g' }

/-- A granule that holds one piece. -/
def onePiece (addr loc : Nat) (key : Byte) (owner : BitVec 12) (i : Nat) (data : BitVec 512) (tags : BitVec 4) (dirty : Bool) : Granule :=
  { addr := addr, present := 1#32 <<< i, dirty := if dirty then 1#32 <<< i else 0,
    tags := BitVec.ofNat 128 (tags.toNat * 2 ^ (4 * i)), data := BitVec.ofNat 16384 (data.toNat * 2 ^ (512 * i)),
    owner := owner, loc := loc, key := key, used := 0 }

/-- A way of some cache holds a piece. -/
def holdsPiece (s : State) (k ia : Nat) : Bool :=
  match Tbl.find s.banks k with
  | some g => g.addr == ia / 2048 && g.present.getLsbD (ia / 64 % 32)
  | none => false

/-- Probe the caches of a path in turn for a piece; a granule found in an old geometry moves first (R301, R304). -/
def probe (s : State) (c : Context) (ia : Nat) : List Nat → State × Option Nat
  | [] => (s, none)
  | v :: rest =>
    let t := reshapeMove s c v ia
    match findWay t (waysOf t c v ia) ia with
    | some k => if holdsPiece t k ia then (t, some k) else probe t c ia rest
    | none => probe t c ia rest

/-- Some way of the pool that holds a piece. A piece stands in at most one (R301). -/
def pieceWay (s : State) (ia : Nat) : Option Nat :=
  (s.banks.find? fun g => g.2.addr == ia / 2048 && g.2.present.getLsbD (ia / 64 % 32)).map (·.1)

/-- Make room for a granule in the leaf (R323): its victim, if it needs one, is evicted into the leaf's parent. -/
def makeRoom (s : State) (c : Context) (ia : Nat) (path : List Nat) : State :=
  match path with
  | [] => s
  | v :: rest =>
    let ways := waysOf s c v ia
    match findWay s ways ia with
    | some _ => s
    | none =>
      match victimWay s ways with
      | none => s
      | some k =>
        match Tbl.find s.banks k with
        | none => s
        | some old =>
          let s1 := if old.dirty == 0 then s else installIn c s { old with present := old.dirty } rest
          { s1 with banks := Tbl.erase s1.banks k }

/-- Move a piece from the way that holds it into the leaf, with its DIRTY bit (R301, R323). -/
def movePiece (s : State) (c : Context) (owner : BitVec 12) (key : Byte) (ia loc k : Nat) : State :=
  match Tbl.find s.banks k with
  | some g =>
    let i := ia / 64 % 32
    installIn c (clearPiece s k i)
      (onePiece (ia / 2048) (loc / 2048 * 2048) key owner i (granulePiece g i) (g.tags.extractLsb' (4 * i) 4) (g.dirty.getLsbD i)) (installPath c ia)
  | none => s

/-- Bring a piece into its leaf (R301, R323): a hit at the leaf makes its granule recent, a hit above moves the piece with its
DIRTY bit, and a miss fills it clean from memory. A piece of a page of every context that stands in another context's cache moves as
one found above does (notes/assumptions/50.md). DESIGN CHOICE: where a victim's install displaces the granule that was hit above, the piece is
looked for again (notes/assumptions/69.md). -/
def fetchPiece (s : State) (c : Context) (owner : BitVec 12) (key : Byte) (ia loc : Nat) : State :=
  match pathOf c ia with
  | [] => s
  | v :: rest =>
    let r := probe s c ia [v]
    match r.2 with
    | some k =>
      (match Tbl.find r.1.banks k with
       | some g => { tick r.1 with banks := Tbl.set r.1.banks k { g with used := r.1.order } }
       | none => r.1)
    | none =>
      let s := makeRoom r.1 c ia (installPath c ia)
      let r := probe s c ia rest
      match r.2.or (pieceWay r.1 ia) with
      | some k => movePiece r.1 c owner key ia loc k
      | none =>
        let l := loc / 64 * 64
        installIn c r.1 (onePiece (ia / 2048) (loc / 2048 * 2048) key owner (ia / 64 % 32)
          (pieceOut r.1 l key (ia / 64 * 64) (BitVec.ofNat 512 (memBytes r.1.mem l 64))) (BitVec.ofNat 4 (memTags r.1.mem l 4)) false) (installPath c ia)

/-- The context whose bindings give a page its path: the page's OWNER, or the accessing context for a page of all (R296). -/
def pathCtx (p : Place) (ctx : BitVec 12) : BitVec 12 := if leafOwner p.leaf == 0xfff then ctx else leafOwner p.leaf

/-- Whether lines of a place go through the bank pool: not uncached ones (R299). -/
def pooled (p : Place) : Bool := !p.uncached

/-! ### The line as coherent accesses find it -/

/-- The dirty coherent copy of a line, with its core. -/
def dirtyLine (s : State) (line : Nat) : Option (Nat × L1Line) :=
  s.cores.findSome? fun c => (c.2.l1.find? fun l => l.line == line && l.dirty && !l.nonCoherent).map fun l => (c.1, l)

/-- The bank granule that holds a piece of an intermediate address. -/
def granuleOf (s : State) (ia : Nat) : Option Granule :=
  (s.banks.find? fun g => g.2.addr == ia / 2048 && g.2.present.getLsbD (ia / 64 % 32)).map (·.2)

/-- A piece below the L1s: from the bank that holds it, else from memory; sealed. -/
def pieceBelow (s : State) (key : Byte) (ia loc : Nat) : BitVec 512 × BitVec 4 :=
  match granuleOf s ia with
  | some g => (granulePiece g (ia / 64 % 32), g.tags.extractLsb' (4 * (ia / 64 % 32)) 4)
  | none => (pieceOut s loc key (ia / 64 * 64) (BitVec.ofNat 512 (memBytes s.mem (loc / 64 * 64) 64)), BitVec.ofNat 4 (memTags s.mem (loc / 64 * 64) 4))

/-- A line below the L1s, opened by the gasket. -/
def lineBelow (s : State) (key : Byte) (ia loc : Nat) : LineVal :=
  let b := ia / 128 * 128
  let l := loc / 128 * 128
  let p0 := pieceBelow s key b l
  let p1 := pieceBelow s key (b + 64) (l + 64)
  ⟨gasketLine s true key b (p1.1 ++ p0.1), p1.2 ++ p0.2⟩

/-- A line as a coherent access finds it: the dirty copy of whichever core holds one, else what lies below. -/
def cohLine (s : State) (key : Byte) (ia loc : Nat) : LineVal :=
  match dirtyLine s (ia / 128) with
  | some (_, l) => ⟨l.data, l.tags⟩
  | none => lineBelow s key ia loc

/-- A line at its home (R125). -/
def homeLine (s : State) (key : Byte) (ia loc : Nat) : LineVal :=
  let v := memLine s.mem (loc / 128 * 128)
  ⟨gasketLine s true (heldKey loc key) (ia / 128 * 128) v.data, v.tags⟩

/-- Write a line at its home; host memory keeps no tags (R100), and a writeback that gets no answer is lost (R346, R348). -/
def homePut (s : State) (key : Byte) (ia loc : Nat) (v : LineVal) : State :=
  { s with mem := if locLost s ia loc then poisonUnits s.mem loc
                  else memPutLine s.mem (loc / 128 * 128) ⟨gasketLine s false (heldKey loc key) (ia / 128 * 128) v.data, v.tags⟩ }

/-- A miss of a line would get no answer (R348): nothing in the device serves it, neither a core's dirty copy nor the bank pool. -/
def lineLost (s : State) (ia loc : Nat) : Bool := locLost s ia loc && (dirtyLine s (ia / 128)).isNone && !lineInPool s (ia / 128)

def readLost (s : State) (p : Place) : Bool := lineLost s p.ia p.loc

/-- No way of the pool holds a piece any more. -/
def dropPiece (s : State) (ia : Nat) : State :=
  match pieceWay s ia with
  | some k => clearPiece s k (ia / 64 % 32)
  | none => s

/-- Remove a line's pieces from the way that holds them. -/
def dropPieces (s : State) (line : Nat) : State := dropPiece (dropPiece s (line * 128)) (line * 128 + 64)

/-- An older copy of a piece anywhere but in the leaf gives way to a writeback's: a piece stands in one cache of its path (R301). -/
def supersede (s : State) (c : Context) (ia : Nat) : State :=
  match pathOf c ia with
  | v :: _ =>
    let r := probe s c ia [v]
    if r.2.isSome then r.1 else dropPiece r.1 ia
  | [] => s

/-- An L1 writeback installs both pieces dirty in the leaf (R301, R322). -/
def installLine (s : State) (ctx : BitVec 12) (owner : BitVec 12) (l : L1Line) : State :=
  let c := ctxOf s ctx
  let ia := l.line * 128
  let sealed := gasketLine s false l.key ia l.data
  let path := installPath c ia
  let i := ia / 64 % 32
  let g (j : Nat) : Granule :=
    onePiece (ia / 2048) (l.loc / 2048 * 2048) l.key owner (i + j) (sealed.extractLsb' (512 * j) 512) (l.tags.extractLsb' (4 * j) 4) true
  installIn c (installIn c (supersede (supersede s c ia) c (ia + 64)) (g 0) path) (g 1) path

/-! ### Revocation -/

/-- A byte as a coherent read finds it, by its place. -/
def cohByte (s : State) (p : Place) : Byte :=
  BitVec.ofNat 8 (lineBytes (cohLine s p.key p.ia p.loc) (p.ia % 128) 1)

/-- The bitmap byte that covers a base, or 0xff when it cannot be read: poisoned, lost (R348), uncached or not translated (R287, R365). -/
def bitmapByte (s : State) (ctx : BitVec 12) (va : Nat) : Byte :=
  match transVa s ctx .outside va with
  | .ok p => if p.uncached || memPoisoned s.mem p.loc || readLost s p then 0xff else cohByte s p
  | _ => 0xff

/-- The bitmap byte and bit that cover a capability's base; none below REVBASE and beyond REVMAP's top (R105, R365). DESIGN CHOICE: byte 0 of
the bitmap lies at the decoded base of REVMAP, not at its address (notes/assumptions/55.md). -/
def bitmapSpot (s : State) (ctx : BitVec 12) (c : Cap) : Option (Nat × Nat) :=
  let x := ctxOf s ctx
  let base := (capDecode c).1
  let m := capDecode x.revmap
  let i := (base - x.revbase.toNat) / 64
  if x.revbase.toNat ≤ base && m.1 + i / 8 < m.2 then some (m.1 + i / 8, i % 8) else none

/-- Painted (R105, R365). -/
def painted (s : State) (ctx : BitVec 12) (c : Cap) : Bool :=
  match bitmapSpot s ctx c with
  | some b => (bitmapByte s ctx b.1).getLsbD b.2
  | none => false

/-- What a write or a load of a capability leaves of its tag while a pass of the context is active (R107). -/
def scrubCap (s : State) (ctx : BitVec 12) (c : Cap) : Cap :=
  if c.tag && (ctxOf s ctx).revBusy && painted s ctx c then capSetTag c false else c

/-- The painted tags of a line. -/
def paintedUnits (s : State) (ctx : BitVec 12) (v : LineVal) : BitVec 8 :=
  BitVec.ofNat 8 ((upTo 8).foldl (fun n u => if v.tags.getLsbD u && painted s ctx ⟨true, v.data.extractLsb' (128 * u) 128⟩ then n + 2 ^ u else n) 0)

/-- A line as an agent of a context may write it: while a pass is active without the tags of painted capabilities (R107). -/
def scrubbedLine (s : State) (ctx : BitVec 12) (v : LineVal) : LineVal :=
  if (ctxOf s ctx).revBusy then { v with tags := v.tags &&& ~~~ paintedUnits s ctx v } else v

/-! ### The data L1 -/

def l1Find (k : Core) (line : Nat) (nc : Bool) : Option L1Line := k.l1.find? fun l => l.line == line && l.nonCoherent == nc

def l1Drop (k : Core) (line : Nat) : Core := { k with l1 := k.l1.filter fun l => l.line != line }

def l1Put (k : Core) (l : L1Line) : Core :=
  { k with l1 := l :: k.l1.filter fun x => !(x.line == l.line && x.nonCoherent == l.nonCoherent) }

/-- The lines that active chunks of a core have written, coherent or not: no victims (R322). -/
def activeWrites (k : Core) : List Nat :=
  k.slots.flatMap fun x =>
    (x.2.cur.ws.map (·.1)) ++ (x.2.cur.nws.map (·.1)) ++
      (match x.2.older with
       | some o => (o.ws.map (·.1)) ++ (o.nws.map (·.1))
       | none => [])

/-- The lines in the read or write set of an active chunk (R149). -/
def activeLines (k : Core) : List Nat :=
  k.slots.flatMap fun x =>
    x.2.cur.reads ++ x.2.cur.writes ++
      (match x.2.older with
       | some o => o.reads ++ o.writes
       | none => [])

/-- The path context and owner of a line of an L1: those of its page, or of the core when the page no longer translates. -/
def lineCtx (s : State) (ctx : BitVec 12) (line : Nat) : BitVec 12 :=
  match Tbl.find s.tlb (line / 512) with
  | some (l, _, _) => if leafOwner l == 0xfff then ctx else leafOwner l
  | none => ctx

/-! ### The instruction L1 -/

/-- A fetched line is the most recent of its set. -/
def codeFill (k : Core) (line : Nat) : Core :=
  let rest := k.code.filter (· != line)
  let old := (rest.filter fun l => l % 64 == line % 64).drop 7
  { k with code := line :: rest.filter fun l => !old.contains l }

/-- A write to lines invalidates their instruction copies. -/
def codeDrop (s : State) (gone : Nat → Bool) : State :=
  { s with cores := Tbl.mapVal s.cores fun _ k => { k with code := k.code.filter fun l => !gone l } }

/-! ### The directory (R315, R316) -/

def dirDie (line : Nat) : Nat := line / 512 % 8

def dirFind (s : State) (line : Nat) : Option DirEntry := (dieAt s (dirDie line)).directory.find? fun e => e.line == line

def dirPut (s : State) (e : DirEntry) : State :=
  updDie s (dirDie e.line) fun d => { d with directory := { e with used := s.order } :: d.directory.filter fun x => x.line != e.line }

def dirDrop (s : State) (line : Nat) : State :=
  updDie s (dirDie line) fun d => { d with directory := d.directory.filter fun x => x.line != line }

/-- The cores in the slots of an entry. -/
def slotCores (l : List (Option Nat)) : List Nat := l.filterMap fun x => x

/-- The pointer slots with one core in s0 (R315). -/
def firstSlot (core : Nat) : List (Option Nat) := [some core, none, none, none]

/-- A core takes the first free slot, in the order s0 to s3; none when all four are in use. -/
def takeSlot (core : Nat) : List (Option Nat) → Option (List (Option Nat))
  | [] => none
  | none :: r => some (some core :: r)
  | some x :: r => (takeSlot core r).map fun r' => some x :: r'

/-- A core joins the entry of a line: the first free slot, or the coarse form when a fifth joins. -/
def dirJoin (s : State) (line core : Nat) : State :=
  match dirFind s line with
  | none => dirPut s ⟨line, false, false, 0, firstSlot core, 0⟩
  | some e =>
    if e.coarse then dirPut s { e with clusters := e.clusters ||| (1#128 <<< clusterOf core) }
    else if e.slots.contains (some core) then dirPut s e
    else
      match takeSlot core e.slots with
      | some l => dirPut s { e with slots := l }
      | none =>
        dirPut s { e with coarse := true, modified := false, slots := [],
                          clusters := (core :: slotCores e.slots).foldl (fun m c => m ||| (1#128 <<< clusterOf c)) 0 }

/-- An eviction notice: in pointer form it frees its core's slot, M clears when that core held it, and an entry whose last slot empties is
invalid (R316). -/
def dirLeave (s : State) (line core : Nat) : State :=
  match dirFind s line with
  | none => s
  | some e =>
    if e.coarse then s
    else
      let l := e.slots.map fun x => if x == some core then none else x
      if (slotCores l).isEmpty then dirDrop s line
      else dirPut s { e with slots := l, modified := e.modified && e.slots.head? != some (some core) }

/-- A line of which no L1 keeps a copy stays listed for the cores that have it in the read or write set of an active chunk; their notices
are deferred (R149). -/
def dirRelist (s : State) (line : Nat) : State :=
  match dirFind s line with
  | none => s
  | some _ =>
    (s.cores.filter fun c => (activeLines c.2).contains line).foldl (fun s c =>
      updCore (dirJoin s line c.1) c.1 fun k => { k with notices := NatSet.insert k.notices line }) (dirDrop s line)

/-- The cores listed for a line (R317). -/
def dirCores (s : State) (line : Nat) : List Nat :=
  match dirFind s line with
  | none => []
  | some e =>
    if e.coarse then
      ((List.range 128).filter fun k => e.clusters.getLsbD k).flatMap fun k => (List.range 8).map fun i => 8 * k + i
    else slotCores e.slots

/-! ### Evictions from the L1 -/

/-- The place a non-coherent line is written home to: as its page translates now, else the frame it was read from (R286). -/
def homeOf (s : State) (ctx : BitVec 12) (l : L1Line) : Nat × Byte :=
  match transIa s ctx .outside (l.line * 128) with
  | .ok p => (p.loc, p.key)
  | _ => (l.loc, l.key)

/-- A core's coherent line goes into its leaf, in the context of its page. -/
def lineToLeaf (s : State) (core : Nat) (l : L1Line) : State :=
  let ctx := lineCtx s (coreAt s core).owner l.line
  countWriteback (installLine s ctx ctx l) core

/-- A non-coherent line goes to its home for a context: what the pool still holds of it is older and goes (R125), and while a pass is active no
painted tag is written (R107). -/
def ncHomePut (s : State) (ctx : BitVec 12) (key : Byte) (line loc : Nat) (v : LineVal) : State :=
  homePut (dropPieces s line) key (line * 128) loc (scrubbedLine s ctx v)

/-- Write a dirty line out of a core's L1: a coherent one into its leaf, a non-coherent one to its home. -/
def writeBackLine (s : State) (core : Nat) (l : L1Line) : State :=
  if !l.dirty then s
  else if l.nonCoherent then
    let ctx := (coreAt s core).owner
    let h := homeOf s ctx l
    countWriteback (ncHomePut s ctx h.2 l.line h.1 ⟨l.data, l.tags⟩) core
  else lineToLeaf s core l

/-- Evict a line from a core's L1 (R316, R318, R322): written back when dirty, its notice sent at once or, for a line of an
active chunk, later (R149). -/
def evictLine (s : State) (core : Nat) (l : L1Line) : State :=
  let k := coreAt s core
  let s := updCore s core fun k => { k with l1 := k.l1.filter fun x => !(x.line == l.line && x.nonCoherent == l.nonCoherent) }
  let s := writeBackLine s core l
  if l.nonCoherent then s
  else if (activeLines k).contains l.line || !s.eager then updCore s core fun k => { k with notices := NatSet.insert k.notices l.line }
  else dirLeave s l.line core

/-- Put a line into a core's L1 as the most recent of its set; a full set gives up its least recent line that no active chunk
has written, and a set without one is bypassed (R140, R322). -/
def fillLine (s : State) (core : Nat) (l : L1Line) : State :=
  let k := coreAt s core
  let set := k.l1.filter fun x => x.line % 128 == l.line % 128
  let put (s : State) : State := chargeTurn (bump (tick (updCore s core fun k => l1Put k { l with used := s.order })) (clusterOf core) 5 1) 1000
  if set.any (fun x => x.line == l.line && x.nonCoherent == l.nonCoherent) || set.length < 8 then put s
  else
    let busy := activeWrites k
    match (set.filter fun x => !busy.contains x.line).foldl
        (fun b x => match b with
          | none => some x
          | some y => if x.used < y.used then some x else some y) (none : Option L1Line) with
    | none => s
    | some v => put (evictLine s core v)

/-- Change a core's coherent copy of a line. -/
def mapLine (k : Core) (line : Nat) (f : L1Line → L1Line) : Core :=
  { k with l1 := k.l1.map fun x => if x.line == line && !x.nonCoherent then f x else x }

/-- No core has a line of host memory alone any more. -/
def shareLine (s : State) (line : Nat) : State := { s with cores := Tbl.mapVal s.cores fun _ k => mapLine k line fun x => { x with sole := false } }

/-- M clears at a miss: no L1 holds the line dirty any more (R316). -/
def clearModified (s : State) (line : Nat) : State :=
  match dirFind s line with
  | some e => if e.modified then dirPut s { e with modified := false } else s
  | none => s

/-- Another core gives up its dirty copy to a miss: its pieces go to the leaf and it keeps a clean one (R316). A line of host memory stays
with its holder, M becoming O, and no data goes to the host (R342). -/
def surrender (s : State) (line : Nat) : State :=
  match dirtyLine s line with
  | none => clearModified (if Tbl.has s.hostLines line then shareLine s line else s) line
  | some (c, l) =>
    if isHost l.loc then shareLine s line
    else clearModified (updCore (lineToLeaf s c l) c fun k => mapLine k line fun x => { x with dirty := false }) line

/-- No L1 keeps a coherent copy of a line, nor an instruction copy. -/
def dropCopies (s : State) (line : Nat) : State :=
  { s with cores := Tbl.mapVal s.cores fun _ k =>
      { k with l1 := k.l1.filter fun x => x.nonCoherent || x.line != line, code := k.code.filter fun l => l != line } }

/-- Remove every copy of a line from the L1s and the banks after its dirty data has been written to memory: the line's one copy
is then its home's. -/
def homeward (s : State) (line loc : Nat) (key : Byte) : State :=
  let v := cohLine s key (line * 128) loc
  let s := match dirtyLine s line with | some (c, _) => countWriteback s c | none => s
  dirRelist (dropPieces (dropCopies (homePut s key (line * 128) loc v) line) line) line

/-- Every coherent copy of some pages goes (R286): the banks' dirty pieces and then the dirty lines of L1s go to the locations they were
read from, and nothing of these pages stays in a bank, an L1 or the directory. -/
def homePages (s : State) (inPage : Nat → Bool) : State :=
  let mine (l : L1Line) : Bool := !l.nonCoherent && inPage (l.line / 512)
  let s := { s with mem := s.banks.foldl (fun (m : Memory) (g : Nat × Granule) => if inPage (g.2.addr / 32) then piecesToMem s m g.2 0 32 else m) s.mem,
                    banks := s.banks.filter fun g => !inPage (g.2.addr / 32) }
  let dirty := s.cores.flatMap fun c => (c.2.l1.filter fun l => mine l && l.dirty).map fun l => (c.1, l)
  let s := dirty.foldl (fun s l => countWriteback (homePut s l.2.key (l.2.line * 128) l.2.loc ⟨l.2.data, l.2.tags⟩) l.1) s
  let lines := (s.dies.flatMap fun d => d.2.directory.map (·.line)).filter fun l => inPage (l / 512)
  lines.foldl dirRelist
    { s with cores := Tbl.mapVal s.cores fun _ k => { k with l1 := k.l1.filter fun l => !mine l, code := k.code.filter fun l => !inPage (l / 512) } }

/-! ### What the host sees of the device (R342) -/

/-- Some L1 or bank holds a line, or a chunk under way does. -/
def deviceHolds (s : State) (line : Nat) : Bool :=
  (s.cores.any fun c => (c.2.l1.any fun l => l.line == line && !l.nonCoherent) || (activeLines c.2).contains line) ||
    s.banks.any fun g => g.2.addr == line / 16 && (g.2.present.getLsbD (line * 2 % 32) || g.2.present.getLsbD (line * 2 % 32 + 1))

/-- Some L1 or bank holds a line dirty. -/
def deviceDirty (s : State) (line : Nat) : Bool :=
  (dirtyLine s line).isSome ||
    s.banks.any fun g => g.2.addr == line / 16 && (g.2.dirty.getLsbD (line * 2 % 32) || g.2.dirty.getLsbD (line * 2 % 32 + 1))

/-- A line of host memory that the device has cleaned is M at the host no more, and one of which no copy is left is gone; the island answers no
more for one that a core has again. -/
def hostSettle (s : State) : State :=
  let lines := (s.hostLines.filter fun h => deviceHolds s h.1).map fun h => (h.1, if h.2 == 2 && !deviceDirty s h.1 then 3 else h.2)
  { s with hostLines := lines, island := s.island.filter fun l => Tbl.has lines l && !s.cores.any fun c => c.2.l1.any fun x => x.line == l }

end Sys2Proof.Machine
end

