-- ==== Sys2Proof/Machine/Plaza.lean ====
section
/-! DEFINITION. The Plaza of a die (R320): a crossbar whose outputs grant multicasts in one order and unicasts by recency. It moves packets
and changes no value that a program reads (R3); which packets the model puts on it: notes/assumptions/63.md. -/

namespace Sys2Proof.Machine

/-! ### Ports -/

/-- The Plaza port of a cluster on its die, in ascending coordinate order. -/
def clusterPort (cl : Nat) : Nat := cl / 16 % 4 * 4 + cl % 4

/-- The port of the home slices, and that of the links between dies. DESIGN CHOICE: the manual numbers no port (notes/assumptions/63.md). -/
def homePort : Nat := 16
def linkPort : Nat := 17

/-! ### A cycle -/

/-- A multicast goes to several outputs. -/
def isMulticast (p : PlazaPacket) : Bool := 1 < p.outputs.length

/-- The oldest packet of each input: the ones that request. -/
def plazaHeads (l : List PlazaPacket) : List PlazaPacket := l.foldl (fun hs p => if hs.any fun h => h.input == p.input then hs else hs ++ [p]) []

/-- An output that no packet holds. -/
def outputFree (p : Plaza) (o : Nat) : Bool := Tbl.get 0 p.held o == 0

/-- The input of the multicast that an output picks: the requesting one that stands first in the multicast order. -/
def pickMulticast (p : Plaza) (hs : List PlazaPacket) (o : Nat) : Option Nat :=
  if outputFree p o then p.multicast.find? fun i => hs.any fun h => h.input == i && isMulticast h && h.outputs.contains o else none

/-- Every destination output has picked a multicast in this cycle. -/
def fullyPicked (p : Plaza) (hs : List PlazaPacket) (h : PlazaPacket) : Bool :=
  isMulticast h && h.outputs.all fun o => pickMulticast p hs o == some h.input

/-- The order of the inputs at an output, the least recently granted first. -/
def unicastOrder (p : Plaza) (o : Nat) : List Nat := Tbl.get Plaza.inputs p.unicast o

/-- The unicast that an output grants. -/
def pickUnicast (p : Plaza) (hs : List PlazaPacket) (o : Nat) : Option PlazaPacket :=
  (unicastOrder p o).findSome? fun i => hs.find? fun h => h.input == i && h.outputs == [o]

/-- An input that has been granted stands last. -/
def moveLast (l : List Nat) (i : Nat) : List Nat := l.filter (· != i) ++ [i]

/-- The multicasts and the unicasts, each with its output, that are granted in a cycle. -/
def grantedMulticasts (p : Plaza) : List PlazaPacket := (plazaHeads p.waiting).filter (fullyPicked p (plazaHeads p.waiting))

def grantedUnicasts (p : Plaza) : List (Nat × PlazaPacket) :=
  let taken := (grantedMulticasts p).flatMap (·.outputs)
  Plaza.inputs.filterMap fun o =>
    if outputFree p o && !taken.contains o then (pickUnicast p (plazaHeads p.waiting) o).map fun h => (o, h) else none

/-- The outputs that stay held after a cycle: those held before with one beat less, and those granted a packet of more beats than one. -/
def heldNext (held : Tbl Nat) (l : List (Nat × PlazaPacket)) : Tbl Nat :=
  l.foldl (fun t g => if 1 < g.2.beats then Tbl.set t g.1 (g.2.beats - 1) else t)
    (held.filterMap fun x => if x.2 ≤ 1 then none else some (x.1, x.2 - 1))

/-- One cycle of a Plaza (R320). -/
def plazaCycle (p : Plaza) : Plaza :=
  let multi := grantedMulticasts p
  let uni := grantedUnicasts p
  { multicast := multi.foldl (fun l h => moveLast l h.input) p.multicast,
    unicast := uni.foldl (fun t g => Tbl.set t g.1 (moveLast (unicastOrder p g.1) g.2.input)) p.unicast,
    held := heldNext p.held ((multi.flatMap fun h => h.outputs.map fun o => (o, h)) ++ uni),
    waiting := (multi ++ uni.map (·.2)).foldl (fun l h => l.erase h) p.waiting,
    grants := p.grants + BitVec.ofNat 64 (multi.length + uni.length) }

/-- Nothing waits at a Plaza and no output is held. -/
def plazaIdle (p : Plaza) : Bool := p.waiting.isEmpty && p.held.isEmpty

/-- A cycle of every die's Plaza. -/
def plazaTick (s : State) : State :=
  if s.dies.all fun d => plazaIdle d.2.plaza then s
  else { s with dies := Tbl.mapVal s.dies fun _ d => if plazaIdle d.plaza then d else { d with plaza := plazaCycle d.plaza } }

/-! ### Packets -/

/-- A packet arrives at an input of a die's Plaza. -/
def plazaSend (s : State) (die : Nat) (p : PlazaPacket) : State := updDie s die fun d => { d with plaza := { d.plaza with waiting := d.plaza.waiting ++ [p] } }

/-- The directory's invalidations to some cores (R317): those to the cluster ports of one die travel as one packet (R320). -/
def plazaInvalidate (s : State) (cores : List Nat) : State :=
  (cores.foldl (fun l c => NatSet.insert l (dieOf c)) []).foldl (fun s d =>
    plazaSend s d ⟨homePort, (cores.filter fun c => dieOf c == d).foldl (fun l c => NatSet.insert l (clusterPort (clusterOf c))) [], 1⟩) s

/-- A message reaches the destination's cluster port (R263, R338): from the sender's port of the same die, or from another die. -/
def plazaMessage (s : State) (from_ dest : Nat) : State :=
  plazaSend s (dieOf dest) ⟨if dieOf from_ == dieOf dest then clusterPort (clusterOf from_) else linkPort, [clusterPort (clusterOf dest)], 1⟩

end Sys2Proof.Machine
end

