-- ==== Sys2Proof/WellFormed.lean ====
section
/-! DEFINITION. Which terms of Instr are instructions: the checks of R40 that a field's type does not make already. -/

namespace Sys2Proof

/-- The operations SYSR, SYSW, SYSS and SYSC, coded 0 to 3 (R58, R231). -/
inductive SysOp | r | w | s | c
  deriving DecidableEq, Repr

/-- The operations R232 allocates for a system register index. -/
def sysAllows (op : SysOp) (x : BitVec 12) : Bool :=
  let n := x.toNat
  let readOnly := n == 0x000 || (0x002 ≤ n && n ≤ 0x005) || n == 0x00c || n == 0x00d || n == 0x011 || n == 0x012 ||
    (0x024 ≤ n && n ≤ 0x027) || n == 0x030
  let readWrite := n == 0x001 || n == 0x006 || (0x008 ≤ n && n ≤ 0x00b) || n == 0x010 || (0x014 ≤ n && n ≤ 0x017) ||
    (0x018 ≤ n && n ≤ 0x01a) || n == 0x020 || n == 0x021
  let windows := (0x040 ≤ n && n ≤ 0x047) || (0x050 ≤ n && n ≤ 0x05f)
  match op with
  | .r => readOnly || readWrite || windows
  | .w => readWrite || windows
  | .s => n == 0x018 || windows
  | .c => windows

/-- The number of elements a VMVS index may name (R51). -/
def MTy.elements : MTy → Nat
  | .w32 => 16
  | .w64 => 8
  | .w16 => 32

/-- A well-formed control word, command word or event. -/
def Instr.wf : Instr → Bool
  | .chold _ n => 1 ≤ n.toNat && n.toNat ≤ 64
  | .vcmpFloat _ _ kd _ _ _ _ | .vcmpInt _ _ kd _ _ _ _ => kd != 0
  | .kand _ kd _ _ | .kor _ kd _ _ | .kxor _ kd _ _ | .knot _ kd _ => kd != 0
  | .vmvs _ _ _ index t => index.toNat < t.elements
  | .vcvt _ _ _ dst src _ => dst != src
  | .arrive _ ch | .arriveNc _ ch | .wait _ ch => ch.toNat < 40
  | .sysr _ _ x => sysAllows .r x
  | .sysw _ x _ => sysAllows .w x
  | .syss _ x _ => sysAllows .s x
  | .sysc _ x _ => sysAllows .c x
  | .mldw f _ sent _ soff => f != .bf16 || (sent == 0 && soff == 0)
  | .mstrm f _ sent _ soff _ _ _ _ => f != .bf16 || (sent == 0 && soff == 0)
  | .mstore f nosat _ _ _ _ _ _ => f == .e4m3 || f == .e5m2 || !nosat
  | .cpy _ _ _ _ _ _ y | .cpy2d _ _ _ _ _ _ _ _ _ y | .cpyg _ _ _ _ _ _ _ _ _ y | .cfill _ _ _ _ y | .cpyu _ _ _ _ _ _ y =>
    y.on || (y.yent == 0 && y.yoff == 0)
  | .cpfr _ _ _ bar ch y => (y.on || (y.yent == 0 && y.yoff == 0)) && (bar || ch == 0)
  | .add .. | .sub .. | .and .. | .or .. | .xor .. | .andn .. | .orn .. | .shl .. | .shr .. | .sra .. | .rol ..
  | .ror .. | .slt .. | .sltu .. | .min .. | .max .. | .minu .. | .maxu .. | .mul .. | .mulh .. | .mulhu ..
  | .div .. | .divu .. | .rem .. | .remu .. | .clz .. | .ctz .. | .popc .. | .sextB .. | .sextH .. | .sextW ..
  | .zextB .. | .zextH .. | .zextW .. | .sel .. | .addi .. | .andi .. | .ori .. | .xori .. | .shli .. | .shri ..
  | .srai .. | .slti .. | .sltiu .. | .lui .. | .aupcc .. | .fadd .. | .fsub .. | .fmul .. | .fdiv .. | .fsqrt ..
  | .fmadd .. | .fmsub .. | .fmin .. | .fmax .. | .feq .. | .flt .. | .fle .. | .fcvt .. | .fclass .. | .fsgnj ..
  | .fsgnjAbs .. | .fsgnjNeg .. | .fsgnjX .. | .bCond .. | .j .. | .jc .. | .cgetaddr .. | .cgetbase ..
  | .cgetlen .. | .cgetperm .. | .cgettype .. | .cgettag .. | .csetaddr .. | .cincaddr .. | .csetbnds ..
  | .csetbndse .. | .candperm .. | .cclrtag .. | .cseal .. | .cunseal .. | .csealent .. | .cbuild ..
  | .csubset .. | .csame .. | .cfitlen .. | .cfitexp .. | .cmov .. | .cincaddri .. | .csetbndsi .. | .lb ..
  | .lbu .. | .lh .. | .lhu .. | .lw .. | .lwu .. | .ld .. | .lc .. | .sb .. | .sh .. | .sw .. | .sd .. | .sc ..
  | .pf .. | .clean .. | .flush .. | .discard .. | .amo .. | .cas .. | .casc .. | .ramo .. | .vaddFloat ..
  | .vsubFloat .. | .vmulFloat .. | .vfma .. | .vfnma .. | .vdiv .. | .vsqrt .. | .vminFloat .. | .vmaxFloat ..
  | .vredaddFloat .. | .vredmaxFloat .. | .vredminFloat .. | .vaddInt .. | .vsubInt .. | .vmulInt ..
  | .vminInt .. | .vmaxInt .. | .vredaddInt .. | .vredmaxInt .. | .vredminInt .. | .vand .. | .vor .. | .vxor ..
  | .vshl .. | .vshr .. | .vsra .. | .vsel .. | .vperm .. | .vbcast .. | .viota .. | .vmvv .. | .kpop ..
  | .vld .. | .vst .. | .vlds .. | .vsts .. | .vgath .. | .vscat .. | .dqpush .. | .dqpop .. | .dqsteal ..
  | .join .. | .suspend .. | .endThread .. | .klaunch .. | .fork .. | .rndz .. | .ecset .. | .cmdq ..
  | .mlease .. | .mfree .. | .epsend .. | .eprecv .. | .trap .. | .bkpt .. | .snap .. | .tsread .. | .pinv ..
  | .fenceXp .. | .fenceIo .. | .cbrk .. | .vcdef .. | .vcreshape .. | .vcbind .. | .vcreparent .. | .vcfree ..
  | .vcquery .. | .pfrange .. | .mldwWeightsComplete .. | .mswap .. | .mzero ..
  | .mend .. | .csync .. | .cend .. | .copyEngineChunk .. | .park .. | .chunkLimit .. | .commit ..
  | .invalidation .. | .commitComplete .. | .pinnedStart .. | .cmoComplete .. | .uncachedAnswer ..
  | .acquisition .. | .lrtail .. | .launchRingEntry .. | .kcancel .. | .energyReport .. | .groupJoin ..
  | .groupLeave .. | .release .. | .chunkcfgWrite .. | .dqringWrite .. | .injringWrite .. | .revpassStart ..
  | .revocationSweep .. | .revocationPassComplete .. | .iawWrite .. | .ncwWrite .. | .ptrootWrite ..
  | .leaseGrant .. | .mxleaseForce .. | .powertokWrite .. | .tokenTake .. | .drain .. | .switchatWrite ..
  | .gangSwitchStop .. | .sequencerSave .. | .contextSaved .. | .parkEntry .. | .restart .. | .leaseRestore ..
  | .contextFreed .. | .create .. | .grant .. | .returnCores .. | .mint .. | .revoke .. | .sealkey ..
  | .modelkey .. | .freeslot .. | .roster .. | .resume .. | .destroy .. | .migrate .. | .migrationChunk ..
  | .flipBiasToHost .. | .flipBiasToDevice .. | .biasFlipComplete .. | .reshapeWalk .. | .flushThrough ..
  | .vcDrain .. | .evictionNotice .. | .hostSnpinv .. | .hostSnpdata .. | .hostRequest .. | .bisnpResponse ..
  | .portTrainingStart .. | .trainingComplete .. | .negotiation .. | .hotReset .. | .linkDown ..
  | .remoteRequest .. | .requestLost .. | .reductionResult .. | .rdmaWrite .. | .lockInterface ..
  | .attestation .. | .fmPublicKeyWrite .. | .faultPacket .. | .eccUncorrectable .. | .eccCorrectable ..
  | .halt .. | .dbgResume .. | .step .. | .debugWindowWrite .. | .debugSysregWrite .. | .snapin .. | .snapctl ..
  | .snapshotLatch .. | .powerOn .. | .fuse .. | .calib .. | .init .. | .powerInterval .. | .registerWrite ..
  | .illegal .. | .fetchFault .. | .clusterPowerGate .. | .forcedReset .. | .supervisorReset ..
  | .hotResetComplete .. | .reductionGroupConfig .. | .memoryRegionRegistration .. => true

end Sys2Proof
end

