-- ==== Sys2Proof/Decode.lean ====
section
/-! DEFINITION. The decoder of control words (R38 to R60) and command words (R61 to R63, R244, R264), total and
rejecting by name, and after it the encoder written from the same maps. -/

namespace Sys2Proof

/-- Why a 32-bit pattern is no instruction: the cases of R40. -/
inductive DecodeError
  | major      -- an unallocated major opcode
  | function   -- an unallocated fn, op, cond, type or code value
  | nonzero    -- a field that must be zero
  | register   -- a register field outside its class
  | scope      -- a coordinate of the wrong scope
  deriving DecidableEq, Repr

/-- Which check of R63 a command word fails. -/
inductive CommandError
  | version    -- check 1: CMDVER
  | engine     -- checks 2 and 3: ENGINE
  deriving DecidableEq, Repr

abbrev Decoded := Except DecodeError Instr

def Decoded.need (c : Bool) (e : DecodeError) (x : Decoded) : Decoded := if c then x else .error e

/-- The fields of a control word (R38). -/
def fM (w : W32) : Bool := w.getLsbD 31
def fMajor (w : W32) : Nat := (w.extractLsb' 25 6).toNat
def fD (w : W32) : Reg := w.extractLsb' 20 5
def fA (w : W32) : Reg := w.extractLsb' 15 5
def fB (w : W32) : Reg := w.extractLsb' 10 5
def fFn (w : W32) : Nat := (w.extractLsb' 5 5).toNat
def fAux (w : W32) : BitVec 5 := w.extractLsb' 0 5
def fImm (w : W32) : BitVec 15 := w.extractLsb' 0 15
def fImm20 (w : W32) : BitVec 20 := w.extractLsb' 0 20
def fK (w : W32) : KReg := w.extractLsb' 5 3
def fType (w : W32) : Nat := (w.extractLsb' 8 2).toNat
def fOp (w : W32) : Nat := (w.extractLsb' 0 5).toNat

def RM.decode (n : BitVec 3) : Option RM :=
  match n.toNat with
  | 0 => some .rne | 1 => some .rtz | 2 => some .rdn | 3 => some .rup | 4 => some .rmm | _ => none

def AmoOp.decode (n : Nat) : Option AmoOp :=
  match n with
  | 0 => some .add | 1 => some .and | 2 => some .or | 3 => some .xor | 4 => some .min
  | 5 => some .max | 6 => some .minu | 7 => some .maxu | 8 => some .swap | _ => none

def Fcvt.decode (n : Nat) : Option Fcvt :=
  match n with
  | 0 => some .sd | 1 => some .ds | 2 => some .sl | 3 => some .slu | 4 => some .dl
  | 5 => some .dlu | 6 => some .ls | 7 => some .lus | 8 => some .ld | 9 => some .lud | _ => none

def Cond.decode (n : Nat) : Option Cond :=
  match n with
  | 0 => some .eq | 1 => some .ne | 2 => some .lt | 3 => some .ge | 4 => some .ltu | 5 => some .geu | _ => none

def VCond.decode (n : BitVec 2) : VCond :=
  match n.toNat with
  | 0 => .eq | 1 => .ne | 2 => .lt | _ => .le

def FTy.decode (n : Nat) : Option FTy :=
  match n with
  | 0 => some .f32 | 1 => some .bf16 | 2 => some .f64 | _ => none

def ITy.decode (n : Nat) : Option ITy :=
  match n with
  | 0 => some .i32 | 1 => some .i64 | _ => none

def MTy.decode (n : Nat) : Option MTy :=
  match n with
  | 0 => some .w32 | 1 => some .w64 | 2 => some .w16 | _ => none

def CTy.decode (n : Nat) : Option CTy :=
  match n with
  | 0 => some .f32 | 1 => some .i32 | 2 => some .bf16 | 3 => some .f64
  | 4 => some .i64 | 5 => some .f8e4 | 6 => some .f8e5 | _ => none

def MFmt.decode (n : BitVec 2) : MFmt :=
  match n.toNat with
  | 0 => .e4m3 | 1 => .e5m2 | 2 => .int8 | _ => .bf16

def OFmt.decode (n : BitVec 2) : OFmt :=
  match n.toNat with
  | 0 => .fp32 | 1 => .bf16 | 2 => .e4m3 | _ => .e5m2

def Option.orError {α : Type} (o : Option α) (f : α → Decoded) : Decoded :=
  match o with
  | some x => f x
  | none => .error .function

/-- Major INT (R43). -/
def decodeInt (w : W32) : Decoded :=
  let m := fM w; let d := fD w; let a := fA w; let b := fB w
  let aux0 := Decoded.need (fAux w == 0) .nonzero
  let unary (i : Instr) : Decoded := Decoded.need (fB w == 0) .nonzero (aux0 (.ok i))
  match fFn w with
  | 0 => aux0 (.ok (.add m d a b)) | 1 => aux0 (.ok (.sub m d a b)) | 2 => aux0 (.ok (.and m d a b))
  | 3 => aux0 (.ok (.or m d a b)) | 4 => aux0 (.ok (.xor m d a b)) | 5 => aux0 (.ok (.andn m d a b))
  | 6 => aux0 (.ok (.orn m d a b)) | 7 => aux0 (.ok (.shl m d a b)) | 8 => aux0 (.ok (.shr m d a b))
  | 9 => aux0 (.ok (.sra m d a b)) | 10 => aux0 (.ok (.rol m d a b)) | 11 => aux0 (.ok (.ror m d a b))
  | 12 => aux0 (.ok (.slt m d a b)) | 13 => aux0 (.ok (.sltu m d a b)) | 14 => aux0 (.ok (.min m d a b))
  | 15 => aux0 (.ok (.max m d a b)) | 16 => aux0 (.ok (.minu m d a b)) | 17 => aux0 (.ok (.maxu m d a b))
  | 18 => aux0 (.ok (.mul m d a b)) | 19 => aux0 (.ok (.mulh m d a b)) | 20 => aux0 (.ok (.mulhu m d a b))
  | 21 => aux0 (.ok (.div m d a b)) | 22 => aux0 (.ok (.divu m d a b)) | 23 => aux0 (.ok (.rem m d a b))
  | 24 => aux0 (.ok (.remu m d a b)) | 25 => unary (.clz m d a) | 26 => unary (.ctz m d a) | 27 => unary (.popc m d a)
  | 28 => Decoded.need (b == 0) .nonzero <| match (fAux w).toNat with
    | 0 => .ok (.sextB m d a) | 1 => .ok (.sextH m d a) | 2 => .ok (.sextW m d a) | _ => .error .function
  | 29 => Decoded.need (b == 0) .nonzero <| match (fAux w).toNat with
    | 0 => .ok (.zextB m d a) | 1 => .ok (.zextH m d a) | 2 => .ok (.zextW m d a) | _ => .error .function
  | 30 => .ok (.sel m d a b (fAux w))
  | _ => .error .function

/-- Major FP (R45). -/
def decodeFp (w : W32) : Decoded :=
  let m := fM w; let d := fD w; let a := fA w; let b := fB w
  let p := w.getLsbD 5
  let rm := w.extractLsb' 2 3
  let aux := w.extractLsb' 0 2
  let round (f : RM → Instr) : Decoded := Option.orError (RM.decode rm) fun r => .ok (f r)
  let plain (i : Instr) : Decoded := Decoded.need (rm == 0) .nonzero (.ok i)
  let aux0 := Decoded.need (aux == 0) .nonzero
  let b0 := Decoded.need (b == 0) .nonzero
  match (w.extractLsb' 6 4).toNat with
  | 0 => aux0 (round (.fadd m d a b p)) | 1 => aux0 (round (.fsub m d a b p)) | 2 => aux0 (round (.fmul m d a b p))
  | 3 => aux0 (round (.fdiv m d a b p)) | 4 => b0 (aux0 (round (.fsqrt m d a p)))
  | 5 => aux0 (round (.fmadd m d a b p)) | 6 => aux0 (round (.fmsub m d a b p))
  | 7 => aux0 (plain (.fmin m d a b p)) | 8 => aux0 (plain (.fmax m d a b p)) | 9 => aux0 (plain (.feq m d a b p))
  | 10 => aux0 (plain (.flt m d a b p)) | 11 => aux0 (plain (.fle m d a b p))
  | 12 => Decoded.need (!p) .nonzero (aux0 (Option.orError (Fcvt.decode b.toNat) fun c => round (.fcvt m d a c)))
  | 13 => b0 (aux0 (plain (.fclass m d a p)))
  | 14 => match aux.toNat with
    | 0 => plain (.fsgnj m d a b p) | 1 => b0 (plain (.fsgnjAbs m d a p))
    | 2 => b0 (plain (.fsgnjNeg m d a p)) | _ => plain (.fsgnjX m d a b p)
  | _ => .error .function

/-- Major CAP (R47). -/
def decodeCap (w : W32) : Decoded :=
  let m := fM w; let d := fD w; let a := fA w; let b := fB w
  let unary (i : Instr) : Decoded := Decoded.need (b == 0) .nonzero (.ok i)
  Decoded.need (fAux w == 0) .nonzero <| match fFn w with
  | 0 => unary (.cgetaddr m d a) | 1 => unary (.cgetbase m d a) | 2 => unary (.cgetlen m d a)
  | 3 => unary (.cgetperm m d a) | 4 => unary (.cgettype m d a) | 5 => unary (.cgettag m d a)
  | 6 => .ok (.csetaddr m d a b) | 7 => .ok (.cincaddr m d a b) | 8 => .ok (.csetbnds m d a b)
  | 9 => .ok (.csetbndse m d a b) | 10 => .ok (.candperm m d a b) | 11 => unary (.cclrtag m d a)
  | 12 => .ok (.cseal m d a b) | 13 => .ok (.cunseal m d a b) | 14 => unary (.csealent m d a)
  | 15 => .ok (.cbuild m d a b) | 16 => .ok (.csubset m d a b) | 17 => .ok (.csame m d a b)
  | 18 => unary (.cfitlen m d a) | 19 => unary (.cfitexp m d a) | 20 => unary (.cmov m d a)
  | _ => .error .function

/-- Majors AMO, RAMO and CHOLD (R49, R60). -/
def decodeAmo (w : W32) : Decoded :=
  let m := fM w; let d := fD w; let a := fA w; let b := fB w
  let size := (w.extractLsb' 3 2).toNat
  Decoded.need (w.extractLsb' 0 3 == (0 : BitVec 3)) .nonzero <|
  match fFn w with
  | 9 => Decoded.need (size < 2) .function (.ok (.cas m d a b (size == 1)))
  | 10 => Decoded.need (size == 0) .nonzero (.ok (.casc m d a b))
  | n => Decoded.need (size < 2) .function (Option.orError (AmoOp.decode n) fun op => .ok (.amo m d a b op (size == 1)))

def decodeRamo (w : W32) : Decoded :=
  Decoded.need (w.extractLsb' 5 3 == (0 : BitVec 3)) .scope <|
  Option.orError (AmoOp.decode (w.extractLsb' 1 4).toNat) fun op =>
    .ok (.ramo (fM w) (fD w) (fA w) (w.extractLsb' 8 7) op (w.getLsbD 0))

def decodeChold (w : W32) : Decoded :=
  Decoded.need (fD w == 0 && fA w == 0) .nonzero <|
  Decoded.need (1 ≤ (fImm w).toNat && (fImm w).toNat ≤ 64) .function (.ok (.chold (fM w) (fImm w)))

/-- Major CMO (R48). -/
def decodeCmo (w : W32) : Decoded :=
  match (fD w).toNat with
  | 0 => .ok (.pf (fM w) (fA w) (fImm w)) | 1 => .ok (.clean (fM w) (fA w) (fImm w))
  | 2 => .ok (.flush (fM w) (fA w) (fImm w)) | 3 => .ok (.discard (fM w) (fA w) (fImm w))
  | _ => .error .function

/-- Major VFLT (R50). -/
def decodeVflt (w : W32) : Decoded :=
  let m := fM w; let d := fD w; let a := fA w; let b := fB w; let k := fK w
  let b0 := Decoded.need (b == 0) .nonzero
  Option.orError (FTy.decode (fType w)) fun t =>
  match fOp w with
  | 0 => .ok (.vaddFloat m d a b t k) | 1 => .ok (.vsubFloat m d a b t k) | 2 => .ok (.vmulFloat m d a b t k)
  | 3 => .ok (.vfma m d a b t k) | 4 => .ok (.vfnma m d a b t k) | 5 => .ok (.vdiv m d a b t k)
  | 6 => b0 (.ok (.vsqrt m d a t k)) | 7 => .ok (.vminFloat m d a b t k) | 8 => .ok (.vmaxFloat m d a b t k)
  | 9 => Decoded.need (w.extractLsb' 20 3 != (0 : BitVec 3)) .register
      (.ok (.vcmpFloat m (VCond.decode (w.extractLsb' 23 2)) (w.extractLsb' 20 3) a b t k))
  | 10 => b0 (.ok (.vredaddFloat m d a t k)) | 11 => b0 (.ok (.vredmaxFloat m d a t k))
  | 12 => b0 (.ok (.vredminFloat m d a t k))
  | _ => .error .function

/-- Major VINT (R50). -/
def decodeVint (w : W32) : Decoded :=
  let m := fM w; let d := fD w; let a := fA w; let b := fB w; let k := fK w
  let b0 := Decoded.need (b == 0) .nonzero
  Option.orError (ITy.decode (fType w)) fun t =>
  match fOp w with
  | 0 => .ok (.vaddInt m d a b t k) | 1 => .ok (.vsubInt m d a b t k) | 2 => .ok (.vmulInt m d a b t k)
  | 7 => .ok (.vminInt m d a b t k) | 8 => .ok (.vmaxInt m d a b t k)
  | 9 => Decoded.need (w.extractLsb' 20 3 != (0 : BitVec 3)) .register
      (.ok (.vcmpInt m (VCond.decode (w.extractLsb' 23 2)) (w.extractLsb' 20 3) a b t k))
  | 10 => b0 (.ok (.vredaddInt m d a t k)) | 11 => b0 (.ok (.vredmaxInt m d a t k))
  | 12 => b0 (.ok (.vredminInt m d a t k)) | 13 => .ok (.vand m d a b t k) | 14 => .ok (.vor m d a b t k)
  | 15 => .ok (.vxor m d a b t k) | 16 => .ok (.vshl m d a b t k) | 17 => .ok (.vshr m d a b t k)
  | 18 => .ok (.vsra m d a b t k)
  | _ => .error .function

/-- Major VMOV (R51). -/
def decodeVmov (w : W32) : Decoded :=
  let m := fM w; let d := fD w; let a := fA w; let b := fB w; let k := fK w
  let b0 := Decoded.need (b == 0) .nonzero
  Option.orError (MTy.decode (fType w)) fun t =>
  match fOp w with
  | 0 => .ok (.vsel m d a b t k) | 1 => .ok (.vperm m d a b t k) | 2 => b0 (.ok (.vbcast m d a t k))
  | 3 => Decoded.need (a == 0) .nonzero (b0 (.ok (.viota m d t k)))
  | 4 => Decoded.need (k == 0) .nonzero (Decoded.need (b.toNat < t.elements) .function (.ok (.vmvs m d a b t)))
  | 5 => b0 (.ok (.vmvv m d a t k))
  | _ => .error .function

/-- Major VCV (R52). -/
def decodeVcv (w : W32) : Decoded :=
  Decoded.need (w.extractLsb' 8 4 == (0 : BitVec 4) && w.extractLsb' 0 2 == (0 : BitVec 2)) .nonzero <|
  Option.orError (CTy.decode (w.extractLsb' 12 3).toNat) fun dst =>
  Option.orError (CTy.decode (w.extractLsb' 2 3).toNat) fun src =>
    Decoded.need (dst != src) .function (.ok (.vcvt (fM w) (fD w) (fA w) dst src (fK w)))

/-- Major VMASK (R53): a mask number holds zero in the upper two bits of its field. -/
def decodeVmask (w : W32) : Decoded :=
  let m := fM w
  let kd : KReg := w.extractLsb' 20 3
  let ka : KReg := w.extractLsb' 15 3
  let kb : KReg := w.extractLsb' 10 3
  let okD := w.extractLsb' 23 2 == (0 : BitVec 2) && kd != 0
  let okA := w.extractLsb' 18 2 == (0 : BitVec 2)
  let okB := w.extractLsb' 13 2 == (0 : BitVec 2)
  Decoded.need (w.extractLsb' 5 5 == (0 : BitVec 5)) .nonzero <|
  match fOp w with
  | 0 => Decoded.need (okD && okA && okB) .register (.ok (.kand m kd ka kb))
  | 1 => Decoded.need (okD && okA && okB) .register (.ok (.kor m kd ka kb))
  | 2 => Decoded.need (okD && okA && okB) .register (.ok (.kxor m kd ka kb))
  | 3 => Decoded.need (okD && okA) .register (Decoded.need (fB w == 0) .nonzero (.ok (.knot m kd ka)))
  | 4 => Decoded.need okA .register (Decoded.need (fB w == 0) .nonzero (.ok (.kpop m (fD w) ka)))
  | _ => .error .function

/-- Major VMEM (R54). -/
def decodeVmem (w : W32) : Decoded :=
  let m := fM w; let d := fD w; let a := fA w; let b := fB w; let k := fK w
  let plain (i : Instr) : Decoded := Decoded.need (fType w == 0 && b == 0) .nonzero (.ok i)
  let typed (f : ITy → Instr) : Decoded := Option.orError (ITy.decode (fType w)) fun t => .ok (f t)
  match fOp w with
  | 0 => plain (.vld m d a k) | 1 => plain (.vst m d a k)
  | 2 => typed fun t => .vlds m d a b t k
  | 3 => typed fun t => .vsts m d a b t k
  | 4 => typed fun t => .vgath m d a b t k
  | 5 => typed fun t => .vscat m d a b t k
  | _ => .error .function

/-- Major BAR (R55). -/
def decodeBar (w : W32) : Decoded :=
  let m := fM w
  let ch : BitVec 6 := w.extractLsb' 0 6
  Decoded.need (fA w == 0 && w.extractLsb' 6 9 == (0 : BitVec 9)) .nonzero <|
  Decoded.need (ch.toNat < 40) .function <|
  match (fD w).toNat with
  | 0 => .ok (.arrive m ch) | 1 => .ok (.arriveNc m ch) | 2 => .ok (.wait m ch) | _ => .error .function

/-- Major DQ (R56). -/
def decodeDq (w : W32) : Decoded :=
  let m := fM w
  let coord : Coord := w.extractLsb' 5 10
  match fOp w with
  | 0 => Decoded.need (fD w == 0 && coord == 0) .nonzero (.ok (.dqpush m (fA w)))
  | 1 => Decoded.need (fA w == 0 && coord == 0) .nonzero (.ok (.dqpop m (fD w)))
  | 2 => Decoded.need (fA w == 0) .nonzero (.ok (.dqsteal m (fD w) coord))
  | _ => .error .function

/-- Major SYNC (R57): every field the form does not use is zero. -/
def decodeSync (w : W32) : Decoded :=
  let m := fM w; let d := fD w; let a := fA w; let b := fB w
  let d0 := Decoded.need (d == 0) .nonzero
  let a0 := Decoded.need (a == 0) .nonzero
  let b0 := Decoded.need (b == 0) .nonzero
  let none3 (i : Instr) : Decoded := d0 (a0 (b0 (.ok i)))
  if fFn w = 12 then d0 (a0 (b0 (.ok (.trap m (fAux w))))) else
  Decoded.need (fAux w == 0) .nonzero <| match fFn w with
  | 0 => d0 (b0 (.ok (.join m a))) | 1 => d0 (.ok (.suspend m a b)) | 2 => none3 (.endThread m)
  | 3 => d0 (b0 (.ok (.klaunch m a))) | 4 => .ok (.fork m d a b) | 5 => none3 (.rndz m)
  | 6 => Decoded.need (w.extractLsb' 23 2 == (0 : BitVec 2)) .register (b0 (.ok (.ecset m (w.extractLsb' 20 3) a)))
  | 7 => d0 (b0 (.ok (.cmdq m a))) | 8 => none3 (.mlease m) | 9 => none3 (.mfree m)
  | 10 => d0 (.ok (.epsend m a b)) | 11 => b0 (.ok (.eprecv m d a))
  | 13 => none3 (.bkpt m) | 14 => none3 (.snap m) | 15 => a0 (b0 (.ok (.tsread m d)))
  | 16 => d0 (b0 (.ok (.pinv m a))) | 17 => none3 (.fenceXp m) | 18 => none3 (.fenceIo m) | 19 => none3 (.cbrk m)
  | _ => .error .function

/-- Major SYS (R58): an index or operation that R232 does not allocate is ILLEGAL. -/
def decodeSys (w : W32) : Decoded :=
  let m := fM w
  let x : BitVec 12 := w.extractLsb' 0 12
  let one (op : SysOp) (zero : Reg) (i : Instr) : Decoded :=
    Decoded.need (zero == 0) .nonzero (Decoded.need (sysAllows op x) .function (.ok i))
  match (w.extractLsb' 12 3).toNat with
  | 0 => one .r (fA w) (.sysr m (fD w) x) | 1 => one .w (fD w) (.sysw m x (fA w))
  | 2 => one .s (fD w) (.syss m x (fA w)) | 3 => one .c (fD w) (.sysc m x (fA w))
  | _ => .error .function

/-- Major VC: the order of R310's table, worked encodings and opcode table (notes/assumptions/11.md). -/
def decodeVc (w : W32) : Decoded :=
  let m := fM w; let d := fD w; let a := fA w; let b := fB w
  let unary (i : Instr) : Decoded := Decoded.need (b == 0) .nonzero (.ok i)
  Decoded.need (fAux w == 0) .nonzero <| match fFn w with
  | 0 => .ok (.vcdef m d a b) | 1 => .ok (.vcreshape m d a b) | 2 => .ok (.vcbind m d a b)
  | 3 => .ok (.vcreparent m d a b) | 4 => unary (.vcfree m d a) | 5 => unary (.vcquery m d a)
  | 6 => .ok (.pfrange m d a b)
  | _ => .error .function

/-- Immediate shifts: imm15 bits 14:6 are zero (R39, R74). -/
def decodeShift (w : W32) (f : BitVec 6 → Instr) : Decoded :=
  Decoded.need (w.extractLsb' 6 9 == (0 : BitVec 9)) .nonzero (.ok (f (w.extractLsb' 0 6)))

/-- The decoder of control words: the major-opcode map of R42. -/
def decodeWord (w : W32) : Decoded :=
  let m := fM w; let d := fD w; let a := fA w; let i := fImm w
  match fMajor w with
  | 0x01 => decodeInt w
  | 0x02 => .ok (.addi m d a i) | 0x03 => .ok (.andi m d a i) | 0x04 => .ok (.ori m d a i) | 0x05 => .ok (.xori m d a i)
  | 0x06 => decodeShift w (.shli m d a) | 0x07 => decodeShift w (.shri m d a) | 0x08 => decodeShift w (.srai m d a)
  | 0x09 => .ok (.slti m d a i) | 0x0a => .ok (.sltiu m d a i)
  | 0x0b => .ok (.lui m d (fImm20 w)) | 0x0c => .ok (.aupcc m d (fImm20 w))
  | 0x0d => decodeFp w
  | 0x10 => Option.orError (Cond.decode (w.extractLsb' 22 3).toNat) fun c =>
      .ok (.bCond m c (w.extractLsb' 17 5) (w.extractLsb' 12 5) (w.extractLsb' 0 12))
  | 0x11 => .ok (.j m d (fImm20 w))
  | 0x12 => Decoded.need (i == 0) .nonzero (.ok (.jc m d a))
  | 0x14 => decodeCap w
  | 0x15 => .ok (.cincaddri m d a i) | 0x16 => .ok (.csetbndsi m d a i)
  | 0x18 => .ok (.lb m d a i) | 0x19 => .ok (.lbu m d a i) | 0x1a => .ok (.lh m d a i) | 0x1b => .ok (.lhu m d a i)
  | 0x1c => .ok (.lw m d a i) | 0x1d => .ok (.lwu m d a i) | 0x1e => .ok (.ld m d a i) | 0x1f => .ok (.lc m d a i)
  | 0x20 => .ok (.sb m d a i) | 0x21 => .ok (.sh m d a i) | 0x22 => .ok (.sw m d a i) | 0x23 => .ok (.sd m d a i)
  | 0x24 => .ok (.sc m d a i) | 0x25 => decodeCmo w
  | 0x28 => decodeAmo w | 0x29 => decodeRamo w | 0x2a => decodeChold w
  | 0x30 => decodeVflt w | 0x31 => decodeVint w | 0x32 => decodeVmov w | 0x33 => decodeVcv w
  | 0x34 => decodeVmask w | 0x35 => decodeVmem w
  | 0x38 => decodeBar w | 0x39 => decodeDq w | 0x3a => decodeSync w | 0x3b => decodeSys w | 0x3c => decodeVc w
  | _ => .error .major

/-- The slots of a command word (R61). -/
def cSlot (w : BitVec 256) (n : Nat) : W32 := w.extractLsb' (32 * n) 32
def cFlags (w : BitVec 256) : BitVec 16 := w.extractLsb' 224 16

/-- The sync fields of a copy command (R264): reserved when SYNC is 0. -/
def cSync (w : BitVec 256) : SyncRef := ⟨w.getLsbD 224, w.extractLsb' 8 3, cSlot w 6⟩

/-- The bits an entry of R244 or R264 assigns, by opcode: the mask of the 240 low bits. -/
def commandMask (w : BitVec 256) : BitVec 240 :=
  let word (f : BitVec 16) (o6 o5 o4 o3 o2 o1 o0 : W32) : BitVec 240 := f ++ o6 ++ o5 ++ o4 ++ o3 ++ o2 ++ o1 ++ o0
  let full : W32 := 0xffffffff
  let y0 : W32 := if w.getLsbD 224 then 0x700 else 0
  let y6 : W32 := if w.getLsbD 224 then full else 0
  let bf := w.extractLsb' 224 2 == (3 : BitVec 2)
  let fp8 := 2 ≤ (w.extractLsb' 224 2).toNat
  match (w.extractLsb' 248 8).toNat with
  | 0x11 => word 3 0 0 0 0 (if bf then 0 else full) full (if bf then 0x7 else 0x77)
  | 0x13 => word 3 0 0x7ff 0x7ff03ff 0xffff (if bf then 0 else full) full (if bf then 0x7 else 0x77)
  | 0x14 => word 0 0 0 0x7ff03ff 0 0 0 0
  | 0x15 => word (if fp8 then 0xf else 0xb) 0 0 0x7ff03ff 0xffff 0 full 0x7
  | 0x21 => word 3 y6 0 0 full full full (0x77 ||| y0)
  | 0x22 => word 3 y6 full full full full full (0x77 ||| y0)
  | 0x23 => word 3 y6 3 full 0x1ffff full full (0x7077 ||| y0)
  | 0x24 => word 1 y6 0 full full 0 full (0x7 ||| y0)
  | 0x25 => word 1 y6 0 0xff full full full (0x77 ||| y0)
  | 0x26 => word 5 y6 0 (if w.getLsbD 226 then 0x3f else 0) full full 0 (0x70 ||| y0)
  | 0x27 => word 0 full 0 0 0 0 full 0x700
  | _ => 0

/-- A command word that has passed checks 1 to 3 of R63, with its fields (R244, R264). -/
def commandFields (w : BitVec 256) : Option Instr :=
  let o := cSlot w
  let e (lo : Nat) : EReg := w.extractLsb' lo 3
  let f2 := w.extractLsb' 224 2
  match (w.extractLsb' 248 8).toNat with
  | 0x11 => some (.mldw (MFmt.decode f2) (e 0) (e 4) (o 1) (o 2))
  | 0x12 => some .mswap
  | 0x13 => some (.mstrm (MFmt.decode f2) (e 0) (e 4) (o 1) (o 2) (w.extractLsb' 96 16) (w.extractLsb' 128 10)
      (w.extractLsb' 144 11) (w.extractLsb' 160 11))
  | 0x14 => some (.mzero (w.extractLsb' 128 10) (w.extractLsb' 144 11))
  | 0x15 => some (.mstore (OFmt.decode f2) (w.getLsbD 226) (w.getLsbD 227) (e 0) (o 1) (w.extractLsb' 96 16)
      (w.extractLsb' 128 10) (w.extractLsb' 144 11))
  | 0x1f => some .mend
  | 0x21 => some (.cpy (w.getLsbD 225) (e 0) (e 4) (o 1) (o 2) (o 3) (cSync w))
  | 0x22 => some (.cpy2d (w.getLsbD 225) (e 0) (e 4) (o 1) (o 2) (w.extractLsb' 116 12) (w.extractLsb' 96 20)
      (o 4) (o 5) (cSync w))
  | 0x23 => some (.cpyg (w.getLsbD 225) (e 0) (e 4) (e 12) (o 1) (o 2) (w.extractLsb' 96 17) (o 4)
      (w.extractLsb' 160 2) (cSync w))
  | 0x24 => some (.cfill (e 0) (o 1) (o 3) (o 4) (cSync w))
  | 0x25 => some (.cpyu (e 0) (e 4) (o 1) (o 2) (o 3) (w.extractLsb' 128 8) (cSync w))
  | 0x26 => some (.cpfr (e 4) (o 2) (o 3) (w.getLsbD 226) (w.extractLsb' 128 6) (cSync w))
  | 0x27 => some (.csync (e 8) (o 1) (o 6))
  | 0x2f => some .cend
  | _ => none

/-- CLASS of an allocated opcode (R62). -/
def opcodeClass (op : Nat) : Nat := if 0x20 ≤ op then 1 else 0

/-- Checks 1 to 3 of R63, made by the sequencer of class `engine` (0 matrix, 1 copy), or by CMDQ for either class. -/
def decodeCommand (engine : Option Nat) (w : BitVec 256) : Except CommandError Instr :=
  let cls := (w.extractLsb' 240 4).toNat
  if w.extractLsb' 244 4 ≠ (1 : BitVec 4) then .error .version
  else if 1 < cls ∨ (engine.isSome ∧ engine ≠ some cls) then .error .engine
  else match commandFields w with
    | none => .error .engine
    | some i =>
      if opcodeClass (w.extractLsb' 248 8).toNat ≠ cls then .error .engine
      else if w.extractLsb' 0 240 &&& ~~~ (commandMask w) ≠ (0 : BitVec 240) then .error .engine
      else .ok i

/-- The instruction of a row of the opcode table whose bits are `v`: a control word of up to 32 bits, or a command
word (bit 0 the least significant bit of the first byte, R11, R61). -/
def decodeTableWord (nbits v : Nat) : Option Instr :=
  if nbits ≤ 32 then (decodeWord (BitVec.ofNat 32 v)).toOption
  else (decodeCommand none (BitVec.ofNat 256 v)).toOption

/-! The encoder, from the same maps. -/

def RM.code : RM → BitVec 3 | .rne => 0 | .rtz => 1 | .rdn => 2 | .rup => 3 | .rmm => 4
def AmoOp.code : AmoOp → Nat
  | .add => 0 | .and => 1 | .or => 2 | .xor => 3 | .min => 4 | .max => 5 | .minu => 6 | .maxu => 7 | .swap => 8
def Fcvt.code : Fcvt → BitVec 5
  | .sd => 0 | .ds => 1 | .sl => 2 | .slu => 3 | .dl => 4 | .dlu => 5 | .ls => 6 | .lus => 7 | .ld => 8 | .lud => 9
def Cond.code : Cond → BitVec 3 | .eq => 0 | .ne => 1 | .lt => 2 | .ge => 3 | .ltu => 4 | .geu => 5
def VCond.code : VCond → BitVec 2 | .eq => 0 | .ne => 1 | .lt => 2 | .le => 3
def FTy.code : FTy → BitVec 2 | .f32 => 0 | .bf16 => 1 | .f64 => 2
def ITy.code : ITy → BitVec 2 | .i32 => 0 | .i64 => 1
def MTy.code : MTy → BitVec 2 | .w32 => 0 | .w64 => 1 | .w16 => 2
def CTy.code : CTy → BitVec 3 | .f32 => 0 | .i32 => 1 | .bf16 => 2 | .f64 => 3 | .i64 => 4 | .f8e4 => 5 | .f8e5 => 6
def MFmt.code : MFmt → BitVec 2 | .e4m3 => 0 | .e5m2 => 1 | .int8 => 2 | .bf16 => 3
def OFmt.code : OFmt → BitVec 2 | .fp32 => 0 | .bf16 => 1 | .e4m3 => 2 | .e5m2 => 3

/-- The formats of R38. -/
def fmtA (m : Bool) (major : BitVec 6) (d a b : BitVec 5) (fn : BitVec 10) : W32 := BitVec.ofBool m ++ major ++ d ++ a ++ b ++ fn
def fmtI (m : Bool) (major : BitVec 6) (d a : BitVec 5) (imm : BitVec 15) : W32 := BitVec.ofBool m ++ major ++ d ++ a ++ imm
def fmtU (m : Bool) (major : BitVec 6) (d : BitVec 5) (imm : BitVec 20) : W32 := BitVec.ofBool m ++ major ++ d ++ imm
def fmtQ (m : Bool) (major : BitVec 6) (d a : BitVec 5) (coord : Coord) (fn : BitVec 5) : W32 :=
  BitVec.ofBool m ++ major ++ d ++ a ++ coord ++ fn
def fmtV (m : Bool) (major : BitVec 6) (d a b : BitVec 5) (t : BitVec 2) (k : BitVec 3) (op : BitVec 5) : W32 :=
  BitVec.ofBool m ++ major ++ d ++ a ++ b ++ t ++ k ++ op
def fmtF (m : Bool) (op : BitVec 4) (d a b : BitVec 5) (p : Bool) (rm : BitVec 3) (aux : BitVec 2) : W32 :=
  BitVec.ofBool m ++ 0x0d#6 ++ d ++ a ++ b ++ op ++ BitVec.ofBool p ++ rm ++ aux
/-- A mask number in a five-bit field (R53). -/
def kField (k : KReg) : BitVec 5 := 0#2 ++ k

/-- The control word of an instruction; none for a command word or an event. -/
def encodeWord : Instr → Option W32
  | .add m d a b => some (fmtA m 0x1#6 d a b 0x0#10)
  | .sub m d a b => some (fmtA m 0x1#6 d a b 0x20#10)
  | .and m d a b => some (fmtA m 0x1#6 d a b 0x40#10)
  | .or m d a b => some (fmtA m 0x1#6 d a b 0x60#10)
  | .xor m d a b => some (fmtA m 0x1#6 d a b 0x80#10)
  | .andn m d a b => some (fmtA m 0x1#6 d a b 0xa0#10)
  | .orn m d a b => some (fmtA m 0x1#6 d a b 0xc0#10)
  | .shl m d a b => some (fmtA m 0x1#6 d a b 0xe0#10)
  | .shr m d a b => some (fmtA m 0x1#6 d a b 0x100#10)
  | .sra m d a b => some (fmtA m 0x1#6 d a b 0x120#10)
  | .rol m d a b => some (fmtA m 0x1#6 d a b 0x140#10)
  | .ror m d a b => some (fmtA m 0x1#6 d a b 0x160#10)
  | .slt m d a b => some (fmtA m 0x1#6 d a b 0x180#10)
  | .sltu m d a b => some (fmtA m 0x1#6 d a b 0x1a0#10)
  | .min m d a b => some (fmtA m 0x1#6 d a b 0x1c0#10)
  | .max m d a b => some (fmtA m 0x1#6 d a b 0x1e0#10)
  | .minu m d a b => some (fmtA m 0x1#6 d a b 0x200#10)
  | .maxu m d a b => some (fmtA m 0x1#6 d a b 0x220#10)
  | .mul m d a b => some (fmtA m 0x1#6 d a b 0x240#10)
  | .mulh m d a b => some (fmtA m 0x1#6 d a b 0x260#10)
  | .mulhu m d a b => some (fmtA m 0x1#6 d a b 0x280#10)
  | .div m d a b => some (fmtA m 0x1#6 d a b 0x2a0#10)
  | .divu m d a b => some (fmtA m 0x1#6 d a b 0x2c0#10)
  | .rem m d a b => some (fmtA m 0x1#6 d a b 0x2e0#10)
  | .remu m d a b => some (fmtA m 0x1#6 d a b 0x300#10)
  | .clz m d a => some (fmtA m 0x1#6 d a 0 0x320#10)
  | .ctz m d a => some (fmtA m 0x1#6 d a 0 0x340#10)
  | .popc m d a => some (fmtA m 0x1#6 d a 0 0x360#10)
  | .sextB m d a => some (fmtA m 0x1#6 d a 0 0x380#10)
  | .sextH m d a => some (fmtA m 0x1#6 d a 0 0x381#10)
  | .sextW m d a => some (fmtA m 0x1#6 d a 0 0x382#10)
  | .zextB m d a => some (fmtA m 0x1#6 d a 0 0x3a0#10)
  | .zextH m d a => some (fmtA m 0x1#6 d a 0 0x3a1#10)
  | .zextW m d a => some (fmtA m 0x1#6 d a 0 0x3a2#10)
  | .sel m d a b c => some (fmtA m 0x1#6 d a b (0x1e#5 ++ c))
  | .addi m d a imm => some (fmtI m 0x2#6 d a imm)
  | .andi m d a imm => some (fmtI m 0x3#6 d a imm)
  | .ori m d a imm => some (fmtI m 0x4#6 d a imm)
  | .xori m d a imm => some (fmtI m 0x5#6 d a imm)
  | .shli m d a sh => some (fmtI m 0x6#6 d a (0#9 ++ sh))
  | .shri m d a sh => some (fmtI m 0x7#6 d a (0#9 ++ sh))
  | .srai m d a sh => some (fmtI m 0x8#6 d a (0#9 ++ sh))
  | .slti m d a imm => some (fmtI m 0x9#6 d a imm)
  | .sltiu m d a imm => some (fmtI m 0xa#6 d a imm)
  | .lui m d imm => some (fmtU m 0xb#6 d imm)
  | .aupcc m d imm => some (fmtU m 0xc#6 d imm)
  | .fadd m d a b p rm => some (fmtF m 0x0#4 d a b p rm.code 0x0#2)
  | .fsub m d a b p rm => some (fmtF m 0x1#4 d a b p rm.code 0x0#2)
  | .fmul m d a b p rm => some (fmtF m 0x2#4 d a b p rm.code 0x0#2)
  | .fdiv m d a b p rm => some (fmtF m 0x3#4 d a b p rm.code 0x0#2)
  | .fsqrt m d a p rm => some (fmtF m 0x4#4 d a 0 p rm.code 0x0#2)
  | .fmadd m d a b p rm => some (fmtF m 0x5#4 d a b p rm.code 0x0#2)
  | .fmsub m d a b p rm => some (fmtF m 0x6#4 d a b p rm.code 0x0#2)
  | .fmin m d a b p => some (fmtF m 0x7#4 d a b p 0 0x0#2)
  | .fmax m d a b p => some (fmtF m 0x8#4 d a b p 0 0x0#2)
  | .feq m d a b p => some (fmtF m 0x9#4 d a b p 0 0x0#2)
  | .flt m d a b p => some (fmtF m 0xa#4 d a b p 0 0x0#2)
  | .fle m d a b p => some (fmtF m 0xb#4 d a b p 0 0x0#2)
  | .fcvt m d a c rm => some (fmtF m 0xc#4 d a c.code false rm.code 0x0#2)
  | .fclass m d a p => some (fmtF m 0xd#4 d a 0 p 0 0x0#2)
  | .fsgnj m d a b p => some (fmtF m 0xe#4 d a b p 0 0x0#2)
  | .fsgnjAbs m d a p => some (fmtF m 0xe#4 d a 0 p 0 0x1#2)
  | .fsgnjNeg m d a p => some (fmtF m 0xe#4 d a 0 p 0 0x2#2)
  | .fsgnjX m d a b p => some (fmtF m 0xe#4 d a b p 0 0x3#2)
  | .bCond m c a b disp => some (BitVec.ofBool m ++ 0x10#6 ++ c.code ++ a ++ b ++ disp)
  | .j m d disp => some (fmtU m 0x11#6 d disp)
  | .jc m d a => some (fmtA m 0x12#6 d a 0 0x0#10)
  | .cgetaddr m d a => some (fmtA m 0x14#6 d a 0 0x0#10)
  | .cgetbase m d a => some (fmtA m 0x14#6 d a 0 0x20#10)
  | .cgetlen m d a => some (fmtA m 0x14#6 d a 0 0x40#10)
  | .cgetperm m d a => some (fmtA m 0x14#6 d a 0 0x60#10)
  | .cgettype m d a => some (fmtA m 0x14#6 d a 0 0x80#10)
  | .cgettag m d a => some (fmtA m 0x14#6 d a 0 0xa0#10)
  | .csetaddr m d a b => some (fmtA m 0x14#6 d a b 0xc0#10)
  | .cincaddr m d a b => some (fmtA m 0x14#6 d a b 0xe0#10)
  | .csetbnds m d a b => some (fmtA m 0x14#6 d a b 0x100#10)
  | .csetbndse m d a b => some (fmtA m 0x14#6 d a b 0x120#10)
  | .candperm m d a b => some (fmtA m 0x14#6 d a b 0x140#10)
  | .cclrtag m d a => some (fmtA m 0x14#6 d a 0 0x160#10)
  | .cseal m d a b => some (fmtA m 0x14#6 d a b 0x180#10)
  | .cunseal m d a b => some (fmtA m 0x14#6 d a b 0x1a0#10)
  | .csealent m d a => some (fmtA m 0x14#6 d a 0 0x1c0#10)
  | .cbuild m d a b => some (fmtA m 0x14#6 d a b 0x1e0#10)
  | .csubset m d a b => some (fmtA m 0x14#6 d a b 0x200#10)
  | .csame m d a b => some (fmtA m 0x14#6 d a b 0x220#10)
  | .cfitlen m d a => some (fmtA m 0x14#6 d a 0 0x240#10)
  | .cfitexp m d a => some (fmtA m 0x14#6 d a 0 0x260#10)
  | .cmov m d a => some (fmtA m 0x14#6 d a 0 0x280#10)
  | .cincaddri m d a imm => some (fmtI m 0x15#6 d a imm)
  | .csetbndsi m d a imm => some (fmtI m 0x16#6 d a imm)
  | .lb m d a off => some (fmtI m 0x18#6 d a off)
  | .lbu m d a off => some (fmtI m 0x19#6 d a off)
  | .lh m d a off => some (fmtI m 0x1a#6 d a off)
  | .lhu m d a off => some (fmtI m 0x1b#6 d a off)
  | .lw m d a off => some (fmtI m 0x1c#6 d a off)
  | .lwu m d a off => some (fmtI m 0x1d#6 d a off)
  | .ld m d a off => some (fmtI m 0x1e#6 d a off)
  | .lc m d a off => some (fmtI m 0x1f#6 d a off)
  | .sb m src a off => some (fmtI m 0x20#6 src a off)
  | .sh m src a off => some (fmtI m 0x21#6 src a off)
  | .sw m src a off => some (fmtI m 0x22#6 src a off)
  | .sd m src a off => some (fmtI m 0x23#6 src a off)
  | .sc m src a off => some (fmtI m 0x24#6 src a off)
  | .pf m a off => some (fmtI m 0x25#6 0x0#5 a off)
  | .clean m a off => some (fmtI m 0x25#6 0x1#5 a off)
  | .flush m a off => some (fmtI m 0x25#6 0x2#5 a off)
  | .discard m a off => some (fmtI m 0x25#6 0x3#5 a off)
  | .amo m d a b op dbl => some (fmtA m 0x28#6 d a b (BitVec.ofNat 5 op.code ++ 0#1 ++ BitVec.ofBool dbl ++ 0#3))
  | .cas m d a b dbl => some (fmtA m 0x28#6 d a b (9#5 ++ 0#1 ++ BitVec.ofBool dbl ++ 0#3))
  | .casc m d a b => some (fmtA m 0x28#6 d a b 0x140#10)
  | .ramo m d a cl op dbl => some (fmtQ m 0x29#6 d a (cl ++ 0#3) (BitVec.ofNat 4 op.code ++ BitVec.ofBool dbl))
  | .chold m n => some (fmtI m 0x2a#6 0 0 n)
  | .vaddFloat m d a b t k => some (fmtV m 0x30#6 d a b t.code k 0x0#5)
  | .vsubFloat m d a b t k => some (fmtV m 0x30#6 d a b t.code k 0x1#5)
  | .vmulFloat m d a b t k => some (fmtV m 0x30#6 d a b t.code k 0x2#5)
  | .vfma m d a b t k => some (fmtV m 0x30#6 d a b t.code k 0x3#5)
  | .vfnma m d a b t k => some (fmtV m 0x30#6 d a b t.code k 0x4#5)
  | .vdiv m d a b t k => some (fmtV m 0x30#6 d a b t.code k 0x5#5)
  | .vsqrt m d a t k => some (fmtV m 0x30#6 d a 0 t.code k 0x6#5)
  | .vminFloat m d a b t k => some (fmtV m 0x30#6 d a b t.code k 0x7#5)
  | .vmaxFloat m d a b t k => some (fmtV m 0x30#6 d a b t.code k 0x8#5)
  | .vcmpFloat m c kd a b t k => some (fmtV m 0x30#6 (c.code ++ kd) a b t.code k 0x9#5)
  | .vredaddFloat m d a t k => some (fmtV m 0x30#6 d a 0 t.code k 0xa#5)
  | .vredmaxFloat m d a t k => some (fmtV m 0x30#6 d a 0 t.code k 0xb#5)
  | .vredminFloat m d a t k => some (fmtV m 0x30#6 d a 0 t.code k 0xc#5)
  | .vaddInt m d a b t k => some (fmtV m 0x31#6 d a b t.code k 0x0#5)
  | .vsubInt m d a b t k => some (fmtV m 0x31#6 d a b t.code k 0x1#5)
  | .vmulInt m d a b t k => some (fmtV m 0x31#6 d a b t.code k 0x2#5)
  | .vminInt m d a b t k => some (fmtV m 0x31#6 d a b t.code k 0x7#5)
  | .vmaxInt m d a b t k => some (fmtV m 0x31#6 d a b t.code k 0x8#5)
  | .vcmpInt m c kd a b t k => some (fmtV m 0x31#6 (c.code ++ kd) a b t.code k 0x9#5)
  | .vredaddInt m d a t k => some (fmtV m 0x31#6 d a 0 t.code k 0xa#5)
  | .vredmaxInt m d a t k => some (fmtV m 0x31#6 d a 0 t.code k 0xb#5)
  | .vredminInt m d a t k => some (fmtV m 0x31#6 d a 0 t.code k 0xc#5)
  | .vand m d a b t k => some (fmtV m 0x31#6 d a b t.code k 0xd#5)
  | .vor m d a b t k => some (fmtV m 0x31#6 d a b t.code k 0xe#5)
  | .vxor m d a b t k => some (fmtV m 0x31#6 d a b t.code k 0xf#5)
  | .vshl m d a b t k => some (fmtV m 0x31#6 d a b t.code k 0x10#5)
  | .vshr m d a b t k => some (fmtV m 0x31#6 d a b t.code k 0x11#5)
  | .vsra m d a b t k => some (fmtV m 0x31#6 d a b t.code k 0x12#5)
  | .vsel m d a b t k => some (fmtV m 0x32#6 d a b t.code k 0x0#5)
  | .vperm m d a b t k => some (fmtV m 0x32#6 d a b t.code k 0x1#5)
  | .vbcast m d a t k => some (fmtV m 0x32#6 d a 0 t.code k 0x2#5)
  | .viota m d t k => some (fmtV m 0x32#6 d 0 0 t.code k 0x3#5)
  | .vmvs m d a index t => some (fmtV m 0x32#6 d a index t.code 0 0x4#5)
  | .vmvv m d a t k => some (fmtV m 0x32#6 d a 0 t.code k 0x5#5)
  | .vcvt m d a dst src k => some (BitVec.ofBool m ++ 0x33#6 ++ d ++ a ++ dst.code ++ 0#4 ++ k ++ src.code ++ 0#2)
  | .kand m kd ka kb => some (fmtA m 0x34#6 (kField kd) (kField ka) (kField kb) 0x0#10)
  | .kor m kd ka kb => some (fmtA m 0x34#6 (kField kd) (kField ka) (kField kb) 0x1#10)
  | .kxor m kd ka kb => some (fmtA m 0x34#6 (kField kd) (kField ka) (kField kb) 0x2#10)
  | .knot m kd ka => some (fmtA m 0x34#6 (kField kd) (kField ka) 0 0x3#10)
  | .kpop m d ka => some (fmtA m 0x34#6 d (kField ka) 0 0x4#10)
  | .vld m v a k => some (fmtV m 0x35#6 v a 0 0 k 0x0#5)
  | .vst m v a k => some (fmtV m 0x35#6 v a 0 0 k 0x1#5)
  | .vlds m v a b t k => some (fmtV m 0x35#6 v a b t.code k 0x2#5)
  | .vsts m v a b t k => some (fmtV m 0x35#6 v a b t.code k 0x3#5)
  | .vgath m v a b t k => some (fmtV m 0x35#6 v a b t.code k 0x4#5)
  | .vscat m v a b t k => some (fmtV m 0x35#6 v a b t.code k 0x5#5)
  | .arrive m ch => some (fmtI m 0x38#6 0x0#5 0 (0#9 ++ ch))
  | .arriveNc m ch => some (fmtI m 0x38#6 0x1#5 0 (0#9 ++ ch))
  | .wait m ch => some (fmtI m 0x38#6 0x2#5 0 (0#9 ++ ch))
  | .dqpush m a => some (fmtQ m 0x39#6 0 a 0 0x0#5)
  | .dqpop m d => some (fmtQ m 0x39#6 d 0 0 0x1#5)
  | .dqsteal m d victim => some (fmtQ m 0x39#6 d 0 victim 0x2#5)
  | .join m a => some (fmtA m 0x3a#6 0 a 0 0x0#10)
  | .suspend m a b => some (fmtA m 0x3a#6 0 a b 0x20#10)
  | .endThread m => some (fmtA m 0x3a#6 0 0 0 0x40#10)
  | .klaunch m a => some (fmtA m 0x3a#6 0 a 0 0x60#10)
  | .fork m d a b => some (fmtA m 0x3a#6 d a b 0x80#10)
  | .rndz m => some (fmtA m 0x3a#6 0 0 0 0xa0#10)
  | .ecset m e a => some (fmtA m 0x3a#6 (0#2 ++ e) a 0 0xc0#10)
  | .cmdq m a => some (fmtA m 0x3a#6 0 a 0 0xe0#10)
  | .mlease m => some (fmtA m 0x3a#6 0 0 0 0x100#10)
  | .mfree m => some (fmtA m 0x3a#6 0 0 0 0x120#10)
  | .epsend m a b => some (fmtA m 0x3a#6 0 a b 0x140#10)
  | .eprecv m d a => some (fmtA m 0x3a#6 d a 0 0x160#10)
  | .trap m code => some (fmtA m 0x3a#6 0 0 0 (0xc#5 ++ code))
  | .bkpt m => some (fmtA m 0x3a#6 0 0 0 0x1a0#10)
  | .snap m => some (fmtA m 0x3a#6 0 0 0 0x1c0#10)
  | .tsread m d => some (fmtA m 0x3a#6 d 0 0 0x1e0#10)
  | .pinv m a => some (fmtA m 0x3a#6 0 a 0 0x200#10)
  | .fenceXp m => some (fmtA m 0x3a#6 0 0 0 0x220#10)
  | .fenceIo m => some (fmtA m 0x3a#6 0 0 0 0x240#10)
  | .cbrk m => some (fmtA m 0x3a#6 0 0 0 0x260#10)
  | .sysr m d x => some (fmtI m 0x3b#6 d 0 (0x0#3 ++ x))
  | .sysw m x a => some (fmtI m 0x3b#6 0 a (0x1#3 ++ x))
  | .syss m x a => some (fmtI m 0x3b#6 0 a (0x2#3 ++ x))
  | .sysc m x a => some (fmtI m 0x3b#6 0 a (0x3#3 ++ x))
  | .vcdef m d a b => some (fmtA m 0x3c#6 d a b 0x0#10)
  | .vcreshape m d a b => some (fmtA m 0x3c#6 d a b 0x20#10)
  | .vcbind m d a b => some (fmtA m 0x3c#6 d a b 0x40#10)
  | .vcreparent m d a b => some (fmtA m 0x3c#6 d a b 0x60#10)
  | .vcfree m d a => some (fmtA m 0x3c#6 d a 0 0x80#10)
  | .vcquery m d a => some (fmtA m 0x3c#6 d a 0 0xa0#10)
  | .pfrange m d a b => some (fmtA m 0x3c#6 d a b 0xc0#10)
  | .mldw .. | .mldwWeightsComplete .. | .mswap .. | .mstrm .. | .mzero .. | .mstore .. | .mend .. | .cpy ..
  | .cpy2d .. | .cpyg .. | .cfill .. | .cpyu .. | .cpfr .. | .csync .. | .cend .. | .copyEngineChunk ..
  | .park .. | .chunkLimit .. | .commit .. | .invalidation .. | .commitComplete .. | .pinnedStart ..
  | .cmoComplete .. | .uncachedAnswer .. | .acquisition .. | .lrtail .. | .launchRingEntry .. | .kcancel ..
  | .energyReport .. | .groupJoin .. | .groupLeave .. | .release .. | .chunkcfgWrite .. | .dqringWrite ..
  | .injringWrite .. | .revpassStart .. | .revocationSweep .. | .revocationPassComplete .. | .iawWrite ..
  | .ncwWrite .. | .ptrootWrite .. | .leaseGrant .. | .mxleaseForce .. | .powertokWrite .. | .tokenTake ..
  | .drain .. | .switchatWrite .. | .gangSwitchStop .. | .sequencerSave .. | .contextSaved .. | .parkEntry ..
  | .restart .. | .leaseRestore .. | .contextFreed .. | .create .. | .grant .. | .returnCores .. | .mint ..
  | .revoke .. | .sealkey .. | .modelkey .. | .freeslot .. | .roster .. | .resume .. | .destroy .. | .migrate ..
  | .migrationChunk .. | .flipBiasToHost .. | .flipBiasToDevice .. | .biasFlipComplete .. | .reshapeWalk ..
  | .flushThrough .. | .vcDrain .. | .evictionNotice .. | .hostSnpinv .. | .hostSnpdata .. | .hostRequest ..
  | .bisnpResponse .. | .portTrainingStart .. | .trainingComplete .. | .negotiation .. | .hotReset ..
  | .linkDown .. | .remoteRequest .. | .requestLost .. | .reductionResult .. | .rdmaWrite .. | .lockInterface ..
  | .attestation .. | .fmPublicKeyWrite .. | .faultPacket .. | .eccUncorrectable .. | .eccCorrectable ..
  | .halt .. | .dbgResume .. | .step .. | .debugWindowWrite .. | .debugSysregWrite .. | .snapin .. | .snapctl ..
  | .snapshotLatch .. | .powerOn .. | .fuse .. | .calib .. | .init .. | .powerInterval .. | .registerWrite ..
  | .illegal .. | .fetchFault .. | .clusterPowerGate .. | .forcedReset .. | .supervisorReset ..
  | .hotResetComplete .. | .reductionGroupConfig .. | .memoryRegionRegistration .. => none

/-- The sync fields of a copy command, in o0 bits 10:8 and o6 (R264). -/
def syncBits (y : SyncRef) (low : W32) : W32 := low ||| ((0#21 ++ y.yent ++ 0#8) : W32)

/-- A command word from its opcode, class, flags and slots (R61); VERSION is 1. -/
def commandWord (op : Byte) (cls : BitVec 4) (flags : BitVec 16) (o6 o5 o4 o3 o2 o1 o0 : W32) : BitVec 256 :=
  op ++ 1#4 ++ cls ++ flags ++ o6 ++ o5 ++ o4 ++ o3 ++ o2 ++ o1 ++ o0

/-- Two engine entries in o0 bits 2:0 and 6:4. -/
def twoEntries (lo hi : EReg) : W32 := 0#25 ++ hi ++ 0#1 ++ lo

def accRows (acc : Coord) (rows : BitVec 11) : W32 := 0#5 ++ rows ++ 0#6 ++ acc

/-- The command word of a command; none for a control word or an event. -/
def encodeCommand (i : Instr) : Option (BitVec 256) :=
  match i with
  | .mldw f w sc wo so => some (commandWord 0x11 0 (0#14 ++ f.code) 0 0 0 0 so wo (twoEntries w sc))
  | .mswap => some (commandWord 0x12 0 0 0 0 0 0 0 0 0)
  | .mstrm f a sc ao so st acc rows rowoff =>
    some (commandWord 0x13 0 (0#14 ++ f.code) 0 (0#21 ++ rowoff) (accRows acc rows) (0#16 ++ st) so ao (twoEntries a sc))
  | .mzero acc rows => some (commandWord 0x14 0 0 0 0 (accRows acc rows) 0 0 0 0)
  | .mstore f ns cl d dof st acc rows =>
    some (commandWord 0x15 0 (0#12 ++ BitVec.ofBool cl ++ BitVec.ofBool ns ++ f.code) 0 0 (accRows acc rows) (0#16 ++ st) 0
      dof (0#29 ++ d))
  | .mend => some (commandWord 0x1f 0 0 0 0 0 0 0 0 0)
  | .cpy tg d sr dof so len y =>
    some (commandWord 0x21 1 (0#14 ++ BitVec.ofBool tg ++ BitVec.ofBool y.on) y.yoff 0 0 len so dof (syncBits y (twoEntries d sr)))
  | .cpy2d tg d sr dof so rows rowlen ss ds y =>
    some (commandWord 0x22 1 (0#14 ++ BitVec.ofBool tg ++ BitVec.ofBool y.on) y.yoff ds ss (rows ++ rowlen) so dof
      (syncBits y (twoEntries d sr)))
  | .cpyg tg d sr ie dof so count io es y =>
    some (commandWord 0x23 1 (0#14 ++ BitVec.ofBool tg ++ BitVec.ofBool y.on) y.yoff (0#30 ++ es) io (0#15 ++ count) so dof
      (syncBits y (twoEntries d sr ||| ((0#17 ++ ie ++ 0#12) : W32))))
  | .cfill d dof len val y =>
    some (commandWord 0x24 1 (0#15 ++ BitVec.ofBool y.on) y.yoff 0 val len 0 dof (syncBits y (0#29 ++ d)))
  | .cpyu d sr dof so len slot y =>
    some (commandWord 0x25 1 (0#15 ++ BitVec.ofBool y.on) y.yoff 0 (0#24 ++ slot) len so dof (syncBits y (twoEntries d sr)))
  | .cpfr sr so len bar ch y =>
    some (commandWord 0x26 1 (0#13 ++ BitVec.ofBool bar ++ 0#1 ++ BitVec.ofBool y.on) y.yoff 0 (0#26 ++ ch) len so 0
      (syncBits y (twoEntries 0 sr)))
  | .csync ye target yo => some (commandWord 0x27 1 0 yo 0 0 0 0 target (0#21 ++ ye ++ 0#8))
  | .cend => some (commandWord 0x2f 1 0 0 0 0 0 0 0 0)
  | _ => none

end Sys2Proof
end

