-- ==== Sys2Proof/Machine/Operands.lean ====
section
/-! DEFINITION. Operands: who acts, its registers (R5, R67), effective addresses (R109) and the elements of vectors (R157). -/

namespace Sys2Proof.Machine

/-! ### The acting thread -/

def meCore (s : State) : Nat := s.turn.core.toNat
def meSlot (s : State) : Nat := s.turn.slot.toNat
def myCore (s : State) : Core := coreAt s (meCore s)
def mySlot (s : State) : Slot := slotAt s (meCore s) (meSlot s)
def myRegs (s : State) : Regs := (mySlot s).regs
def myCtx (s : State) : BitVec 12 := (myCore s).owner
def myCluster (s : State) : Nat := clusterOf (meCore s)
def setMySlot (s : State) (x : Slot) : State := setSlot s (meCore s) (meSlot s) x
def updMySlot (s : State) (f : Slot → Slot) : State := setMySlot s (f (mySlot s))
def updMyRegs (s : State) (f : Regs → Regs) : State := updMySlot s fun x => { x with regs := f x.regs }
def updMyChunk (s : State) (f : Chunk → Chunk) : State := updMySlot s fun x => { x with cur := f x.cur }

/-! ### Registers -/

/-- g0 reads as null (R5). -/
def regsG (r : Regs) (n : Reg) : Cap := if n = 0 then Cap.null else Tbl.get Cap.null r.g n.toNat
def regsV (r : Regs) (n : Reg) : Vec := Tbl.get 0 r.v n.toNat
/-- k0 reads all ones (R158). -/
def regsK (r : Regs) (n : KReg) : Mask := if n = 0 then BitVec.allOnes 16 else Tbl.get 0 r.k n.toNat

/-- A write to g0 is discarded (R67). -/
def regsSetG (r : Regs) (n : Reg) (c : Cap) : Regs := if n = 0 then r else { r with g := Tbl.set r.g n.toNat c }
def regsSetV (r : Regs) (n : Reg) (x : Vec) : Regs := { r with v := Tbl.set r.v n.toNat x }
def regsSetK (r : Regs) (n : KReg) (x : Mask) : Regs := if n = 0 then r else { r with k := Tbl.set r.k n.toNat x }

def readG (s : State) (n : Reg) : Cap := regsG (myRegs s) n
/-- An integer or floating-point operand: bits 63:0, whatever the tag (R67). -/
def readX (s : State) (n : Reg) : W64 := capAddr (readG s n)
def readV (s : State) (n : Reg) : Vec := regsV (myRegs s) n
def readK (s : State) (n : KReg) : Mask := regsK (myRegs s) n

/-! ### The pending list (R69) -/

def pendIsG (n : Reg) : Pend → Bool
  | .g d _ => d == n
  | _ => false

def pendIsV (n : Reg) : Pend → Bool
  | .v d _ => d == n
  | _ => false

def pendIsK (n : KReg) : Pend → Bool
  | .k d _ => d == n
  | _ => false

def pendReady : Pend → Bool
  | .g _ none => false
  | _ => true

def pendWrite (r : Regs) : Pend → Regs
  | .g d (some c) => regsSetG r d c
  | .g _ none => r
  | .v d x => regsSetV r d x
  | .k d x => regsSetK r d x

/-- A park whose entries all hold their values: each is written, oldest first, and the list is empty. -/
def regsPark (r : Regs) : Regs := r.pending.foldl pendWrite { r with pending := [] }

/-- An immediate result: written as the instruction issues, and a later writer wins (R69). -/
def regsImmediate (r : Regs) (n : Reg) (c : Cap) : Regs :=
  let r := regsSetG r n c
  { r with pending := r.pending.filter fun p => !pendIsG n p }

/-- A deferred result joins the list; one of g0 is discarded and takes no entry (R67; notes/assumptions/12.md). -/
def regsDefer (r : Regs) (p : Pend) : Regs :=
  match p with
  | .g d _ => if d = 0 then r else { r with pending := r.pending ++ [p] }
  | _ => { r with pending := r.pending ++ [p] }

/-! ### Effective addresses -/

/-- (ga.address + SignExtend(imm15)) mod 2^64 (R109). -/
def effAddr (c : Cap) (off : BitVec 15) : Nat := (capAddr c + off.signExtend 64).toNat

/-! ### Elements -/

/-- Element i of width w of a vector. -/
def elemOf (w i : Nat) (x : Vec) : Nat := x.toNat / 2 ^ (w * i) % 2 ^ w

/-- A vector from its elements of width w, element 0 lowest. -/
def elemsPack (w : Nat) : List Nat → Nat
  | [] => 0
  | x :: r => x % 2 ^ w + 2 ^ w * elemsPack w r

/-- A vector whose element i of n, of width w, is f i. -/
def vecOf (w n : Nat) (f : Nat → Nat) : Vec := BitVec.ofNat 512 (elemsPack w ((upTo n).map f))

end Sys2Proof.Machine
end

