-- ==== Sys2Proof/Machine/Flags.lean ====
section
/-! DEFINITION. Conditions. The Ewerdazil keeps no flags (R25): a comparison writes its result to a register or a mask, or decides
a branch. -/

namespace Sys2Proof.Machine

def boolW (b : Bool) : W64 := if b then 1 else 0

/-- The condition of B.cond (R83). -/
def condHolds (c : Cond) (a b : W64) : Bool :=
  match c with
  | .eq => a == b
  | .ne => a != b
  | .lt => a.slt b
  | .ge => !a.slt b
  | .ltu => a.ult b
  | .geu => !a.ult b

/-- The condition of a vector compare of integers, signed (R162). -/
def vcondInt (c : VCond) (a b : Int) : Bool :=
  match c with
  | .eq => a == b
  | .ne => a != b
  | .lt => a < b
  | .le => a ≤ b

/-- An element of width w as a signed number. -/
def signedOf (w x : Nat) : Int := if x / 2 ^ (w - 1) % 2 == 1 then (x : Int) - 2 ^ w else x

/-- A signed number as an element of width w. -/
def wrapTo (w : Nat) (i : Int) : Nat := (i % 2 ^ w).toNat

end Sys2Proof.Machine
end

