-- ==== Sys2Proof/Machine/Ops.lean ====
section
/-! DEFINITION. The shared operations of a thread: issue and park (R69, R70), chunk boundaries and squashes (R138 to R150),
signatures (R143 to R145), taking a fault and freezing (R41, R109, R353), and the accesses of a chunk to memory (R109, R121
to R126, R143, R154). A meaning is written over these. -/

namespace Sys2Proof.Machine

abbrev Outcome := Host.Outcome State Fault Refusal

/-! ### Signatures -/

def rotl9 (x n : Nat) : Nat := Nat.lor (x * 2 ^ n % 512) (x / 2 ^ (9 - n))

/-- Bit i moved to bit n − 1 − i. -/
def revBits (x : Nat) : Nat → Nat
  | 0 => 0
  | n + 1 => x % 2 * 2 ^ n + revBits (x / 2) n

def xor5 (a b c d e : Nat) : Nat := Nat.xor (Nat.xor (Nat.xor a b) (Nat.xor c d)) e

/-- The hash fold H of number h of a line address (R144). -/
def lineHash (h l : Nat) : Nat :=
  let s0 := l % 512
  let s1 := l / 2 ^ 9 % 512
  let s2 := l / 2 ^ 18 % 512
  let s3 := l / 2 ^ 27 % 512
  let s4 := l / 2 ^ 36 % 32
  match h with
  | 0 => xor5 s0 s1 s2 s3 s4
  | 1 => xor5 (rotl9 s0 3) s1 (rotl9 s2 3) s3 (rotl9 s4 7)
  | 2 => xor5 s0 (rotl9 s1 5) s2 (rotl9 s3 5) s4
  | _ => xor5 (revBits s0 9) (revBits s1 9) s2 s3 s4

/-- The 2,048-bit signature of a set of lines (R143). -/
def signature (lines : List Nat) : BitVec 2048 :=
  lines.foldl (fun sig l => [0, 1, 2, 3].foldl (fun sig h => sig ||| (1#2048 <<< (512 * h + lineHash h l))) sig) 0

/-- Two sets of lines have signatures that intersect: every sub-signature shares a bit (R145). -/
def intersects (p q : List Nat) : Bool :=
  !p.isEmpty && !q.isEmpty && [0, 1, 2, 3].all fun h => p.any fun x => q.any fun y => lineHash h x == lineHash h y

/-! ### Chunk boundaries -/

/-- The older chunk's place is taken by a chunk that has ended, when it is free (R138). -/
def settle (x : Slot) : Slot :=
  match x.older, x.cur.status with
  | none, .ended => { x with older := some x.cur, cur := Chunk.start x.regs }
  | _, _ => x

/-- End the EXECUTING chunk; one that has executed nothing is none to end. -/
def endSlotChunk (x : Slot) : Slot :=
  if x.cur.status == .executing && x.cur.count != 0 then settle { x with cur := { x.cur with status := .ended, hold := 0 } } else x

def endChunk (s : State) (c l : Nat) : State := setSlot s c l (endSlotChunk (slotAt s c l))

/-- An empty EXECUTING chunk stands ready for an instruction that starts one. -/
def freshChunk (x : Slot) : Bool := x.cur.status == .executing && x.cur.count == 0

/-- Restore a checkpoint: the thread starts again at the chunk's first instruction (R150). -/
def restartFrom (x : Slot) (r : Regs) : Slot := { x with regs := r, cur := Chunk.start r, parked := false }

/-- The consecutive squashes of a chunk, one more when this squash counts (R142, R151). -/
def moreSquashes (k : Chunk) (counted : Bool) : BitVec 2 := if counted && k.squashes != 3 then k.squashes + 1 else k.squashes

/-- A squashed chunk starts again from its checkpoint, with its own count of squashes (R150, R151). -/
def rerun (x : Slot) (k : Chunk) (counted : Bool) : Slot :=
  { x with regs := k.check, cur := { Chunk.start k.check with squashes := moreSquashes k counted }, parked := false }

/-- After its third counted squash the thread runs the chunk pinned; it waits for its turn. -/
def wantPin (s : State) (x : Slot) : Slot :=
  if x.cur.squashes == 3 && !x.pin && x.pinWait.isNone then { x with pinWait := some s.order } else x

/-- A report that stands at an instruction which has not executed: a fault's or a BKPT's, not a TRAP's, a STEP's or a halt's. -/
def atInstruction (p : Packet) : Bool :=
  p.source.toNat < 2 && p.code != Code.step && p.code != Code.trap && !(p.code == Code.bkpt && p.info == 1)

/-- The chunk before a fault of this slot has been squashed before the packet was sent: the fault is not on the committed path
(R41, R109, R150; notes/assumptions/16.md). The oldest held report, if there is one, takes its place. -/
def unfreeze (k : Core) (l : Nat) : Core :=
  match k.report with
  | some p =>
    if atInstruction p && p.slot.toNat == l then
      (match k.held with
       | [] => { k with frozen := false, report := none }
       | q :: r => { k with report := some q, held := r })
    else k
  | none => k

/-- A squashed pinned chunk has no lines registered until it runs again (R150, R151). -/
def forgetLines (s : State) (c l : Nat) : State :=
  if (slotAt s c l).pin then
    { s with registered := s.registered.map fun r => if r.owner == .pinned c l then { r with reads := [], writes := [] } else r }
  else s

/-- A chunk that has executed nothing yet. -/
def emptyChunk (k : Chunk) : Bool := k.count == 0 && k.status == .executing

/-- Squash a chunk of a slot that becomes x, younger ones with it; what its thread had found after it is withdrawn. -/
def squashTo (s : State) (c l : Nat) (x : Slot) : State :=
  updCore (setSlot (forgetLines (bump (tick s) (clusterOf c) 2 1) c l) c l (wantPin (tick s) x)) c fun k => unfreeze k l

/-- A slot's commit request no longer stands. -/
def dropRequest (s : State) (c l : Nat) : State := { s with requests := s.requests.filter (· != 4 * c + l) }

/-- Squash the chunks of a slot from its older one on, or its EXECUTING one alone (R138, R150). -/
def squashSlot (s : State) (c l : Nat) (counted : Bool) : State :=
  let x := slotAt s c l
  match x.older with
  | some o =>
    if o.status == .committing then
      (if x.cur.count == 0 then s else squashTo s c l (rerun x x.cur counted))
    else
      let s := if emptyChunk x.cur then s else bump s (clusterOf c) 2 1
      squashTo (dropRequest s c l) c l { rerun x o counted with older := none }
  | none => if x.cur.count == 0 && x.cur.status == .executing then s else squashTo s c l (rerun x x.cur counted)

/-- Squash the younger chunk alone. -/
def squashCur (s : State) (c l : Nat) (counted : Bool) : State := squashTo s c l (rerun (slotAt s c l) (slotAt s c l).cur counted)

/-- Squash the active chunks of a slot that `hit` picks, and with an older one every later one (R138); nothing but a gang switch and the
start of a revocation pass squashes a pinned chunk (R151). -/
def squashIf (s : State) (c l : Nat) (hit : Chunk → Bool) : State :=
  let x := slotAt s c l
  if !x.busy || x.pin then s
  else
    match x.older with
    | some o =>
      if o.status == .ended && hit o then squashSlot s c l true
      else if hit x.cur then squashCur s c l true
      else s
    | none => if hit x.cur then squashSlot s c l true else s

/-- A write signature reaches a slot: each active chunk that intersects is squashed (R148). -/
def testSlot (s : State) (c l : Nat) (writes : List Nat) : State :=
  squashIf s c l fun k => intersects writes k.reads || intersects writes k.writes

/-- Every slot of a core. -/
def testCore (s : State) (c : Nat) (writes : List Nat) : State := [0, 1, 2, 3].foldl (fun s l => testSlot s c l writes) s

/-! ### Faults -/

/-- A fault packet (R352); its stamp is filled as it is sent (R353). -/
def packetOf (s : State) (c l : Nat) (source : BitVec 2) (code : Byte) (pcc : W64) (word : W32) (info : W64) : Packet :=
  { ctx := (coreAt s c).owner, code := code, slot := BitVec.ofNat 2 l, source := source, unit := false,
    coord := BitVec.ofNat 10 c, pcc := pcc, word := word, info := info, stamp := 0, time := s.time,
    kernel := (slotAt s c l).kernel, modIdx := Config.moduleIndex.setWidth 16 }

/-- A packet's 64 bytes (R352). -/
def packetBits (p : Packet) : BitVec 512 :=
  let unit : BitVec 1 := if p.unit then 1 else 0
  let w0 : W64 := 1#4 ++ p.ctx ++ p.code ++ p.slot ++ p.source ++ unit ++ 0#25 ++ p.coord
  0#96 ++ p.modIdx ++ p.kernel ++ p.time ++ p.stamp ++ p.info ++ 0#32 ++ p.word ++ p.pcc ++ w0

def unregister (s : State) (owner : RegOwner) : State := { s with registered := s.registered.filter fun r => r.owner != owner }

/-- A thread that runs pinned and has no chunk under way gives the pin up and waits for it again (R151). -/
def yieldPin (s : State) (c l : Nat) : State :=
  let x := slotAt s c l
  if x.pin && x.older.isNone && emptyChunk x.cur then
    tick (setSlot (unregister { s with pinned := none } (.pinned c l)) c l { x with pin := false, pinWait := some s.order })
  else s

/-- Freeze a core with a report: its slots end their chunks at the next instruction boundary, but for one inside a CHOLD span
(R136, R140, R353), and none of them runs pinned with nothing to commit, so that the pin is another's while the core is frozen (R354). A core
that is frozen already takes no second report (R353). -/
def freeze (s : State) (c : Nat) (p : Packet) : State :=
  let k := coreAt s c
  if k.frozen then s
  else
    let s := setCore s c { k with frozen := true, report := some p, stepping := none,
                                  slots := Tbl.mapVal k.slots fun _ x => if x.cur.hold == 0 then endSlotChunk x else x }
    [0, 1, 2, 3].foldl (fun s l => yieldPin s c l) s

/-- A report for a core that may be frozen already is held until it is resumed (R353). -/
def freezeOrHold (s : State) (c : Nat) (p : Packet) : State :=
  let k := coreAt s c
  if k.frozen then (if k.held.length < 32 then setCore s c { k with held := k.held ++ [p] } else s) else freeze s c p

/-- Take a fault at an instruction (R41, R109): the chunk ends before it, the core freezes with pcc addressing it, and the
packet carries its word. Inside a CHOLD span the chunk is squashed and the core freezes at the CHOLD, whose word the packet carries
unless the fetch failed (notes/assumptions/19.md); the information word is the offset in words, or what R136 gives the case. -/
def takeFault (s : State) (c l : Nat) (source : BitVec 2) (code : Byte) (word : W32) (info spanInfo : W64) : State :=
  let x := slotAt s c l
  if x.cur.hold != 0 then
    let pcc := capAddr x.cur.check.pcc
    freeze (squashCur s c l true) c (packetOf s c l source code pcc (if source == 1 then word else x.cur.span) spanInfo)
  else freeze (endChunk s c l) c (packetOf s c l source code (capAddr x.regs.pcc) word info)

/-- The word of an instruction, as its packet carries it. -/
def wordOf (i : Instr) : W32 := (encodeWord i).getD 0

/-- The word offset from a CHOLD to the instruction the thread stands at (R136). -/
def spanOffset (x : Slot) : W64 := (capAddr x.regs.pcc - capAddr x.cur.check.pcc).sshiftRight 2

/-- Take a fault of the acting thread's instruction. -/
def raise (s : State) (i : Instr) (code : Byte) (info : W64) : State :=
  takeFault s (meCore s) (meSlot s) 0 code (wordOf i) info (spanOffset (mySlot s))

/-! ### Issue and retire -/

/-- The address of the next instruction (R83). -/
def nextPcc (r : Regs) : Cap := capSetAddr r.pcc (capAddr r.pcc + 4)

/-- A park (R69): the entries are written when all hold their values; otherwise the thread waits. -/
def parkSlot (x : Slot) : Slot :=
  if x.regs.pending.all pendReady then { x with regs := regsPark x.regs, parked := false } else { x with parked := true }

/-- A deferred-result instruction parks first when 16 entries are pending (R70). -/
def roomForDeferred (x : Slot) : Slot := if x.regs.pending.length == 16 then parkSlot x else x

/-- Count an instruction (R140), and a step of a CHOLD span (R136). -/
def countInstr (k : Chunk) : Chunk := { k with count := k.count + 1, hold := k.hold - 1 }

/-- An instruction has executed: the registers it leaves, the next pcc, its marker's park. -/
def retireSlot (x : Slot) (m : Bool) (r : Regs) (pcc : Cap) : Slot :=
  let y := { x with regs := { r with pcc := pcc }, cur := countInstr x.cur }
  if m then parkSlot y else y

/-- A chunk ends after an instruction that brings its footprint to 256 lines, outside a span (R140); a step ends it after one
instruction (R359); a slot whose span has ended on a frozen core ends it there (R136). -/
def afterInstr (s : State) : State :=
  let x := mySlot s
  let k := myCore s
  if x.cur.hold == 0 && (x.cur.writes.length == 256 || k.frozen || k.stepping == some s.turn.slot) then
    endChunk s (meCore s) (meSlot s)
  else s

/-- The common end of an instruction of the acting thread. -/
def retire (s : State) (m : Bool) (r : Regs) (pcc : Cap) : State := afterInstr (setMySlot s (retireSlot (mySlot s) m r pcc))

/-- An immediate result (R68, R69). -/
def immediate (s : State) (m : Bool) (d : Reg) (c : Cap) : Outcome :=
  .next (retire s m (regsImmediate (myRegs s) d c) (nextPcc (myRegs s)))

/-- An immediate integer result (R67). -/
def immediateX (s : State) (m : Bool) (d : Reg) (x : W64) : Outcome := immediate s m d (capInt x)

/-- An immediate capability result, subject to a revocation pass (R120). -/
def immediateCap (s : State) (m : Bool) (d : Reg) (c : Cap) : Outcome := immediate s m d (scrubCap s (myCtx s) c)

/-- A deferred result (R68, R69), after the park of a full list (R70); `f` computes it from the registers as they then are. A
list whose values are not all there parks instead, and the instruction issues when they are. -/
def deferredWith (s : State) (m : Bool) (f : Regs → Pend) : Outcome :=
  let x := roomForDeferred (mySlot s)
  if x.parked then .next (setMySlot s x)
  else .next (retire (setMySlot s x) m (regsDefer x.regs (f x.regs)) (nextPcc x.regs))

/-- A deferred integer result (R67). -/
def deferredX (s : State) (m : Bool) (d : Reg) (f : Regs → W64) : Outcome := deferredWith s m fun r => .g d (some (capInt (f r)))

/-- An instruction without a result. -/
def plain (s : State) (m : Bool) : Outcome := .next (retire s m (myRegs s) (nextPcc (myRegs s)))

/-- An instruction that faults. -/
def faults (s : State) (i : Instr) (code : Byte) (info : W64) : Outcome := .next (raise s i code info)

/-- Before a deferred-result instruction that can fault: the thread as it is after the park of a full list; none while the park
waits. -/
def readyDeferred (s : State) : Option State :=
  let x := roomForDeferred (mySlot s)
  if x.parked then none else some (setMySlot s x)

/-- The thread waits in its park. -/
def waitPark (s : State) : State := setMySlot s (roomForDeferred (mySlot s))

/-! ### Accesses of a chunk -/

/-- A part of an access within one line: its virtual address, its length, and where it lies. -/
structure Seg where
  va : Nat
  n : Nat
  p : Place
  deriving DecidableEq, Repr

/-- The parts of [a, a + n) line by line, ascending. -/
def lineParts (a n : Nat) : Nat → List (Nat × Nat)
  | 0 => []
  | k + 1 =>
    if n == 0 then []
    else
      let m := min n (128 - a % 128)
      (a, m) :: lineParts (a + m) (n - m) k

/-- How a form treats an uncached target (R126): a scalar access may reach one, others fault, and cache maintenance passes. -/
inductive UncachedForm | scalar | never | maintenance
  deriving DecidableEq, Repr

def placesOf : List (Nat × Nat × Option Place) → List Seg
  | [] => []
  | (a, n, some p) :: r => ⟨a, n, p⟩ :: placesOf r
  | (_, _, none) :: r => placesOf r

/-- The acting thread's chunks cover a whole unit with their own writes, so reading it is no read of the unit in memory (R360). -/
def unitCovered (x : Slot) (nc : Bool) (line unit : Nat) : Bool :=
  let m (k : Chunk) : BitVec 128 := ((Tbl.find (if nc then k.nws else k.ws) line).map (·.mask)).getD 0
  let all := m x.cur ||| ((x.older.map m).getD 0)
  all.extractLsb' (16 * unit) 16 == BitVec.allOnes 16

/-- A part reads a poisoned unit. -/
def segPoisoned (s : State) (x : Slot) (nc : Bool) (g : Seg) : Bool :=
  (upTo 8).any fun u =>
    let k := g.p.loc / 128 * 128 + 16 * u
    g.p.loc < k + 16 && k < g.p.loc + g.n && memPoisoned s.mem k && !unitCovered x nc (g.p.ia / 128) u

def segNc (s : State) (g : Seg) : Bool := nonCoherentLine (ctxOf s (myCtx s)) (g.p.ia / 128)

/-- A miss would get no answer (R348): a non-coherent one from the home, a coherent one from anywhere. -/
def missLost (s : State) (p : Place) (nc : Bool) : Bool := if nc then locLost s p.ia p.loc else readLost s p

/-- Every unit that a part reads is covered by the chunks' own writes. -/
def segCovered (x : Slot) (nc : Bool) (g : Seg) : Bool :=
  (upTo 8).all fun u =>
    let k := g.p.loc / 128 * 128 + 16 * u
    !(g.p.loc < k + 16 && k < g.p.loc + g.n) || unitCovered x nc (g.p.ia / 128) u

/-- A part's read is a miss that would get no answer (R348): neither the acting core's L1 nor its chunk has the line. -/
def segLost (s : State) (g : Seg) : Bool :=
  let nc := segNc s g
  !g.p.uncached && missLost s g.p nc && (l1Find (myCore s) (g.p.ia / 128) nc).isNone && !(!nc && Tbl.has (mySlot s).cur.rs (g.p.ia / 128)) &&
    !segCovered (mySlot s) nc g

/-- The checks of R109 in order, for a read or a write of n bytes at a: capability, translation, uncached target, poison. -/
def dataCheck (s : State) (c : Cap) (a n : Nat) (perms : List Nat) (al : Bool) (form : UncachedForm) (reading : Bool) :
    Except (Byte × W64) (List Seg) :=
  match checkPerms c a n al perms with
  | some f => .error (f, 0)
  | none =>
    match transParts s (myCtx s) (.core (meCore s)) (lineParts a n (n / 128 + 2)) with
    | .error (cause, ia) => .error (Code.mapFault, mapInfo cause ia)
    | .ok l =>
      let segs := placesOf l
      let unc := segs.find? fun g => g.p.uncached
      match unc, form with
      | some g, .never => .error (Code.mapFault, mapInfo 6 g.p.ia)
      | _, _ =>
        if unc.isSome && form == .scalar && a % n != 0 then .error (Code.align, 0)
        else if segs.length != l.length || (reading && segs.any fun g => !g.p.uncached && (segPoisoned s (mySlot s) (segNc s g) g || segLost s g)) then
          .error (Code.poison, 0)
        else .ok segs

/-- The walks of an access that goes no further (R370): none when its capability failed, which comes first (R109). -/
def walked (s : State) (pre : Option Byte) (a n : Nat) : State :=
  if pre.isSome then s else walkParts s (myCtx s) (.core (meCore s)) (lineParts a n (n / 128 + 2))

/-- A non-coherent line as the acting core has it: its own copy, or its home (R125). -/
def ownLine (s : State) (p : Place) : LineVal :=
  match l1Find (myCore s) (p.ia / 128) true with
  | some l => ⟨l.data, l.tags⟩
  | none => homeLine s p.key p.ia p.loc

/-- A line under the stores of a chunk (R154). -/
def storesOver (k : Chunk) (nc : Bool) (line : Nat) (v : LineVal) : LineVal :=
  match Tbl.find (if nc then k.nws else k.ws) line with
  | some b => lineOver v b
  | none => v

/-- A line under a chunk: its stores over what was there, or over the home of a non-coherent line that it has discarded (R129). -/
def chunkOver (k : Chunk) (nc : Bool) (line : Nat) (home v : LineVal) : LineVal :=
  storesOver k nc line (if nc && k.ncDiscards.contains line then home else v)

/-- A line as the acting thread's younger chunk found it: the older chunk's writes over what a coherent access finds, or over the core's
own copy or the home of a non-coherent line (R125, R129, R155). -/
def foundLine (s : State) (p : Place) (nc : Bool) : LineVal :=
  let base := if nc then ownLine s p else cohLine s p.key p.ia p.loc
  match (mySlot s).older with
  | some o => chunkOver o nc (p.ia / 128) (homeLine s p.key p.ia p.loc) base
  | none => base

/-- What the chunk's read record holds of a coherent line, else the line as it finds it (R154, R155). -/
def recordedLine (s : State) (p : Place) (nc : Bool) : LineVal :=
  if nc then foundLine s p nc
  else
    match Tbl.find (mySlot s).cur.rs (p.ia / 128) with
    | some v => v
    | none => foundLine s p nc

/-- A line as the acting thread's chunk sees it: its own writes over its read record, or over the line as it finds it (R155). -/
def viewLine (s : State) (p : Place) (nc : Bool) : LineVal :=
  chunkOver (mySlot s).cur nc (p.ia / 128) (homeLine s p.key p.ia p.loc) (recordedLine s p nc)

/-! #### Page classification (R153, R288) -/

/-- The page that stands for a place's leaf entry. -/
def entryOf (p : Place) : Nat := entryPage (p.ia / 2 ^ 16) p.large

/-- A line lies in the page that a place's leaf maps. -/
def inEntry (p : Place) (line : Nat) : Bool := entryPage (line / 512) p.large == entryOf p

/-- The core that owns a PRIVATE page not yet handled as SHARED. -/
def privateOwner (s : State) (p : Place) : Option Nat :=
  if leafCls p.leaf == 1 && !s.shared.contains (entryOf p) then some (leafPcore p.leaf).toNat else none

/-- The owner of a PRIVATE page runs a pinned chunk: what another agent asks of the page waits (R151). -/
def ownerPinned (s : State) (p : Place) : Bool :=
  match privateOwner s p with
  | some o => (coreAt s o).slots.any fun x => x.2.pin
  | none => false

/-- A miss must wait while the owner of a PRIVATE page runs pinned (R151). -/
def missWaits (s : State) (p : Place) : Bool := privateOwner s p != some (meCore s) && ownerPinned s p

/-- A pinned chunk waits before it adds a line that an engine chunk, started or registered before it, is writing (R152). -/
def pinWaits (s : State) (c l line : Nat) : Bool :=
  let rec go : List Registered → Bool
    | [] => false
    | r :: rest =>
      if r.owner == .pinned c l then rest.any fun q => q.started && intersects [line] q.writes
      else intersects [line] r.writes || go rest
  (slotAt s c l).pin && go s.registered

/-- A registered chunk stands before the chunk of a die's page command. -/
def beforeFlip (s : State) (die : Nat) (me : RegOwner) : Bool := (s.registered.takeWhile fun r => r.owner != .migrate die).any fun r => r.owner == me

/-- The home slice holds new requests to a page whose bias is being flipped (R294); those of a pinned chunk that has registered before the
chunk of a flip to host go on, since that chunk waits for the pinned one (R152; notes/assumptions/65.md). -/
def heldFor (s : State) (me : Option RegOwner) (ia : Nat) : Bool :=
  s.dies.any fun d =>
    match d.2.page with
    | some c => (c.op == 3 || (c.op == 2 && !(match me with | some o => beforeFlip s d.1 o | none => false))) && c.page ≤ ia && ia < c.page + c.granules * 2048
    | none => false

def pageHeld (s : State) (ia : Nat) : Bool := heldFor s none ia

/-- Who a thread's request comes from, for a page that holds requests: a pinned chunk has registered. -/
def pinOwner (s : State) (c l : Nat) : Option RegOwner := if (slotAt s c l).pin then some (.pinned c l) else none

/-- Another module owns a line whose home is here: its newest bytes must come back first (R348). -/
def remoteMust (s : State) (line : Nat) : Bool := Tbl.has s.remoteOwns line

/-- A miss asks the host first: for a line that the host owns, and for every line of a page whose BIAS is 1, until the host has answered
(R294, R343, R344). -/
def hostMust (s : State) (p : Place) : Bool :=
  Tbl.get 0 s.hostHolds (p.ia / 128) == 2 || (leafBias p.leaf && p.loc < 2 ^ 64 && !p.uncached && !s.answered.contains (p.ia / 128))

/-- The acting core has a line in its L1. -/
def inMyL1 (s : State) (p : Place) : Bool := (l1Find (myCore s) (p.ia / 128) false).isSome

/-- A miss to a line that a COMMITTING chunk has written is held by the directory (R148). -/
def missHeld (s : State) (line : Nat) : Bool :=
  s.cores.any fun c => c.2.slots.any fun x =>
    match x.2.older with
    | some o => o.status == .committing && o.writes.contains line
    | none => false

/-! #### Filling the L1 -/

/-- The directory set of a line, within its die (R315). -/
def dirSet (line : Nat) : Nat := line % 512 + line / 4096 % 32 * 512

/-- A line's region is being flushed through for a re-parenting (R305, R319). -/
def flushingThrough (s : State) (line : Nat) : Bool :=
  s.contexts.any fun c => (pathOf c.2 (line * 128)).any fun v => (vcAt c.2 v).state == .reparenting

/-- A directory entry is not evicted while a commit of its line, a flush-through of it or a pinned chunk that registered it is in
progress (R319); a reclassification is done within its step. -/
def dirBusy (s : State) (line : Nat) : Bool :=
  flushingThrough s line ||
  (s.cores.any fun c => c.2.slots.any fun x =>
    match x.2.older with
    | some o => o.status == .committing && o.writes.contains line
    | none => false) ||
    s.registered.any fun r => match r.owner with
      | .pinned _ _ => r.reads.contains line || r.writes.contains line
      | _ => false

/-- Evict a directory entry (R319): its invalidations act as a commit of the line, and dirty pieces go to the leaf. -/
def dirEvict (s : State) (line : Nat) : State :=
  let s' := (dirCores s line).foldl (fun s c => testCore s c [line]) s
  let s' :=
    match dirtyLine s' line with
    | some (c, l) => lineToLeaf s' c l
    | none => s'
  dirDrop (dropCopies s' line) line

/-- The least recently used entry of a set that may go goes. -/
def dirEvictOne (s : State) (set : List DirEntry) : State :=
  match (set.filter fun e => !dirBusy s e.line).foldl
      (fun b e => match b with
        | none => some e
        | some y => if e.used < y.used then some e else some y) (none : Option DirEntry) with
  | some v => dirEvict s v.line
  | none => s

/-- Room for a new entry in its set of 16 ways. -/
def dirRoom (s : State) (line : Nat) : State :=
  let set := (dieAt s (dirDie line)).directory.filter fun e => dirSet e.line == dirSet line
  if (dirFind s line).isSome || set.length < 16 then s
  else dirEvictOne s set

/-- Evict entries until a line's set has room for n new ones. -/
def dirRooms (s : State) (line n : Nat) : Nat → State
  | 0 => s
  | k + 1 =>
    let set := (dieAt s (dirDie line)).directory.filter fun e => dirSet e.line == dirSet line
    if set.length + n ≤ 16 then s else dirRooms (dirEvictOne s set) line n k

/-- A miss from another agent reaches a PRIVATE page: its owner's chunks that intersect the lines it holds are squashed, its
dirty lines are written back, its copies dropped, and it is listed for lines of its active chunks (R153). -/
def unprivate (s : State) (owner : Nat) (p : Place) : State :=
  let k := coreAt s owner
  let mine (l : L1Line) : Bool := !l.nonCoherent && inEntry p l.line
  let s := testCore s owner ((k.l1.filter mine).map (·.line))
  let s := k.l1.foldl (fun s l => if mine l then writeBackLine s owner l else s) s
  let s := updCore s owner fun k => { k with l1 := k.l1.filter fun l => !mine l }
  let s := (activeLines (coreAt s owner)).foldl (fun s l => if inEntry p l then dirJoin (dirRoom s l) l owner else s) s
  { s with shared := NatSet.insert s.shared (entryOf p) }

/-- The lines of some parts that a fill would enter in the directory. -/
def newEntries (s : State) (segs : List Seg) : List Nat :=
  segs.foldl (fun l g =>
    if segNc s g || g.p.uncached || inMyL1 s g.p || privateOwner s g.p == some (meCore s) || (dirFind s (g.p.ia / 128)).isSome then l
    else NatSet.insert l (g.p.ia / 128)) []

/-- The pages that an access misses in and that are PRIVATE to another core are given up (R153). -/
def givePages (s : State) (segs : List Seg) : State :=
  segs.foldl (fun s g =>
    match privateOwner s g.p with
    | some o => if segNc s g || g.p.uncached || inMyL1 s g.p || o == meCore s then s else unprivate s o g.p
    | none => s) s

/-- Room in the directory for every line that an access brings in, with the entries of the pages given up for it. -/
def dirSpace (s : State) (segs : List Seg) : State :=
  let ls := newEntries s segs
  let s := givePages s segs
  ls.foldl (fun s l => dirRooms s l (ls.filter fun k => dirDie k == dirDie l && dirSet k == dirSet l).length 16) s


/-- No entry of some new line's directory set can go yet (R319). -/
def dirFull (s : State) (segs : List Seg) : Bool :=
  let ls := newEntries s segs
  let t := dirSpace s segs
  ls.any fun l => 16 < ((dieAt t (dirDie l)).directory.filter fun e => dirSet e.line == dirSet l).length +
    (ls.filter fun k => dirDie k == dirDie l && dirSet k == dirSet l).length

/-- A part of an access is a miss: its line is not in the acting core's L1. -/
def segMiss (s : State) (g : Seg) : Bool := (l1Find (myCore s) (g.p.ia / 128) (segNc s g)).isNone

/-- The acting thread's own chunk reads or writes a line whose entry must go to make room for what an access misses: the eviction squashes
it (R319). -/
def evictsMine (s : State) (segs : List Seg) : Bool := segs.any (segMiss s) && mySlot (dirSpace s segs) != mySlot s

/-- A miss waits for a bias flip (R294), the host (R343), another module (R348), and a coherent one for a pinned owner (R151) or a commit
(R148); a pinned chunk waits for an engine's (R152). -/
def missWaitsNow (s : State) (segs : List Seg) : Bool :=
  segs.any fun g => !g.p.uncached &&
    ((segMiss s g && (heldFor s (pinOwner s (meCore s) (meSlot s)) g.p.ia || hostMust s g.p || remoteMust s (g.p.ia / 128))) ||
     (!segNc s g && ((segMiss s g && (missWaits s g.p || missHeld s (g.p.ia / 128))) || pinWaits s (meCore s) (meSlot s) (g.p.ia / 128))))

/-- An access does not take place now: it waits, or its thread is squashed before it. -/
def accessWaits (s : State) (segs : List Seg) : Bool := missWaitsNow s segs || evictsMine s segs || dirFull s segs

/-- The host is asked for the data of some lines: BISnpData (R343). -/
def askLines (s : State) (lines : List Nat) : State := { s with bisnp := lines.foldl NatSet.insert s.bisnp }

/-- The host is asked to give some lines up: BISnpInv (R343). -/
def askInv (s : State) (lines : List Nat) : State := { askLines s lines with bisnpInv := lines.foldl NatSet.insert s.bisnpInv }

/-- While an access waits for the host, its back-invalidates are out (R343); one that its own eviction squashes leaves the thread
at its chunk's start (R319). -/
def askHost (s : State) (segs : List Seg) : State :=
  if missWaitsNow s segs then
    askLines s ((segs.filter fun g => !g.p.uncached && segMiss s g && hostMust s g.p).map fun g => g.p.ia / 128)
  else dirSpace s segs

/-- A line of an L1 becomes its set's most recent. -/
def l1Use (k : Core) (line : Nat) (nc : Bool) (now : Nat) : Core :=
  { k with l1 := k.l1.map fun x => if x.line == line && x.nonCoherent == nc then { x with used := now } else x }

/-- A line that the acting core misses is fetched (R125, R316, R322). A coherent one of a PRIVATE page is first given up by its owner (R153), another
core's dirty copy by its holder, and both its pieces come to the leaf. DESIGN CHOICE: they are fetched before the fill evicts its victim
(notes/assumptions/69.md). A miss that gets no answer brings nothing (R348). -/
def fetchLine (s : State) (p : Place) (nc : Bool) : State :=
  let c := meCore s
  let line := p.ia / 128
  if nc then
    if locLost s p.ia p.loc then s
    else
      let v := homeLine s p.key p.ia p.loc
      fillLine { s with answered := NatSet.erase s.answered line } c ⟨line, true, false, false, v.data, v.tags, p.loc / 128 * 128, p.key, s.order⟩
  else
    let s :=
      match privateOwner s p with
      | some o => if o == c then s else unprivate s o p
      | none => s
    if readLost s p then s
    else
      let s := { surrender s line with answered := NatSet.erase s.answered line }
      let alone := isHost p.loc && Tbl.get 0 s.hostLines line == 0
      let s := if alone then { s with hostLines := Tbl.set s.hostLines line 3 } else s
      let pc := pathCtx p (myCtx s)
      let l := p.loc / 128 * 128
      let s := fetchPiece (fetchPiece s (ctxOf s pc) pc p.key (line * 128) l) (ctxOf s pc) pc p.key (line * 128 + 64) (l + 64)
      let s := if privateOwner s p == some c then s else dirJoin (dirRoom s line) line c
      let v := cohLine s p.key p.ia p.loc
      fillLine s c ⟨line, false, false, alone, v.data, v.tags, l, p.key, s.order⟩

/-- The line of a place comes to the acting core's L1, by a hit or a fill (R125, R322). -/
def touchLine (s : State) (p : Place) (nc : Bool) : State :=
  let c := meCore s
  let line := p.ia / 128
  let s := tlbFill s p
  match l1Find (myCore s) line nc with
  | some _ => tick (updCore s c fun k => l1Use k line nc s.order)
  | none => fetchLine s p nc

/-- A miss of the acting thread's chunk, as its commit counts it (R291): the page, unless the L1 holds the line. -/
def noteMiss (s : State) (p : Place) (nc : Bool) : State :=
  if leafAci p.leaf == 0 || (l1Find (myCore s) (p.ia / 128) nc).isSome then s
  else updMyChunk s fun k => { k with misses := p.ia / 2 ^ 16 :: k.misses }

/-- Enter a line in the read signature (R143), or the write signature and footprint; a pinned chunk registers it (R151). -/
def enterLine (s : State) (line : Nat) (write : Bool) : State :=
  let s := updMyChunk s fun k => if write then { k with writes := NatSet.insert k.writes line } else { k with reads := NatSet.insert k.reads line }
  if (mySlot s).pin then
    { s with registered := s.registered.map fun r =>
              if r.owner == .pinned (meCore s) (meSlot s) then
                (if write then { r with writes := NatSet.insert r.writes line } else { r with reads := NatSet.insert r.reads line })
              else r }
  else s

/-- Note the page of an access for its A and D bits at the commit (R284). -/
def notePage (s : State) (p : Place) (write : Bool) : State :=
  updMyChunk s fun k => { k with pages := Tbl.set k.pages (p.ia / 2 ^ 16) (write || Tbl.get false k.pages (p.ia / 2 ^ 16)) }

/-- Record the value first read of a line (R154, R155). -/
def recordRead (s : State) (line : Nat) (v : LineVal) : State := updMyChunk s fun k => { k with rs := Tbl.set k.rs line v }

/-- Read a part: its bytes as the chunk sees them, and the state with the read recorded. -/
def readSeg (s : State) (g : Seg) : State × Nat :=
  let nc := segNc s g
  let v := lineBytes (viewLine s g.p nc) (g.p.ia % 128) g.n
  let s := noteMiss s g.p nc
  let s := notePage (if nc then s else recordRead (enterLine s (g.p.ia / 128) false) (g.p.ia / 128) (recordedLine s g.p nc)) g.p false
  (touchLine s g.p nc, v)

/-- Read an access's parts, the first lowest. -/
def readSegs (s : State) : List Seg → State × Nat
  | [] => (s, 0)
  | g :: r =>
    let (s, v) := readSeg s g
    let (s, w) := readSegs s r
    (s, v + 2 ^ (8 * g.n) * w)

/-- The tag of the 16-byte unit an access covers, as the chunk sees it. -/
def segTag (s : State) (g : Seg) : Bool := (viewLine s g.p (segNc s g)).tags.getLsbD (g.p.ia % 128 / 16)

/-- Write a part into the chunk's buffer (R154); the line comes to the L1 as for a load miss (R322). -/
def writeSeg (s : State) (g : Seg) (v : Nat) (tag : Bool) : State :=
  let nc := segNc s g
  let line := g.p.ia / 128
  let s := noteMiss s g.p nc
  let s := notePage (if nc then s else enterLine s line true) g.p true
  let s := touchLine s g.p nc
  let b := bufWrite (g.p.ia % 128) g.n v (tag && !isHost g.p.loc)
  let home := (g.p.loc / 128 * 128, g.p.key)
  updMyChunk s fun k =>
    if nc then { k with nws := Tbl.set k.nws line (bufOver (Tbl.get LineBuf.empty k.nws line) b), homes := Tbl.set k.homes line home }
    else { k with ws := Tbl.set k.ws line (bufOver (Tbl.get LineBuf.empty k.ws line) b), homes := Tbl.set k.homes line home }

def writeSegs (s : State) (v : Nat) (tag : Bool) : List Seg → State
  | [] => s
  | g :: r => writeSegs (writeSeg s g v tag) (v / 2 ^ (8 * g.n)) tag r

/-! #### Room for stores (R140) -/

/-- The coherent lines of some parts that the chunk has not written. -/
def newLines (s : State) (segs : List Seg) : List Nat :=
  let w := (mySlot s).cur.writes
  (segs.foldl (fun l g => if segNc s g || w.contains (g.p.ia / 128) then l else NatSet.insert l (g.p.ia / 128)) [])

/-- A store would take the footprint above 256 lines. -/
def footprintFull (s : State) (segs : List Seg) : Bool := 256 < (mySlot s).cur.writes.length + (newLines s segs).length

/-- The lines of one L1 set that active chunks of the core have written and that stand in its ways. -/
def busyWays (s : State) (line : Nat) : List Nat :=
  let busy := activeWrites (myCore s)
  ((myCore s).l1.filter fun x => x.line % 128 == line % 128 && busy.contains x.line).map (·.line)

/-- A store would need a way in an L1 set whose eight ways all hold lines that active chunks of the core have written, its own earlier
parts' among them. DESIGN CHOICE: a store whose own lines are more than eight of one set, with no other written line there, executes, and
the lines past the eighth take no way (R140 speaks of one way; notes/assumptions/51.md). -/
def setFull (s : State) (segs : List Seg) : Bool :=
  segs.any fun g =>
    let line := g.p.ia / 128
    let busy := busyWays s line
    let own := (segs.foldl (fun l g => NatSet.insert l (g.p.ia / 128)) []).filter fun x => x % 128 == line % 128
    !busy.isEmpty && 8 < busy.length + (own.filter fun x => !busy.contains x).length

/-- What a store must do first. -/
inductive StoreRoom | ok | boundary | span | wait
  deriving DecidableEq, Repr

/-- Whether a store fits in the chunk; else the boundary falls before it, or its span fails (R136, R140). An empty chunk that
still finds no way waits for the older one to commit. `way` says whether the line takes a way of the L1. -/
def storeRoom (s : State) (segs : List Seg) (way : Bool) : StoreRoom :=
  if footprintFull s segs || (way && setFull s segs) then
    if (mySlot s).cur.hold != 0 then .span else if freshChunk (mySlot s) then .wait else .boundary
  else .ok

/-- A CHOLD span that cannot complete (R136): the chunk is squashed and the core freezes at the CHOLD with ILLEGAL. -/
def failSpan (s : State) (i : Instr) (info : W64) : State :=
  takeFault s (meCore s) (meSlot s) 0 Code.illegal (wordOf i) info info

/-- Run a store once it fits. At a boundary the chunk ends before it and the store starts the next chunk, at once when the older
place is free. -/
def storingIf (way : Bool) (s : State) (i : Instr) (segs : List Seg) (k : State → State) : Outcome :=
  if accessWaits s segs then .next (askHost s segs)
  else
    match storeRoom s segs way with
    | .ok => .next (k s)
    | .span => .next (failSpan s i 2)
    | .wait => .next s
    | .boundary =>
      let t := endChunk s (meCore s) (meSlot s)
      if freshChunk (mySlot t) then (if storeRoom t segs way == .ok then .next (k t) else .next t) else .next t

def storing (s : State) (i : Instr) (segs : List Seg) (k : State → State) : Outcome := storingIf true s i segs k

/-! ### Whether a thread can issue -/

/-- The context of a core runs threads (R327). -/
def ctxRuns (s : State) (c : BitVec 12) : Bool :=
  match (ctxOf s c).life with
  | .running | .switching => true
  | _ => false

/-- A slot can issue its next instruction: it holds a thread that neither parks nor waits for a commit or a pin, on a core that
runs, or steps this slot, or lets its span end (R69, R136, R138, R151, R353, R359). -/
def canIssue (s : State) (c l : Nat) : Bool :=
  let k := coreAt s c
  let x := slotAt s c l
  let free :=
    match x.older with
    | none => true
    | some o => o.effect.isNone && (k.stepping.isNone || o.beforeStep)
  x.busy && !x.parked && x.pinWait.isNone && (x.older.isNone || !x.pin) && x.cur.status == .executing && free && !k.stopped && ctxRuns s k.owner &&
    (match k.stepping with
     | some t => t.toNat == l && (k.frozen == false)
     | none => !k.frozen || x.cur.hold != 0)

end Sys2Proof.Machine
end

