-- ==== Sys2Proof/Machine/Engine.lean ====
section
/-! DEFINITION. What agents other than a core's chunk do to memory: engine chunks and their stamps (R146, R152, R155), coherent
reads and writes at the homes, physical writes, and the bits that commits set in leaves (R284, R288, R291). -/

namespace Sys2Proof.Machine

/-! ### Physical writes -/

/-- Any dirty copy of a physical line goes to memory, so that memory is its one copy. -/
def settleLine (s : State) (loc : Nat) : State :=
  let s :=
    match dirtyAt s (loc / 128 * 128) with
    | some l => homeward s l.line (loc / 128 * 128) l.key
    | none => s
  let settlePiece (s : State) (piece : Nat) : State :=
    match s.banks.find? fun g => g.2.loc / 64 ≤ piece && piece < g.2.loc / 64 + 32 && g.2.present.getLsbD (piece - g.2.loc / 64) with
    | some (k, g) =>
      let i := piece - g.loc / 64
      let s := { s with mem := piecesToMem s s.mem { g with dirty := g.dirty &&& (1#32 <<< i) } 0 32 }
      clearPiece s k i
    | none => s
  settlePiece (settlePiece s (loc / 128 * 2)) (loc / 128 * 2 + 1)

/-- The lines by which cached translations reach a physical line. -/
def aliasLines (s : State) (loc : Nat) : List Nat :=
  s.tlb.filterMap fun t =>
    let at_ := relocated s (t.1 * 2 ^ 16) (leafPlace t.2.1 t.2.2.2 (t.1 * 2 ^ 16))
    if at_ ≤ loc && loc < at_ + 2 ^ 16 then some ((t.1 * 2 ^ 16 + (loc - at_)) / 128) else none

/-- A coherent physical write of n bytes that lie in one line: the tags of the units touched are cleared (R101), and the chunks that hold
the line are squashed (R148, R155). -/
def physPut (s : State) (k n v : Nat) : State :=
  let s := settleLine s k
  let units := (k + n - 1) / 16 - k / 16 + 1
  let s := { s with mem := (List.range units).foldl (fun m u => memSetTag m (k / 16 * 16 + 16 * u) false) (memPut s.mem k v n) }
  match aliasLines s (k / 128 * 128) with
  | [] => s
  | ls => s.cores.foldl (fun s c => testCore s c.1 ls) s

/-- A coherent physical write of several lines' worth of bytes; `fuel` bounds the lines. -/
def physPutMany (s : State) (k n v : Nat) : Nat → State
  | 0 => s
  | fuel + 1 =>
    if n == 0 then s
    else
      let m := min n (128 - k % 128)
      physPutMany (physPut s k m (v % 2 ^ (8 * m))) (k + m) (n - m) (v / 2 ^ (8 * m)) fuel

/-- A coherent physical read of many bytes. -/
def physGet (s : State) (k n : Nat) : Nat → Nat
  | 0 => 0
  | fuel + 1 =>
    if n == 0 then 0
    else
      let m := min n (64 - k % 64)
      physBytes s k m + 2 ^ (8 * m) * physGet s (k + m) (n - m) fuel

/-! ### Leaves -/

/-- Hardware changes a leaf (R284, R288): in the cached translations that hold it, and in the table's entry as it stands there now, so that
an entry which software has rewritten since keeps what software wrote (R286). -/
def editLeaf (s : State) (entry : Nat) (f : BitVec 128 → BitVec 128) : State :=
  let now := BitVec.ofNat 128 (physBytes s entry 16)
  let s := if leafV now && now.getLsbD 2 && f now != now then physPut s entry 16 (f now).toNat else s
  { s with tlb := Tbl.mapVal s.tlb fun _ t => if t.2.1 == entry then (f t.1, t.2.1, t.2.2) else t }

def leafSetBit (l : BitVec 128) (i : Nat) : BitVec 128 := l ||| (1#128 <<< i)
def leafSetClass (l : BitVec 128) (cls : BitVec 2) (pcore : Coord) : BitVec 128 :=
  l.extractLsb' 76 52 ++ pcore ++ cls ++ l.extractLsb' 0 64

/-- The leaf of an intermediate page, as the home slice has it. -/
def leafAt (s : State) (ia : Nat) : Option (BitVec 128 × Nat × Bool) :=
  match Tbl.find s.tlb (ia / 2 ^ 16) with
  | some t => some t
  | none =>
    match walk s ia with
    | .leaf l e g => if leafUsable l g && !leafRet l then some (l, e, g) else none
    | _ => none

/-- A committed access sets A, and a write D (R284). -/
def markPage (s : State) (page : Nat) (write : Bool) : State :=
  match leafAt s (page * 2 ^ 16) with
  | none => s
  | some (l, e, _) =>
    let f (l : BitVec 128) : BitVec 128 := if write then leafSetBit (leafSetBit l 6) 7 else leafSetBit l 6
    if f l == l then s else editLeaf s e f

/-- Saturating addition of a miss to a half of an access counter (R291). -/
def countMiss (s : State) (page : Nat) (foreign : Bool) : State :=
  match leafAt s (page * 2 ^ 16) with
  | none => s
  | some (l, _, _) =>
    if leafAci l == 0 then s
    else
      let k := s.countbase.toNat / 2 ^ 16 * 2 ^ 16 + 8 * (leafAci l).toNat + (if foreign then 4 else 0)
      physPut s k 4 (min (physBytes s k 4 + 1) (2 ^ 32 - 1))

/-! ### Engine chunks -/

/-- An engine chunk takes the next stamp, and its commit squashes each core chunk its write signature intersects (R148, R152,
R155). -/
def engineCommit (s : State) (writes : List Nat) : State :=
  let s := { s with stamp := s.stamp + 1, remoteHolds := s.remoteHolds.filter fun h => !writes.contains h.1 }
  if writes.isEmpty then s
  else writes.foldl dirRelist (s.cores.foldl (fun s c => testCore s c.1 writes) (codeDrop s writes.contains))

/-- The place of a line, as its page's leaf gives it; none while translation is disabled (R285). -/
def linePlace (s : State) (line : Nat) : Option Place :=
  if !s.ptroot.getLsbD 0 then none
  else
    match leafAt s (line * 128) with
    | some (l, e, g) => some ⟨line * 128, relocated s (line * 128) (leafPlace l g (line * 128)), leafKey l, l, e, g, leafIo l⟩
    | none => none

/-- The lines of an engine chunk that the host must give up first (R343): written lines that it caches. -/
def engineInvs (s : State) (writes : List Nat) : List Nat := writes.filter fun l => Tbl.get 0 s.hostHolds l != 0

/-- Those whose data the host must give: lines that it owns, and lines of pages whose BIAS is 1. -/
def engineDatas (s : State) (reads writes : List Nat) : List Nat :=
  (reads ++ writes).filter fun l => match linePlace s l with | some p => hostMust s p | none => false

/-- All that the host must be asked for before an engine chunk. -/
def engineAsks (s : State) (reads writes : List Nat) : List Nat := engineInvs s writes ++ engineDatas s reads writes

/-- The host is asked for it. -/
def askEngine (s : State) (reads writes : List Nat) : State := askLines (askInv s (engineInvs s writes)) (engineDatas s reads writes)

/-- All of it has been asked for. -/
def engineAsked (s : State) (reads writes : List Nat) : Bool :=
  (engineInvs s writes).all s.bisnpInv.contains && (engineDatas s reads writes).all s.bisnp.contains

/-- The chunks registered before an engine chunk (R152). -/
def registeredBefore (s : State) (owner : RegOwner) : List Registered := s.registered.takeWhile fun r => r.owner != owner

/-- A registered pinned chunk of a core. -/
def pinnedOn (core : Nat) (r : Registered) : Bool :=
  match r.owner with
  | .pinned c _ => c == core
  | _ => false

/-- An engine chunk conflicts with a chunk registered before it (R152). -/
def conflictsBefore (s : State) (owner : RegOwner) (reads writes : List Nat) : Bool :=
  (registeredBefore s owner).any fun r => intersects writes r.reads || intersects writes r.writes || intersects reads r.writes

/-- A flip to device holds every request to its page, a flip to host what comes after its chunk's registration (R152, R294). -/
def flipHolds (s : State) (before : List Registered) (ia : Nat) : Bool :=
  s.dies.any fun d =>
    match d.2.page with
    | some c => (c.op == 3 || (c.op == 2 && before.any fun r => r.owner == .migrate d.1)) && c.page ≤ ia && ia < c.page + c.granules * 2048
    | none => false

/-- A line's page is being flipped (R294), a COMMITTING chunk has written it (R148), another module owns it (R348), or its page is PRIVATE to a
core whose pinned chunk is registered before (R151). -/
def lineHeld (s : State) (before : List Registered) (line : Nat) : Bool :=
  flipHolds s before (line * 128) || missHeld s line || remoteMust s line ||
    (match linePlace s line with
     | some p => (match privateOwner s p with | some o => before.any (pinnedOn o) | none => false)
     | none => false)

/-- An engine chunk with these signatures must wait: for a registered chunk before it that it conflicts with (R152), for the host, or for a
page. -/
def engineWaits (s : State) (owner : RegOwner) (reads writes : List Nat) : Bool :=
  conflictsBefore s owner reads writes || !(engineAsks s reads writes).isEmpty || (reads ++ writes).any (lineHeld s (registeredBefore s owner))

/-- An engine chunk that cannot start yet is registered, and the host is asked for what it must give. -/
def registerWait (s : State) (owner : RegOwner) (ctx : BitVec 12) (reads writes : List Nat) : State :=
  let s := askEngine s reads writes
  if s.registered.any fun r => r.owner == owner then
    { s with registered := s.registered.map fun r => if r.owner == owner then { r with reads := reads, writes := writes } else r }
  else { s with registered := s.registered ++ [⟨owner, ctx, reads, writes, false⟩] }

/-- It waits in the place where it has registered, and has asked for all that it needs: trying again changes nothing. -/
def engineStuck (s : State) (owner : RegOwner) (reads writes : List Nat) : Bool :=
  engineWaits s owner reads writes && (s.registered.any fun r => r.owner == owner && r.reads == reads && r.writes == writes) &&
    engineAsked s reads writes

/-- An engine chunk that accesses memory for more than a step has started: it keeps the place that it registered in (R152). -/
def registerStart (s : State) (owner : RegOwner) (ctx : BitVec 12) (reads writes : List Nat) : State :=
  if s.registered.any fun r => r.owner == owner then
    { s with registered := s.registered.map fun r => if r.owner == owner then ⟨owner, ctx, reads, writes, true⟩ else r }
  else { s with registered := s.registered ++ [⟨owner, ctx, reads, writes, true⟩] }

/-- Write a buffer over a line and leave the line at its home: every cached copy is dropped, units written whole lose their poison
(R360), host memory keeps no tags (R100). -/
def writeHome (s : State) (p : Place) (b : LineBuf) : State :=
  let line := p.ia / 128
  let l := p.loc / 128 * 128
  let v := cohLine s p.key p.ia p.loc
  let s := homeward s line l p.key
  let w := lineOver v b
  let s := homePut s p.key p.ia l (if isHost l then ⟨w.data, 0⟩ else w)
  let m := (upTo 8).foldl (fun m u => if b.mask.extractLsb' (16 * u) 16 == BitVec.allOnes 16 then memClearPoison m (l + 16 * u) else m) s.mem
  { s with mem := m }

/-- A PRIVATE page gives up its lines to an agent outside its owner, as to a miss (R153). -/
def enginePage (s : State) (p : Place) : State :=
  match privateOwner s p with
  | some o => unprivate s o p
  | none => s

/-- Before a chunk of the revocation or migration engine touches lines of a PRIVATE page, their owner acts as R153 states for these lines
alone, and the page stays PRIVATE (R289). -/
def quietLine (s : State) (line : Nat) : State :=
  match linePlace s line with
  | none => s
  | some p =>
    match privateOwner s p with
    | none => s
    | some o =>
      let s := testCore s o [line]
      match l1Find (coreAt s o) line false with
      | some x => updCore (writeBackLine s o x) o fun k => { k with l1 := k.l1.filter fun y => y.nonCoherent || y.line != line }
      | none => s

/-- A page handled as SHARED is recorded so at the commit of an agent that missed; `owner` is the core that commits, when one does: its
own commits record nothing (R288). -/
def recordShared (s : State) (page : Nat) (owner : Option Nat) : State :=
  match leafAt s (page * 2 ^ 16) with
  | some (l, e, g) =>
    if s.shared.contains (entryPage page g) && owner != some (leafPcore l).toNat then
      { editLeaf s e (fun l => leafSetClass l 2 0) with shared := NatSet.erase s.shared (entryPage page g) }
    else s
  | none => s

/-- What the access of an agent outside the cores leaves in the page table as it commits: a PRIVATE page is SHARED, A, and for a write D
(R284, R288). -/
def pageTouch (s : State) (write : Bool) (g : Seg) : State :=
  let page := g.p.ia / 2 ^ 16
  recordShared (markPage (tlbFill (enginePage s g.p) g.p) page write) page none

/-- That of a sequencer's chunk, whose misses count besides (R291). -/
def agentTouch (s : State) (write : Bool) (segs : List Seg) : State :=
  segs.foldl (fun s g => countMiss (pageTouch { s with answered := NatSet.erase s.answered (g.p.ia / 128) } write g) (g.p.ia / 2 ^ 16) false) s

/-- The parts of an agent's access for a context, or its fault: MAPFAULT, or POISON of a walk or, for a read, of a unit. -/
def agentSegsFrom (s : State) (o : Origin) (ctx : BitVec 12) (a n : Nat) (reading : Bool) : Except (Byte × W64) (List Seg) :=
  match transParts s ctx o (lineParts a n (n / 128 + 2)) with
  | .error (c, ia) => .error (Code.mapFault, mapInfo c ia)
  | .ok l =>
    let segs := placesOf l
    match segs.find? fun g => g.p.uncached with
    | some g => .error (Code.mapFault, mapInfo 6 g.p.ia)
    | none =>
      if segs.length != l.length || (reading && segs.any fun g => anyPoison s.mem g.p.loc g.n || readLost s g.p) then .error (Code.poison, 0)
      else .ok segs

/-- Those of an agent that belongs to no cluster (R261). -/
def agentSegs (s : State) (ctx : BitVec 12) (a n : Nat) (reading : Bool) : Except (Byte × W64) (List Seg) :=
  agentSegsFrom s .outside ctx a n reading

def segLines (segs : List Seg) : List Nat := segs.foldl (fun l g => NatSet.insert l (g.p.ia / 128)) []

/-- A range of virtual addresses that an operation of the sync engine, or a commit, reads or writes. -/
structure Extent where
  base : Nat
  len : Nat
  write : Bool
  deriving DecidableEq, Repr

/-- The parts of an extent; none when it does not translate. -/
def extentSegs (s : State) (ctx : BitVec 12) (a : Extent) : List Seg :=
  match agentSegs s ctx a.base a.len false with
  | .ok g => g
  | .error _ => []

/-- The coherent lines that some extents write, or read. -/
def extentLines (s : State) (ctx : BitVec 12) (l : List Extent) (write : Bool) : List Nat :=
  (l.filter fun a => a.write == write).foldl (fun r a =>
    (extentSegs s ctx a).foldl (fun r g => if nonCoherentLine (ctxOf s ctx) (g.p.ia / 128) then r else NatSet.insert r (g.p.ia / 128)) r) []

/-- An operation on some extents waits as an engine chunk does. -/
def extentsWait (s : State) (ctx : BitVec 12) (l : List Extent) : Bool := engineWaits s .device (extentLines s ctx l false) (extentLines s ctx l true)

/-- The host is asked for what it must give. -/
def extentsAsk (s : State) (ctx : BitVec 12) (l : List Extent) : State := askEngine s (extentLines s ctx l false) (extentLines s ctx l true)

/-- It waits, and has asked for all that it needs. -/
def extentsStuck (s : State) (ctx : BitVec 12) (l : List Extent) : Bool :=
  extentsWait s ctx l && engineAsked s (extentLines s ctx l false) (extentLines s ctx l true)

/-- What a committed operation leaves in the page table (R284, R288). -/
def extentsMark (s : State) (ctx : BitVec 12) (l : List Extent) : State :=
  l.foldl (fun s a => (extentSegs s ctx a).foldl (fun s g => pageTouch s a.write g) s) s

/-- The bytes of an agent's access, the first lowest. -/
def agentBytes (s : State) : List Seg → Nat
  | [] => 0
  | g :: r => lineBytes (cohLine s g.p.key g.p.ia g.p.loc) (g.p.ia % 128) g.n + 2 ^ (8 * g.n) * agentBytes s r

/-- The tag of the unit a part lies in. -/
def agentTag (s : State) (g : Seg) : Bool := (cohLine s g.p.key g.p.ia g.p.loc).tags.getLsbD (g.p.ia % 128 / 16)

/-- Write an agent's bytes, clearing the tags of the units touched (R101). -/
def agentPut (s : State) (v : Nat) : List Seg → State
  | [] => s
  | g :: r =>
    agentPut (pageTouch (writeHome (enginePage s g.p) g.p (bufWrite (g.p.ia % 128) g.n v false)) true g) (v / 2 ^ (8 * g.n)) r

/-- Read n bytes for a context. -/
def agentReadFrom (s : State) (o : Origin) (ctx : BitVec 12) (a n : Nat) : Except (Byte × W64) Nat :=
  match agentSegsFrom s o ctx a n true with
  | .error e => .error e
  | .ok g => .ok (agentBytes s g)

def agentRead (s : State) (ctx : BitVec 12) (a n : Nat) : Except (Byte × W64) Nat := agentReadFrom s .outside ctx a n

/-- Write n bytes for a context and squash the chunks the lines intersect; no stamp of its own is taken. -/
def agentWrite (s : State) (ctx : BitVec 12) (a n v : Nat) : Except (Byte × W64) State :=
  match agentSegs s ctx a n false with
  | .error e => .error e
  | .ok g => .ok ((segLines g).foldl (fun s l => s.cores.foldl (fun s c => testCore s c.1 [l]) s) (agentPut s v g))

/-- Read a capability for a context. -/
def agentReadCap (s : State) (ctx : BitVec 12) (a : Nat) : Except (Byte × W64) Cap :=
  match agentSegs s ctx a 16 true with
  | .error e => .error e
  | .ok g =>
    let tag :=
      match g with
      | [x] => agentTag s x
      | _ => false
    .ok (scrubCap s ctx ⟨tag, BitVec.ofNat 128 (agentBytes s g)⟩)

/-- Write a capability for a context, painted ones without their tag (R107). -/
def agentWriteCap (s : State) (ctx : BitVec 12) (a : Nat) (c : Cap) : Except (Byte × W64) State :=
  match agentSegs s ctx a 16 false with
  | .error e => .error e
  | .ok g =>
    match g with
    | [x] =>
      let c := scrubCap s ctx c
      let s := pageTouch (writeHome (enginePage s x.p) x.p (bufWrite (x.p.ia % 128) 16 c.img.toNat c.tag)) true x
      .ok (s.cores.foldl (fun s k => testCore s k.1 (segLines g)) s)
    | _ => .error (Code.align, 0)

end Sys2Proof.Machine
end

