-- ==== Sys2Proof/Machine/Queue.lean ====
section
/-! DEFINITION. The sync engine's queues: continuation records (R173 to R176), deques (R177, R178), injection rings (R182, R183,
R186) and join counters (R180, R181). -/

namespace Sys2Proof.Machine

/-- What an agent's operation gives: a fault code with its information word, or a result. -/
abbrev Attempt (α : Type) := Except (Byte × W64) α

/-! ### Records -/

/-- A continuation record (R173). -/
structure Record where
  code : Cap
  frame : Cap
  join : Cap
  arg : W64
  flags : W32
  rsv : W32
  deriving DecidableEq, Repr

def recVersion (f : W32) : Nat := (f.extractLsb' 28 4).toNat
def recKernel (f : W32) : BitVec 16 := f.extractLsb' 12 16
def recClass (f : W32) : BitVec 2 := f.extractLsb' 0 2

/-- FLAGS of version 1 (R174). -/
def recFlags (kernel : BitVec 16) (cls : BitVec 2) : W32 := 1#4 ++ kernel ++ 0#10 ++ cls

/-- Read a record coherently, painted capabilities without their tags (R187). -/
def readRecord (s : State) (ctx : BitVec 12) (a : Nat) : Attempt Record :=
  match agentSegs s ctx a 64 true with
  | .error e => .error e
  | .ok g =>
    let v := agentBytes s g
    let cap (i : Nat) : Cap :=
      match agentReadCap s ctx (a + 16 * i) with
      | .ok c => c
      | .error _ => Cap.null
    .ok ⟨cap 0, cap 1, cap 2, BitVec.ofNat 64 (v / 2 ^ 384), BitVec.ofNat 32 (v / 2 ^ 448), BitVec.ofNat 32 (v / 2 ^ 480)⟩

/-- The check of a record at a push (R176). -/
def checkRecord (s : State) (ctx : BitVec 12) (k : Cap) : Attempt Record :=
  match readRecord s ctx (capDecode k).1 with
  | .error e => .error e
  | .ok r =>
    if recVersion r.flags != 1 || r.flags.extractLsb' 2 10 != 0 || r.rsv != 0 then .error (Code.engine, 1) else .ok r

/-- Seal a capability over the 64 bytes at its address as a continuation (R175). -/
def sealRecord (c : Cap) : Cap :=
  let a := (capAddr c).toNat
  capSetOtype (capSetBounds c (encodeBounds a (min (a + 64) (2 ^ 64))) (capAddr c)) 3

/-! ### Rings -/

/-- The capacity a capability gives a ring (R177); any unusable value gives 0. -/
def ringSize (c : Cap) : Nat :=
  let b := capDecode c
  let len := b.2 - b.1
  let n := len / 16
  if c.tag && capOtype c == 0 && capHas c Perm.load && capHas c Perm.store && capHas c Perm.loadCap && capHas c Perm.storeCap &&
      len != 0 && b.1 % len == 0 && len % 16 == 0 && 16 ≤ n && n ≤ 65536 && 2 ^ Nat.log2 n == n then n else 0

def ringEntry (c : Cap) (i : Nat) : Nat := (capDecode c).1 + i % ringSize c * 16

/-- Entries of a deque, counted modulo 2^32; an unusable ring counts as empty (R177). -/
def dequeCount (k : Core) : Nat := if ringSize k.dqring == 0 then 0 else (k.bottom - k.top).toNat

def ctxDie (s : State) (ctx : BitVec 12) (die : Nat) : CtxDie := Tbl.get CtxDie.reset (ctxOf s ctx).dies die
def updCtxDie (s : State) (ctx : BitVec 12) (die : Nat) (f : CtxDie → CtxDie) : State :=
  updCtx s ctx.toNat fun c => { c with dies := Tbl.set c.dies die (f (Tbl.get CtxDie.reset c.dies die)) }

/-- Entries of an injection ring (R183). DESIGN CHOICE: an INJRING that becomes unusable while entries remain counts as empty, as R177 has it
of DQRING (notes/assumptions/52.md). -/
def injCount (d : CtxDie) (cls : Nat) : Nat :=
  if ringSize (Tbl.get Cap.null d.injring cls) == 0 then 0 else (Tbl.get 0 d.injTail cls - Tbl.get 0 d.injHead cls).toNat

/-- The entry that the next push to an injection ring writes, and the one that the next take reads (R183). -/
def injectSpot (d : CtxDie) (cls : Nat) : Nat := ringEntry (Tbl.get Cap.null d.injring cls) (Tbl.get 0 d.injTail cls).toNat
def injectHeadSpot (d : CtxDie) (cls : Nat) : Nat := ringEntry (Tbl.get Cap.null d.injring cls) (Tbl.get 0 d.injHead cls).toNat

/-- InjectPush (R183): a full ring, and one of capacity 0, refuses with ENGINE and information word 3 (R182). -/
def injectPush (s : State) (ctx : BitVec 12) (die cls : Nat) (k : Cap) : Attempt State :=
  let d := ctxDie s ctx die
  if ringSize (Tbl.get Cap.null d.injring cls) ≤ injCount d cls then .error (Code.engine, 3)
  else
    match agentWriteCap s ctx (injectSpot d cls) k with
    | .error e => .error e
    | .ok t => .ok (updCtxDie t ctx die fun d => { d with injTail := Tbl.set d.injTail cls (Tbl.get 0 d.injTail cls + 1) })

/-- The class of a kernel of a context (R199), or 0 when there is none. -/
def kernelClass (s : State) (ctx : BitVec 12) (id : BitVec 16) : Nat :=
  ((Tbl.find (ctxOf s ctx).kernels id.toNat).map (·.cls.toNat)).getD 0

/-- The class of the injection ring that a record diverts into (R182). -/
def divertClass (s : State) (ctx : BitVec 12) (flags : W32) : Nat := max (recClass flags).toNat (kernelClass s ctx (recKernel flags))

/-- A deque is full, or has no ring. -/
def dequeFull (k : Core) : Bool := ringSize k.dqring ≤ dequeCount k

/-- The entry that a push to a core's deque writes (R178, R182). -/
def pushSpot (s : State) (core : Nat) (flags : W32) : Nat :=
  let c := coreAt s core
  if dequeFull c then injectSpot (ctxDie s c.owner (dieOf core)) (divertClass s c.owner flags) else ringEntry c.dqring c.bottom.toNat

/-- The entries that PopBottom and StealTop read (R178). -/
def bottomSpot (c : Core) : Nat := ringEntry c.dqring (c.bottom - 1).toNat
def topSpot (c : Core) : Nat := ringEntry c.dqring c.top.toNat

/-- Push (R178): a deque that is full, or has no ring, diverts into an injection ring of its die (R182). -/
def dequePush (s : State) (core : Nat) (k : Cap) (flags : W32) : Attempt State :=
  let c := coreAt s core
  if dequeFull c then injectPush s c.owner (dieOf core) (divertClass s c.owner flags) k
  else
    match agentWriteCap s c.owner (ringEntry c.dqring c.bottom.toNat) k with
    | .error e => .error e
    | .ok t => .ok (updCore t core fun c => { c with bottom := c.bottom + 1 })

/-- PopBottom (R178); null when the deque is empty. -/
def popBottom (s : State) (core : Nat) : Attempt (State × Cap) :=
  let c := coreAt s core
  if dequeCount c == 0 then .ok (s, Cap.null)
  else
    match agentReadCap s c.owner (bottomSpot c) with
    | .error e => .error e
    | .ok k => .ok (updCore s core fun c => { c with bottom := c.bottom - 1 }, k)

/-- StealTop (R178). -/
def stealTop (s : State) (core : Nat) : Attempt (State × Cap) :=
  let c := coreAt s core
  if dequeCount c == 0 then .ok (s, Cap.null)
  else
    match agentReadCap s c.owner (topSpot c) with
    | .error e => .error e
    | .ok k => .ok (updCore s core fun c => { c with top := c.top + 1 }, k)

/-- The class a take of the injection rings serves (R186). -/
def takeClass (d : CtxDie) : Option Nat :=
  let nonEmpty := [0, 1, 2, 3].filter fun c => injCount d c != 0
  match nonEmpty.find? fun c => 64 ≤ Tbl.get 0 d.passes c with
  | some c => some c
  | none => nonEmpty.head?

/-- Take from the injection rings of a context on a die (R183, R186). -/
def injectTake (s : State) (ctx : BitVec 12) (die : Nat) : Attempt (State × Cap) :=
  let d := ctxDie s ctx die
  match takeClass d with
  | none => .ok (s, Cap.null)
  | some c =>
    match agentReadCap s ctx (injectHeadSpot d c) with
    | .error e => .error e
    | .ok k =>
      let later := [0, 1, 2, 3].filter fun x => c < x && injCount d x != 0
      let passes := later.foldl (fun p x => Tbl.set p x (Tbl.get 0 p x + 1)) (Tbl.set d.passes c 0)
      .ok (updCtxDie s ctx die fun d => { d with injHead := Tbl.set d.injHead c (Tbl.get 0 d.injHead c + 1), passes := passes }, k)

/-! ### Starting and freeing a slot -/

/-- A thread starts from its record (R187); its cluster has power. -/
def startThread (s : State) (core l : Nat) (r : Record) : State :=
  let code := if r.code.tag && capOtype r.code == 1 then capSetOtype r.code 0 else r.code
  let regs : Regs :=
    { Regs.reset with pcc := code, g := [(3, capInt r.arg), (4, r.join), (8, r.frame)] }
  let s := if (clusterAt s (clusterOf core)).gated then updCluster s (clusterOf core) fun k => { k with gated := false } else s
  setSlot s core l { Slot.reset with busy := true, regs := regs, cur := Chunk.start regs, kernel := recKernel r.flags,
                                     prio := recClass r.flags }

/-- The older chunk of a slot, if it is COMMITTING: nothing squashes it or drops it (R139). -/
def committingOf (x : Slot) : Option Chunk :=
  match x.older with
  | some o => if o.status == .committing then some o else none
  | none => none

/-- FreeSlot (R181): a chunk that is COMMITTING goes on to its end, and a thread that ran pinned does so no longer (R151). -/
def freeSlot (s : State) (core l : Nat) : State :=
  let s := setSlot s core l { Slot.reset with older := committingOf (slotAt s core l) }
  { s with pinned := if s.pinned == some (4 * core + l) then none else s.pinned, requests := s.requests.filter (· != 4 * core + l),
           registered := s.registered.filter fun r => r.owner != .pinned core l }

end Sys2Proof.Machine
end

