-- ==== Sys2Proof/Machine/Group.lean ====
section
/-! DEFINITION. Groups and barriers: membership registers (R201 to R205), Mortar's arrival bits and releases (R208 to R212),
and the events GROUP_JOIN, GROUP_LEAVE and RELEASE. -/

namespace Sys2Proof.Machine

/-! ### Membership registers (R201) -/

def memValid (m : W64) : Bool := m.getLsbD 63
def memGid (m : W64) : BitVec 31 := m.extractLsb' 32 31
def memChannel (m : W64) : Nat := (m.extractLsb' 26 6).toNat
def memRank (m : W64) : Nat := (m.extractLsb' 16 10).toNat
def memSize (m : W64) : Nat := (m.extractLsb' 0 11).toNat

def memberAt (k : Core) (n : Nat) : W64 := Tbl.get 0 k.member n

/-- DOMLVL.DEPTH: the valid MEMBER registers. -/
def depthOf (k : Core) : Nat := ([0, 1, 2, 3].filter fun n => memValid (memberAt k n)).length

/-- The register of a core that names a channel (R202). -/
def memberFor (k : Core) (ch : Nat) : Option Nat :=
  [0, 1, 2, 3].find? fun n => memValid (memberAt k n) && memChannel (memberAt k n) == ch

/-- DOMLVL (R201). -/
def domlvl (k : Core) : W64 := BitVec.ofNat 64 (k.phase.toNat * 16 + depthOf k)

/-- A write that joins is accepted (R204). -/
def joinAccepted (k : Core) (n : Nat) (v : W64) : Bool :=
  memValid v && n == depthOf k && 2 ^ 30 ≤ (memGid v).toNat && memChannel v ≤ 39 && (memberFor k (memChannel v)).isNone &&
    1 ≤ memSize v && memSize v ≤ 1024 && memRank v < memSize v && v.extractLsb' 11 5 == 0

/-- A write that leaves is accepted (R204). -/
def leaveAccepted (k : Core) (n : Nat) (v : W64) : Bool :=
  let m := memberAt k n
  !memValid v && n + 1 == depthOf k && 2 ^ 30 ≤ (memGid m).toNat && !k.arrived.getLsbD (memChannel m)

def phaseSet (p : BitVec 4) (n : Nat) (b : Bool) : BitVec 4 := if b then p ||| (1#4 <<< n) else p &&& ~~~ (1#4 <<< n)

/-- A leave (R204): the register takes the value, its reserved bits zero, and its phase bit reads 0. -/
def leaveGroup (s : State) (c n : Nat) (v : W64) : State :=
  let k := coreAt s c
  if leaveAccepted k n v then
    setCore s c { k with member := Tbl.set k.member n (v &&& ~~~ 0xf800#64), phase := phaseSet k.phase n false }
  else s

/-- Clear every MEMBER register of a core; it loses its arrivals on their channels (R205). -/
def clearMembers (k : Core) : Core :=
  let gone := [0, 1, 2, 3].foldl (fun (a : BitVec 40) n =>
    if memValid (memberAt k n) then a ||| (1#40 <<< memChannel (memberAt k n)) else a) 0
  { k with member := [], phase := 0, arrived := k.arrived &&& ~~~ gone }

/-! ### Barriers -/

/-- An arrival (R211): recorded only for a channel that a valid register names. -/
def arriveAt (s : State) (c ch : Nat) : State :=
  let k := coreAt s c
  match memberFor k ch with
  | some _ => setCore s c { k with arrived := k.arrived ||| (1#40 <<< ch) }
  | none => s

/-- A WAIT can commit (R211). -/
def waitOpen (s : State) (c ch : Nat) : Bool :=
  let k := coreAt s c
  (memberFor k ch).isNone || !k.arrived.getLsbD ch

/-- The members of a barrier with their registers: the cores of a context with a valid register of this GID that names the
channel (R208, R209). -/
def barrierMembers (s : State) (ctx : BitVec 12) (gid : BitVec 31) (ch : Nat) : List (Nat × Nat) :=
  s.cores.filterMap fun c =>
    if c.2.owner == ctx && ctx != 0 then
      match memberFor c.2 ch with
      | some n => if memGid (memberAt c.2 n) == gid then some (c.1, n) else none
      | none => none
    else none

/-- The cores of a context that hold a GID, whatever channel their registers name (R202, R212). -/
def groupHolders (s : State) (ctx : BitVec 12) (gid : BitVec 31) : List Nat :=
  s.cores.filterMap fun c =>
    if c.2.owner == ctx && ctx != 0 && [0, 1, 2, 3].any (fun n => memValid (memberAt c.2 n) && memGid (memberAt c.2 n) == gid) then some c.1 else none

/-- The phase bit of a barrier, as every member sees it (R210). -/
def setPhase (s : State) (l : List (Nat × Nat)) (b : Bool) : State :=
  l.foldl (fun s p => updCore s p.1 fun k => { k with phase := phaseSet k.phase p.2 b }) s

/-- A join (R204): the register takes the value, and the barrier's phase bit becomes 0, for the members it has already too (R210). A join
of a group that has lost a member makes it whole again: R206 names no such event. DESIGN CHOICE: a barrier is one over all the cores that name
a channel number with one GID, on whatever dies they lie, with one phase bit, although it never releases over several dies (R212;
notes/assumptions/53.md). -/
def joinGroup (s : State) (c n : Nat) (v : W64) : State :=
  let k := coreAt s c
  if joinAccepted k n v then
    setPhase (setCore s c { k with member := Tbl.set k.member n v, phase := phaseSet k.phase n false })
      (barrierMembers s k.owner (memGid v) (memChannel v)) false
  else s

/-- A committed write of MEMBERn. -/
def memberWrite (s : State) (c n : Nat) (v : W64) : State := if memValid v then joinGroup s c n v else leaveGroup s c n v

/-- A barrier can release its phase (R212): every core that holds its GID is a member of it. Members whose SIZE fields differ never release
(notes/assumptions/53.md). -/
def canRelease (s : State) (ctx : BitVec 12) (gid : BitVec 31) (ch : Nat) : Bool :=
  let l := barrierMembers s ctx gid ch
  match l with
  | [] => false
  | (c0, n0) :: _ =>
    let size := memSize (memberAt (coreAt s c0) n0)
    let ranks := l.map fun p => memRank (memberAt (coreAt s p.1) p.2)
    groupHolders s ctx gid == l.map (·.1) && l.length == size && (upTo size).all (fun r => ranks.contains r) &&
      (l.all fun p => memSize (memberAt (coreAt s p.1) p.2) == size && (coreAt s p.1).arrived.getLsbD ch) &&
      (32 ≤ ch || l.all fun p => dieOf p.1 == dieOf c0)

/-- Mortar releases a phase: arrivals cleared, phases flipped at every member (R206, R212). -/
def releasePhase (s : State) (ctx : BitVec 12) (gid : BitVec 31) (ch : Nat) : State :=
  if canRelease s ctx gid ch then
    (barrierMembers s ctx gid ch).foldl (fun s p =>
      updCore s p.1 fun k => { k with arrived := k.arrived &&& ~~~ (1#40 <<< ch), phase := k.phase ^^^ (1#4 <<< p.2) }) s
  else s

/-- The barriers that can release: context, group and channel, by the arrived cores. -/
def dueRelease (s : State) : Option (BitVec 12 × BitVec 31 × Nat) :=
  s.cores.findSome? fun c =>
    if c.2.arrived == 0 then none
    else
      [0, 1, 2, 3].findSome? fun n =>
        let m := memberAt c.2 n
        if memValid m && canRelease s c.2.owner (memGid m) (memChannel m) then some (c.2.owner, memGid m, memChannel m) else none

/-- GROUP_JOIN (R204). -/
def execGroupJoin (c : Coord) (n : BitVec 2) (value : W64) (s : State) : Outcome := .next (joinGroup s c.toNat n.toNat value)

/-- GROUP_LEAVE (R204). -/
def execGroupLeave (c : Coord) (n : BitVec 2) (value : W64) (s : State) : Outcome := .next (leaveGroup s c.toNat n.toNat value)

/-- RELEASE (R212). -/
def execRelease (ctx : BitVec 12) (gid : BitVec 31) (ch : BitVec 6) (s : State) : Outcome := .next (releasePhase s ctx gid ch.toNat)

end Sys2Proof.Machine
end

