-- ==== Sys2Proof/Machine/Kernel.lean ====
section
/-! DEFINITION. Kernels: the launch record, acceptance and placement (R189 to R194), the launch ring (R192), LIVE and the
states of a kernel (R195 to R197), energy and class (R198 to R200), and the acquisition of work (R184 to R188). -/

namespace Sys2Proof.Machine

/-! ### The completion block and the end of a kernel -/

/-- The completion block's location can be written: its address translates, and no link that gives no answer lies before it (R197, R348). -/
def blockWritable (s : State) (ctx : BitVec 12) (a : Nat) : Bool :=
  match agentSegs s ctx a 16 false with
  | .ok g => g.all fun g => !locLost s g.p.ia g.p.loc
  | .error _ => false

/-- The completion block (R197); one that cannot be written is not. -/
def writeBlock (s : State) (ctx : BitVec 12) (done : Cap) (st id word : Nat) (charged : W64) : State :=
  if !blockWritable s ctx (capAddr done).toNat then s
  else match agentWrite s ctx (capAddr done).toNat 16 (st % 2 ^ 16 + id % 2 ^ 16 * 2 ^ 16 + word % 2 ^ 32 * 2 ^ 32 + charged.toNat * 2 ^ 64) with
  | .ok t => t
  | .error _ => s

def stateCode : KernelState → Nat
  | .running => 0
  | .retired => 1
  | .faulted => 2
  | .cancelled => 3
  | .refused => 4

def kernelAt (s : State) (ctx : BitVec 12) (id : Nat) : Option Kernel := Tbl.find (ctxOf s ctx).kernels id

def kernelRuns (s : State) (ctx : BitVec 12) (id : Nat) : Bool := ((kernelAt s ctx id).map (·.state == .running)).getD false

def updKernel (s : State) (ctx : BitVec 12) (id : Nat) (f : Kernel → Kernel) : State :=
  match kernelAt s ctx id with
  | some k => updCtx s ctx.toNat fun c => { c with kernels := Tbl.set c.kernels id (f k) }
  | none => s

/-- A RUNNING kernel reaches a terminal state (R196, R197, R205): the block is written and the region's groups dissolve, on the cores of the
region that the context still has. DESIGN CHOICE: of a context that is switched out the saved MEMBER registers clear (notes/assumptions/53.md). -/
def finishKernel (s : State) (ctx : BitVec 12) (id : Nat) (st : KernelState) : State :=
  match kernelAt s ctx id with
  | none => s
  | some k =>
    if k.state != .running then s
    else
      let s := updKernel s ctx id fun k => { k with state := st }
      let s := writeBlock s ctx k.doneCap (stateCode st) id k.demotions.toNat k.charged
      let s := updCtx s ctx.toNat fun x =>
        { x with savedCores := Tbl.mapVal x.savedCores fun c q => if k.region.any (fun r => r.toNat == c) then clearMembers q else q }
      k.region.foldl (fun s c => if (coreAt s c.toNat).owner == ctx then updCore s c.toNat clearMembers else s) s

/-- LIVE changes at a commit (R195); 0 or below retires the kernel. -/
def liveChange (s : State) (ctx : BitVec 12) (id : Nat) (up : Bool) : State :=
  match kernelAt s ctx id with
  | none => s
  | some k =>
    if k.state != .running then s
    else
      let s := updKernel s ctx id fun k => { k with live := if up then k.live + 1 else k.live - 1 }
      if !up && k.live ≤ 1 then finishKernel s ctx id .retired else s

/-- Cancel a kernel (R196, R233): its threads are squashed and their slots freed, those of a context that is switched out in what is saved of
them (notes/assumptions/53.md). -/
def cancelKernel (s : State) (ctx : BitVec 12) (id : Nat) : State :=
  if !kernelRuns s ctx id then s
  else
    let s := finishKernel s ctx id .cancelled
    let hit (x : Slot) : Bool := x.busy && x.kernel.toNat == id
    let s := updCtx s ctx.toNat fun x =>
      { x with savedCores := Tbl.mapVal x.savedCores fun _ q => { q with slots := Tbl.mapVal q.slots fun _ y => if hit y then Slot.reset else y } }
    s.cores.foldl (fun s c =>
      if c.2.owner == ctx then
        [0, 1, 2, 3].foldl (fun s l => if hit (slotAt s c.1 l) then freeSlot (squashSlot s c.1 l false) c.1 l else s) s
      else s) s

/-! ### Launch records -/

/-- A launch record (R189). -/
structure Launch where
  entry : Cap
  frame : Cap
  records : Cap
  doneCap : Cap
  budget : W64
  shape : W32
  place : W32
  map : Cap
  deriving DecidableEq, Repr

def shapeGroup (l : Launch) : Nat := (l.shape.extractLsb' 2 11).toNat
def shapeClass (l : Launch) : BitVec 2 := l.shape.extractLsb' 0 2
def placeCols (l : Launch) : Nat := (l.place.extractLsb' 14 5).toNat
def placeRows (l : Launch) : Nat := (l.place.extractLsb' 10 4).toNat
def placeOrigin (l : Launch) : Nat := (l.place.extractLsb' 0 10).toNat

/-- Read a launch record through an address of a context. -/
def readLaunch (s : State) (ctx : BitVec 12) (a : Nat) : Attempt Launch :=
  match agentSegs s ctx a 96 true with
  | .error e => .error e
  | .ok g =>
    let v := agentBytes s g
    let cap (off : Nat) : Cap :=
      match agentReadCap s ctx (a + off) with
      | .ok c => c
      | .error _ => Cap.null
    .ok ⟨cap 0, cap 16, cap 32, cap 48, BitVec.ofNat 64 (v / 2 ^ 512), BitVec.ofNat 32 (v / 2 ^ 576), BitVec.ofNat 32 (v / 2 ^ 608), cap 80⟩

/-- The check of DONE (R191). -/
def doneCheck (c : Cap) : Option Byte := checkPerms c (capAddr c).toNat 16 true [Perm.store]

/-- MAP can be read (R190). -/
def mapUsable (l : Launch) : Bool :=
  (capAddr l.map).toNat % 2 == 0 &&
    (checkPerms l.map (capAddr l.map).toNat (2 * placeRows l * placeCols l) false [Perm.load]).isNone

/-- The clusters of a region in source order; none when it is not well formed (R190, R191 check 3). -/
def regionClusters (s : State) (ctx : BitVec 12) (l : Launch) : Option (List Nat) :=
  let o := placeOrigin l / 8
  let rows := placeRows l
  let cols := placeCols l
  if placeOrigin l % 8 != 0 then none
  else if l.map == Cap.null then
    if o / 16 + rows ≤ 8 && o % 16 + cols ≤ 16 then some ((upTo (rows * cols)).map fun i => (o / 16 + i / cols) * 16 + o % 16 + i % cols)
    else none
  else if !mapUsable l then none
  else
    match agentRead s ctx (capAddr l.map).toNat (2 * rows * cols) with
    | .error _ => none
    | .ok v =>
      let e := (upTo (rows * cols)).map fun i => v / 2 ^ (16 * i) % 2 ^ 16
      if e.all (fun x => x < 1024 && x % 8 == 0) && e.head? == some (placeOrigin l) && e.Nodup then some (e.map (· / 8)) else none

/-- The cores of some clusters, in order. -/
def coresOf (l : List Nat) : List Nat := l.flatMap fun k => (upTo 8).map fun i => 8 * k + i

/-- The groups' first cores (R193). -/
def groupHeads (cores : List Nat) (group : Nat) : List Nat := (upTo (cores.length / group)).map fun g => cores.getD (g * group) 0

/-- The lowest free kernel id of a context (R191): one that no RUNNING kernel has. -/
def freeKernelId (c : Context) : Option Nat :=
  let used := (c.kernels.filter fun k => k.2.state == .running).map (·.1)
  let rec go (i : Nat) : List Nat → Nat
    | [] => i
    | j :: r => if j == i then go (i + 1) r else i
  let i := go 1 used
  if i < 2 ^ 16 then some i else none

/-- The fields in range (R191 check 2). -/
def launchRanges (l : Launch) : Bool :=
  1 ≤ shapeGroup l && shapeGroup l ≤ 1024 && 1 ≤ placeRows l && placeRows l ≤ 8 && 1 ≤ placeCols l && placeCols l ≤ 16 &&
    1 ≤ l.budget.toNat && l.budget.toNat ≤ 1000000 && shapeGroup l ≤ 8 * placeRows l * placeCols l

/-- The region's cores are the context's and belong to no group (R191 check 3). -/
def regionFree (s : State) (ctx : BitVec 12) (clusters : List Nat) : Bool :=
  clusters.all fun k => !s.unavailable.contains k && (upTo 8).all fun i => (coreAt s (8 * k + i)).owner == ctx && depthOf (coreAt s (8 * k + i)) == 0

/-- RECORDS serves a launch of g groups (R191 check 4): whole in bounds and translating to places that are not uncached. -/
def recordsUsable (s : State) (ctx : BitVec 12) (l : Launch) (g : Nat) : Bool :=
  let a := (capAddr l.records).toNat
  a % 64 == 0 && (checkPerms l.records a (64 * g) false [Perm.load, Perm.store, Perm.loadCap, Perm.storeCap]).isNone &&
    (match agentSegs s ctx a (64 * g) false with
     | .ok _ => true
     | .error _ => false)

/-- The first failing check of R191, DONE apart, or the clusters of the region and the kernel id. -/
def acceptLaunch (s : State) (ctx : BitVec 12) (l : Launch) : Except Nat (List Nat × Nat) :=
  if l.shape.extractLsb' 28 4 != 1 || l.shape.extractLsb' 13 15 != 0 || l.place.extractLsb' 19 13 != 0 then .error 1
  else if !launchRanges l then .error 2
  else
    match regionClusters s ctx l with
    | none => .error 3
    | some clusters =>
      if !regionFree s ctx clusters then .error 3
      else
        let heads := groupHeads (coresOf clusters) (shapeGroup l)
        if !recordsUsable s ctx l heads.length then .error 4
        else
          match freeKernelId (ctxOf s ctx) with
          | none => .error 5
          | some id =>
            let room (die : Nat) : Bool :=
              let d := ctxDie s ctx die
              let need := (heads.filter fun c => dieOf c == die).length
              need == 0 || need + injCount d (shapeClass l).toNat ≤ ringSize (Tbl.get Cap.null d.injring (shapeClass l).toNat)
            if (upTo 8).all room then .ok (clusters, id) else .error 6

/-- The membership registers of a launch's cores (R205). -/
def launchMembers (s : State) (id group : Nat) (cores : List Nat) : State :=
  let groups := cores.length / group
  (upTo cores.length).foldl (fun s i =>
    let c := cores.getD i 0
    let g := i / group
    let mem := (upTo group).map fun j => cores.getD (g * group + j) 0
    let ch := if mem.all fun x => dieOf x == dieOf c then 31 else 39
    let k := clearMembers (coreAt s c)
    setCore s c
      (if g < groups then
        { k with member := [(0, BitVec.ofNat 64 (2 ^ 63 + (id * 1024 + g) * 2 ^ 32 + ch * 2 ^ 26 + i % group * 2 ^ 16 + group))] }
       else k)) s

/-- Write the records of a launch and push them (R193). -/
def launchRecords (s : State) (ctx : BitVec 12) (l : Launch) (id : Nat) (heads : List Nat) : Attempt State :=
  (upTo heads.length).foldl (fun t g =>
    match t with
    | .error e => .error e
    | .ok s =>
      let a := (capAddr l.records).toNat + 64 * g
      match agentWrite s ctx a 64 (g * 2 ^ 384 + (recFlags (BitVec.ofNat 16 id) (shapeClass l)).toNat * 2 ^ 448) with
      | .error e => .error e
      | .ok s =>
        match agentWriteCap s ctx a l.entry with
        | .error e => .error e
        | .ok s =>
          match agentWriteCap s ctx (a + 16) l.frame with
          | .error e => .error e
          | .ok s =>
            injectPush s ctx (dieOf (heads.getD g 0)) (shapeClass l).toNat (sealRecord (capSetAddr l.records (BitVec.ofNat 64 a)))) (.ok s)

/-- A launch refused (R191). -/
def refuseLaunch (s : State) (ctx : BitVec 12) (l : Launch) (code : Nat) : State := writeBlock s ctx l.doneCap 4 0 code 0

/-- Acceptance and placement of a launch whose DONE is usable, at one stamp (R191, R193, R196). -/
def launch (s : State) (ctx : BitVec 12) (l : Launch) : State :=
  match acceptLaunch s ctx l with
  | .error code => refuseLaunch s ctx l code
  | .ok (clusters, id) =>
    let cores := coresOf clusters
    let heads := groupHeads cores (shapeGroup l)
    match launchRecords s ctx l id heads with
    | .error _ => refuseLaunch s ctx l 6
    | .ok t =>
      let k : Kernel :=
        { state := .running, live := heads.length, budget := l.budget, left := l.budget * 1000, cls := shapeClass l, demotions := 0,
          charged := 0, doneCap := l.doneCap, region := cores.map (BitVec.ofNat 10), stamp := s.stamp, time := s.time, fraction := 0 }
      let t := updCtx t ctx.toNat fun c => { c with kernels := Tbl.set c.kernels id k }
      writeBlock (launchMembers t id (shapeGroup l) cores) ctx l.doneCap 0 id 0 0

/-- The completion block of a kernel, which the operation that ends it writes (R197). -/
def blockExtents (s : State) (ctx : BitVec 12) (id : Nat) : List Extent :=
  match kernelAt s ctx id with
  | some k => if k.state == .running then [⟨(capAddr k.doneCap).toNat, 16, true⟩] else []
  | none => []

/-- The ring entries that a launch's pushes write on a die. -/
def launchSpots (s : State) (ctx : BitVec 12) (cls die n : Nat) : List Extent :=
  let d := ctxDie s ctx die
  (upTo n).map fun i => ⟨ringEntry (Tbl.get Cap.null d.injring cls) ((Tbl.get 0 d.injTail cls).toNat + i), 16, true⟩

/-- What a launch reads and writes (R191, R193): the map and the block, and when it is accepted its records and ring entries. -/
def launchExtents (s : State) (ctx : BitVec 12) (l : Launch) : List Extent :=
  ⟨(capAddr l.doneCap).toNat, 16, true⟩ ::
    (if l.map.tag then [⟨(capAddr l.map).toNat, 2 * placeRows l * placeCols l, false⟩] else []) ++
    match acceptLaunch s ctx l with
    | .error _ => []
    | .ok (clusters, _) =>
      let heads := groupHeads (coresOf clusters) (shapeGroup l)
      ⟨(capAddr l.records).toNat, 64 * heads.length, true⟩ ::
        (upTo 8).flatMap fun die => launchSpots s ctx (shapeClass l).toNat die (heads.filter fun c => dieOf c == die).length

/-! ### The launch ring (R192) -/

def lrEntries (s : State) : Nat := 16 * 2 ^ (s.lrcfg.extractLsb' 0 4).toNat

/-- The device takes an entry: it is READY (R366), there is one, and TAIL lies within the ring's capacity of HEAD. -/
def lrDue (s : State) : Bool := s.ready && s.lrhead != s.lrtail && (s.lrtail - s.lrhead).toNat ≤ lrEntries s

/-- A capability rebuilt from its image (R192 step 2): tagged only when it passes. -/
def rebuild (s : State) (ctx : BitVec 12) (img : Nat) : Cap :=
  let i := BitVec.ofNat 128 img
  let c : Cap := ⟨true, i⟩
  if (buildCheck (ctxOf s ctx).authority i).isNone && !((ctxOf s ctx).revBusy && painted s ctx c) then c else ⟨false, i⟩

/-- The entry at HEAD: a context and its rebuilt record; none when it is to be discarded. -/
def launchEntry (s : State) : Option (BitVec 12 × Launch) :=
  let a := (s.lrcfg.extractLsb' 16 48).toNat * 2 ^ 16 + 128 * (s.lrhead.toNat % lrEntries s)
  let v := physGet s a 128 8
  let field (off n : Nat) : Nat := v / 2 ^ (8 * off) % 2 ^ (8 * n)
  let ctx := BitVec.ofNat 12 (field 96 2)
  let x := ctxOf s ctx
  if field 98 30 != 0 || 4095 < field 96 2 || ctx == 0 || (x.life != .created && x.life != .running) || !x.hostLaunch || anyPoison s.mem a 128 then none
  else
    let l : Launch :=
      { entry := rebuild s ctx (field 0 16), frame := rebuild s ctx (field 16 16), records := rebuild s ctx (field 32 16),
        doneCap := rebuild s ctx (field 48 16), budget := BitVec.ofNat 64 (field 64 8), shape := BitVec.ofNat 32 (field 72 4),
        place := BitVec.ofNat 32 (field 76 4), map := if field 80 16 == 0 then Cap.null else rebuild s ctx (field 80 16) }
    if (doneCheck l.doneCap).isSome then none else some (ctx, l)

/-- Take the entry at HEAD, once no registered chunk stands in its launch's way (R152). -/
def takeLaunchEntry (s : State) : State :=
  if !lrDue s then s
  else
    match launchEntry s with
    | none => { s with lrhead := s.lrhead + 1, lrdropped := s.lrdropped + 1 }
    | some (ctx, l) =>
      let xs := launchExtents s ctx l
      if extentsWait s ctx xs then extentsAsk s ctx xs
      else launch (engineCommit { extentsMark s ctx xs with lrhead := s.lrhead + 1 } []) ctx l

/-- The entry at HEAD can be taken, or discarded, or has something to ask of the host. -/
def launchDue (s : State) : Bool :=
  lrDue s && match launchEntry s with
    | some (ctx, l) => !extentsStuck s ctx (launchExtents s ctx l)
    | none => true

/-- LRTAIL (R192); before READY the device answers configuration requests only (R366). -/
def execLrtail (value : W64) (s : State) : Outcome := .next (if s.ready then { s with lrtail := value.setWidth 32 } else s)

/-- LAUNCH_RING_ENTRY (R192). -/
def execLaunchRingEntry (s : State) : Outcome := .next (takeLaunchEntry s)

/-- What a KCANCEL from outside the context writes: the completion block. -/
def kcancelExtents (s : State) (ctx : BitVec 12) (value : W64) : List Extent := blockExtents s ctx (value.toNat % 2 ^ 16)

/-- KCANCEL (R233): the transition takes a stamp (R196), and the block is written as one engine chunk (R197), which waits as one does. -/
def execKcancel (ctx : BitVec 12) (value : W64) (s : State) : Outcome :=
  let id := value.toNat % 2 ^ 16
  let xs := kcancelExtents s ctx value
  .next (if !kernelRuns s ctx id then s
    else if extentsWait s ctx xs then extentsAsk s ctx xs
    else cancelKernel (engineCommit (extentsMark s ctx xs) (extentLines s ctx xs true)) ctx id)

/-! ### Energy (R198, R199) -/

/-- A report reaches a kernel: whole microjoules leave ENERGYLEFT, the fraction stays, and at 0 or below the class goes up. -/
def energyToKernel (k : Kernel) (pj : Nat) : Kernel :=
  let total := k.fraction + pj
  let uj := total / 1000000
  let left := k.left.toInt - uj
  let k := { k with fraction := total % 1000000, charged := k.charged + BitVec.ofNat 64 uj, left := BitVec.ofInt 64 left }
  if left ≤ 0 then { k with left := k.budget * 1000, cls := if k.cls == 3 then 3 else k.cls + 1, demotions := k.demotions + 1 } else k

/-- A cluster reports its charges to its die's sync engine (R198). -/
def reportEnergy (s : State) (cl : Nat) : State :=
  let e := (clusterAt s cl).energy
  let s := updCluster s cl fun k => { k with energy := [] }
  e.foldl (fun s p =>
    updKernel s (BitVec.ofNat 12 (p.1 / 65536)) (p.1 % 65536) fun k => if k.state == .running then energyToKernel k p.2 else k) s

/-- ENERGY_REPORT (R198). -/
def execEnergyReport (cl : BitVec 7) (s : State) : Outcome := .next (reportEnergy s cl.toNat)

/-! ### Acquisition (R184 to R187) -/

/-- The members of a stretch after core c, ascending and wrapping (R185). -/
def rotated (c : Nat) (l : List Nat) : List Nat := (l.filter (c < ·)) ++ l.filter (· < c)

/-- The victim rotation (R185, R207). -/
def victims (s : State) (c : Nat) : List Nat :=
  let k := coreAt s c
  let mine := (s.cores.filter fun x => x.2.owner == k.owner && dieOf x.1 == dieOf c && x.1 != c).map (·.1)
  let m := memberAt k 0
  let inGroup (x : Nat) : Bool :=
    memValid m && [0, 1, 2, 3].any fun n => memValid (memberAt (coreAt s x) n) && memGid (memberAt (coreAt s x) n) == memGid m
  let first := mine.filter inGroup
  let second := mine.filter fun x => clusterOf x == clusterOf c && !first.contains x
  let third := mine.filter fun x => !first.contains x && !second.contains x
  rotated c first ++ rotated c second ++ rotated c third

/-- A source of work: the own deque, a victim's, or the injection rings. -/
inductive Source
  | own
  | victim (c : Nat)
  | inject
  deriving DecidableEq, Repr

def takeFrom (s : State) (c : Nat) : Source → Attempt (State × Cap)
  | .own => popBottom s c
  | .victim v => stealTop s v
  | .inject => injectTake s (coreAt s c).owner (dieOf c)

/-- What a take from a source reads: the ring entry, and the record it names. -/
def sourceExtents (s : State) (c : Nat) (x : Source) : List Extent :=
  let spot : Option Nat :=
    match x with
    | .own => if dequeCount (coreAt s c) == 0 then none else some (bottomSpot (coreAt s c))
    | .victim v => if dequeCount (coreAt s v) == 0 then none else some (topSpot (coreAt s v))
    | .inject => let d := ctxDie s (coreAt s c).owner (dieOf c); (takeClass d).map (injectHeadSpot d)
  match spot with
  | none => []
  | some a =>
    ⟨a, 16, false⟩ ::
      match takeFrom s c x with
      | .ok (_, k) => if k.tag then [⟨(capDecode k).1, 64, false⟩] else []
      | .error _ => []

/-- One take: the state after it, and the record when it yields a continuation of a RUNNING kernel (R184). DESIGN CHOICE: an untagged entry is
taken and dropped, and a tagged one that no sync engine sealed starts as a continuation does (notes/assumptions/54.md). What it reads is marked
in the page table (R284, R288). -/
def takeRecord (s : State) (c : Nat) (x : Source) : State × Option Record :=
  match takeFrom (extentsMark s (coreAt s c).owner (sourceExtents s c x)) c x with
  | .error _ => (s, none)
  | .ok (t, k) =>
    if !k.tag then (t, none)
    else
      match readRecord t (coreAt s c).owner (capDecode k).1 with
      | .error _ => (t, none)
      | .ok r => if kernelRuns t (coreAt s c).owner (recKernel r.flags).toNat then (t, some r) else (t, none)

/-- The first source that yields. -/
def acquire (s : State) (c : Nat) : List Source → State × Option Record
  | [] => (s, none)
  | x :: rest =>
    match takeRecord s c x with
    | (t, some r) => (t, some r)
    | (t, none) => acquire t c rest

def sourcesOf (s : State) (c : Nat) : List Source := .own :: ((victims s c).map .victim ++ [.inject])

/-- What an acquisition of a core may read (R179). -/
def acquireExtents (s : State) (c : Nat) : List Extent := (sourcesOf s c).flatMap (sourceExtents s c)

/-- A slot may ask for work (R184). -/
def canAcquire (s : State) (c l : Nat) : Bool :=
  let k := coreAt s c
  k.owner != 0 && !(slotAt s c l).busy && (slotAt s c l).older.isNone && !k.frozen && !k.stopped && k.stepping.isNone && ctxRuns s k.owner

/-- A source holds an entry that can be read. -/
def sourceHas (s : State) (c : Nat) (x : Source) : Bool :=
  (match x with
   | .own => dequeCount (coreAt s c) != 0
   | .victim v => dequeCount (coreAt s v) != 0
   | .inject => [0, 1, 2, 3].any fun i => injCount (ctxDie s (coreAt s c).owner (dieOf c)) i != 0) &&
    (match takeFrom s c x with
     | .ok _ => true
     | .error _ => false)

/-- There is something that a slot of this core could take. -/
def workWaits (s : State) (c : Nat) : Bool := (sourcesOf s c).any (sourceHas s c)

/-- An acquisition of a core would do something: it takes an entry, or asks the host. -/
def acquireReady (s : State) (c : Nat) : Bool := workWaits s c && !extentsStuck s (coreAt s c).owner (acquireExtents s c)

/-- ACQUISITION (R184): one engine chunk (R179), which waits as one (R152) and starts the thread it finds (R187). -/
def execAcquisition (c : Coord) (sl : BitVec 2) (s : State) : Outcome :=
  let ctx := (coreAt s c.toNat).owner
  let xs := acquireExtents s c.toNat
  if !canAcquire s c.toNat sl.toNat then .next s
  else if extentsWait s ctx xs then .next (extentsAsk s ctx xs)
  else
    match acquire (engineCommit s []) c.toNat (sourcesOf s c.toNat) with
    | (t, some r) => .next (startThread t c.toNat sl.toNat r)
    | (t, none) => .next t

end Sys2Proof.Machine
end

