-- ==== Sys2Proof/Machine/Sequencer.lean ====
section
/-! DEFINITION. The sequencers of a cluster: their queues, how an entry's words are fetched and its faults reported (R63 to R66,
R223 to R226), the table copies under a revocation pass (R107), and the array's lease (R252, R253). -/

namespace Sys2Proof.Machine

/-! ### Queues (R223) -/

/-- Which sequencer of a cluster. -/
def seqOf (k : Cluster) (copy : Bool) : Sequencer := if copy then k.copy else k.matrix

def updSeq (s : State) (cl : Nat) (copy : Bool) (f : Sequencer → Sequencer) : State :=
  updCluster s cl fun k => if copy then { k with copy := f k.copy } else { k with matrix := f k.matrix }

/-- Every entry of a sequencer, the running one first: restored entries run before the queue. -/
def seqEntries (q : Sequencer) : List Entry := q.restored ++ q.queue

def seqRoom (s : State) (cl : Nat) (copy : Bool) : Bool := (seqOf (clusterAt s cl) copy).queue.length < 16

def pushEntry (s : State) (cl : Nat) (copy : Bool) (e : Entry) : State :=
  updSeq s cl copy fun q => { q with queue := q.queue ++ [e] }

/-- The id an entry has in its thread's outstanding set (R226). -/
def entryId (stamp : W64) (copy : Bool) : Nat := 2 * stamp.toNat + (if copy then 1 else 0)

def dropHead (q : Sequencer) : Sequencer :=
  match q.restored with
  | _ :: r => { q with restored := r }
  | [] => { q with queue := q.queue.drop 1 }

/-- The address of the command word an entry stands at. -/
def entryAt (e : Entry) : W64 :=
  match e.program with
  | some c => capAddr c
  | none => e.addr

/-! ### The lease (R252, R253) -/

/-- A core waits for the lease: an MLEASE chunk of it has ENDED and asked for its stamp. -/
def leaseWaits (k : Core) : Bool :=
  k.slots.any fun x =>
    match x.2.older with
    | some o => o.status == .ended && (match o.effect with | some (.mlease _) => true | _ => false)
    | none => false

def leaseWaiters (s : State) (cl : Nat) : List Nat := (upTo 8).filter fun i => leaseWaits (coreAt s (8 * cl + i))

/-- A core holds its cluster's lease. -/
def holdsLease (s : State) (c : Nat) : Bool :=
  let k := clusterAt s (clusterOf c)
  k.lease == .held && k.holder.toNat == c % 8

/-- RELEASING ends when no entry of the core is queued or running. DESIGN CHOICE: weights that still load after their program has stopped count as
running (notes/assumptions/71.md). -/
def leaseSettle (s : State) (cl : Nat) : State :=
  let k := clusterAt s cl
  if k.lease == .releasing && !((seqEntries k.matrix).any fun e => e.core.toNat % 8 == k.holder.toNat) && k.loading.isNone then
    setCluster s cl { k with lease := .free, holder := 0, used := 0 }
  else s

/-- End a core's lease. -/
def leaseRelease (s : State) (cl : Nat) : State :=
  let k := clusterAt s cl
  if k.lease == .held then leaseSettle (setCluster s cl { k with lease := .releasing }) cl else s

/-- A charge to a HELD lease; the bound ends it. -/
def leaseCharge (s : State) (cl : Nat) (core : Nat) : State :=
  let k := clusterAt s cl
  if k.lease == .held && k.holder.toNat == core % 8 then
    let s := setCluster s cl { k with used := k.used + 1 }
    if k.bound ≤ k.used + 1 then leaseRelease s cl else s
  else s

/-- The array as at reset: both planes EMPTY, accumulators +0 (R239). -/
def clearArray (k : Cluster) : Cluster := { k with active := Plane.reset, shadow := Plane.reset, acc := [] }

/-- A context that resumed still waits for its saved lease on a cluster (R257). -/
def leaseOwed (s : State) (cl : Nat) : Option (BitVec 12) :=
  s.contexts.findSome? fun c =>
    match Tbl.find c.2.savedClusters cl with
    | some v => if v.lease && c.2.life == .running then some (BitVec.ofNat 12 c.1) else none
    | none => none

/-- A grant can take place: the lease is FREE, a core waits, and no resumed context is owed the lease. -/
def canGrant (s : State) (cl : Nat) : Bool :=
  (clusterAt s cl).lease == .free && !(leaseWaiters s cl).isEmpty && (leaseOwed s cl).isNone

/-- Grant the lease to the first waiter of the order (R252, R253). -/
def grantLease (s : State) (cl : Nat) : State :=
  if !canGrant s cl then s
  else
    let k := clusterAt s cl
    let w := leaseWaiters s cl
    match k.order.find? fun i => w.contains i with
    | none => s
    | some i =>
      let ctx := (coreAt s (8 * cl + i)).owner
      let k := if ctx == k.lastCtx then k else clearArray k
      setCluster s cl { k with lease := .held, holder := BitVec.ofNat 3 i, used := 0, bound := k.leaseMax,
                               order := k.order.filter (· != i) ++ [i], lastCtx := ctx }

/-- MXLEASE_FORCE (R252). -/
def execMxleaseForce (cl : BitVec 7) (s : State) : Outcome := .next (leaseRelease s cl.toNat)

/-! ### Running and completing entries -/

/-- The revocation check of an entry's table copy, and of the capabilities of its program or range (R107). -/
def scrubEntry (s : State) (e : Entry) : Entry :=
  { e with table := Tbl.mapVal e.table fun _ c => scrubCap s e.ctx c, program := e.program.map (scrubCap s e.ctx), range := e.range.map (scrubCap s e.ctx) }

/-- Check what a sequencer holds, each entry for its context (R107). -/
def scrubTables (s : State) (q : Sequencer) : Sequencer :=
  { q with queue := q.queue.map (scrubEntry s), restored := q.restored.map (scrubEntry s), check := false }

/-- The check that waits for a command boundary. -/
def seqBoundary (s : State) (cl : Nat) (copy : Bool) : State :=
  if (seqOf (clusterAt s cl) copy).check then updSeq s cl copy (scrubTables s) else s

/-- An entry has completed: it leaves its thread's outstanding set (R226). -/
def entryDone (s : State) (e : Entry) : State :=
  let x := slotAt s e.core.toNat e.slot.toNat
  if x.outstanding.contains e.id then setSlot s e.core.toNat e.slot.toNat { x with outstanding := x.outstanding.filter (· != e.id) } else s

/-- A saved cluster with nothing left to restore is dropped. -/
def pruneSaved (c : Context) : Context := { c with savedClusters := c.savedClusters.filter fun v => v.2.lease || v.2.copy }

/-- A resumed context's copy entries return ahead of the queue, its running command first, at the next command boundary (R223,
R278). -/
def copyRestore (s : State) (cl : Nat) : State :=
  let q := (clusterAt s cl).copy
  let owed := s.contexts.findSome? fun c =>
    match Tbl.find c.2.savedClusters cl with
    | some v => if v.copy && c.2.life == .running then some (c.1, v) else none
    | none => none
  match owed with
  | some (ctx, v) =>
    if q.command.isSome then s
    else
      let w := scrubTables s v.cluster.copy
      let s := updSeq s cl true fun q => { w with queue := q.queue, restored := w.queue ++ q.restored, saving := q.saving, check := q.check }
      updCtx s ctx fun c => pruneSaved { c with savedClusters := Tbl.set c.savedClusters cl { v with copy := false } }
  | none => s

/-- A gang switch has stopped the sequencer for the context of its running entry (R257, R277). -/
def headSaving (q : Sequencer) : Bool :=
  match (seqEntries q).head? with
  | some e => q.saving.contains e.ctx.toNat
  | none => false

/-- The running entry leaves the sequencer. -/
def finishEntry (s : State) (cl : Nat) (copy : Bool) : State :=
  match (seqEntries (seqOf (clusterAt s cl) copy)).head? with
  | none => s
  | some e =>
    let s := updSeq s cl copy fun q => { dropHead q with command := none, position := 0, done := 0 }
    let s := seqBoundary s cl copy
    let s := entryDone s e
    if copy then copyRestore s cl else leaseSettle s cl

def mapHead (q : Sequencer) (f : Entry → Entry) : Sequencer :=
  match q.restored with
  | e :: r => { q with restored := f e :: r }
  | [] =>
    match q.queue with
    | e :: r => { q with queue := f e :: r }
    | [] => q

/-- The running entry has read its command word through its program capability: an access of the sequencer (R284, R288, R291). -/
def wordRead (s : State) (e : Entry) : State :=
  match e.program with
  | some p => agentTouch s false (extentSegs s e.ctx ⟨(capAddr p).toNat, 32, false⟩)
  | none => s

/-- The running command has completed: a program goes on at the next word, a queued word's entry is complete. -/
def finishCommand (s : State) (cl : Nat) (copy : Bool) : State :=
  match (seqEntries (seqOf (clusterAt s cl) copy)).head? with
  | none => s
  | some e =>
    match e.program with
    | none => finishEntry s cl copy
    | some p =>
      let s := updSeq (wordRead s e) cl copy fun q =>
        { mapHead q (fun e => { e with program := some (capSetAddr p (capAddr p + 32)) }) with command := none, position := 0, done := 0 }
      let s := seqBoundary s cl copy
      if copy then copyRestore s cl else s

/-- Report a sequencer's fault to the core of its entry; a core already frozen holds the report (R64, R353). -/
def reportSeq (s : State) (copy : Bool) (e : Entry) (wordAt : W64) (word : W32) (code : Byte) (info : W64) : State :=
  let p : Packet :=
    { ctx := e.ctx, code := code, slot := e.slot, source := if copy then 3 else 2, unit := false, coord := e.core, pcc := wordAt,
      word := word, info := info, stamp := e.stamp, time := s.time, kernel := e.kernel, modIdx := Config.moduleIndex.setWidth 16 }
  freezeOrHold (faultWalk s code info) e.core.toNat p

/-- The command-word bits a packet carries. -/
def commandTop (i : Instr) : W32 := ((encodeCommand i).getD 0).extractLsb' 224 32

/-- A sequencer stops at a word of its running entry (R64). -/
def stopAt (s : State) (cl : Nat) (copy : Bool) (word : W32) (code : Byte) (info : W64) : State :=
  match (seqEntries (seqOf (clusterAt s cl) copy)).head? with
  | none => s
  | some e => finishEntry (reportSeq s copy e (entryAt e) word code info) cl copy

def stopCommand (s : State) (cl : Nat) (copy : Bool) (i : Instr) (code : Byte) (info : W64) : State :=
  stopAt s cl copy (commandTop i) code info

/-! ### The next word (R224) -/

/-- What a sequencer finds where it stands. -/
inductive Fetched
  | command (i : Instr)
  | fault (word : W32) (code : Byte) (info : W64)
  | empty
  deriving DecidableEq, Repr

def commandFault (s : CommandError) : Byte :=
  match s with
  | .version => Code.cmdVer
  | .engine => Code.engine

def decodeFetched (copy : Bool) (w : BitVec 256) : Fetched :=
  match decodeCommand (some (if copy then 1 else 0)) w with
  | .ok i => .command i
  | .error e => .fault (w.extractLsb' 224 32) (commandFault e) 0

/-- The command word a sequencer stands at: in progress, queued, or read through its program capability. DESIGN CHOICE: a word that cannot be read
is reported as 0 (notes/assumptions/70.md). -/
def seqFetch (s : State) (cl : Nat) (copy : Bool) : Fetched :=
  let q := seqOf (clusterAt s cl) copy
  match q.command, (seqEntries q).head? with
  | _, none => .empty
  | some i, some _ => .command i
  | none, some e =>
    match e.program with
    | none => decodeFetched copy e.word
    | some p =>
      match checkPerms p (capAddr p).toNat 32 true [Perm.load, Perm.engine] with
      | some f => .fault 0 f 0
      | none =>
        match agentReadFrom s (.cluster cl) e.ctx (capAddr p).toNat 32 with
        | .error (c, i) => .fault 0 c i
        | .ok v => decodeFetched copy (BitVec.ofNat 256 v)

/-- The context of the running entry may use its cluster's sequencer now. -/
def entryRuns (s : State) (e : Entry) : Bool :=
  match (ctxOf s e.ctx).life with
  | .running | .switching => true
  | _ => false

end Sys2Proof.Machine
end

