-- ==== Sys2Proof/Machine/Message.lean ====
section
/-! DEFINITION. Endpoint messages (R228 to R230, R263, R330, R331, R338): handles, reservations, sending and receiving, and the
event PARK_ENTRY. -/

namespace Sys2Proof.Machine

/-! ### Handles (R330) -/

def handleModule (c : Cap) : BitVec 12 := (capAddr c).extractLsb' 52 12
def handleCore (c : Cap) : Nat := ((capAddr c).extractLsb' 42 10).toNat
def handleDest (c : Cap) : BitVec 12 := (capAddr c).extractLsb' 30 12
def handleHolder (c : Cap) : BitVec 12 := (capAddr c).extractLsb' 18 12
def handleGen (c : Cap) : BitVec 18 := (capAddr c).extractLsb' 0 18

/-- A handle: OTYPE 2, GLOBAL only, E 0 and T = B. -/
def handleOf (modIdx : BitVec 12) (core : Coord) (dest holder : BitVec 12) (gen : BitVec 18) : Cap :=
  capMake true (BitVec.ofNat 12 (2 ^ Perm.global)) 2 0 0 0 0 (modIdx ++ core ++ dest ++ holder ++ gen)

/-- The states in which a context takes messages (R331). -/
def lifeTakes : Life → Bool
  | .created | .running | .switching | .saved | .resuming => true
  | _ => false

/-- DEST takes messages, has the handle's generation and owns its core here (R331). -/
def destValid (s : State) (h : Cap) : Bool :=
  let d := ctxOf s (handleDest h)
  lifeTakes d.life && handleGen h == d.gen && handleDest h != 0 &&
    ((coreAt s (handleCore h)).owner == handleDest h || Tbl.has d.savedCores (handleCore h))

/-- A handle is valid for a send by a core of `sender` (R331). The network interface of another module answers for its own part: a free
value (notes/assumptions/17.md). -/
def handleValid (s : State) (sender : BitVec 12) (h : Cap) : Bool :=
  handleHolder h == sender &&
    (if handleModule h == Config.moduleIndex then destValid s h
     else s.roster.contains (handleModule h).toNat && !s.lost.contains (handleModule h).toNat && Config.remoteAnswer s.fresh)

/-! ### Reservations -/

/-- The context is switched out: its messages park (R338). -/
def isOut (l : Life) : Bool :=
  match l with
  | .switching | .saved => true
  | _ => false

/-- Park entries of a save area. -/
def parkCapacity (c : Context) : Nat := (c.saveSize.toNat - 188480 * 1024) / 128

/-- A destination slot can be reserved (R228, R338). -/
def canReserve (s : State) (h : Cap) : Bool :=
  if handleModule h != Config.moduleIndex then true
  else
    let d := ctxOf s (handleDest h)
    if isOut d.life then d.parkedMsgs.length + d.transit.length < parkCapacity d
    else (coreAt s (handleCore h)).mail.length < 8 && !(d.parkedMsgs.any fun p => p.dest == handleCore h)

/-! ### Sealing (R263) -/

/-- The tweak of a message's payload. DESIGN CHOICE: the count is of the messages that the sender has sent before this one, and 0 for one that
has come from another module (notes/assumptions/17.md). -/
def messageTweak (from_ dest : Nat) (count : BitVec 44) : Nat := from_ % 1024 + dest % 1024 * 2 ^ 10 + count.toNat * 2 ^ 20

/-- A payload as it crosses the Plaza, and as the destination's gasket opens it. -/
def messageSeal (s : State) (open_ : Bool) (from_ dest : Nat) (count : BitVec 44) (p : BitVec 512) : BitVec 512 :=
  xtsPiece open_ s.messageKey (messageTweak from_ dest count) p

/-! ### The save area (R337; notes/assumptions/14.md) -/

/-- The offsets of the save area's parts. -/
def coreRecordAt (i : Nat) : Nat := 64 * 1024 + 16 * 1024 * i
def clusterRecordAt (j : Nat) : Nat := 16448 * 1024 + 1344 * 1024 * j
def parkEntryAt (n : Nat) : Nat := 188480 * 1024 + 128 * n

/-- The key slot of a save area's pages: for a confidential context a SEAL slot of its own, its lowest. -/
def saveKey (s : State) (ctx : BitVec 12) : Byte :=
  if (ctxOf s ctx).conf then
    BitVec.ofNat 8 ((s.keys.findSome? fun k => match k.2 with
      | .seal o _ => if o == ctx then some k.1 else none
      | _ => none).getD 0)
  else 0

/-- Write 64 bytes with their four tags at an offset of a context's save area, sealed under its key. -/
def savePut (s : State) (ctx : BitVec 12) (off : Nat) (v : BitVec 512) (tags : BitVec 4) : State :=
  let at_ := (ctxOf s ctx).saveBase.toNat + off
  { s with mem := memPutTags (memPut s.mem at_ (gasketPiece s false (saveKey s ctx) at_ v).toNat 64) at_ tags.toNat 4 }

/-- Write a list of capabilities one after the other, four to a piece. -/
def savePutCaps (s : State) (ctx : BitVec 12) (off : Nat) : List Cap → State
  | a :: b :: c :: d :: r =>
    savePutCaps (savePut s ctx off (d.img ++ c.img ++ b.img ++ a.img)
      (BitVec.ofBool d.tag ++ BitVec.ofBool c.tag ++ BitVec.ofBool b.tag ++ BitVec.ofBool a.tag)) ctx (off + 64) r
  | a :: b :: c :: [] => savePut s ctx off (0#128 ++ c.img ++ b.img ++ a.img) (0#1 ++ BitVec.ofBool c.tag ++ BitVec.ofBool b.tag ++ BitVec.ofBool a.tag)
  | a :: b :: [] => savePut s ctx off (0#256 ++ b.img ++ a.img) (0#2 ++ BitVec.ofBool b.tag ++ BitVec.ofBool a.tag)
  | a :: [] => savePut s ctx off (0#384 ++ a.img) (0#3 ++ BitVec.ofBool a.tag)
  | [] => s

/-- Bytes of a context's save area become zero, and their tags 0. -/
def saveClear (s : State) (ctx : BitVec 12) (off n : Nat) : State :=
  let a := (ctxOf s ctx).saveBase.toNat + off
  { s with mem := { s.mem with bytes := s.mem.bytes.filter fun c => !(a ≤ c.1 && c.1 < a + n), tags := s.mem.tags.filter fun u => !(a ≤ u * 16 && u * 16 < a + n) } }

/-- Write n untagged pieces of 64 bytes; in an area without a key that has been cleared a piece of zeros stands already. -/
def saveWide (s : State) (ctx : BitVec 12) (off v : Nat) : Nat → State
  | 0 => s
  | n + 1 =>
    let s := if v % 2 ^ 512 == 0 && saveKey s ctx == 0 then s else savePut s ctx off (BitVec.ofNat 512 v) 0
    saveWide s ctx (off + 64) (v / 2 ^ 512) n

/-- The states of a context as the header names them, in the order of R327. -/
def lifeCode : Life → Nat
  | .free => 0
  | .created => 1
  | .running => 2
  | .switching => 3
  | .saved => 4
  | .resuming => 5
  | .terminating => 6

/-- The lowest park entry that holds no message. -/
def freePark (c : Context) : Nat := ((upTo (c.parkedMsgs.length + 1)).find? fun n => c.parkedMsgs.all fun p => p.entry != n).getD 0

/-- The clusters whose arrays a switch has saved: where the context held or was releasing a lease (R337). -/
def leasedSaves (c : Context) : List (Nat × SavedCluster) := c.savedClusters.filter fun v => v.2.lease

/-- Write the header (R337): the state, RESUMEAT, the counts of core and of array records and of parked messages, and the message cursor. -/
def saveHeader (s : State) (ctx : BitVec 12) : State :=
  let c := ctxOf s ctx
  let w (n : Nat) : W64 := BitVec.ofNat 64 n
  savePut s ctx 0 (0#128 ++ w (freePark c) ++ w c.parkedMsgs.length ++ w (leasedSaves c).length ++ w c.savedCores.length ++ c.resumeAt ++ w (lifeCode c.life)) 0

/-- Write a parked message into its entry: the payload with its tags, then the sender word, the stamp and the destination. -/
def savePark (s : State) (ctx : BitVec 12) (p : Parked) : State :=
  let s := savePut s ctx (parkEntryAt p.entry) p.msg.payload p.msg.tags
  savePut s ctx (parkEntryAt p.entry + 64) (0#368 ++ BitVec.ofNat 16 p.dest ++ p.stamp ++ p.msg.sender) 0

/-! ### Sending and receiving -/

/-- The sender word (R228). -/
def senderWord (core : Nat) : W64 := BitVec.ofNat 64 (2 ^ 63 + Config.moduleIndex.toNat * 1024 + core)

/-- A message reaches its destination core: its queue, or the way to the save area of a context that is switched out, its payload sealed
while it is under way. The queue's own gasket opens what the sender's sealed, within the step. -/
def deliver (s : State) (from_ : Nat) (count : BitVec 44) (h : Cap) (m : Message) : State :=
  let d := ctxOf s (handleDest h)
  let s := plazaMessage s from_ (handleCore h)
  if isOut d.life then
    let p : Parked := ⟨handleCore h, s.stamp, { m with payload := messageSeal s false from_ (handleCore h) count m.payload }, count, 0⟩
    updCtx s (handleDest h).toNat fun c => { c with transit := c.transit ++ [p] }
  else updCore s (handleCore h) fun k => { k with mail := k.mail ++ [m] }

/-- A message is sent: one for another module leaves the package (R263). Its count is that of the messages sent before it
(notes/assumptions/17.md). -/
def sendMessage (s : State) (from_ : Nat) (h : Cap) (payload : BitVec 512) (tags : BitVec 4) : State :=
  let n := (coreAt s from_).sent
  let s := updCore s from_ fun k => { k with sent := k.sent + 1 }
  if handleModule h != Config.moduleIndex then { s with fresh := s.fresh + 1 } else deliver s from_ n h ⟨payload, tags, senderWord from_⟩

/-- An EPSEND of another module can be answered: its module is no member, its handle is invalid, or a slot can be reserved. -/
def remoteSendReady (s : State) : Bool :=
  match s.remoteSends with
  | [] => false
  | r :: _ => !s.roster.contains r.source || !destValid s r.handle || canReserve s r.handle

/-- The oldest EPSEND of another module: dropped and never answered when its module is no member of the roster (R333), answered as invalid, or
delivered (R331), sealed again here with a count of 0 (R263; notes/assumptions/17.md). -/
def remoteSendTake (s : State) : State :=
  if !remoteSendReady s then s
  else
    match s.remoteSends with
    | [] => s
    | r :: rest =>
      let s := { s with remoteSends := rest }
      if !s.roster.contains r.source then s
      else
        let ok := destValid s r.handle
        let s := { s with remoteAnswers := s.remoteAnswers ++ [(r.source, ok)] }
        if ok then deliver { s with stamp := s.stamp + 1 } r.msg.sender.toNat 0 r.handle r.msg else s

/-- The oldest park entry of a core enters its queue when there is room and the context is not out (R338). -/
def refillMail (s : State) (ctx : BitVec 12) (core : Nat) : State :=
  match (ctxOf s ctx).parkedMsgs.find? fun p => p.dest == core with
  | none => s
  | some p =>
    if (coreAt s core).mail.length < 8 && !isOut (ctxOf s ctx).life then
      let s := updCore s core fun k => { k with mail := k.mail ++ [p.msg] }
      updCtx s ctx.toNat fun c => { c with parkedMsgs := c.parkedMsgs.erase p }
    else s

/-- The oldest message of a core leaves its queue. -/
def takeMessage (s : State) (core : Nat) : State :=
  let s := updCore s core fun k => { k with mail := k.mail.drop 1 }
  refillMail s (coreAt s core).owner core

/-- The payload of a message under way, opened. -/
def clearPayload (s : State) (p : Parked) : BitVec 512 := messageSeal s true (p.msg.sender.toNat % 1024) p.dest p.count p.msg.payload

/-- A payload's tags without those of painted capabilities (R107). -/
def keptTags4 (s : State) (ctx : BitVec 12) (payload : BitVec 512) (tags : BitVec 4) : BitVec 4 :=
  let keep (i : Nat) : Bool := (scrubCap s ctx ⟨tags.getLsbD i, payload.extractLsb' (128 * i) 128⟩).tag
  BitVec.ofBool (keep 3) ++ BitVec.ofBool (keep 2) ++ BitVec.ofBool (keep 1) ++ BitVec.ofBool (keep 0)

/-- A message leaves the Plaza at the destination's port, is opened there and written to the next park entry, its painted capabilities
without their tags (R107, R263, R338). -/
def parkMessage (s : State) (ctx : BitVec 12) (p : Parked) : State :=
  let clear := clearPayload s p
  let q : Parked := { p with msg := { p.msg with payload := clear, tags := keptTags4 s ctx clear p.msg.tags }, entry := freePark (ctxOf s ctx) }
  saveHeader (savePark (updCtx s ctx.toNat fun c => { c with parkedMsgs := c.parkedMsgs ++ [q] }) ctx q) ctx

/-- PARK_ENTRY (R338): the oldest message under way to a switched-out context; one that leaves the Plaza after the context's RESUME goes on
to its queue when there is room. -/
def execParkEntry (ctx : BitVec 12) (s : State) : Outcome :=
  match (ctxOf s ctx).transit with
  | [] => .next s
  | p :: r => .next (refillMail (parkMessage (updCtx s ctx.toNat fun c => { c with transit := r }) ctx p) ctx p.dest)

/-- The message key changes (R263): what is under way is sealed under the new one. -/
def rekeyMessages (s : State) (key : BitVec 512) : State :=
  let again (p : Parked) : Parked :=
    { p with msg := { p.msg with payload := messageSeal { s with messageKey := key } false (p.msg.sender.toNat % 1024) p.dest p.count (clearPayload s p) } }
  { s with messageKey := key, contexts := Tbl.mapVal s.contexts fun _ c => { c with transit := c.transit.map again } }

end Sys2Proof.Machine
end

