-- ==== Sys2Proof/Machine/Maintain.lean ====
section
/-! DEFINITION. Cache maintenance that has started: CLEAN and FLUSH of one line (R128), the write-back of a core's non-coherent
lines (R125, R130), and the event CMO_COMPLETE. -/

namespace Sys2Proof.Machine

/-- Write a sealed piece, with its tags, to memory; a writeback that gets no answer is lost (R348). -/
def pieceHome (s : State) (key : Byte) (ia loc : Nat) (data : BitVec 512) (tags : BitVec 4) : State :=
  let l := loc / 64 * 64
  { s with mem := if locLost s ia loc then poisonUnits s.mem loc else memPutTags (memPut s.mem l (pieceIn s l key (ia / 64 * 64) data).toNat 64) l tags.toNat 4 }

/-- The pool's copy of a piece, if it has one, takes new contents and is clean. -/
def pieceClean (s : State) (ia : Nat) (data : BitVec 512) (tags : BitVec 4) : State :=
  match pieceWay s ia with
  | none => s
  | some k =>
    match Tbl.find s.banks k with
    | none => s
    | some g =>
      let i := ia / 64 % 32
      { s with banks := Tbl.set s.banks k (granuleMerge g (onePiece g.addr g.loc g.key g.owner i data tags false) (1#32 <<< i) g.used) }

/-- A piece of a core's dirty line reaches memory, and the pool's copy follows it. -/
def cleanPiece (s : State) (key : Byte) (ia loc : Nat) (data : BitVec 512) (tags : BitVec 4) : State :=
  pieceClean (pieceHome s key ia loc data tags) ia data tags

/-- A piece that the pool holds dirty reaches memory and stays there clean. -/
def cleanPooled (s : State) (key : Byte) (ia loc : Nat) : State :=
  match granuleOf s ia with
  | none => s
  | some g =>
    let i := ia / 64 % 32
    if g.dirty.getLsbD i then cleanPiece s key ia loc (granulePiece g i) (g.tags.extractLsb' (4 * i) 4) else s

/-- CLEAN of a coherent line by a core (R128): its own dirty copy, or what the pool holds dirty, reaches memory; copies stay. -/
def cleanCoherent (s : State) (core line loc : Nat) (key : Byte) : State :=
  let l := loc / 128 * 128
  let ia := line * 128
  match (coreAt s core).l1.find? fun x => x.line == line && x.dirty && !x.nonCoherent with
  | some x =>
    let d := gasketLine s false key ia x.data
    let s := cleanPiece s key ia l (d.extractLsb' 0 512) (x.tags.extractLsb' 0 4)
    let s := cleanPiece s key (ia + 64) (l + 64) (d.extractLsb' 512 512) (x.tags.extractLsb' 4 4)
    clearModified (updCore (countWriteback s core) core fun k => mapLine k line fun y => { y with dirty := false }) line
  | none => cleanPooled (cleanPooled s key ia l) key (ia + 64) (l + 64)

/-- A core's coherent copy of a line goes; its notice reaches the directory at once, or, for a line in the read or write set of an active
chunk, later (R149). -/
def dropOwn (s : State) (core line : Nat) : State :=
  let k := coreAt s core
  match l1Find k line false with
  | none => s
  | some _ =>
    let s := updCore s core fun k => { k with l1 := k.l1.filter fun x => x.nonCoherent || x.line != line }
    if (activeLines k).contains line then updCore s core fun k => { k with notices := NatSet.insert k.notices line } else dirLeave s line core

/-- FLUSH of a coherent line by a core: CLEAN, then the core's copy and the path's copies go. -/
def flushCoherent (s : State) (core line loc : Nat) (key : Byte) : State :=
  dropOwn (dropPieces (cleanCoherent s core line loc key) line) core line

/-- CLEAN or FLUSH of a non-coherent line by a core (R128). -/
def cleanNonCoherent (s : State) (core line : Nat) (flush : Bool) : State :=
  match l1Find (coreAt s core) line true with
  | none => s
  | some x =>
    let s := writeBackLine s core x
    updCore s core fun k =>
      { k with l1 := if flush then k.l1.filter fun y => !(y.line == line && y.nonCoherent)
                     else k.l1.map fun y => if y.line == line && y.nonCoherent then { y with dirty := false } else y }

/-- Perform a CLEAN or FLUSH at its home. -/
def performCmo (s : State) (core : Nat) (m : Cmo) : State :=
  if m.nonCoherent then cleanNonCoherent s core m.line m.flush
  else
    match transIa s (BitVec.ofNat 12 m.ctx) (.core core) (m.line * 128) with
    | .ok p =>
      if p.uncached then s
      else if m.flush then flushCoherent s core m.line p.loc p.key else cleanCoherent s core m.line p.loc p.key
    | _ => s

/-- CMO_COMPLETE (R128): the oldest CLEAN or FLUSH of a core completes. -/
def completeCmo (s : State) (core : Nat) : State :=
  match (coreAt s core).cmos with
  | [] => s
  | m :: r => performCmo (updCore s core fun k => { k with cmos := r }) core m

def execCmoComplete (c : Coord) (s : State) : Outcome := .next (completeCmo s c.toNat)

/-- Every CLEAN and FLUSH under way of a core completes. -/
def completeCmos (s : State) (core : Nat) : State := (coreAt s core).cmos.foldl (fun s _ => completeCmo s core) s

/-- Write a core's dirty non-coherent lines home; with `drop`, its clean ones go too (R130). -/
def writeNonCoherent (s : State) (core : Nat) (drop : Bool) : State :=
  (coreAt s core).l1.foldl (fun s x => if x.nonCoherent then cleanNonCoherent s core x.line drop else s) s

/-- Flush every L1 line of a core that lies in a range (R314). -/
def flushRange (s : State) (core : Nat) (inRange : Nat → Bool) : State :=
  (coreAt s core).l1.foldl (fun s x =>
    if !inRange x.line then s
    else if x.nonCoherent then cleanNonCoherent s core x.line true else flushCoherent s core x.line x.loc x.key) s

/-- The pieces of a granule whose lines lie in a range. -/
def rangePieces (g : Granule) (inRange : Nat → Bool) : BitVec 32 :=
  BitVec.ofNat 32 ((upTo 32).foldl (fun m i => if inRange (g.addr * 16 + i / 2) then m + 2 ^ i else m) 0)

/-- No cache of the pool keeps a piece of a range: lines of a non-coherent window never stand in it (R299, R314). Dirty ones go to memory. -/
def flushPool (s : State) (inRange : Nat → Bool) : State :=
  { s with
    mem := s.banks.foldl (fun m g => piecesToMem s m { g.2 with dirty := g.2.dirty &&& rangePieces g.2 inRange } 0 32) s.mem,
    banks := (Tbl.mapVal s.banks fun _ g =>
      { g with present := g.present &&& ~~~ rangePieces g inRange, dirty := g.dirty &&& ~~~ rangePieces g inRange }).filter fun g => g.2.present != 0 }

end Sys2Proof.Machine
end

