-- ==== Sys2Proof/Machine/Revoke.lean ====
section
/-! DEFINITION. Revocation passes (R105 to R108): the start, the sweep and its end, and what a pass scrubs. -/

namespace Sys2Proof.Machine

/-! ### Scrubbing -/

def scrubPend (s : State) (ctx : BitVec 12) : Pend → Pend
  | .g d (some c) => .g d (some (scrubCap s ctx c))
  | p => p

/-- Clear the tag of every painted capability of a register file (R107). -/
def scrubRegs (s : State) (ctx : BitVec 12) (r : Regs) : Regs :=
  { r with g := Tbl.mapVal r.g fun _ c => scrubCap s ctx c, pcc := scrubCap s ctx r.pcc, pending := r.pending.map (scrubPend s ctx) }

/-- Scrub a slot; its EXECUTING chunk has executed nothing. -/
def scrubSlot (s : State) (ctx : BitVec 12) (x : Slot) : Slot :=
  let r := scrubRegs s ctx x.regs
  { x with regs := r, cur := { x.cur with check := scrubRegs s ctx x.cur.check } }

/-- A non-coherent line of an L1 keeps no painted tag, so that none reaches a register or its home after the pass (R108). -/
def scrubLine (s : State) (ctx : BitVec 12) (l : L1Line) : L1Line :=
  if l.nonCoherent then { l with tags := l.tags &&& ~~~ paintedUnits s ctx ⟨l.data, l.tags⟩ } else l

def scrubLines (s : State) (ctx : BitVec 12) (k : Core) : Core := { k with l1 := k.l1.map (scrubLine s ctx) }

def scrubMessage (s : State) (ctx : BitVec 12) (m : Message) : Message := { m with tags := keptTags4 s ctx m.payload m.tags }

/-- Scrub what a core holds beside its threads' registers: the messages that wait and its non-coherent lines. -/
def scrubRest (s : State) (ctx : BitVec 12) (k : Core) : Core := { scrubLines s ctx k with mail := k.mail.map (scrubMessage s ctx) }

/-- Scrub what a core holds: its slots' registers, its engine table, its deque register (R107, R177), its messages and its non-coherent lines. -/
def scrubCore (s : State) (ctx : BitVec 12) (k : Core) : Core :=
  { scrubRest s ctx k with
    slots := Tbl.mapVal k.slots fun _ x => scrubSlot s ctx x, engine := Tbl.mapVal k.engine fun _ c => scrubCap s ctx c,
    dqring := scrubCap s ctx k.dqring }

/-! ### The save area in memory (R337; notes/assumptions/14.md) -/

/-- The capabilities of a slot's record: g0 to g31 and pcc. -/
def slotRecord (x : Slot) : List Cap := (upTo 32).map (fun i => Tbl.get Cap.null x.regs.g i) ++ [x.regs.pcc]

/-- Fields packed one above the other, the first lowest: each a width and a value. -/
def packFields : List (Nat × Nat) → Nat
  | [] => 0
  | (w, v) :: r => v % 2 ^ w + 2 ^ w * packFields r

/-- Pieces of 64 bytes as one number, the first lowest. -/
def packPieces (l : List Nat) : Nat := packFields (l.map fun v => (512, v))

/-- The masks k0 to k7 and what a slot holds beside registers: its state, THREADID's kernel, PRIO, CHUNKCFG and COMMITSTAMP (R232). -/
def slotScalars (x : Slot) : Nat :=
  packFields ((upTo 8).map (fun i => (16, (Tbl.get 0 x.regs.k i).toNat)) ++
    [(1, x.busy.toNat), (1, x.parked.toNat), (1, x.pin.toNat), (2, x.prio.toNat), (13, x.limit.toNat), (2, x.cur.squashes.toNat), (16, x.kernel.toNat),
     (28, x.regs.pending.length), (64, x.commitStamp.toNat)])

/-- A pending entry's value, and its head: which file, which register and whether its value is there. -/
def pendValue : Pend → Cap ⊕ Nat
  | .g _ (some c) => .inl c
  | .g _ none => .inr 0
  | .v _ x => .inr x.toNat
  | .k _ m => .inr m.toNat

def pendHead : Pend → Nat
  | .g d v => packFields [(2, 0), (5, d.toNat), (1, v.isSome.toNat)]
  | .v d _ => packFields [(2, 1), (5, d.toNat), (1, 1)]
  | .k d _ => packFields [(2, 2), (5, d.toNat), (1, 1)]

/-- Write the values of a pending list, one piece each. -/
def savePending (s : State) (ctx : BitVec 12) (off : Nat) : List Pend → State
  | [] => s
  | p :: r =>
    let s := match pendValue p with
      | .inl c => savePutCaps s ctx off [c]
      | .inr v => saveWide s ctx off v 1
    savePending s ctx (off + 64) r

/-- A slot's part of a core's record, 3,840 bytes: the capabilities, v0 to v31, the scalars, the pending list's values and heads, and the
outstanding set (R226). -/
def saveSlotRecord (s : State) (ctx : BitVec 12) (off : Nat) (x : Slot) : State :=
  let s := savePutCaps s ctx off (slotRecord x)
  let s := saveWide s ctx (off + 576) (packPieces ((upTo 32).map fun i => (Tbl.get 0 x.regs.v i).toNat)) 32
  let s := saveWide s ctx (off + 2624) (slotScalars x) 1
  let s := savePending s ctx (off + 2688) x.regs.pending
  saveWide s ctx (off + 3712) (packPieces [packFields (x.regs.pending.map fun p => (8, pendHead p)), packFields (x.outstanding.map fun n => (64, n))]) 2

/-- What a core holds beside its slots, capabilities and messages: the deque and switch registers, the groups, the barrier state and the debug
window (R232, R356). -/
def coreScalars (k : Core) : Nat :=
  packFields ([(32, k.bottom.toNat), (32, k.top.toNat), (64, k.switchAt.toNat), (44, k.sent.toNat), (4, k.phase.toNat), (1, k.frozen.toNat), (4, k.endSlot.toNat),
    (1, k.tagRef.toNat), (5, k.selPend.toNat), (5, k.selVreg.toNat), (40, k.arrived.toNat), (2, k.selSlot.toNat), (12, k.srIndex.toNat), (10, k.mail.length)] ++
    (upTo 4).map fun n => (64, (memberAt k n).toNat))

/-- The record of a context's i-th core, 16 KiB: four slots, then the engine table and the deque register, the queue with its sender words, the
scalars, PACKET and the fault packet of a frozen core (R336). -/
def saveCoreRecord (s : State) (ctx : BitVec 12) (i : Nat) (k : Core) : State :=
  let at_ := coreRecordAt i
  let s := saveClear s ctx at_ (16 * 1024)
  let s := [0, 1, 2, 3].foldl (fun s l => saveSlotRecord s ctx (at_ + 3840 * l) (Tbl.get Slot.reset k.slots l)) s
  let s := savePutCaps s ctx (at_ + 15360) ((upTo 8).map (fun e => Tbl.get Cap.null k.engine e) ++ [k.dqring])
  let s := (upTo k.mail.length).foldl (fun s n =>
    let m := k.mail.getD n ⟨0, 0, 0⟩
    savePut s ctx (at_ + 15552 + 64 * n) m.payload m.tags) s
  saveWide s ctx (at_ + 16064) (packPieces [packFields (k.mail.map fun m => (64, m.sender.toNat)), coreScalars k, k.packet.toNat,
    ((k.report.map packetBits).getD 0).toNat]) 4

/-- An entry's part of a record, 256 bytes: its table copy, its program and range, and the rest of it. -/
def saveEntry (s : State) (ctx : BitVec 12) (off : Nat) (e : Entry) : State :=
  let s := savePutCaps s ctx off ((upTo 8).map (fun i => Tbl.get Cap.null e.table i) ++ [e.program.getD Cap.null, e.range.getD Cap.null])
  saveWide s ctx (off + 192) (packFields [(256, e.word.toNat), (64, e.addr.toNat), (64, e.stamp.toNat), (64, e.id), (10, e.core.toNat), (2, e.slot.toNat),
    (12, e.ctx.toNat), (16, e.kernel.toNat), (1, e.program.isSome.toNat), (23, e.range.isSome.toNat)]) 1

def saveEntries (s : State) (ctx : BitVec 12) (off : Nat) : List Entry → State
  | [] => s
  | e :: r => saveEntries (saveEntry s ctx off e) ctx (off + 256) r

/-- A sequencer's part of a record: the command under way with how far it has come, then its entries, head first. -/
def saveSequencer (s : State) (ctx : BitVec 12) (off : Nat) (q : Sequencer) : State :=
  let cmd := (q.command.bind encodeCommand).getD 0
  let s := saveWide s ctx off (packFields [(256, cmd.toNat), (64, q.position), (32, q.done.toNat), (64, (seqEntries q).length), (96, q.command.isSome.toNat)]) 1
  saveEntries s ctx (off + 64) (seqEntries q)

def planeWord : PlaneState → Nat
  | .empty => 0
  | .loading => 1
  | .ready => 2

def leaseCode : LeaseState → Nat
  | .free => 0
  | .held => 1
  | .releasing => 2

/-- The lease's part of a record and the planes' states (R257). -/
def clusterScalars (k : Cluster) : Nat :=
  packFields [(2, planeWord k.active.state), (2, (MFmt.code k.active.mode).toNat), (2, planeWord k.shadow.state), (2, (MFmt.code k.shadow.mode).toNat), (2, leaseCode k.lease),
    (3, k.holder.toNat), (9, k.used.toNat), (9, k.bound.toNat), (11, k.consumed.toNat), (32, k.stall.toNat)]

/-- An array and sequencer record, 1,344 KiB: the accumulators, the planes with their scales, the lease, and the two sequencers (R257, R278). -/
def saveClusterRecord (s : State) (ctx : BitVec 12) (j : Nat) (k : Cluster) : State :=
  let at_ := clusterRecordAt j
  let s := saveClear s ctx at_ (1344 * 1024)
  let s := k.acc.foldl (fun s r => if r.1 < 1024 then saveWide s ctx (at_ + 1024 * r.1) r.2.toNat 16 else s) s
  let s := saveWide s ctx (at_ + 1024 * 1024) k.active.weights.toNat 1024
  let s := saveWide s ctx (at_ + 1088 * 1024) k.shadow.weights.toNat 1024
  let s := saveWide s ctx (at_ + 1152 * 1024) k.active.scales.toNat 16
  let s := saveWide s ctx (at_ + 1153 * 1024) k.shadow.scales.toNat 16
  let s := saveWide s ctx (at_ + 1154 * 1024) (clusterScalars k) 1
  saveSequencer (saveSequencer s ctx (at_ + 1156 * 1024) k.matrix) ctx (at_ + 1248 * 1024) k.copy

/-- Write what a context has saved into its save area (R337): the header, a record for each core, one for each cluster with a lease, and the
messages. -/
def saveRecords (s : State) (ctx : BitVec 12) : State :=
  let c := ctxOf s ctx
  let s := saveHeader s ctx
  let s := (upTo c.savedCores.length).foldl (fun s i =>
    match c.savedCores[i]? with
    | some k => saveCoreRecord s ctx i k.2
    | none => s) s
  let s := (upTo (leasedSaves c).length).foldl (fun s j =>
    match (leasedSaves c)[j]? with
    | some v => saveClusterRecord s ctx j v.2.cluster
    | none => s) s
  c.parkedMsgs.foldl (fun s p => savePark s ctx p) s

/-- What a save area holds of a cluster is swept as memory. -/
def scrubSaved (s : State) (v : SavedCluster) : SavedCluster :=
  { v with cluster := { v.cluster with matrix := scrubTables s v.cluster.matrix, copy := scrubTables s v.cluster.copy } }

/-- A message under way loses the tags of painted capabilities; its payload crosses the Plaza sealed, its tags plain. -/
def scrubTransit (s : State) (ctx : BitVec 12) (p : Parked) : Parked :=
  { p with msg := { p.msg with tags := keptTags4 s ctx (clearPayload s p) p.msg.tags } }

/-- A context without painted tags: its own registers, REVMAP among them, what is saved of it, and its messages. -/
def scrubbedContext (s : State) (ctx : BitVec 12) (c : Context) : Context :=
  { c with revmap := scrubCap s ctx c.revmap,
           dies := Tbl.mapVal c.dies fun _ d => { d with injring := Tbl.mapVal d.injring fun _ x => scrubCap s ctx x },
           savedCores := Tbl.mapVal c.savedCores fun _ k => scrubCore s ctx k,
           savedClusters := Tbl.mapVal c.savedClusters fun _ v => scrubSaved s v,
           parkedMsgs := c.parkedMsgs.map fun p => { p with msg := scrubMessage s ctx p.msg },
           transit := c.transit.map (scrubTransit s ctx) }

/-- Its save area follows in memory, when there is one. -/
def scrubContext (s : State) (ctx : BitVec 12) : State :=
  let t := updCtx s ctx.toNat (scrubbedContext s ctx)
  if (ctxOf s ctx).savedCores.isEmpty && (ctxOf s ctx).savedClusters.isEmpty && (ctxOf s ctx).parkedMsgs.isEmpty then t else saveRecords t ctx

/-! ### The pages a pass covers -/

def tableEntry (s : State) (base i : Nat) : BitVec 128 := (readEntry s (base + 16 * i)).getD 0

/-- The leaves of a level-3 table from index i on, by page. -/
def ownedPages (s : State) (ctx : BitVec 12) (l1 l2 base : Nat) : List (Nat × Bool) :=
  (upTo 512).filterMap fun i =>
    let e := tableEntry s base i
    if leafUsable e false && leafOwner e == ctx then some (l1 * 2 ^ 18 + l2 * 512 + i, false) else none

/-- Every page whose owner is a context: its number, and whether it is large (R283). -/
def coveredPages (s : State) (ctx : BitVec 12) : List (Nat × Bool) :=
  (upTo 16384).flatMap fun i =>
    match pointerOf (tableEntry s (s.ptroot.toNat / 2 ^ 18 * 2 ^ 18) i) with
    | none => []
    | some t2 =>
      (upTo 512).flatMap fun j =>
        let e := tableEntry s t2 j
        if e.getLsbD 2 then (if leafUsable e true && leafOwner e == ctx then [(i * 2 ^ 18 + j * 512, true)] else [])
        else
          match pointerOf e with
          | none => []
          | some t3 => ownedPages s ctx i j t3

/-- A granule of an intermediate address may hold a tag: its region's summary bit is 1, or a cache holds part of it (R101). -/
def mayHoldTags (s : State) (ctx : BitVec 12) (g : Nat) : Bool :=
  (match transIa s ctx .outside (g * 2048) with
   | .ok p => s.mem.summary.contains (p.loc / 8192)
   | _ => false) ||
    (s.banks.any fun b => b.2.addr == g && b.2.tags != 0) ||
    (s.cores.any fun c => c.2.l1.any fun l => !l.nonCoherent && l.dirty && l.line / 16 == g && l.tags != 0)

/-- The granules a pass sweeps. -/
def sweepList (s : State) (ctx : BitVec 12) : List Nat :=
  (coveredPages s ctx).flatMap fun p => ((upTo (if p.2 then 16384 else 32)).map fun i => p.1 * 32 + i).filter (mayHoldTags s ctx)

/-! ### The pass -/

/-- Whether START starts a pass (R106). -/
def revMayStart (c : Context) : Bool := !c.revBusy && c.revmap.tag && capOtype c.revmap == 0 && capHas c.revmap Perm.load

/-- Squash a context's active chunks on every core, without counting (R107, R150). -/
def squashContext (s : State) (ctx : BitVec 12) : State :=
  s.cores.foldl (fun s c => if c.2.owner == ctx then [0, 1, 2, 3].foldl (fun s l => if (slotAt s c.1 l).busy then squashSlot s c.1 l false else s) s else s) s

/-- The sequencers check their copies of the context's tables, at once or at the next command boundary. -/
def scrubSequencers (s : State) (ctx : BitVec 12) : State :=
  s.clusters.foldl (fun s k =>
    [false, true].foldl (fun s copy =>
      let q := seqOf (clusterAt s k.1) copy
      if (seqEntries q).any fun e => e.ctx == ctx then
        updSeq s k.1 copy fun q => if q.command.isNone then scrubTables s q else { q with check := true }
      else s) s) s

/-- A pass starts (R106, R107). -/
def revStart (s : State) (ctx : BitVec 12) : State :=
  let c := ctxOf s ctx
  if !revMayStart c then s
  else
    let s := squashContext s ctx
    let s := updCtx s ctx.toNat fun c => { c with revBusy := true, revCount := c.revCount + 1, sweep := sweepList s ctx }
    let s := { s with cores := Tbl.mapVal s.cores fun _ k => if k.owner == ctx then scrubCore s ctx k else k }
    scrubSequencers (scrubContext s ctx) ctx

/-- The place of a line that a sweep reads: a translated page that is not uncached. -/
def sweepPlace (s : State) (ctx : BitVec 12) (line : Nat) : Option Place :=
  match transIa s ctx .outside (line * 128) with
  | .ok p => if p.uncached then none else some p
  | _ => none

/-- The painted tags of a line as a coherent access finds it. -/
def sweepUnits (s : State) (ctx : BitVec 12) (line : Nat) : BitVec 8 :=
  match sweepPlace s ctx line with
  | some p => paintedUnits s ctx (cohLine s p.key p.ia p.loc)
  | none => 0

/-- Sweep a line: the owner of a PRIVATE page gives it up first (R289), its painted tags go, and it is written when it had one. -/
def sweepLine (s : State) (ctx : BitVec 12) (line : Nat) : State :=
  let s := quietLine s line
  match sweepPlace s ctx line with
  | some p =>
    let m := paintedUnits s ctx (cohLine s p.key p.ia p.loc)
    if m == 0 then s else writeHome s p ⟨0, 0, 0, m⟩
  | none => s

/-- A sweep that finds no tag in the 8 KiB region of a location clears its summary bit (R101). -/
def clearSummary (s : State) (loc : Nat) : State :=
  if s.mem.tags.any fun u => u / 512 == loc / 8192 then s else { s with mem := { s.mem with summary := NatSet.erase s.mem.summary (loc / 8192) } }

/-- The lines of a granule that a sweep visits. -/
def sweepLines (s : State) (ctx : BitVec 12) (g : Nat) : List Nat := ((upTo 16).map fun i => g * 16 + i).filter fun l => (sweepPlace s ctx l).isSome

/-- The lines of the bitmap that the check of a line's tagged units reads, as engine reads (R365). -/
def bitmapLines (s : State) (ctx : BitVec 12) (line : Nat) : List Nat :=
  match sweepPlace s ctx line with
  | none => []
  | some p =>
    let v := cohLine s p.key p.ia p.loc
    (upTo 8).filterMap fun u =>
      if v.tags.getLsbD u then
        (bitmapSpot s ctx ⟨true, v.data.extractLsb' (128 * u) 128⟩).bind fun b =>
          match transVa s ctx .outside b.1 with
          | .ok q => if q.uncached then none else some (q.ia / 128)
          | _ => none
      else none

/-- What a sweep of a granule reads. -/
def sweepReads (s : State) (ctx : BitVec 12) (g : Nat) : List Nat :=
  (sweepLines s ctx g).foldl (fun r l => (l :: bitmapLines s ctx l).foldl NatSet.insert r) []

/-- The lines that it writes. -/
def sweepWrites (s : State) (ctx : BitVec 12) (g : Nat) : List Nat := (sweepLines s ctx g).filter fun l => sweepUnits s ctx l != 0

/-- The context's cores hold no painted tag in a non-coherent copy of a granule's lines, so that none is written home after the sweep (R108). -/
def sweepNc (s : State) (ctx : BitVec 12) (g : Nat) : State :=
  { s with cores := Tbl.mapVal s.cores fun _ k =>
      if k.owner == ctx then { k with l1 := k.l1.map fun l => if l.line / 16 == g then scrubLine s ctx l else l } else k }

/-- The revocation engine sweeps one granule as an engine chunk (R107), once no registered chunk stands in its way (R152). -/
def sweepGranule (s : State) (ctx : BitVec 12) : State :=
  match (ctxOf s ctx).sweep with
  | [] => s
  | g :: rest =>
    let reads := sweepReads s ctx g
    let writes := sweepWrites s ctx g
    if engineWaits s (.sweep ctx.toNat) reads writes then registerWait s (.sweep ctx.toNat) ctx reads writes
    else
      let s := updCtx (unregister s (.sweep ctx.toNat)) ctx.toNat fun c => { c with sweep := rest }
      let s := engineCommit ((sweepLines s ctx g).foldl (fun s l => sweepLine s ctx l) (sweepNc s ctx g)) writes
      match sweepPlace s ctx (g * 16) with
      | some p => clearSummary s p.loc
      | none => s

/-- A pass has a granule to sweep, and its chunk can go on. -/
def sweepDue (s : State) (ctx : BitVec 12) : Bool :=
  (ctxOf s ctx).revBusy &&
    match (ctxOf s ctx).sweep with
    | [] => false
    | g :: _ => !engineStuck s (.sweep ctx.toNat) (sweepReads s ctx g) (sweepWrites s ctx g)

/-- Everything a pass waits for is done (R106). -/
def revDone (s : State) (ctx : BitVec 12) : Bool :=
  (ctxOf s ctx).revBusy && (ctxOf s ctx).sweep.isEmpty &&
    !(s.clusters.any fun k => [false, true].any fun copy =>
      (seqOf k.2 copy).check && (seqEntries (seqOf k.2 copy)).any fun e => e.ctx == ctx)

/-- REVPASS_START (R107). -/
def execRevpassStart (ctx : BitVec 12) (s : State) : Outcome := .next (revStart s ctx)

/-- REVOCATION_SWEEP (R107). -/
def execRevocationSweep (ctx : BitVec 12) (s : State) : Outcome := .next (sweepGranule s ctx)

/-- The end of a pass: what has come to the context's cores and registers since its start loses its painted tags too (R108). -/
def passEnd (s : State) (ctx : BitVec 12) : State :=
  let t := scrubContext { s with cores := Tbl.mapVal s.cores fun _ k => if k.owner == ctx then scrubRest s ctx k else k } ctx
  updCtx t ctx.toNat fun c => { c with revBusy := false }

/-- REVOCATION_PASS_COMPLETE (R106). -/
def execRevocationPassComplete (ctx : BitVec 12) (s : State) : Outcome := .next (if revDone s ctx then passEnd s ctx else s)

end Sys2Proof.Machine
end

