-- ==== Sys2Proof/Machine/Sysreg.lean ====
section
/-! DEFINITION. System registers (R231 to R233, R142, R177, R183, R200, R201, R281, R314, R335): reads, writes with their access
codes, the conditions a write waits for, and the register-write events. -/

namespace Sys2Proof.Machine

/-! ### Reading -/

/-- CHUNKCFG (R142). -/
def chunkcfgWord (x : Slot) : W64 :=
  BitVec.ofNat 64 (x.limit.toNat + x.cur.squashes.toNat * 2 ^ 29 + (if x.pin then 2 ^ 31 else 0))

/-- THREADID (R233). -/
def threadidWord (c l : Nat) (x : Slot) : W64 := BitVec.ofNat 64 (c + l * 1024 + x.kernel.toNat * 4096)

/-- A register's value as SYSR reads it (R231, R232). -/
def sysRead (s : State) (c l : Nat) (i : BitVec 12) : Cap :=
  let k := coreAt s c
  let x := slotAt s c l
  let ctx := ctxOf s k.owner
  let d := Tbl.get CtxDie.reset ctx.dies (dieOf c)
  let n := i.toNat
  if n == 0x000 then capInt (threadidWord c l x)
  else if n == 0x001 then capInt (chunkcfgWord x)
  else if n == 0x002 then capInt x.commitStamp
  else if n == 0x003 then capInt s.time
  else if n == 0x004 then capInt (x.prio.setWidth 64)
  else if n == 0x005 then capInt (((Tbl.find ctx.kernels x.kernel.toNat).map (·.left)).getD 0)
  else if n == 0x006 then capInt k.switchAt
  else if 0x008 ≤ n && n ≤ 0x00b then capInt (memberAt k (n - 8))
  else if n == 0x00c then capInt (domlvl k)
  else if n == 0x00d then capInt (k.arrived.setWidth 64)
  else if n == 0x010 then k.dqring
  else if n == 0x011 then capInt (k.bottom ++ k.top)
  else if n == 0x012 then capInt (BitVec.ofNat 64 k.mail.length)
  else if 0x014 ≤ n && n ≤ 0x017 then Tbl.get Cap.null d.injring (n - 0x14)
  else if n == 0x018 then capInt (BitVec.ofNat 64 (ctx.revCount.toNat + if ctx.revBusy then 2 ^ 63 else 0))
  else if n == 0x019 then ctx.revmap
  else if n == 0x01a then capInt ctx.revbase
  else if n == 0x020 then capInt ((clusterAt s (clusterOf c)).leaseMax.setWidth 64)
  else if 0x024 ≤ n && n ≤ 0x027 then capInt (Tbl.get 0 d.injTail (n - 0x24) ++ Tbl.get 0 d.injHead (n - 0x24))
  else if n == 0x030 then capInt s.snapTime
  else if 0x040 ≤ n && n ≤ 0x047 then ⟨false, Tbl.get 0 ctx.iaw (n - 0x40)⟩
  else if 0x050 ≤ n && n ≤ 0x05f then ⟨false, Tbl.get 0 ctx.ncw (n - 0x50)⟩
  else Cap.null

/-! ### Writing -/

/-- CHUNKCFG: only LIMIT takes a write, of 1 to 4,096 (R142). -/
def chunkcfgWrite (s : State) (c l : Nat) (v : W64) : State :=
  let n := v.toNat % 2 ^ 13
  if 1 ≤ n && n ≤ 4096 then setSlot s c l { slotAt s c l with limit := BitVec.ofNat 13 n } else s

/-- DQRING (R177): ignored unless the deque is empty. -/
def dqringWrite (s : State) (c : Nat) (v : Cap) : State :=
  let k := coreAt s c
  if dequeCount k != 0 then s else setCore s c { k with dqring := scrubCap s k.owner v, bottom := 0, top := 0 }

/-- INJRINGc of a die (R183): ignored unless the ring is empty. -/
def injringWrite (s : State) (ctx : BitVec 12) (die cls : Nat) (v : Cap) : State :=
  if injCount (ctxDie s ctx die) cls != 0 then s
  else
    updCtxDie s ctx die fun d =>
      { d with injring := Tbl.set d.injring cls (scrubCap s ctx v), injHead := Tbl.set d.injHead cls 0, injTail := Tbl.set d.injTail cls 0 }

/-- The fields of an IAW and of an NCW that take a write (R280, R313). -/
def iawMask : BitVec 128 := 1#1 ++ 0#9 ++ 0x3f#6 ++ 0xffffffff#32 ++ 0#16 ++ 0xffffffffffff#48 ++ 0#16
def ncwMask : BitVec 128 := 1#1 ++ 0#22 ++ 0x1ffffffffff#41 ++ 0#23 ++ 0x1ffffffffff#41

/-- Squash a context's EXECUTING and ENDED chunks on every core but one, uncounted; pinned chunks stay (R281). -/
def squashOthers (s : State) (ctx : BitVec 12) (c : Nat) : State :=
  s.cores.foldl (fun s k =>
    if k.2.owner == ctx && k.1 != c then
      [0, 1, 2, 3].foldl (fun s l => if (slotAt s k.1 l).busy && !(slotAt s k.1 l).pin then squashSlot s k.1 l false else s) s
    else s) s

/-- IAWn (R281). -/
def iawWrite (s : State) (c n : Nat) (v : BitVec 128) : State :=
  let ctx := (coreAt s c).owner
  updCtx (squashOthers s ctx c) ctx.toNat fun x => { x with iaw := Tbl.set x.iaw n (v &&& iawMask) }

/-- NCWn (R314): squashes, and every core of the context flushes its L1 lines of the old and the new range; the bank pool keeps nothing of
them (R299). -/
def ncwWrite (s : State) (c n : Nat) (v : BitVec 128) : State :=
  let ctx := (coreAt s c).owner
  let old := Tbl.get 0 (ctxOf s ctx).ncw n
  let new := v &&& ncwMask
  let s := squashOthers s ctx c
  let inRange (l : Nat) : Bool := ncwCovers old l || ncwCovers new l
  let s := flushPool (s.cores.foldl (fun s k => if k.2.owner == ctx then flushRange s k.1 inRange else s) s) inRange
  updCtx s ctx.toNat fun x => { x with ncw := Tbl.set x.ncw n new }

/-- LEASEMAX (R254). -/
def leasemaxWrite (s : State) (cl : Nat) (v : W64) : State :=
  let n := v.toNat % 2 ^ 9
  if 1 ≤ n && n ≤ 256 then updCluster s cl fun k => { k with leaseMax := BitVec.ofNat 9 n } else s

/-- REVMAP and REVBASE keep their values while a pass is active (R105). -/
def revmapWrite (s : State) (ctx : BitVec 12) (v : Cap) : State :=
  updCtx s ctx.toNat fun x => if x.revBusy then x else { x with revmap := v }

def revbaseWrite (s : State) (ctx : BitVec 12) (v : W64) : State :=
  updCtx s ctx.toNat fun x => if x.revBusy then x else { x with revbase := v &&& ~~~ 0xffff#64 }

/-- A committed write of a register by a thread (R231): each field follows its access code. -/
def sysWrite (s : State) (c l : Nat) (i : BitVec 12) (v : Cap) : State :=
  let ctx := (coreAt s c).owner
  let w := capAddr v
  let n := i.toNat
  if n == 0x001 then chunkcfgWrite s c l w
  else if n == 0x006 then updCore s c fun k => { k with switchAt := w }
  else if 0x008 ≤ n && n ≤ 0x00b then memberWrite s c (n - 8) w
  else if n == 0x010 then dqringWrite s c v
  else if 0x014 ≤ n && n ≤ 0x017 then injringWrite s ctx (dieOf c) (n - 0x14) v
  else if n == 0x018 then (if w.getLsbD 62 then revStart s ctx else s)
  else if n == 0x019 then revmapWrite s ctx v
  else if n == 0x01a then revbaseWrite s ctx w
  else if n == 0x020 then leasemaxWrite s (clusterOf c) w
  else if n == 0x021 then cancelKernel s ctx (w.toNat % 2 ^ 16)
  else if 0x040 ≤ n && n ≤ 0x047 then iawWrite s c (n - 0x40) v.img
  else if 0x050 ≤ n && n ≤ 0x05f then ncwWrite s c (n - 0x50) v.img
  else s

/-- The index is of a register whose write squashes the context's other chunks (R281, R314). -/
def sysSquashes (i : BitVec 12) : Bool := (0x040 ≤ i.toNat && i.toNat ≤ 0x047) || (0x050 ≤ i.toNat && i.toNat ≤ 0x05f)

/-- Such a write's chunk gets its stamp only after the context's pinned chunks on other cores and its registered engine chunks have
committed (R281, R314). -/
def sysWaits (s : State) (c : Nat) (i : BitVec 12) : Bool :=
  let ctx := (coreAt s c).owner
  sysSquashes i &&
    s.registered.any fun r =>
      r.ctx == ctx &&
        (match r.owner with
         | .pinned k _ => k != c
         | _ => true)

/-! ### The register-write events -/

/-- CHUNKCFG_WRITE (R142). -/
def execChunkcfgWrite (c : Coord) (sl : BitVec 2) (value : W64) (s : State) : Outcome := .next (chunkcfgWrite s c.toNat sl.toNat value)

/-- DQRING_WRITE (R177). -/
def execDqringWrite (c : Coord) (value : Cap) (s : State) : Outcome := .next (dqringWrite s c.toNat value)

/-- INJRING_WRITE (R183). -/
def execInjringWrite (ctx : BitVec 12) (die : BitVec 3) (cls : BitVec 2) (value : Cap) (s : State) : Outcome :=
  .next (injringWrite s ctx die.toNat cls.toNat value)

/-- IAW_WRITE (R281); it waits as its chunk would. -/
def execIawWrite (c : Coord) (n : BitVec 3) (value : BitVec 128) (s : State) : Outcome :=
  .next (if sysWaits s c.toNat (0x040 + n.setWidth 12) then s else iawWrite s c.toNat n.toNat value)

/-- NCW_WRITE (R314). -/
def execNcwWrite (c : Coord) (n : BitVec 4) (value : BitVec 128) (s : State) : Outcome :=
  .next (if sysWaits s c.toNat (0x050 + n.setWidth 12) then s else ncwWrite s c.toNat n.toNat value)

/-- SWITCHAT_WRITE (R335). -/
def execSwitchatWrite (c : Coord) (value : W64) (s : State) : Outcome := .next (updCore s c.toNat fun k => { k with switchAt := value })

end Sys2Proof.Machine
end

