-- ==== Sys2Proof/Machine/Page.lean ====
section
/-! DEFINITION. The page commands (R292 to R295): migration, bias flips and the retirement of pages, with their events; and the
write of PTROOT (R285). -/

namespace Sys2Proof.Machine

/-- The leaf of a page as the table in memory has it; none when no usable entry maps it. -/
def tableLeaf (s : State) (ia : Nat) : Option (BitVec 128 × Nat × Bool) :=
  match walk s ia with
  | .leaf l e g => if leafUsable l g && !leafRet l then some (l, e, g) else none
  | _ => none

def leafPut (l : BitVec 128) (i : Nat) (b : Bool) : BitVec 128 := if b then l ||| (1#128 <<< i) else l &&& ~~~ (1#128 <<< i)

/-- A leaf that names another location. -/
def leafMove (l : BitVec 128) (target : BitVec 48) (loc : BitVec 2) : BitVec 128 :=
  l.extractLsb' 64 64 ++ target ++ l.extractLsb' 5 11 ++ loc ++ l.extractLsb' 0 3

/-- The 64 KiB frames from a location on. -/
def framesFrom (loc : Nat) (large : Bool) : List Nat := (upTo (if large then 512 else 1)).map fun i => loc / 2 ^ 16 + i

/-- Retire a page (R295): RET 1 in the leaf, every cached translation of the page goes, and its frames are named by no leaf that the device
writes from then on. -/
def retirePage (s : State) (ia : Nat) : State :=
  match leafAt s ia with
  | none => s
  | some (l, e, g) =>
    let s := editLeaf s e (fun l => leafPut l 1 true)
    { s with tlb := s.tlb.filter fun t => t.2.2.1 != e,
             retired := (framesFrom (leafPlace l g (entryPage (ia / 2 ^ 16) g * 2 ^ 16)) g).foldl NatSet.insert s.retired }

def pageDone (s : State) (die : Nat) (err : Byte) : State := updDie s die fun d => { d with page := none, pgerr := err }

/-- A page command of OP 1 starts (R293). -/
def migrateStart (s : State) (die page : Nat) (l : BitVec 128) (entry : Nat) (large : Bool) : State :=
  let dest := (dieAt s die).pgdest
  let new := leafMove l (dest.extractLsb' 16 48) (dest.extractLsb' 0 2)
  let ia := page * 2 ^ 16
  if 1 < (dest.extractLsb' 0 2).toNat || !leafUsable new large || (framesFrom (leafPlace new large ia) large).any s.retired.contains then pageDone s die 3
  else
    let s := engineCommit (editLeaf s entry (fun l => leafPut l 8 true)) []
    updDie s die fun d =>
      { d with pgerr := 0,
               page := some { op := 1, page := ia, granules := if large then 16384 else 32, next := 0, old := leafPlace l large ia,
                              new := leafPlace new large ia, waits := [] } }

/-- The lines of a page that some device cache holds, or some active chunk has in its sets. -/
def deviceLines (s : State) (base size : Nat) : List Nat :=
  let inPage (l : Nat) : Bool := base ≤ l * 128 && l * 128 < base + size
  let l1 := s.cores.flatMap fun c => (c.2.l1.filter fun x => !x.nonCoherent && inPage x.line).map (·.line)
  let act := s.cores.flatMap fun c => (activeLines c.2).filter inPage
  let bank := s.banks.flatMap fun g => if base ≤ g.2.addr * 2048 && g.2.addr * 2048 < base + size then (upTo 16).map fun i => g.2.addr * 16 + i else []
  (l1 ++ act ++ bank).foldl NatSet.insert []

/-- Send a line home and test it against every chunk (R294). -/
def lineHome (s : State) (line : Nat) : State :=
  let s := s.cores.foldl (fun s c => testCore s c.1 [line]) s
  match linePlace s line with
  | none => s
  | some p => homeward s line (p.loc / 128 * 128) p.key

/-- A page command of OP 2 starts (R294): its chunk registers, and the home slice holds new requests to the page from here on. -/
def flipToHostStart (s : State) (die page : Nat) (large : Bool) : State :=
  let lines := deviceLines s (page * 2 ^ 16) (if large then 2 ^ 25 else 2 ^ 16)
  updDie { s with registered := s.registered ++ [⟨.migrate die, 0, [], lines, false⟩] } die fun d =>
    { d with pgerr := 0, page := some { op := 2, page := page * 2 ^ 16, granules := if large then 16384 else 32, next := 0, old := 0, new := 0, waits := [] } }

/-- The chunk of a flip to host waits for what is registered before it and for COMMITTING chunks (R148, R152). -/
def flipWaits (s : State) (die : Nat) (c : PageCommand) : Bool :=
  let lines := deviceLines s c.page (c.granules * 2048)
  conflictsBefore s (.migrate die) [] lines || lines.any (missHeld s)

/-- The flip to host: every device copy goes home, and BIAS is 1; one engine chunk (R294). -/
def flipToHost (s : State) (die : Nat) (c : PageCommand) : State :=
  let lines := deviceLines s c.page (c.granules * 2048)
  let s := lines.foldl lineHome (unregister s (.migrate die))
  match leafAt s c.page with
  | some (_, e, _) => pageDone (engineCommit (editLeaf s e (fun l => leafPut l 5 true)) lines) die 0
  | none => pageDone s die 2

/-- The flip to device: BIAS is 0. -/
def flipToDevice (s : State) (die : Nat) (c : PageCommand) : State :=
  match leafAt s c.page with
  | some (_, e, _) => pageDone (engineCommit (editLeaf s e (fun l => leafPut l 5 false)) []) die 0
  | none => pageDone s die 2

/-- A page command of OP 3 starts: the host's lines of the page are back-invalidated (R294). -/
def flipToDeviceStart (s : State) (die page : Nat) (large : Bool) : State :=
  let size := if large then 2 ^ 25 else 2 ^ 16
  let base := page * 2 ^ 16
  let lines := (s.hostHolds.filter fun h => base ≤ h.1 * 128 && h.1 * 128 < base + size && h.2 != 0).map (·.1)
  let s := askInv s lines
  updDie s die fun d => { d with pgerr := 0, page := some { op := 3, page := base, granules := size / 2048, next := 0, old := 0, new := 0, waits := lines } }

/-- A write of PGCMD (R292). DESIGN CHOICE: a flip of a page that is not exposed to the host is carried out (notes/assumptions/27.md). -/
def pageCommand (s : State) (die op page : Nat) : State :=
  if (dieAt s die).page.isSome || op == 0 then s
  else if page % 8 != die then pageDone s die 1
  else
    match tableLeaf s (page * 2 ^ 16) with
    | none => pageDone s die 2
    | some (l, e, g) =>
      if g && page % 512 != 0 then pageDone s die 2
      else if op == 1 then migrateStart s die page l e g
      else if 2 ≤ (leafLoc l).toNat then pageDone s die 4
      else if op == 2 then flipToHostStart s die page g
      else flipToDeviceStart s die page g

/-- Copy a granule between two locations, n pieces from piece i on: bytes as they stand sealed outside a port, and tags (R261, R293). -/
def copyPieces (s : State) (key : Byte) (ia src dst : Nat) (m : Memory) (i : Nat) : Nat → Memory
  | 0 => m
  | n + 1 =>
    let a := ia + 64 * i
    let v := pieceIn s (dst + 64 * i) key a (pieceOut s (src + 64 * i) key a (BitVec.ofNat 512 (memBytes m (src + 64 * i) 64)))
    copyPieces s key ia src dst (memPutTags (memPut m (dst + 64 * i) v.toNat 64) (dst + 64 * i) (memTags m (src + 64 * i) 4) 4) (i + 1) n

/-- Copy a granule; the units written lose their poison (R360). -/
def copyGranule (s : State) (key : Byte) (ia src dst : Nat) : State :=
  let m := copyPieces s key ia src dst s.mem 0 32
  { s with mem := { m with poison := m.poison.filter fun u => !(dst / 16 ≤ u && u < dst / 16 + 128) } }

/-- Cached lines of a granule follow it to its new location. -/
def relocateCached (s : State) (g dst : Nat) : State :=
  { s with cores := Tbl.mapVal s.cores fun _ k => { k with l1 := k.l1.map fun l => if l.line / 16 == g then { l with loc := dst + l.line % 16 * 128 } else l },
           banks := Tbl.mapVal s.banks fun _ b => if b.addr == g then { b with loc := dst } else b }

/-- The key of a page under migration. -/
def pageKey (s : State) (ia : Nat) : Byte :=
  match leafAt s ia with
  | some (l, _, _) => leafKey l
  | none => 0

/-- A migration stops at a poisoned source: granules already moved return, MIG is 0, ERR 5. -/
def migrateBack (s : State) (die : Nat) (c : PageCommand) : State :=
  let s := unregister s (.migrate die)
  let s := (upTo c.next).foldl (fun s i =>
    relocateCached (copyGranule s (pageKey s c.page) (c.page + 2048 * i) (c.new + 2048 * i) (c.old + 2048 * i)) (c.page / 2048 + i) (c.old + 2048 * i)) s
  match leafAt s c.page with
  | some (_, e, _) => pageDone (editLeaf s e (fun l => leafPut l 8 false)) die 5
  | none => pageDone s die 5

/-- The last chunk of a migration: the entry's final update, and the counter cleared (R293). -/
def migrateEnd (s : State) (die : Nat) (c : PageCommand) : State :=
  match leafAt s c.page with
  | none => pageDone s die 2
  | some (l, e, _) =>
    let loc : BitVec 2 := if inTier2 c.new then 1 else 0
    let s := pageDone s die 0
    let s := editLeaf s e (fun l => leafPut (leafMove l (BitVec.ofNat 48 (c.new / 2 ^ 16)) loc) 8 false)
    let s := if leafAci l == 0 then s else physPut s (s.countbase.toNat / 2 ^ 16 * 2 ^ 16 + 8 * (leafAci l).toNat) 8 0
    engineCommit s []

/-- The lines of a granule. -/
def granuleLines (g : Nat) : List Nat := (upTo 16).map fun i => g * 16 + i

/-- One chunk of a migration (R293): it waits as an engine chunk (R152), and before it the owner of a PRIVATE page gives up the granule's
lines (R289). -/
def migrationChunk (s : State) (die : Nat) : State :=
  match (dieAt s die).page with
  | none => s
  | some c =>
    if c.op != 1 then s
    else if c.granules ≤ c.next then migrateEnd s die c
    else
      let src := c.old + 2048 * c.next
      let ia := c.page + 2048 * c.next
      let lines := granuleLines (ia / 2048)
      if anyPoison s.mem src 2048 then migrateBack s die c
      else if engineWaits s (.migrate die) lines lines then registerWait s (.migrate die) 0 lines lines
      else
        let s := lines.foldl quietLine (unregister s (.migrate die))
        let s := relocateCached (copyGranule s (pageKey s ia) ia src (c.new + 2048 * c.next)) (ia / 2048) (c.new + 2048 * c.next)
        let s := updDie s die fun d => { d with page := some { c with next := c.next + 1 } }
        engineCommit s lines

/-- A die migrates a page, and its next chunk can go on. -/
def migrationDue (s : State) (die : Nat) : Bool :=
  match (dieAt s die).page with
  | none => false
  | some c =>
    let lines := granuleLines (c.page / 2048 + c.next)
    c.op == 1 && (c.granules ≤ c.next || anyPoison s.mem (c.old + 2048 * c.next) 2048 || !engineStuck s (.migrate die) lines lines)

/-- MIGRATE (R293). -/
def execMigrate (die : BitVec 3) (page : W32) (s : State) : Outcome := .next (pageCommand s die.toNat 1 page.toNat)

/-- MIGRATION_CHUNK (R293). -/
def execMigrationChunk (die : BitVec 3) (s : State) : Outcome := .next (migrationChunk s die.toNat)

/-- FLIP_BIAS_TO_HOST (R294). -/
def execFlipBiasToHost (die : BitVec 3) (page : W32) (s : State) : Outcome := .next (pageCommand s die.toNat 2 page.toNat)

/-- FLIP_BIAS_TO_DEVICE (R294). -/
def execFlipBiasToDevice (die : BitVec 3) (page : W32) (s : State) : Outcome := .next (pageCommand s die.toNat 3 page.toNat)

/-- A flip can go on: to host, nothing holds its chunk back; to device, the host has answered for every line. -/
def flipReady (s : State) (die : Nat) : Bool :=
  match (dieAt s die).page with
  | some c =>
    (c.op == 2 && !flipWaits s die c) || (c.op == 3 && c.waits.isEmpty)
  | none => false

/-- BIAS_FLIP_COMPLETE (R294). -/
def execBiasFlipComplete (die : BitVec 3) (s : State) : Outcome :=
  .next (if flipReady s die.toNat then
      match (dieAt s die.toNat).page with
      | some c => if c.op == 2 then flipToHost s die.toNat c else flipToDevice s die.toNat c
      | none => s
    else s)

/-- PTROOT (R285); a new root leaves the cached translations, which PINV drops (R286). -/
def ptrootWrite (s : State) (v : W64) : State := { s with ptroot := v &&& ~~~ 0x3fffe#64 }

/-- PTROOT_WRITE (R285). -/
def execPtrootWrite (value : W64) (s : State) : Outcome := .next (ptrootWrite s value)

end Sys2Proof.Machine
end

