-- ==== Sys2Proof/Machine/Aperture.lean ====
section
/-! DEFINITION. The device register aperture (R282): reads and writes of the cluster blocks and die blocks by offset, the token
rings behind POWERTOK (R255), the arming of snapshots (R371), and the register-write events. -/

namespace Sys2Proof.Machine

/-! ### Token rings (R255) -/

/-- A cluster's place on its die's ring. -/
def ringPlace (cl : Nat) : Nat := cl / 16 % 4 * 4 + cl % 4

/-- The token that stands at a place now. -/
def tokenAt (s : State) (die place : Nat) : Option Nat := (dieAt s die).tokens.find? fun p => (p + s.cycle) % 16 == place

def heldTokens (s : State) (die : Nat) : Nat := (s.clusters.filter fun k => dieOfCluster k.1 == die && k.2.token).length

/-- The place number of a token that stands at a place now. -/
def tokenFor (s : State) (place : Nat) : Nat := (place + 16 - s.cycle % 16) % 16

/-- A write of POWERTOK: above 16 it is ignored; a raised count inserts tokens at the die's first cluster. -/
def powertokWrite (s : State) (die : Nat) (v : W64) : State :=
  let n := v.toNat % 32
  if 16 < n then s
  else
    let have_ := (dieAt s die).tokens.length + heldTokens s die
    updDie s die fun d => { d with tokenCount := BitVec.ofNat 5 n, tokens := d.tokens ++ List.replicate (n - have_) (tokenFor s 0) }

/-- A write of POWERTOK by software: what firmware had lowered is no longer to be restored (R369). -/
def powertokSet (s : State) (die : Nat) (v : W64) : State :=
  if 16 < v.toNat % 32 then s else updDie (powertokWrite s die v) die fun d => { d with lowered := 0 }

/-- Free tokens that stand at a die's first cluster while its ring holds more than its count are removed. -/
def ringTick (s : State) : State :=
  s.dies.foldl (fun s d =>
    let x := dieAt s d.1
    let extra := x.tokens.length + heldTokens s d.1 - x.tokenCount.toNat
    let here := x.tokens.filter fun p => (p + s.cycle) % 16 == 0
    let rest := x.tokens.filter fun p => (p + s.cycle) % 16 != 0
    if extra == 0 || here.isEmpty then s else setDie s d.1 { x with tokens := rest ++ here.drop extra }) s

/-- An MSTRM that waits takes the token at its cluster (R255). -/
def takeToken (s : State) (cl : Nat) : State :=
  let die := dieOfCluster cl
  match tokenAt s die (ringPlace cl), (clusterAt s cl).waiting with
  | some p, some since =>
    let s := updDie s die fun d => { d with tokens := d.tokens.erase p }
    updCluster s cl fun k => { k with token := true, waiting := none, stall := k.stall + BitVec.ofNat 32 (s.cycle - since) }
  | _, _ => s

/-- Every waiting MSTRM at whose cluster a free token stands takes it: no token passes one. -/
def ringTakes (s : State) : State := s.clusters.foldl (fun s k => takeToken s k.1) s

/-- A burst has ended: its token goes on round the ring. -/
def releaseToken (s : State) (cl : Nat) : State :=
  if (clusterAt s cl).token then
    let s := updCluster s cl fun k => { k with token := false }
    updDie s (dieOfCluster cl) fun d => { d with tokens := d.tokens ++ [tokenFor s (ringPlace cl)] }
  else s

/-- MXTOK.STALL, the wait under way included. -/
def stallNow (s : State) (k : Cluster) : W32 :=
  match k.waiting with
  | some t => k.stall + BitVec.ofNat 32 (s.cycle - t)
  | none => k.stall

/-! ### Snapshots (R371) -/

/-- Arm a request unless one is armed. -/
def armSnapshot (s : State) (t : W64) (source : BitVec 2) : State :=
  if s.armed then s else { s with armed := true, latchAt := t, snapSource := source, snapctl := t }

/-! ### Reading -/

/-- MXSTAT.RUN (R259). -/
def runWord (k : Cluster) : Nat :=
  if k.waiting.isSome then 3 else if k.draining then 2
  else if k.matrix.command.isSome || k.loading.isSome || !(seqEntries k.matrix).isEmpty then 1 else 0

def mxstat (k : Cluster) : W64 :=
  BitVec.ofNat 64 (runWord k + planeWord k.shadow.state * 2 ^ 8 + planeWord k.active.state * 2 ^ 10 + (MFmt.code k.shadow.mode).toNat * 2 ^ 12 +
    (MFmt.code k.active.mode).toNat * 2 ^ 14 + k.consumed.toNat * 2 ^ 16)

def mxlease (s : State) (cl : Nat) : W64 :=
  let k := clusterAt s cl
  BitVec.ofNat 64 ((if k.lease == .free then 0 else k.holder.toNat) + leaseCode k.lease * 2 ^ 4 + k.used.toNat * 2 ^ 8 +
    ((leaseWaiters s cl).foldl (fun n i => n + 2 ^ i) 0) * 2 ^ 20)

def mxtok (s : State) (cl : Nat) : W64 :=
  BitVec.ofNat 64 ((dieAt s (dieOfCluster cl)).tokenCount.toNat + (stallNow s (clusterAt s cl)).toNat * 2 ^ 8)

/-- The low four bits of a running command's opcode. -/
def opcodeOf (q : Sequencer) : Nat :=
  match q.command with
  | some i => ((encodeCommand i).getD 0).toNat / 2 ^ 248 % 16
  | none => 0

def cpstat (k : Cluster) : W64 :=
  let q := k.copy
  BitVec.ofNat 64 ((if !q.saving.isEmpty then 2 else if (seqEntries q).isEmpty then 0 else 1) + opcodeOf q * 2 ^ 4 + q.queue.length * 2 ^ 8 + q.done.toNat * 2 ^ 32)

def portCode : PortState → Nat
  | .down => 0
  | .training => 1
  | .negotiating => 2
  | .active => 3
  | .resetting => 4

def clusterReg (s : State) (cl off : Nat) : W64 :=
  let k := clusterAt s cl
  if off == 0x000 then mxstat k
  else if off == 0x008 then mxlease s cl
  else if off == 0x010 then mxtok s cl
  else if off == 0x018 then cpstat k
  else if 0x800 ≤ off && off < 0x840 then Tbl.get 0 k.latched ((off - 0x800) / 8)
  else 0

/-- The registers of die block 0 alone. -/
def packageReg (s : State) (off : Nat) : W64 :=
  if off == 0x000 then s.ptroot
  else if off == 0x008 then s.countbase
  else if off == 0x048 then BitVec.ofNat 64 (s.csDone.toNat + if 64 ≤ s.doors.length then 2 ^ 63 else 0)
  else if 0x080 ≤ off && off < 0x080 + 8 * 24 then
    BitVec.ofNat 64 (portCode (Tbl.get Port.reset s.ports ((off - 0x80) / 8)).state + (Tbl.get Port.reset s.ports ((off - 0x80) / 8)).version.toNat * 2 ^ 8)
  else if off == 0x180 then BitVec.ofNat 64 (s.phase.toNat * 2 ^ 32 + s.bootErr.toNat * 2 ^ 48 + if s.ready then 2 ^ 63 else 0)
  else if off == 0x188 then s.snapctl
  else if off == 0x190 then BitVec.ofNat 64 (s.snapSource.toNat + if s.armed then 2 ^ 63 else 0)
  else if off == 0x198 then s.repairstat
  else if off == 0x1a0 then s.lrcfg
  else if off == 0x1a8 then s.lrtail.setWidth 64
  else if off == 0x1b0 then s.lrdropped ++ s.lrhead
  else 0

def dieReg (s : State) (die off : Nat) : W64 :=
  let d := dieAt s die
  if off == 0x010 then d.pgdest
  else if off == 0x020 then BitVec.ofNat 64 (d.pgerr.toNat + if d.page.isSome then 2 ^ 63 else 0)
  else if off == 0x1c0 then d.tokenCount.setWidth 64
  else if 0x800 ≤ off && off < 0x840 then Tbl.get 0 d.latched ((off - 0x800) / 8)
  else if die == 0 then packageReg s off
  else 0

/-- The 64-bit register at an aperture offset that is a multiple of 8. -/
def apertureReg (s : State) (off : Nat) : W64 :=
  if off < 0x80000 then clusterReg s (off / 4096) (off % 4096)
  else if off < 0x88000 then dieReg s ((off - 0x80000) / 4096) (off % 4096)
  else 0

/-- A load of n bytes, naturally aligned: the bytes of the register they lie in. -/
def apertureRead (s : State) (off n : Nat) : Nat := (apertureReg s (off / 8 * 8)).toNat / 2 ^ (8 * (off % 8)) % 2 ^ (8 * n)

/-! ### Writing -/

/-- CSDOOR (R328): ignored before READY (R366) and while 64 requests are queued. -/
def csdoorWrite (s : State) (v : W64) : State :=
  if !s.ready || 64 ≤ s.doors.length then s else { s with doors := s.doors ++ [v &&& ~~~ 0x3f#64] }

/-- LRCFG (R192). -/
def lrcfgWrite (s : State) (v : W64) : State :=
  if s.lrhead != s.lrtail || 12 < v.toNat % 16 then s else { s with lrcfg := v &&& ~~~ 0xfff0#64 }

def packageRegWrite (s : State) (off : Nat) (v : W64) : State :=
  if off == 0x000 then ptrootWrite s v
  else if off == 0x008 then { s with countbase := v &&& ~~~ 0xffff#64 }
  else if off == 0x040 then csdoorWrite s v
  else if off == 0x188 then armSnapshot s v 2
  else if off == 0x1a0 then lrcfgWrite s v
  else if off == 0x1a8 then { s with lrtail := v.setWidth 32 }
  else s

/-- A write of a whole register (R21, R282): fields that take none keep their values. -/
def apertureRegWrite (s : State) (off : Nat) (v : W64) : State :=
  if off < 0x80000 then (if off % 4096 == 0x008 && v.getLsbD 63 then leaseRelease s (off / 4096) else s)
  else if off < 0x88000 then
    let die := (off - 0x80000) / 4096
    let r := off % 4096
    if r == 0x010 then updDie s die fun d => { d with pgdest := v &&& ~~~ 0xfffc#64 }
    else if r == 0x018 then pageCommand s die (v.toNat % 4) (v.toNat / 2 ^ 16 % 2 ^ 32)
    else if r == 0x1c0 then powertokSet s die v
    else if die == 0 then packageRegWrite s r v
    else s
  else s

/-- A store of n bytes: the register with those bytes replaced (notes/assumptions/18.md). -/
def apertureWrite (s : State) (off n : Nat) (v : Nat) : State :=
  let old := (apertureReg s (off / 8 * 8)).toNat
  let sh := 2 ^ (8 * (off % 8))
  let mask := (2 ^ (8 * n) - 1) * sh
  let new := old - Nat.land old mask + v % 2 ^ (8 * n) * sh
  apertureRegWrite s (off / 8 * 8) (BitVec.ofNat 64 new)

/-! ### Events -/

/-- POWERTOK_WRITE (R255). -/
def execPowertokWrite (die : BitVec 3) (value : W64) (s : State) : Outcome :=
  .next (powertokSet s die.toNat value)

/-- TOKEN_TAKE (R255). -/
def execTokenTake (cl : BitVec 7) (s : State) : Outcome := .next (takeToken s cl.toNat)

/-- SNAPCTL (R371). -/
def execSnapctl (value : W64) (s : State) : Outcome := .next (armSnapshot s value 2)

/-- SNAPIN (R371). -/
def execSnapin (s : State) : Outcome := .next (armSnapshot s (s.time + 4096) 1)

/-- The n-th decoder range takes a value. -/
def setRange (l : List (Nat × Nat)) (n : Nat) (r : Nat × Nat) : List (Nat × Nat) := (l ++ List.replicate (n + 1 - l.length) (0, 0)).set n r

/-- The supervisor exposes device memory to the host (R341): the first location in the low 64 bits, the size in the high ones; the form of
the value is the model's own (notes/assumptions/61.md). -/
def decoderWrite (s : State) (n : Nat) (v : Cap) : State :=
  { s with exposed := setRange s.exposed n ((v.img.extractLsb' 0 64).toNat, (v.img.extractLsb' 64 64).toNat) }

/-- The supervisor creates a queue pair, or with bit 0 clear takes it away (R350; notes/assumptions/36.md). -/
def queuePairWrite (s : State) (n : Nat) (v : Cap) : State :=
  { s with queuePairs := if v.img.getLsbD 0 then NatSet.insert s.queuePairs n else NatSet.erase s.queuePairs n }

/-- A register or set-up takes a value. -/
def targetWrite (s : State) (value : Cap) : RegTarget → State
  | .aperture off => apertureRegWrite s (off.toNat / 8 * 8) (capAddr value)
  | .system c sl index => sysWrite s c.toNat sl.toNat index value
  | .decoder n => decoderWrite s n.toNat value
  | .queuePair n => queuePairWrite s n.toNat value

/-- REGISTER_WRITE (R231, R282, R341, R350): a write of a register from outside an instruction, following its access codes; before READY the
device answers configuration requests only (R366). -/
def execRegisterWrite (reg : RegTarget) (value : Cap) (s : State) : Outcome := .next (if s.ready then targetWrite s value reg else s)

end Sys2Proof.Machine
end

