-- ==== Sys2Proof/Machine/Float.lean ====
section
/-! DEFINITION. Floating-point values: the formats of R22, exact values, rounding under the modes of R26, and the
operations of R27, R29 and R36 on bit patterns. A nonzero finite value is an exact m × 2^e with m a positive integer, so
nothing is rounded before the one rounding of R27. -/

namespace Sys2Proof.Machine

/-- A format of R22: the widths of E and M, the bias, and whether it has infinities (R23). -/
structure FFmt where
  eBits : Nat
  mBits : Nat
  bias : Nat
  hasInf : Bool
  deriving DecidableEq, Repr

def FFmt.f64 : FFmt := ⟨11, 52, 1023, true⟩
def FFmt.f32 : FFmt := ⟨8, 23, 127, true⟩
def FFmt.bf16 : FFmt := ⟨8, 7, 127, true⟩
def FFmt.e5m2 : FFmt := ⟨5, 2, 15, true⟩
def FFmt.e4m3 : FFmt := ⟨4, 3, 7, false⟩

/-- An exact value, or a special one. -/
inductive FVal
  | nan
  | inf (neg : Bool)
  | zero (neg : Bool)
  | fin (neg : Bool) (m : Nat) (e : Int)
  deriving DecidableEq, Repr

def FFmt.signBit (f : FFmt) : Nat := 2 ^ (f.eBits + f.mBits)
/-- The exponent field of all ones. -/
def FFmt.eMax (f : FFmt) : Nat := 2 ^ f.eBits - 1
/-- The magnitude bits of the largest finite value (R22, R23). -/
def FFmt.maxFinite (f : FFmt) : Nat := if f.hasInf then f.eMax * 2 ^ f.mBits - 1 else 2 ^ (f.eBits + f.mBits) - 2
/-- The default NaN (R24). -/
def FFmt.nanBits (f : FFmt) : Nat := if f.hasInf then f.eMax * 2 ^ f.mBits + 2 ^ (f.mBits - 1) else 2 ^ (f.eBits + f.mBits) - 1
def FFmt.infBits (f : FFmt) : Nat := f.eMax * 2 ^ f.mBits
/-- The exponent of the least significant bit of a subnormal. -/
def FFmt.qMin (f : FFmt) : Int := 1 - (f.bias : Int) - (f.mBits : Int)

/-- The value of a bit pattern (R22, R23). -/
def floatValue (f : FFmt) (bits : Nat) : FVal :=
  let neg := bits / f.signBit % 2 == 1
  let mag := bits % f.signBit
  let e := mag / 2 ^ f.mBits
  let m := mag % 2 ^ f.mBits
  if f.hasInf && e == f.eMax then (if m == 0 then .inf neg else .nan)
  else if !f.hasInf && mag == f.signBit - 1 then .nan
  else if mag == 0 then .zero neg
  else if e == 0 then .fin neg m f.qMin
  else .fin neg (m + 2 ^ f.mBits) (f.qMin + (e : Int) - 1)

/-- Whether a magnitude with this quotient and remainder of 2^d is rounded up (R26). -/
def roundsUp (rm : RM) (neg : Bool) (q r d : Nat) : Bool :=
  match rm with
  | .rne => 2 ^ d < 2 * r || (2 * r == 2 ^ d && q % 2 == 1)
  | .rtz => false
  | .rdn => neg && r != 0
  | .rup => !neg && r != 0
  | .rmm => 2 ^ d ≤ 2 * r && r != 0

/-- m × 2^e to an integer multiple of 2^q, rounded. -/
def roundTo (rm : RM) (neg : Bool) (m : Nat) (e q : Int) : Nat :=
  if q ≤ e then m * 2 ^ (e - q).toNat
  else
    let d := (q - e).toNat
    let n := m / 2 ^ d
    if roundsUp rm neg n (m % 2 ^ d) d then n + 1 else n

/-- What a magnitude beyond the largest finite value becomes (R26, R29). -/
def overflowBits (f : FFmt) (rm : RM) (sat neg : Bool) : Nat :=
  if sat then f.maxFinite
  else if !f.hasInf then f.nanBits
  else
    match rm with
    | .rne | .rmm => f.infBits
    | .rtz => f.maxFinite
    | .rdn => if neg then f.infBits else f.maxFinite
    | .rup => if neg then f.maxFinite else f.infBits

def signed (f : FFmt) (neg : Bool) (mag : Nat) : Nat := if neg then f.signBit + mag else mag

/-- Round an exact value to a format, once (R26, R27, R29). -/
def floatRound (f : FFmt) (rm : RM) (sat : Bool) (v : FVal) : Nat :=
  match v with
  | .nan => f.nanBits
  | .zero neg => signed f neg 0
  | .inf neg =>
    if sat then signed f neg f.maxFinite else if f.hasInf then signed f neg f.infBits else f.nanBits
  | .fin neg m e =>
    let q := max (e + (Nat.log2 m : Int) - (f.mBits : Int)) f.qMin
    let n := roundTo rm neg m e q
    let mag := if n < 2 ^ f.mBits then n else ((q - f.qMin + 1).toNat) * 2 ^ f.mBits + (n - 2 ^ f.mBits)
    if f.maxFinite < mag then
      (if !sat && !f.hasInf then f.nanBits else signed f neg (overflowBits f rm sat neg))
    else signed f neg mag

/-- The exact product; 0 × ∞ is invalid (R24). -/
def floatMul (a b : FVal) : FVal :=
  match a, b with
  | .nan, _ | _, .nan => .nan
  | .inf _, .zero _ | .zero _, .inf _ => .nan
  | .inf x, .inf y | .inf x, .fin y _ _ | .fin x _ _, .inf y => .inf (x != y)
  | .zero x, .zero y | .zero x, .fin y _ _ | .fin x _ _, .zero y => .zero (x != y)
  | .fin x m e, .fin y n d => .fin (x != y) (m * n) (e + d)

def floatNeg (a : FVal) : FVal :=
  match a with
  | .nan => .nan
  | .inf x => .inf !x
  | .zero x => .zero !x
  | .fin x m e => .fin (!x) m e

/-- The exact sum; an exact zero sum of opposite signs is +0, and −0 under RDN (R26). -/
def floatAdd (rm : RM) (a b : FVal) : FVal :=
  match a, b with
  | .nan, _ | _, .nan => .nan
  | .inf x, .inf y => if x == y then .inf x else .nan
  | .inf x, _ => .inf x
  | _, .inf y => .inf y
  | .zero x, .zero y => if x == y then .zero x else .zero (rm == .rdn)
  | .zero _, v => v
  | v, .zero _ => v
  | .fin x m e, .fin y n d =>
    let q := min e d
    let i : Int := (m * 2 ^ (e - q).toNat : Nat)
    let j : Int := (n * 2 ^ (d - q).toNat : Nat)
    let s := (if x then -i else i) + (if y then -j else j)
    if s == 0 then .zero (rm == .rdn) else .fin (s < 0) s.natAbs q

/-- The quotient (R78): exact, or cut below 75 significant bits with a last bit that says it was. -/
def floatDiv (a b : FVal) : FVal :=
  match a, b with
  | .nan, _ | _, .nan => .nan
  | .inf _, .inf _ | .zero _, .zero _ => .nan
  | .inf x, .zero y | .inf x, .fin y _ _ => .inf (x != y)
  | .zero x, .inf y | .zero x, .fin y _ _ | .fin x _ _, .inf y => .zero (x != y)
  | .fin x _ _, .zero y => .inf (x != y)
  | .fin x m e, .fin y n d =>
    let k := m * 2 ^ 128
    .fin (x != y) (k / n * 2 + (if k % n == 0 then 0 else 1)) (e - d - 129)

/-- The integer square root of n, bit by bit from bit i − 1. -/
def isqrtFrom (n r : Nat) : Nat → Nat
  | 0 => r
  | i + 1 => if (r + 2 ^ i) * (r + 2 ^ i) ≤ n then isqrtFrom n (r + 2 ^ i) i else isqrtFrom n r i

def isqrt (n : Nat) : Nat := isqrtFrom n 0 (Nat.log2 n / 2 + 1)

/-- The square root (R78): √−0 = −0, a negative nonzero operand gives NaN; else exact, or cut below 64 significant bits with
a last bit that says it was. -/
def floatSqrt (a : FVal) : FVal :=
  match a with
  | .nan => .nan
  | .zero x => .zero x
  | .inf x => if x then .nan else .inf false
  | .fin x m e =>
    if x then .nan
    else
      let odd := (e % 2).toNat
      let k := m * 2 ^ (128 + odd)
      let r := isqrt k
      .fin false (r * 2 + (if r * r == k then 0 else 1)) ((e - odd) / 2 - 65)

/-- The integer an exact value rounds to; none for NaN, and the infinities as none of either sign. -/
def floatToInt (rm : RM) (v : FVal) (lo hi : Int) : Int :=
  match v with
  | .nan => 0
  | .inf neg => if neg then lo else hi
  | .zero _ => 0
  | .fin neg m e =>
    let n : Int := (roundTo rm neg m e 0 : Nat)
    let i := if neg then -n else n
    if i < lo then lo else if hi < i then hi else i

/-- An integer as an exact value. -/
def floatOfInt (i : Int) : FVal := if i == 0 then .zero false else .fin (i < 0) i.natAbs 0

def floatIsNan (f : FFmt) (bits : Nat) : Bool := floatValue f bits == .nan

/-- The order of two patterns that are no NaN: by sign and magnitude, so that −0 equals +0 (R79). -/
def floatKey (f : FFmt) (bits : Nat) : Int :=
  let mag : Int := (bits % f.signBit : Nat)
  if bits / f.signBit % 2 == 1 then -mag else mag

/-- FMIN and FMAX (R79), VMIN and VMAX (R161): −0 below +0, NaN from either operand. -/
def floatMin (f : FFmt) (a b : Nat) : Nat :=
  if floatIsNan f a || floatIsNan f b then f.nanBits
  else if floatKey f a < floatKey f b then a
  else if floatKey f b < floatKey f a then b
  else if a / f.signBit % 2 == 1 then a else b

def floatMax (f : FFmt) (a b : Nat) : Nat :=
  if floatIsNan f a || floatIsNan f b then f.nanBits
  else if floatKey f a < floatKey f b then b
  else if floatKey f b < floatKey f a then a
  else if a / f.signBit % 2 == 1 then b else a

def floatEq (f : FFmt) (a b : Nat) : Bool := !floatIsNan f a && !floatIsNan f b && floatKey f a == floatKey f b
def floatLt (f : FFmt) (a b : Nat) : Bool := !floatIsNan f a && !floatIsNan f b && floatKey f a < floatKey f b
def floatLe (f : FFmt) (a b : Nat) : Bool := !floatIsNan f a && !floatIsNan f b && floatKey f a ≤ floatKey f b

/-- The binary operations that round once (R78, R161). -/
def fAdd (f : FFmt) (rm : RM) (a b : Nat) : Nat := floatRound f rm false (floatAdd rm (floatValue f a) (floatValue f b))
def fSub (f : FFmt) (rm : RM) (a b : Nat) : Nat :=
  floatRound f rm false (floatAdd rm (floatValue f a) (floatNeg (floatValue f b)))
def fMul (f : FFmt) (rm : RM) (a b : Nat) : Nat := floatRound f rm false (floatMul (floatValue f a) (floatValue f b))
def fDiv (f : FFmt) (rm : RM) (a b : Nat) : Nat := floatRound f rm false (floatDiv (floatValue f a) (floatValue f b))
def fSqrt (f : FFmt) (rm : RM) (a : Nat) : Nat := floatRound f rm false (floatSqrt (floatValue f a))
/-- a × b + c, formed exactly and rounded once. -/
def fMulAdd (f : FFmt) (rm : RM) (a b c : Nat) : Nat :=
  floatRound f rm false (floatAdd rm (floatMul (floatValue f a) (floatValue f b)) (floatValue f c))
/-- a × b − c. -/
def fMulSub (f : FFmt) (rm : RM) (a b c : Nat) : Nat :=
  floatRound f rm false (floatAdd rm (floatMul (floatValue f a) (floatValue f b)) (floatNeg (floatValue f c)))
/-- c − a × b. -/
def fNegMulAdd (f : FFmt) (rm : RM) (a b c : Nat) : Nat :=
  floatRound f rm false (floatAdd rm (floatNeg (floatMul (floatValue f a) (floatValue f b))) (floatValue f c))
/-- Convert between formats (R29). -/
def fConvert (src dst : FFmt) (rm : RM) (sat : Bool) (a : Nat) : Nat := floatRound dst rm sat (floatValue src a)

/-- FCLASS (R81): the kind in bits 5:0, the sign in bit 8. -/
def fClass (f : FFmt) (bits : Nat) : Nat :=
  let mag := bits % f.signBit
  let e := mag / 2 ^ f.mBits
  let m := mag % 2 ^ f.mBits
  let kind :=
    if e == f.eMax then (if m == 0 then 8 else if m / 2 ^ (f.mBits - 1) == 0 then 16 else 32)
    else if mag == 0 then 1 else if e == 0 then 2 else 4
  kind + (if bits / f.signBit % 2 == 1 then 256 else 0)

/-- A valid block scale (R30): positive and finite. -/
def validScale (w : Nat) : Bool := w != 0 && w < FFmt.f32.infBits

end Sys2Proof.Machine
end

