-- ==== Sys2Proof/Machine/VCache.lean ====
section
/-! DEFINITION. Virtual caches as software shapes them: definitions, reshapes, bindings, re-parenting and draining (R298,
R299, R302 to R311), and the background events RESHAPE_WALK, FLUSH_THROUGH and VC_DRAIN. -/

namespace Sys2Proof.Machine

/-! ### What a context holds -/

def vcState (c : Context) (id : Nat) : VcState := (vcAt c id).state

def vcCode : VcState → Nat
  | .undefined => 0
  | .defined => 1
  | .bound => 2
  | .reshaping => 3
  | .reparenting => 4
  | .draining => 5

/-- The way-slices of a context over every geometry (R298). -/
def slicesHeld (c : Context) : Nat :=
  c.vcs.foldl (fun n v => n + v.2.geo.slices.length + ((v.2.old.map (·.slices.length)).getD 0)) 0

def depthIn (c : Context) (id : Nat) : Nat → Nat
  | 0 => 0
  | n + 1 => if (vcAt c id).parent == 0 || (vcAt c id).parent == 31 then 1 else 1 + depthIn c (vcAt c id).parent n

/-- The depth of a cache (R298). -/
def vcDepth (c : Context) (id : Nat) : Nat := depthIn c id 16

/-- The parents of a cache: while it is REPARENTING, the one it will have as well (R305). -/
def parentsOf (v : VCache) : List Nat := if v.state == .reparenting then [v.parent, v.newParent] else [v.parent]

/-- The greatest depth of a cache, over parent links that a re-parenting in progress will flip; `fuel` bounds the caches. -/
def deepest (c : Context) (id : Nat) : Nat → Nat
  | 0 => 0
  | n + 1 => 1 + ((parentsOf (vcAt c id)).foldl (fun m p => if p == 0 || p == 31 then m else max m (deepest c p n)) 0)

def childrenOf (c : Context) (id : Nat) : List Nat := (c.vcs.filter fun v => v.2.state != .undefined && v.2.parent == id).map (·.1)

/-- A cache is, or is about to be, the parent of another. -/
def isParent (c : Context) (id : Nat) : Bool := c.vcs.any fun v => v.2.state != .undefined && (parentsOf v.2).contains id

def bindingsOf (c : Context) (id : Nat) : List Binding := c.binds.filter fun b => b.leaf == id

def inSubtree (c : Context) (id x : Nat) : Bool := (chainOf c x).contains id

/-- The height of a subtree: 1 for a cache without children, present or to come. -/
def subtreeHeight (c : Context) (id : Nat) : Nat → Nat
  | 0 => 0
  | n + 1 => 1 + (c.vcs.foldl (fun m v => if v.2.state != .undefined && (parentsOf v.2).contains id then max m (subtreeHeight c v.1 n) else m) 0)

def updVc (s : State) (ctx : BitVec 12) (id : Nat) (f : VCache → VCache) : State :=
  updCtx s ctx.toNat fun c => { c with vcs := Tbl.set c.vcs id (f (vcAt c id)) }

/-- A DEFINED cache that gains a binding or a child is BOUND (R302). -/
def bindState (s : State) (ctx : BitVec 12) (id : Nat) : State :=
  if 1 ≤ id && id ≤ 16 then updVc s ctx id fun v => if v.state == .defined then { v with state := .bound } else v else s

/-! ### Way-slices -/

/-- The unassigned ways of a bank, ascending. -/
def freeWays (s : State) (b : Nat) : List Nat :=
  if s.badBanks.contains b then [] else (upTo 16).filter fun w => !Tbl.has s.slices (b * 16 + w)

/-- The geometry a descriptor asks for: the lowest WAYS unassigned ways of each named bank; none when some bank has too few. -/
def claimable (s : State) (banks : List Nat) (ways : Nat) : Option Geometry :=
  if banks.all fun b => ways ≤ (freeWays s b).length then
    some ⟨ways, banks, banks.flatMap fun b => ((freeWays s b).take ways).map fun w => b * 16 + w⟩
  else none

/-- The bank-table keys of the granules that lie in some way-slices. -/
def granulesIn (s : State) (slices : List Nat) : List Nat :=
  (s.banks.filter fun g => slices.contains (g.1 / 512 * 16 + g.1 % 16)).map (·.1)

/-- Write a granule's dirty pieces to memory and drop it. -/
def dropToMem (s : State) (k : Nat) : State :=
  match Tbl.find s.banks k with
  | some g => { s with mem := piecesToMem s s.mem g 0 32, banks := Tbl.erase s.banks k }
  | none => s

/-- Assign way-slices to a cache; what the common cache held in them goes to memory first (R310). -/
def assignSlices (s : State) (ctx : BitVec 12) (id : Nat) (l : List Nat) : State :=
  let s := (granulesIn s l).foldl dropToMem s
  { s with slices := l.foldl (fun t x => Tbl.set t x (ctx.toNat * 32 + id)) s.slices }

/-- Way-slices return to the common cache; what is left in them goes to memory. -/
def returnSlices (s : State) (l : List Nat) : State :=
  let s := (granulesIn s l).foldl dropToMem s
  { s with slices := l.foldl Tbl.erase s.slices }

/-! ### Flush-through (R303) -/

/-- The bank-table keys of a cache's granules that hold pieces of a region, whichever context filled them. -/
def granulesOf (s : State) (c : Context) (id base len : Nat) : List Nat :=
  let slices := (vcAt c id).geo.slices ++ ((vcAt c id).old.map (·.slices)).getD []
  (s.banks.filter fun g =>
    base ≤ g.2.addr * 2048 && g.2.addr * 2048 < base + len &&
      (if id == 0 then !Tbl.has s.slices (g.1 / 512 * 16 + g.1 % 16) else slices.contains (g.1 / 512 * 16 + g.1 % 16))).map (·.1)

/-- Evict a granule into the caches of a path. -/
def evictInto (c : Context) (path : List Nat) (s : State) (k : Nat) : State :=
  match Tbl.find s.banks k with
  | none => s
  | some g =>
    let s := { s with banks := Tbl.erase s.banks k }
    if g.dirty == 0 then s else installIn c s { g with present := g.dirty } path

/-- Flush a region through the caches `below`, lowest first, and so into the first cache of `above`, or memory; what leaves a REPARENTING
cache goes straight to the ancestor that it flushes to (R305). -/
def flushRegion (c : Context) (base len : Nat) (s : State) (above : List Nat) : List Nat → State
  | [] => s
  | v :: rest =>
    flushRegion c base len ((granulesOf s c v base len).foldl (evictInto c ((skipReparent c (v :: rest ++ above)).drop 1)) s) above rest

/-- Flush a region from the path of cache x up to its lowest common ancestor with cache y (R306). -/
def flushMove (s : State) (ctx : BitVec 12) (base len x y : Nat) : State :=
  let c := ctxOf s ctx
  let above := commonTail (chainOf c x) (chainOf c y)
  flushRegion c base len s above ((chainOf c x).filter fun v => !above.contains v)

/-! ### The instructions' effects (R308 to R311) -/

/-- The status word of R308. -/
def vcWord (id status : Nat) : W64 := BitVec.ofNat 64 (id % 32 * 256 + status)

/-- The failing condition with the lowest code. -/
def firstRefusal : List (Nat × Bool) → Option Nat
  | [] => none
  | (n, b) :: r => if b then some n else firstRefusal r

def maskBanks (mask : Nat) : List Nat := (upTo 1536).filter fun n => mask / 2 ^ n % 2 == 1

def isPow2 (n : Nat) : Bool := n != 0 && 2 ^ Nat.log2 n == n

def descId (d : W64) : Nat := (d.extractLsb' 16 5).toNat
def descParent (d : W64) : Nat := (d.extractLsb' 8 5).toNat
def descWays (d : W64) : Nat := (d.extractLsb' 0 5).toNat

/-- Status 2 of a descriptor and mask (R309). -/
def descBad (d : W64) (banks : List Nat) : Bool :=
  d.extractLsb' 21 43 != 0 || d.extractLsb' 13 3 != 0 || d.extractLsb' 5 3 != 0 || descWays d < 1 || 16 < descWays d ||
    !isPow2 banks.length

/-- The parent named by VCDEF cannot be one (R310 status 5). -/
def parentBad (c : Context) (p : Nat) : Bool :=
  1 ≤ p && p ≤ 16 &&
    (vcState c p == .undefined || vcState c p == .draining || !(bindingsOf c p).isEmpty || 4 ≤ deepest c p 16)

/-- VCDEF (R310). -/
def vcdefEffect (s : State) (ctx : BitVec 12) (d : W64) (mask : Nat) : State × W64 :=
  let c := ctxOf s ctx
  let banks := maskBanks mask
  let id := [1, 2, 3, 4, 5, 6, 7, 8, 9, 10, 11, 12, 13, 14, 15, 16].find? fun i => vcState c i == .undefined
  let p := descParent d
  match firstRefusal [(1, id.isNone), (2, descBad d banks || descId d != 0 || (16 < p && p != 31)),
      (3, (claimable s banks (descWays d)).isNone), (4, c.quota.toNat < slicesHeld c + banks.length * descWays d), (5, parentBad c p)] with
  | some n => (s, vcWord 0 n)
  | none =>
    match id, claimable s banks (descWays d) with
    | some i, some g =>
      let s := assignSlices s ctx i g.slices
      let s := updVc s ctx i fun _ => ⟨.defined, g, none, p, 0⟩
      (bindState s ctx p, vcWord i 0)
    | _, _ => (s, vcWord 0 1)

/-- VCRESHAPE (R304, R310). -/
def vcreshapeEffect (s : State) (ctx : BitVec 12) (d : W64) (mask : Nat) : State × W64 :=
  let c := ctxOf s ctx
  let banks := maskBanks mask
  let id := descId d
  let v := vcAt c id
  let own := if v.state == .defined then v.geo.slices.length else 0
  match firstRefusal [(2, descBad d banks || descParent d != 0), (3, (claimable s banks (descWays d)).isNone),
      (4, c.quota.toNat < slicesHeld c - own + banks.length * descWays d),
      (6, id == 0 || 16 < id || (v.state != .defined && v.state != .bound))] with
  | some n => (s, vcWord id n)
  | none =>
    match claimable s banks (descWays d) with
    | some g =>
      let s := assignSlices s ctx id g.slices
      if v.state == .defined then
        (updVc (returnSlices s v.geo.slices) ctx id fun v => { v with geo := g }, vcWord id 0)
      else (updVc s ctx id fun v => { v with state := .reshaping, geo := g, old := some v.geo }, vcWord id 0)
    | none => (s, vcWord id 3)

/-- The intermediate image of an authority's bounds (R308): base and length, none for status 8. -/
def authorityImage (s : State) (ctx : BitVec 12) (a : Cap) : Option (Nat × Nat) :=
  let b := capDecode a
  if b.2 ≤ b.1 then none else (windowImage (ctxOf s ctx) b.1 b.2).map fun ia => (ia, b.2 - b.1)

def overlaps (b : Binding) (base len : Nat) : Bool := b.base < base + len && base < b.base + b.len

/-- VCBIND (R306, R310). -/
def vcbindEffect (s : State) (ctx : BitVec 12) (auth : Cap) (word : W64) : State × W64 :=
  let c := ctxOf s ctx
  let id := (word.extractLsb' 0 5).toNat
  let img := authorityImage s ctx auth
  let base := (img.map (·.1)).getD 0
  let len := (img.map (·.2)).getD 0
  let old := c.binds.find? fun b => b.base == base && b.len == len
  let st := vcState c id
  match firstRefusal [(2, word.extractLsb' 5 59 != 0), (6, 16 < id || (id != 0 && st != .defined && st != .bound)),
      (7, id != 0 && old.isNone && 32 ≤ c.binds.length),
      (8, img.isNone || base % 65536 != 0 || len % 65536 != 0 || (old.isNone && c.binds.any fun b => overlaps b base len) ||
        (id != 0 && isParent c id) || (id == 0 && old.isNone))] with
  | some n => (s, vcWord id n)
  | none =>
    let s := flushMove s ctx base len ((old.map (·.leaf)).getD 0) id
    let rest := c.binds.filter fun b => !(b.base == base && b.len == len)
    let s := updCtx s ctx.toNat fun c => { c with binds := if id == 0 then rest else rest ++ [⟨base, len, id⟩] }
    (bindState s ctx id, vcWord id 0)

/-- The new parent named by VCREPARENT cannot be one (R310 status 5). -/
def reparentBad (c : Context) (child p : Nat) : Bool :=
  (1 ≤ p && p ≤ 16 &&
      (vcState c p == .undefined || vcState c p == .draining || !(bindingsOf c p).isEmpty || inSubtree c child p ||
        4 < deepest c p 16 + subtreeHeight c child 16)) || 4 < subtreeHeight c child 16

def transient (v : VcState) : Bool := v == .reshaping || v == .reparenting || v == .draining

/-- The bindings of a cache's subtree. -/
def subtreeBinds (c : Context) (id : Nat) : List Binding := c.binds.filter fun b => inSubtree c id b.leaf

/-- VCREPARENT (R305, R310). -/
def vcreparentEffect (s : State) (ctx : BitVec 12) (auth : Cap) (word : W64) : State × W64 :=
  let c := ctxOf s ctx
  let id := (word.extractLsb' 0 5).toNat
  let p := (word.extractLsb' 8 5).toNat
  let v := vcAt c id
  let covers :=
    match authorityImage s ctx auth with
    | some (b, n) => (subtreeBinds c id).all fun x => b ≤ x.base && x.base + x.len ≤ b + n
    | none => false
  match firstRefusal [(2, word.extractLsb' 13 51 != 0 || word.extractLsb' 5 3 != 0 || (16 < p && p != 31)), (5, reparentBad c id p),
      (6, id == 0 || 16 < id || (v.state != .defined && v.state != .bound) || (1 ≤ p && p ≤ 16 && transient (vcState c p))),
      (8, !covers)] with
  | some n => (s, vcWord id n)
  | none =>
    let s := bindState s ctx p
    (updVc s ctx id fun v =>
      if v.state == .defined then { v with parent := p } else { v with state := .reparenting, newParent := p }, vcWord id 0)

/-- VCFREE (R307, R310): a BOUND cache's bindings become bindings of the common cache, flushed through. -/
def vcfreeState (s : State) (ctx : BitVec 12) (id : Nat) : State :=
  let c := ctxOf s ctx
  let v := vcAt c id
  if v.state == .defined then updVc (returnSlices s v.geo.slices) ctx id fun _ => VCache.reset
  else
    let s := (bindingsOf c id).foldl (fun s b => flushMove s ctx b.base b.len id 0) s
    let s := updCtx s ctx.toNat fun c => { c with binds := c.binds.filter fun b => b.leaf != id }
    updVc s ctx id fun v => { v with state := .draining }

def vcfreeEffect (s : State) (ctx : BitVec 12) (word : W64) : State × W64 :=
  let c := ctxOf s ctx
  let id := (word.extractLsb' 0 5).toNat
  let st := vcState c id
  match firstRefusal [(2, word.extractLsb' 5 59 != 0), (6, id == 0 || 16 < id || (st != .defined && st != .bound)), (9, isParent c id)] with
  | some n => (s, vcWord id n)
  | none => (vcfreeState s ctx id, vcWord id 0)

/-- VCQUERY's word (R311). -/
def vcQueryWord (c : Context) (id : Nat) : W64 :=
  if id == 0 then BitVec.ofNat 64 (31 * 256 + 2)
  else if 16 < id then 0
  else
    let v := vcAt c id
    if v.state == .undefined then 0
    else
      BitVec.ofNat 64 (vcCode v.state + v.parent * 2 ^ 8 + vcDepth c id * 2 ^ 13 + v.geo.ways * 2 ^ 16 + v.geo.banks.length * 2 ^ 21 +
        (bindingsOf c id).length * 2 ^ 32 + (childrenOf c id).length * 2 ^ 38)

/-! ### Background events -/

/-- A granule of the old geometry of a RESHAPING cache. -/
def oldGranule (s : State) (c : Context) (id : Nat) : Option Nat :=
  match (vcAt c id).old with
  | some g => (granulesIn s g.slices).head?
  | none => none

/-- The walker visits one granule (R304); an empty old geometry returns its way-slices. -/
def reshapeWalk (s : State) (ctx : BitVec 12) (id : Nat) : State :=
  let c := ctxOf s ctx
  let v := vcAt c id
  if v.state != .reshaping then s
  else
    let t :=
      match oldGranule s c id with
      | none => s
      | some k =>
        match Tbl.find s.banks k with
        | none => s
        | some g =>
          match (geometryWays s v.geo (g.addr * 2048)).find? fun w => !Tbl.has s.banks w with
          | some w => { tick s with banks := Tbl.set (Tbl.erase s.banks k) w { g with used := s.order } }
          | none => evictInto c (evictPath c id) s k
    if (oldGranule t c id).isNone then
      updVc (returnSlices t ((v.old.map (·.slices)).getD [])) ctx id fun v => { v with state := .bound, old := none }
    else t

/-- The flush-through of a re-parenting and the flip of its parent link (R305). -/
def flushThrough (s : State) (ctx : BitVec 12) (id : Nat) : State :=
  let c := ctxOf s ctx
  let v := vcAt c id
  if v.state != .reparenting then s
  else
    let s := (subtreeBinds c id).foldl (fun s b => flushMove s ctx b.base b.len v.parent v.newParent) s
    updVc s ctx id fun v => { v with state := .bound, parent := v.newParent, newParent := 0 }

/-- A draining cache empties and its way-slices return (R307). -/
def vcDrain (s : State) (ctx : BitVec 12) (id : Nat) : State :=
  let c := ctxOf s ctx
  let v := vcAt c id
  if v.state != .draining then s
  else
    let slices := v.geo.slices ++ (v.old.map (·.slices)).getD []
    let s := (granulesIn s slices).foldl (evictInto c (evictPath c id)) s
    updVc (returnSlices s slices) ctx id fun _ => VCache.reset

/-- RESHAPE_WALK (R304). -/
def execReshapeWalk (ctx : BitVec 12) (id : BitVec 5) (s : State) : Outcome := .next (reshapeWalk s ctx id.toNat)

/-- FLUSH_THROUGH (R303). -/
def execFlushThrough (ctx : BitVec 12) (id : BitVec 5) (s : State) : Outcome := .next (flushThrough s ctx id.toNat)

/-- VC_DRAIN (R307). -/
def execVcDrain (ctx : BitVec 12) (id : BitVec 5) (s : State) : Outcome := .next (vcDrain s ctx id.toNat)

end Sys2Proof.Machine
end

