-- ==== Sys2Proof/Machine/Commit.lean ====
section
/-! DEFINITION. Commits (R138, R146 to R155, R216): what a chunk waits for, what its commit writes, the external effects of
chunk-ending instructions, and the events COMMIT, INVALIDATION, COMMIT_COMPLETE, UNCACHED_ANSWER, EVICTION_NOTICE and
PINNED_START. -/

namespace Sys2Proof.Machine

/-! ### A thread's view of memory at its commit -/

def asThread (s : State) (c l : Nat) : State := { s with turn := ⟨BitVec.ofNat 10 c, BitVec.ofNat 2 l, .slot⟩ }

/-- The parts of a thread's access, or its fault. -/
def peekSegs (s : State) (c a n : Nat) (reading : Bool) : Attempt (List Seg) :=
  match transParts s (coreAt s c).owner (.core c) (lineParts a n (n / 128 + 2)) with
  | .error (x, ia) => .error (Code.mapFault, mapInfo x ia)
  | .ok l =>
    let segs := placesOf l
    match segs.find? fun g => g.p.uncached with
    | some g => .error (Code.mapFault, mapInfo 6 g.p.ia)
    | none =>
      let nc (g : Seg) : Bool := nonCoherentLine (ctxOf s (coreAt s c).owner) (g.p.ia / 128)
      if segs.length != l.length || (reading && segs.any fun g => anyPoison s.mem g.p.loc g.n ||
          (missLost s g.p (nc g) && (l1Find (coreAt s c) (g.p.ia / 128) (nc g)).isNone)) then .error (Code.poison, 0)
      else .ok segs

def peekBytes (s : State) (c l : Nat) : List Seg → Nat
  | [] => 0
  | g :: r =>
    lineBytes (viewLine (asThread s c l) g.p (nonCoherentLine (ctxOf s (coreAt s c).owner) (g.p.ia / 128))) (g.p.ia % 128) g.n +
      2 ^ (8 * g.n) * peekBytes s c l r

/-- n bytes at a as a thread reads them. -/
def peek (s : State) (c l a n : Nat) : Attempt Nat :=
  match peekSegs s c a n true with
  | .error e => .error e
  | .ok g => .ok (peekBytes s c l g)

/-- The tag of the unit at a as a thread reads it. -/
def peekTag (s : State) (c l a : Nat) : Bool :=
  match peekSegs s c a 16 true with
  | .ok [g] => (viewLine (asThread s c l) g.p (nonCoherentLine (ctxOf s (coreAt s c).owner) (g.p.ia / 128))).tags.getLsbD (g.p.ia % 128 / 16)
  | _ => false

/-- Write a non-coherent line of a core at a commit (R125): it becomes a dirty line of its L1, over the copy there or over its home at the
place `p`; one that finds no way goes home at once, and one whose fill would get no answer is lost (R348). -/
def ncPut (s : State) (c line : Nat) (p : Nat × Byte) (b : LineBuf) : State :=
  match l1Find (coreAt s c) line true with
  | some x =>
    let w := lineOver ⟨x.data, x.tags⟩ b
    updCore s c fun k => l1Put k { x with dirty := true, data := w.data, tags := w.tags }
  | none =>
    let w := lineOver (homeLine s p.2 (line * 128) p.1) b
    if locLost s (line * 128) p.1 then homePut s p.2 (line * 128) p.1 w
    else
      let t := fillLine s c ⟨line, true, true, false, w.data, w.tags, p.1 / 128 * 128, p.2, s.order⟩
      if (l1Find (coreAt t c) line true).isSome then t else countWriteback (ncHomePut t (coreAt t c).owner p.2 line p.1 w) c

/-- Units written whole lose their poison (R360). -/
def curePoison (s : State) (loc : Nat) (b : LineBuf) : State :=
  { s with mem := (upTo 8).foldl (fun m u => if b.mask.extractLsb' (16 * u) 16 == BitVec.allOnes 16 then memClearPoison m (loc + 16 * u) else m) s.mem }

/-- Where a written line lies: as its page translates now for the core, else where it lay as it was written. -/
def writtenPlace (s : State) (c line : Nat) (o : Chunk) : Nat × Byte :=
  match transIa s (coreAt s c).owner (.core c) (line * 128) with
  | .ok p => (p.loc / 128 * 128, p.key)
  | _ => Tbl.get (line * 128, 0) o.homes line

/-- A line lies in a page that is PRIVATE to a core, which keeps no directory entry for it (R153). -/
def privateTo (s : State) (c line : Nat) : Bool :=
  match leafAt s (line * 128) with
  | some (l, _, g) => leafCls l == 1 && (leafPcore l).toNat == c && !s.shared.contains (entryPage (line / 512) g)
  | none => false

/-- No other core has a line dirty or alone: its data is the committer's now. -/
def takeOver (s : State) (c line : Nat) : State :=
  { s with cores := Tbl.mapVal s.cores fun k x => if k == c then x else mapLine x line fun y => { y with dirty := false, sole := false } }

/-- A written line becomes the committer's dirty copy, in the way that holds it or in a new one; a set without a way passes it to its leaf
(R140, R301). Its directory entry names the committer (R148, R317). A line that the core has not, and whose fill would get no answer, is lost
with the store (R348; notes/assumptions/34.md). -/
def publishLine (s : State) (c line : Nat) (o : Chunk) : State :=
  let b := Tbl.get LineBuf.empty o.ws line
  let old := l1Find (coreAt s c) line false
  let p := match old with
    | some x => (x.loc, x.key)
    | none => writtenPlace s c line o
  let w := lineOver (cohLine s p.2 (line * 128) p.1) b
  if old.isNone && lineLost s (line * 128) p.1 then homePut s p.2 (line * 128) p.1 w
  else
  let x : L1Line := ⟨line, false, true, true, w.data, if isHost p.1 then 0 else w.tags, p.1, p.2, (old.map (·.used)).getD s.order⟩
  let s := takeOver (curePoison s p.1 b) c line
  let s := if isHost p.1 then { s with hostLines := Tbl.set s.hostLines line 2 } else s
  let put (s : State) : State :=
    match old with
    | some _ => updCore s c fun k => l1Put k x
    | none =>
      let t := fillLine s c x
      if (l1Find (coreAt t c) line false).isSome then t else lineToLeaf t c x
  let s := put s
  if privateTo s c line then s else dirPut (dirRoom s line) ⟨line, false, true, 0, firstSlot c, 0⟩

/-- Write 16-byte units with their tags for a thread, at its commit, as its stores are: host memory keeps no tags (R100), a non-coherent line
is the core's own (R125), a coherent one becomes the committer's (R317). -/
def pokeUnits (s : State) (c : Nat) (v tags : Nat) : List Seg → State
  | [] => s
  | g :: r =>
    let line := g.p.ia / 128
    let units := g.n / 16
    let kept := if isHost g.p.loc then 0 else tags % 2 ^ units * 2 ^ (g.p.ia % 128 / 16)
    let b : LineBuf := { bufWrite (g.p.ia % 128) g.n v false with tags := BitVec.ofNat 8 kept }
    let home := (g.p.loc / 128 * 128, g.p.key)
    let s := tlbFill s g.p
    let s :=
      if nonCoherentLine (ctxOf s (coreAt s c).owner) line then curePoison (ncPut s c line home b) home.1 b
      else publishLine s c line { Chunk.start Regs.reset with ws := [(line, b)], homes := [(line, home)] }
    pokeUnits (markPage s (g.p.ia / 2 ^ 16) true) c (v / 2 ^ (8 * g.n)) (tags / 2 ^ units) r

/-! ### External effects (R141, R216) -/

/-- What an external effect finds at its commit: it takes place, its condition does not hold yet, or a check before the commit
fails. -/
inductive Effect
  | done (s : State) (v : Option Cap)
  | wait
  | fault (code : Byte) (info : W64)

def Effect.ofAttempt : Attempt State → Effect
  | .ok s => .done s none
  | .error (c, i) => .fault c i

def Effect.ofTake : Attempt (State × Cap) → Effect
  | .ok (s, k) => .done s (some k)
  | .error (c, i) => .fault c i

/-- DQPUSH (R175, R176, R195). -/
def dqpushEffect (s : State) (c l : Nat) (k : Cap) : Effect :=
  let fresh := capOtype k != 3
  let cont := if fresh then sealRecord k else k
  let ctx := (coreAt s c).owner
  match checkRecord s ctx cont with
  | .error (x, i) => .fault x i
  | .ok r =>
    if fresh && recKernel r.flags != (slotAt s c l).kernel then .fault Code.engine 4
    else if !kernelRuns s ctx (recKernel r.flags).toNat then .fault Code.engine 5
    else
      match dequePush s c cont r.flags with
      | .error (x, i) => .fault x i
      | .ok t => .done (if fresh then liveChange t ctx (recKernel r.flags).toNat true else t) none

/-- DQSTEAL (R219). -/
def dqstealEffect (s : State) (c victim : Nat) : Effect :=
  if (coreAt s victim).owner != (coreAt s c).owner then .done s (some Cap.null) else Effect.ofTake (stealTop s victim)

/-- JOIN (R181). A refused push leaves COUNT and GUARD as they were. DESIGN CHOICE: a GUARD that software has stored with another OTYPE than 3 is
pushed as it is, once the record at its decoded base passes (notes/assumptions/54.md). -/
def joinEffect (s : State) (c : Nat) (j : Cap) : Effect :=
  let ctx := (coreAt s c).owner
  let a := (capAddr j).toNat
  match agentRead s ctx a 8, agentReadCap s ctx (a + 16) with
  | .error (x, i), _ => .fault x i
  | _, .error (x, i) => .fault x i
  | .ok n, .ok guard =>
    let count := (BitVec.ofNat 64 n).toInt
    if count ≤ 0 then .done s none
    else
      match agentWrite s ctx a 8 (n - 1) with
      | .error (x, i) => .fault x i
      | .ok t =>
        if count == 1 && guard.tag then
          match checkRecord s ctx guard with
          | .error (x, i) => .fault x i
          | .ok r =>
            if !kernelRuns s ctx (recKernel r.flags).toNat then .fault Code.engine 5
            else
              match dequePush t c guard r.flags with
              | .error (x, i) => .fault x i
              | .ok t => Effect.ofAttempt (agentWriteCap t ctx (a + 16) Cap.null)
        else .done t none

/-- Write the record of SUSPEND (R181). -/
def writeRecord (s : State) (c l : Nat) (r : Regs) (a : Nat) : Attempt State :=
  let ctx := (coreAt s c).owner
  let x := slotAt s c l
  let arg := (capAddr (regsG r 3)).toNat
  let flags := (recFlags x.kernel x.prio).toNat
  match agentWrite s ctx a 64 (arg * 2 ^ 384 + flags * 2 ^ 448) with
  | .error e => .error e
  | .ok s =>
    match agentWriteCap s ctx a (nextPcc r) with
    | .error e => .error e
    | .ok s =>
      match agentWriteCap s ctx (a + 16) (regsG r 8) with
      | .error e => .error e
      | .ok s => agentWriteCap s ctx (a + 32) (regsG r 4)

/-- SUSPEND (R181): the record, then the guard or the push, then the slot is free. The counter is read after the record is written; a push
for a kernel that is not RUNNING is refused (R195). -/
def suspendEffect (s : State) (c l : Nat) (r : Regs) (area : Cap) (j : Option Cap) : Effect :=
  let ctx := (coreAt s c).owner
  let cont := sealRecord area
  let flags := recFlags (slotAt s c l).kernel (slotAt s c l).prio
  let pushed (t : State) : Effect :=
    if !kernelRuns s ctx (slotAt s c l).kernel.toNat then .fault Code.engine 5
    else
      match dequePush t c cont flags with
      | .error (x, i) => .fault x i
      | .ok t => .done (freeSlot t c l) none
  match writeRecord s c l r (capAddr area).toNat with
  | .error (x, i) => .fault x i
  | .ok t =>
    match j with
    | none => pushed t
    | some jc =>
      let a := (capAddr jc).toNat
      match agentRead t ctx a 8, agentReadCap t ctx (a + 16) with
      | .error (x, i), _ => .fault x i
      | _, .error (x, i) => .fault x i
      | .ok n, .ok guard =>
        if (BitVec.ofNat 64 n).toInt ≤ 0 then pushed t
        else if guard.tag then .fault Code.engine 2
        else
          match agentWriteCap t ctx (a + 16) cont with
          | .error (x, i) => .fault x i
          | .ok t => .done (freeSlot t c l) none

/-- END (R181, R195). -/
def endEffect (s : State) (c l : Nat) : State := liveChange (freeSlot s c l) (coreAt s c).owner (slotAt s c l).kernel.toNat false

/-- KLAUNCH (R221). -/
def klaunchEffect (s : State) (c : Nat) (k : Cap) : Effect :=
  let ctx := (coreAt s c).owner
  match readLaunch s ctx (capAddr k).toNat with
  | .error (x, i) => .fault x i
  | .ok r =>
    match doneCheck r.doneCap with
    | some f => .fault f 0
    | none => .done (launch s ctx r) none

/-- An entry placed by a thread at the stamp its chunk takes (R223, R226); during a revocation pass its copies lose painted tags (R107). -/
def placeEntry (s : State) (c l : Nat) (copy : Bool) (program : Option Cap) (word : BitVec 256) (addr : W64) (range : Option Cap) : State :=
  let k := coreAt s c
  let x := slotAt s c l
  let e : Entry :=
    { program := program, word := word, addr := addr, range := range, table := k.engine, core := BitVec.ofNat 10 c, slot := BitVec.ofNat 2 l,
      ctx := k.owner, kernel := x.kernel, stamp := s.stamp, id := entryId s.stamp copy }
  setSlot (pushEntry s (clusterOf c) copy (scrubEntry s e)) c l { x with outstanding := x.outstanding ++ [e.id] }

/-- FORK (R224). -/
def forkEffect (s : State) (c l : Nat) (r : Regs) (a b : Reg) : Effect :=
  let cl := clusterOf c
  if a != 0 && !holdsLease s c then .fault Code.lease 0
  else if (a != 0 && !seqRoom s cl false) || (b != 0 && !seqRoom s cl true) then .wait
  else
    let t := if a != 0 then placeEntry s c l false (some (regsG r a)) 0 0 none else s
    let t := if b != 0 then placeEntry t c l true (some (regsG r b)) 0 0 none else t
    .done t (some (capInt s.stamp))

/-- CMDQ (R225): the word that was read at issue; a matrix word is charged to the lease (R253). -/
def cmdqEffect (s : State) (c l : Nat) (k : Cap) (w : BitVec 256) : Effect :=
  let cl := clusterOf c
  let copy := w.extractLsb' 240 4 == (1 : BitVec 4)
  if !copy && !holdsLease s c then .fault Code.lease 0
  else if !seqRoom s cl copy then .wait
  else
    let t := placeEntry s c l copy none w (capAddr k) none
    .done (if copy then t else leaseCharge t cl c) none

/-- The four tag bits of a message (R228, R229): those of its units that `keep` keeps. -/
def unitTags (keep : Nat → Bool) : Nat := [0, 1, 2, 3].foldl (fun n i => if keep i then n + 2 ^ i else n) 0

/-- EPSEND (R228, R331). -/
def epsendEffect (s : State) (c l : Nat) (h b : Cap) : Effect :=
  let a := (capAddr b).toNat
  if !handleValid s (coreAt s c).owner h then .fault Code.endpoint 0
  else if !canReserve s h then .wait
  else
    match peek s c l a 64 with
    | .error (x, i) => .fault x i
    | .ok v =>
      let keep (i : Nat) : Bool :=
        capHas b Perm.loadCap && (scrubCap s (coreAt s c).owner ⟨peekTag s c l (a + 16 * i), BitVec.ofNat 128 (v / 2 ^ (128 * i))⟩).tag
      .done (sendMessage s c h (BitVec.ofNat 512 v) (BitVec.ofNat 4 (unitTags keep))) none

/-- EPRECV (R229). -/
def eprecvEffect (s : State) (c : Nat) (b : Cap) : Effect :=
  match (coreAt s c).mail with
  | [] => .done s (some Cap.null)
  | m :: _ =>
    match peekSegs s c (capAddr b).toNat 64 false with
    | .error (x, i) => .fault x i
    | .ok g =>
      let unit (i : Nat) : Cap := ⟨m.tags.getLsbD i, m.payload.extractLsb' (128 * i) 128⟩
      let keep (i : Nat) : Bool := (unit i).tag && mayStoreCap b (unit i) && (scrubCap s (coreAt s c).owner (unit i)).tag
      .done (takeMessage (pokeUnits s c m.payload.toNat (unitTags keep) g) c) (some (capInt m.sender))

/-- What SYSS and SYSC write (R231): bits of the register as SYSR reads it. -/
def sysCombine (set_ : Bool) (old a : Cap) : Cap := ⟨false, if set_ then old.img ||| a.img else old.img &&& ~~~ a.img⟩

def syswEffect (s : State) (c l : Nat) (x : BitVec 12) (v : Cap) : Effect := if sysWaits s c x then .wait else .done (sysWrite s c l x v) none

/-- Pages without a cached translation whose lines a context's cores or the bank pool hold for it. -/
def strayPages (s : State) (ctx : BitVec 12) : List Nat :=
  let l1 := s.cores.flatMap fun k => if k.2.owner == ctx then (k.2.l1.filter fun x => !x.nonCoherent).map (·.line / 512) else []
  let bank := s.banks.filterMap fun g => if g.2.owner == ctx then some (g.2.addr / 32) else none
  ((l1 ++ bank).filter fun p => !Tbl.has s.tlb p).foldl NatSet.insert []

/-- The pages that PINV covers (R238): those of the context, or those of the entry that maps the page named. DESIGN CHOICE: pages whose OWNER
is 0xfff are covered for every context (notes/assumptions/56.md). -/
def pinvPages (s : State) (ctx : BitVec 12) (a : W64) : Nat → Bool :=
  if a.getLsbD 0 then
    let stray := strayPages s ctx
    fun p =>
      match Tbl.find s.tlb p with
      | some (l, _, _) => leafOwner l == ctx || leafOwner l == 0xfff
      | none => stray.contains p
  else
    let page := a.toNat / 2 ^ 16 % 2 ^ 32
    match Tbl.find s.tlb page with
    | some (_, e, _) => fun p => p == page || ((Tbl.find s.tlb p).map (·.2.1)) == some e
    | none =>
      let large := (match walk s (page * 2 ^ 16) with | .leaf _ _ g => g | _ => false) || s.tlb.any fun t => t.2.2.2 && t.1 / 512 == page / 512
      fun p => if large then p / 512 == page / 512 else p == page

/-- A chunk has accessed one of some pages. -/
def touchesPage (k : Chunk) (inPage : Nat → Bool) : Bool := (k.pages.any fun p => inPage p.1) || (k.reads ++ k.writes).any fun l => inPage (l / 512)

/-- PINV waits for a pinned chunk that has read through a translation which it drops: nothing may squash it (R151; notes/assumptions/56.md). -/
def pinvWaits (s : State) (c l : Nat) (inPage : Nat → Bool) : Bool :=
  s.cores.any fun k => k.2.slots.any fun x => x.2.pin && !(k.1 == c && x.1 == l) &&
    (touchesPage x.2.cur inPage || match x.2.older with | some o => touchesPage o inPage | none => false)

/-- PINV (R238, R286, R288): chunks that have accessed the pages start again, coherent copies of the pages' lines go home, and then the
translations go, with what the home slice holds of the pages' classification. -/
def pinvState (s : State) (inPage : Nat → Bool) : State :=
  let s := s.cores.foldl (fun s k => [0, 1, 2, 3].foldl (fun s l => squashIf s k.1 l fun o => touchesPage o inPage) s) s
  { homePages s inPage with tlb := s.tlb.filter fun t => !inPage t.1, shared := s.shared.filter fun p => !inPage p }

def pinvEffect (s : State) (c l : Nat) (ctx : BitVec 12) (a : W64) : Effect :=
  let inPage := pinvPages s ctx a
  if pinvWaits s c l inPage then .wait else .done (pinvState s inPage) none

/-- The result of an AMO operation on n bytes (R132). -/
def amoResult (op : AmoOp) (n old x : Nat) : Nat :=
  let w := 8 * n
  let so := signedOf w old
  let sx := signedOf w (x % 2 ^ w)
  let ux := x % 2 ^ w
  (match op with
   | .add => old + ux
   | .and => Nat.land old ux
   | .or => Nat.lor old ux
   | .xor => Nat.xor old ux
   | .min => if so < sx then old else ux
   | .max => if so < sx then ux else old
   | .minu => min old ux
   | .maxu => max old ux
   | .swap => ux) % 2 ^ w

/-- An old value as an atomic writes it to gd (R132). -/
def amoOld (n old : Nat) : Cap := capInt (if n == 4 then (BitVec.ofNat 32 old).signExtend 64 else BitVec.ofNat 64 old)

/-- RAMO's write at the port: the line stays at its home. A PRIVATE page of another core gives up its lines first (R153). -/
def ramoPut (s : State) (c v : Nat) (g : Seg) : State :=
  let s := tlbFill (if privateOwner s g.p == some c then s else enginePage s g.p) g.p
  markPage (writeHome s g.p (bufWrite (g.p.ia % 128) g.n v false)) (g.p.ia / 2 ^ 16) true

/-- RAMO at the port of the named cluster (R135). -/
def ramoEffect (s : State) (c : Nat) (a b : Cap) (op : AmoOp) (n : Nat) : Effect :=
  match peekSegs s c (capAddr a).toNat n true with
  | .error (x, i) => .fault x i
  | .ok g =>
    let old := agentBytes s g
    let t := g.foldl (fun s g => ramoPut s c (amoResult op n old (capAddr b).toNat) g) s
    let t := t.cores.foldl (fun s k => if k.1 == c then s else testCore s k.1 (segLines g)) t
    .done t (some (amoOld n old))

/-- A scalar access that may be uncached: its bytes, whether it sign-extends, and whether it stores. -/
def scalarForm : Instr → Option (Nat × Bool × Option Reg × Reg × BitVec 15)
  | .lb _ _ a i => some (1, true, none, a, i)
  | .lbu _ _ a i => some (1, false, none, a, i)
  | .lh _ _ a i => some (2, true, none, a, i)
  | .lhu _ _ a i => some (2, false, none, a, i)
  | .lw _ _ a i => some (4, true, none, a, i)
  | .lwu _ _ a i => some (4, false, none, a, i)
  | .ld _ _ a i => some (8, false, none, a, i)
  | .sb _ d a i => some (1, false, some d, a, i)
  | .sh _ d a i => some (2, false, some d, a, i)
  | .sw _ d a i => some (4, false, some d, a, i)
  | .sd _ d a i => some (8, false, some d, a, i)
  | _ => none

/-- n loaded bytes as gd takes them (R121). -/
def loadExtend (n : Nat) (sext : Bool) (v : Nat) : W64 :=
  if sext then BitVec.ofInt 64 (signedOf (8 * n) (v % 2 ^ (8 * n))) else BitVec.ofNat 64 (v % 2 ^ (8 * n))

/-- An uncached access at its target (R126): a device register answers at once; the host answers, or acknowledges, by UNCACHED_ANSWER. It
sets the page's A and D bits (R284). A target that its page no longer maps uncached at the commit is accessed at its home. -/
def uncachedEffect (s : State) (c l : Nat) (r : Regs) (i : Instr) : Effect :=
  match scalarForm i with
  | none => .done s none
  | some (n, sext, src, a, off) =>
    let va := effAddr (regsG r a) off
    match transVa s (coreAt s c).owner (.core c) va with
    | .fault x ia => .fault Code.mapFault (mapInfo x ia)
    | .poisoned _ => .fault Code.poison 0
    | .ok p =>
      let g : Seg := ⟨va, n, p⟩
      let t := markPage (tlbFill s p) (p.ia / 2 ^ 16) src.isSome
      match src with
      | some d =>
        let v := (capAddr (regsG r d)).toNat
        if !p.uncached then .done ((segLines [g]).foldl (fun s x => s.cores.foldl (fun s k => testCore s k.1 [x]) s) (agentPut s v [g])) none
        else if isHost p.loc then .done (updCore t c fun k => { k with ioStores := k.ioStores ++ [⟨l, p.loc, n, BitVec.ofNat 64 v⟩] }) none
        else .done (apertureWrite t (p.loc - 0xf00000000000) n v) none
      | none =>
        if !p.uncached then .done t (some (capInt (loadExtend n sext (agentBytes s [g]))))
        else if isHost p.loc then .done t none
        else .done t (some (capInt (loadExtend n sext (apertureRead s (p.loc - 0xf00000000000) n))))

/-- A chunk's load waits for the host (R126). -/
def hostLoad (s : State) (c : Nat) (r : Regs) (i : Instr) : Bool :=
  match scalarForm i with
  | some (_, _, none, a, off) =>
    (match transVa s (coreAt s c).owner (.core c) (effAddr (regsG r a) off) with
     | .ok p => p.uncached && isHost p.loc
     | _ => false)
  | _ => false

/-- PFRANGE's command word (R312). -/
def pfrangeWord (b : W64) : BitVec 256 :=
  let flags : BitVec 16 := (if b.getLsbD 39 then 1 else 0) ||| (if b.getLsbD 38 then 4 else 0)
  commandWord 0x26 1 flags 0 0 ((b.extractLsb' 32 6).setWidth 32) (b.extractLsb' 0 32) 0 0 (((b.extractLsb' 40 3).setWidth 32) <<< 8)

/-- PFRANGE (R312): nonzero reserved bits of gb stand in the entry's word where they fail check 3 of R63. -/
def pfrangeEffect (s : State) (c l : Nat) (a b : Cap) : Effect :=
  if !seqRoom s (clusterOf c) true then .wait
  else
    let bad : BitVec 256 := if (capAddr b).extractLsb' 43 21 == 0 then 0 else 1#256 <<< 32
    .done (placeEntry s c l true none (pfrangeWord (capAddr b) ||| bad) (capAddr a) (some a)) (some (capInt s.stamp))

/-- A VC instruction that reads a mask (R308). -/
def maskEffect (s : State) (c l : Nat) (mask : Cap) (f : Nat → State × W64) : Effect :=
  match peek s c l (capAddr mask).toNat 192 with
  | .error (x, i) => .fault x i
  | .ok v => let r := f v; .done r.1 (some (capInt r.2))

def wordEffect (r : State × W64) : Effect := .done r.1 (some (capInt r.2))

/-- The external effect of a chunk-ending instruction, with its operands as its chunk `o` started (R141). -/
def commitEffect (s : State) (c l : Nat) (o : Chunk) (i : Instr) : Effect :=
  let ctx := (coreAt s c).owner
  let r := o.check
  let g := regsG r
  match i with
  | .arrive _ ch => .done (arriveAt s c ch.toNat) none
  | .wait _ ch => if waitOpen s c ch.toNat then .done s none else .wait
  | .dqpush _ a => dqpushEffect s c l (g a)
  | .dqpop _ _ => Effect.ofTake (popBottom s c)
  | .dqsteal _ _ v => dqstealEffect s c v.toNat
  | .join _ a => joinEffect s c (g a)
  | .suspend _ a b => suspendEffect s c l r (g a) (if b = 0 then none else some (g b))
  | .endThread _ => .done (endEffect s c l) none
  | .klaunch _ a => klaunchEffect s c (g a)
  | .fork _ _ a b => forkEffect s c l r a b
  | .rndz _ => if (slotAt s c l).outstanding.isEmpty then .done s none else .wait
  | .cmdq _ a => cmdqEffect s c l (g a) o.word
  | .mlease _ => if holdsLease s c then .done s none else .wait
  | .mfree _ => .done (if holdsLease s c then leaseRelease s (clusterOf c) else s) none
  | .epsend _ a b => epsendEffect s c l (g a) (g b)
  | .eprecv _ _ a => eprecvEffect s c (g a)
  | .trap _ code => .done (freezeOrHold s c (packetOf s c l 0 Code.trap (capAddr r.pcc) (wordOf i) (code.setWidth 64))) none
  | .snap _ => .done (armSnapshot s (s.time + 4096) 0) none
  | .pinv _ a => pinvEffect s c l ctx (capAddr (g a))
  | .fenceXp _ => if (coreAt s c).cmos.isEmpty then .done (writeNonCoherent s c true) none else .wait
  | .fenceIo _ => if (coreAt s c).cmos.isEmpty && !((coreAt s c).ioStores.any fun x => x.slot == l) then .done s none else .wait
  | .sysw _ x a => syswEffect s c l x (g a)
  | .syss _ x a => syswEffect s c l x (sysCombine true (sysRead s c l x) (g a))
  | .sysc _ x a => syswEffect s c l x (sysCombine false (sysRead s c l x) (g a))
  | .vcdef _ _ a b => maskEffect s c l (g b) (vcdefEffect s ctx (capAddr (g a)))
  | .vcreshape _ _ a b => maskEffect s c l (g b) (vcreshapeEffect s ctx (capAddr (g a)))
  | .vcbind _ _ a b => wordEffect (vcbindEffect s ctx (g a) (capAddr (g b)))
  | .vcreparent _ _ a b => wordEffect (vcreparentEffect s ctx (g a) (capAddr (g b)))
  | .vcfree _ _ a => wordEffect (vcfreeEffect s ctx (capAddr (g a)))
  | .pfrange _ _ a b => pfrangeEffect s c l (g a) (g b)
  | .ramo _ d a _ op dbl => ramoEffect s c (g a) (g d) op (if dbl then 8 else 4)
  | i => uncachedEffect s c l r i

/-! ### What an effect touches (R179, R228, R229) -/

/-- The record behind a continuation, and the entry that a push of it writes. -/
def pushExtents (s : State) (c : Nat) (k : Cap) : List Extent :=
  ⟨(capDecode k).1, 64, false⟩ ::
    match readRecord s (coreAt s c).owner (capDecode k).1 with
    | .ok r => [⟨pushSpot s c r.flags, 16, true⟩]
    | .error _ => []

/-- A join counter as JOIN and SUSPEND find it: COUNT and GUARD; none when it cannot be read. -/
def counterAt (s : State) (ctx : BitVec 12) (a : Nat) : Option (Int × Cap) :=
  match agentRead s ctx a 8, agentReadCap s ctx (a + 16) with
  | .ok n, .ok guard => some ((BitVec.ofNat 64 n).toInt, guard)
  | _, _ => none

/-- What JOIN reads and writes. -/
def joinExtents (s : State) (c a : Nat) : List Extent :=
  match counterAt s (coreAt s c).owner a with
  | none => []
  | some (n, guard) =>
    if n ≤ 0 then [⟨a, 32, false⟩] else ⟨a, 32, true⟩ :: if n == 1 && guard.tag then pushExtents s c guard else []

/-- What SUSPEND reads and writes: its record first, then the counter as it stands after that. -/
def suspendExtents (s : State) (c l : Nat) (r : Regs) (a : Nat) (j : Option Nat) : List Extent :=
  let x := slotAt s c l
  let t := match writeRecord s c l r a with | .ok t => t | .error _ => s
  let push : List Extent := [⟨pushSpot s c (recFlags x.kernel x.prio), 16, true⟩]
  ⟨a, 64, true⟩ ::
    match j with
    | none => push
    | some b =>
      match counterAt t (coreAt s c).owner b with
      | none => []
      | some (n, _) => if n ≤ 0 then ⟨b, 32, false⟩ :: push else [⟨b, 32, true⟩]

/-- The ranges that the external effect of an instruction reads and writes at the commit. -/
def effectExtents (s : State) (c l : Nat) (r : Regs) (i : Instr) : List Extent :=
  let ctx := (coreAt s c).owner
  let k := coreAt s c
  let at_ (n : Reg) : Nat := (capAddr (regsG r n)).toNat
  match i with
  | .dqpush _ a => pushExtents s c (if capOtype (regsG r a) != 3 then sealRecord (regsG r a) else regsG r a)
  | .dqpop _ _ => if dequeCount k == 0 then [] else [⟨bottomSpot k, 16, false⟩]
  | .dqsteal _ _ v =>
    let q := coreAt s v.toNat
    if q.owner != k.owner || dequeCount q == 0 then [] else [⟨topSpot q, 16, false⟩]
  | .join _ a => joinExtents s c (at_ a)
  | .suspend _ a b => suspendExtents s c l r (at_ a) (if b = 0 then none else some (at_ b))
  | .endThread _ =>
    let id := (slotAt s c l).kernel.toNat
    (match kernelAt s ctx id with
     | some q => if q.live ≤ 1 then blockExtents s ctx id else []
     | none => [])
  | .klaunch _ a =>
    ⟨at_ a, 96, false⟩ ::
      (match readLaunch s ctx (at_ a) with
       | .ok q => launchExtents s ctx q
       | .error _ => [])
  | .epsend _ _ b => [⟨at_ b, 64, false⟩]
  | .eprecv _ _ a => if k.mail.isEmpty then [] else [⟨at_ a, 64, true⟩]
  | .vcdef _ _ _ b => [⟨at_ b, 192, false⟩]
  | .vcreshape _ _ _ b => [⟨at_ b, 192, false⟩]
  | .sysw _ x a => if x == 0x021 then blockExtents s ctx (at_ a % 2 ^ 16) else []
  | _ => []

/-- The core itself makes these accesses, and their misses count (R291). -/
def coreAccess (i : Instr) : Bool :=
  match i with
  | .epsend .. | .eprecv .. | .vcdef .. | .vcreshape .. => true
  | _ => false

/-- A chunk with what its effect will access: its lines in the signatures (R179, R228, R229), its pages and its misses. -/
def withEffect (s : State) (c l : Nat) (o : Chunk) : Chunk :=
  match o.effect with
  | none => o
  | some i =>
    let ctx := (coreAt s c).owner
    let xs := effectExtents s c l o.check i
    let segs := xs.flatMap fun x => (extentSegs s ctx x).map fun g => (g, x.write)
    let missed (g : Seg) : Bool := coreAccess i && leafAci g.p.leaf != 0 && !(coreAt s c).l1.any fun x => x.line == g.p.ia / 128
    { o with
      reads := (extentLines s ctx xs false).foldl NatSet.insert o.reads, writes := (extentLines s ctx xs true).foldl NatSet.insert o.writes,
      pages := segs.foldl (fun t g => Tbl.set t (g.1.p.ia / 2 ^ 16) (g.2 || Tbl.get false t (g.1.p.ia / 2 ^ 16))) o.pages,
      misses := o.misses ++ segs.filterMap fun g => if missed g.1 then some (g.1.p.ia / 2 ^ 16) else none }

/-! ### The arbiter (R147) -/

/-- A registered chunk that holds a request back: each whose signatures meet its write signature, but for a pinned request only one that
was registered before or has started (R151, R152). -/
def registeredHolds (s : State) (c l : Nat) (o : Chunk) : Bool :=
  let meets (q : Registered) : Bool := intersects o.writes q.reads || intersects o.writes q.writes
  if (slotAt s c l).pin then
    (registeredBefore s (.pinned c l)).any meets || s.registered.any fun q => q.owner != .pinned c l && q.started && meets q
  else s.registered.any fun q => q.owner != .pinned c l && meets q

/-- No COMMITTING chunk's write signature meets the request's signatures, and no registered signature meets its write signature. -/
def arbiterFree (s : State) (c l : Nat) (o : Chunk) : Bool :=
  !(s.cores.any fun k => k.2.slots.any fun x =>
      match x.2.older with
      | some q => q.status == .committing && (k.1 != c || x.1 != l) && (intersects o.writes q.writes || intersects o.reads q.writes)
      | none => false) &&
    !registeredHolds s c l o

/-- The non-coherent lines that a commit writes or discards (R125, R129): those of the chunk's own stores and discards, and of an effect by
which the core itself stores. -/
def ncWrites (s : State) (c l : Nat) (o : Chunk) : List Nat :=
  let ctx := (coreAt s c).owner
  let xs : List Extent :=
    match o.effect with
    | some i => if coreAccess i then (effectExtents s c l o.check i).filter (·.write) else []
    | none => []
  (o.nws.map (·.1)) ++ o.ncDiscards ++
    (xs.flatMap fun x => (extentSegs s ctx x).map fun g => g.p.ia / 128).filter (nonCoherentLine (ctxOf s ctx))

/-- A chunk of a core's other slots has read, by an atomic, a non-coherent line that a commit is about to write (R125). -/
def atomicsMeet (lines : List Nat) (k : Chunk) : Bool := lines.any k.ncAtomics.contains

/-- A pinned one holds the writer back (R125, R151). -/
def atomicHeld (s : State) (c l : Nat) (o : Chunk) : Bool :=
  let lines := ncWrites s c l o
  (coreAt s c).slots.any fun x =>
    x.1 != l && x.2.pin && (atomicsMeet lines x.2.cur || match x.2.older with | some q => atomicsMeet lines q | none => false)

/-- The lines that an effect adds to a chunk's own. -/
def addedLines (o o' : Chunk) : List Nat := (o'.reads ++ o'.writes).filter fun l => !(o.reads ++ o.writes).contains l

/-- What the host must give up first (R343): written lines that it caches. -/
def hostInvs (s : State) (o' : Chunk) : List Nat := o'.writes.filter fun l => Tbl.get 0 s.hostHolds l != 0

/-- Lines of the effect whose data the host must give. -/
def hostDatas (s : State) (o o' : Chunk) : List Nat :=
  (addedLines o o').filter fun l => match linePlace s l with | some p => hostMust s p | none => false

/-- All of it has been asked for. -/
def hostAsked (s : State) (o o' : Chunk) : Bool := (hostInvs s o').all s.bisnpInv.contains && (hostDatas s o o').all s.bisnp.contains

/-- A line of the effect lies in a page whose bias is being flipped (R294), or that is PRIVATE to another core which runs pinned (R151), is
another module's (R348), or, for a pinned chunk, is about to be written by an engine's (R152). -/
def effectHeld (s : State) (c l : Nat) (o o' : Chunk) : Bool :=
  (addedLines o o').any fun x =>
    heldFor s (pinOwner s c l) (x * 128) || remoteMust s x || pinWaits s c l x ||
      match linePlace s x with
      | some p => ownerPinned s p && !(slotAt s c l).pin && (privateOwner s p != some c || !(o.effect.map coreAccess).getD true)
      | none => false

/-- Pages of an effect that are PRIVATE are given up by their owner first (R153): another core, or, for an access of the sync engine, whichever
core owns them (R288). Its chunks that hold a line which the effect writes are squashed with this. -/
def effectPages (s : State) (c : Nat) (i : Instr) (xs : List Extent) : State :=
  let ctx := (coreAt s c).owner
  let give (s : State) (write : Bool) (g : Seg) : State :=
    match privateOwner s g.p with
    | none => s
    | some o =>
      if (coreAccess i && o == c) || nonCoherentLine (ctxOf s ctx) (g.p.ia / 128) then s
      else
        let t := unprivate s o g.p
        let t := if write && o != c then testCore t o [g.p.ia / 128] else t
        if coreAccess i then t else recordShared t (g.p.ia / 2 ^ 16) none
  xs.foldl (fun s x => (extentSegs s ctx x).foldl (fun s g => give s x.write g) s) s

/-- Where an ENDED chunk stands. -/
inductive CommitState
  | none
  | blocked
  | asks (inv data : List Nat)
  | rejected (i : Instr) (code : Byte) (info : W64)
  | ready (s : State) (v : Option Cap)

/-- Ask whether the older chunk of a slot can take a stamp now. -/
def commitState (s : State) (c l : Nat) : CommitState :=
  match (slotAt s c l).older with
  | none => .none
  | some o =>
    let o' := withEffect s c l o
    if o.status != .ended then .none
    else if (coreAt s c).stopped || !ctxRuns s (coreAt s c).owner || !arbiterFree s c l o' || atomicHeld s c l o || effectHeld s c l o o' then .blocked
    else if !(hostInvs s o' ++ hostDatas s o o').isEmpty then
      (if hostAsked s o o' then .blocked else .asks (hostInvs s o') (hostDatas s o o'))
    else
      match o.effect with
      | none => .ready s none
      | some i =>
        let s := effectPages s c i (effectExtents s c l o.check i)
        match commitEffect (setSlot s c l { slotAt s c l with older := some { o with status := .committing } }) c l o i with
        | .done t v => .ready t v
        | .wait => .blocked
        | .fault x w => .rejected i x w

/-- A request that the arbiter could answer now, with a stamp or by its rejection. -/
def grantable (s : State) (n : Nat) : Bool :=
  match commitState s (n / 4) (n % 4) with
  | .ready _ _ => true
  | .rejected _ _ _ => true
  | _ => false

/-- A waiting request that arrived before this slot's could be answered now: requests are retried in arrival order (R147). -/
def earlierGrantable (s : State) (c l : Nat) : Bool := (s.requests.takeWhile fun n => n != 4 * c + l).any (grantable s)

/-- A request that cannot be answered waits in its place. -/
def enqueueRequest (s : State) (c l : Nat) : State :=
  if s.requests.contains (4 * c + l) then s else { s with requests := s.requests ++ [4 * c + l] }

/-! ### What a commit writes -/

/-- Discard a line (R129): no L1 keeps it, and the leaf of the issuing path loses its pieces; it stays listed for younger chunks that have it
in their sets (R149). -/
def discardLine (s : State) (ctx : BitVec 12) (line : Nat) : State :=
  let s := dropCopies s line
  let c := ctxOf s (lineCtx s ctx line)
  let drop (s : State) (ia : Nat) : State :=
    match pathOf c ia with
    | v :: _ =>
      (match findWay s (waysOf s c v ia) ia with
       | some k => clearPiece s k (ia / 64 % 32)
       | none => (match oldWay s c v ia with | some k => clearPiece s k (ia / 64 % 32) | none => s))
    | [] => s
  dirRelist (drop (drop s (line * 128)) (line * 128 + 64)) line

/-- The lines that a chunk's commit makes the committer's: all it has written but those it has discarded and not stored to since. The line
of a CASC that did not store is one of them (R134, R317). -/
def publishedLines (o : Chunk) : List Nat :=
  if o.effect.isSome then [] else o.writes.filter fun l => Tbl.has o.ws l || !o.discards.contains l

/-- A non-coherent line of a chunk (R125). -/
def publishNc (s : State) (c line : Nat) (o : Chunk) : State :=
  let b := Tbl.get LineBuf.empty o.nws line
  let p := match l1Find (coreAt s c) line true with
    | some x => (x.loc, x.key)
    | none => writtenPlace s c line o
  curePoison (ncPut s c line p b) p.1 b

/-- A non-coherent DISCARD at the commit (R129): the core's copy goes, and when later stores of the chunk apply to the line it is read
afresh from its home. -/
def discardNc (s : State) (c line : Nat) (again : Bool) : State :=
  let fresh (x : L1Line) : L1Line :=
    let h := homeOf s (coreAt s c).owner x
    let v := homeLine s h.2 (line * 128) h.1
    { x with dirty := false, data := v.data, tags := v.tags, loc := h.1, key := h.2 }
  updCore s c fun k =>
    { k with l1 := if again then k.l1.map fun x => if x.line == line && x.nonCoherent then fresh x else x
                   else k.l1.filter fun x => !(x.line == line && x.nonCoherent) }

/-- Another agent holds a line of an entry's page, or has one in an active or registered chunk (R288). -/
def othersHold (s : State) (c page : Nat) (large : Bool) : Bool :=
  let mine (line : Nat) : Bool := entryPage (line / 512) large == entryPage page large
  (s.cores.any fun k => k.1 != c && ((k.2.l1.any fun x => !x.nonCoherent && mine x.line) || (activeLines k.2).any mine || k.2.code.any mine)) ||
    (s.hostHolds.any fun h => mine h.1 && h.2 != 0) || (s.remoteHolds.any fun h => mine h.1 && !h.2.isEmpty) ||
    s.registered.any fun r => (match r.owner with
      | .mldw _ | .matrix _ | .copy _ => true
      | _ => false) && (r.reads ++ r.writes).any mine

/-- Classification at a commit of core c (R288). -/
def classify (s : State) (c page : Nat) : State :=
  match leafAt s (page * 2 ^ 16) with
  | none => s
  | some (l, e, g) =>
    if leafCls l == 0 then
      if othersHold s c page g then editLeaf s e (fun l => leafSetClass l 2 0)
      else
        let s := editLeaf s e (fun l => leafSetClass l 1 (BitVec.ofNat 10 c))
        { s with dies := Tbl.mapVal s.dies fun _ d =>
            { d with directory := d.directory.filter fun x => entryPage (x.line / 512) g != entryPage page g } }
    else recordShared s page (some c)

/-- The pages of a chunk's coherent lines and of its instructions. -/
def chunkPages (o : Chunk) : List Nat := (o.reads ++ o.writes).foldl (fun l x => NatSet.insert l (x / 512)) o.fetched

/-- Fill the first entry of a pending list that lacks its value. -/
def fillPending (v : Cap) : List Pend → List Pend
  | [] => []
  | .g d none :: r => .g d (some v) :: r
  | p :: r => p :: fillPending v r

/-- What a commit brings to memory: the chunk's discards and stores (R125, R129, R155). -/
def publishData (s : State) (c : Nat) (o : Chunk) : State :=
  let ctx := (coreAt s c).owner
  let s := if o.writes.isEmpty then s else codeDrop s o.writes.contains
  let s := o.discards.foldl (fun s l => discardLine s ctx l) s
  let s := o.ncDiscards.foldl (fun s l => discardNc s c l (Tbl.has o.nws l)) s
  let s := (publishedLines o).foldl (fun s l => publishLine s c l o) s
  let s := { s with remoteHolds := s.remoteHolds.filter fun h => !o.writes.contains h.1 }
  o.nws.foldl (fun s w => publishNc s c w.1 o) s

/-- What a commit brings to the page table (R284, R288, R291). -/
def publishPages (s : State) (c : Nat) (o : Chunk) : State :=
  let s := o.pages.foldl (fun s p => markPage s p.1 p.2) s
  let s := o.fetched.foldl (fun s p => markPage s p false) s
  let s := (chunkPages o).foldl (fun s p => classify s c p) s
  o.misses.foldl (fun s p => countMiss s p false) s

/-- Everything but the effect that a commit brings to memory, the page table and the core. -/
def publish (s : State) (c : Nat) (o : Chunk) : State :=
  let ctx := (coreAt s c).owner
  let s := publishPages (publishData s c o) c o
  updCore s c fun k => { k with engine := o.ecset.foldl (fun t e => Tbl.set t e.1 (scrubCap s ctx e.2)) k.engine, cmos := k.cmos ++ o.cmos }

/-- The token among the acknowledgements that stands for an uncached target's answer. -/
def targetAck : Nat := 1

/-- The cores whose acknowledgement a commit awaits (R317). -/
def commitAcks (s : State) (c : Nat) (o : Chunk) : List Nat :=
  (o.writes.foldl (fun l x => (dirCores s x).foldl (fun l k => if k == c then l else NatSet.insert l (4 * k)) l) [])

/-- The stepped slot has completed its step (R359). -/
def stepDone (s : State) (c l : Nat) (o : Chunk) : State :=
  let k := coreAt s c
  if k.stepping == some (BitVec.ofNat 2 l) && !o.beforeStep && !k.frozen then
    freeze s c (packetOf s c l 0 Code.step (capAddr (slotAt s c l).regs.pcc) 0 0)
  else s

/-- The machine once a chunk has its stamp: the request is answered, and what the host has answered for its lines is used up. -/
def takeStamp (s : State) (c l : Nat) (o : Chunk) : State :=
  { dropRequest s c l with stamp := s.stamp + 1, answered := s.answered.filter fun x => !(o.reads ++ o.writes).contains x }

/-- A granted chunk: the stamp, its writes, its own core's other slots tested, and the acknowledgements it awaits. `o` is the chunk with
what its effect accesses. -/
def grant (s0 s : State) (c l : Nat) (o : Chunk) (v : Option Cap) : State :=
  let stamp := s0.stamp
  let s := takeStamp s c l o
  let x := slotAt s c l
  if !x.busy then stepDone (bump (bump (publishPages (setSlot s c l Slot.reset) c o) (clusterOf c) 0 o.count) (clusterOf c) 1 1) c l o
  else
    let acks := commitAcks s0 c o ++ (match o.effect with
      | some i => if hostLoad s0 c o.check i then [targetAck] else []
      | none => [])
    let regs := match v with
      | some k => { x.regs with pending := fillPending (scrubCap s (coreAt s c).owner k) x.regs.pending }
      | none => x.regs
    let cur := if o.effect.isSome then Chunk.start regs else x.cur
    let s := setSlot s c l { x with regs := regs, cur := cur, older := some { o with status := .committing, stamp := stamp, acks := acks } }
    let s := plazaInvalidate (publish s c o) ((commitAcks s0 c o).map (· / 4))
    [0, 1, 2, 3].foldl (fun s j => if j == l then s else squashIf (testSlot s c j o.writes) c j (atomicsMeet (ncWrites s0 c l o))) s

/-- The walks of an effect that fails a check of translation or meets POISON (R370). -/
def effectWalked (s : State) (c l : Nat) (o : Chunk) (i : Instr) (code : Byte) : State :=
  if code == Code.mapFault || code == Code.poison then
    walkParts s (coreAt s c).owner (if coreAccess i then .core c else .outside)
      ((effectExtents s c l o.check i).flatMap fun x => lineParts x.base x.len (x.len / 128 + 2))
  else s

/-- A chunk whose effect fails a check before its commit is discarded, and the core freezes at the instruction (R216). -/
def reject (s : State) (c l : Nat) (o : Chunk) (i : Instr) (code : Byte) (info : W64) : State :=
  let s := effectWalked s c l o i code
  let x := slotAt s c l
  let s := setSlot (dropRequest s c l) c l { restartFrom x o.check with older := none }
  freeze s c (packetOf s c l 0 code (capAddr o.check.pcc) (wordOf i) info)

/-! ### Acknowledgements and completion -/

/-- A core receives the write signature of a COMMITTING chunk (R148). -/
def invalidate (s : State) (k c l : Nat) : State :=
  match (slotAt s c l).older with
  | none => s
  | some o =>
    if o.status == .committing && o.acks.contains (4 * k) then
      let s := testCore s k o.writes
      let s := updCore s k fun q => { q with l1 := q.l1.filter fun x => x.nonCoherent || x.dirty || !o.writes.contains x.line }
      let x := slotAt s c l
      setSlot s c l { x with older := some { o with acks := o.acks.filter (· != 4 * k) } }
    else s

/-- A COMMITTING chunk with every acknowledgement is COMMITTED (R148): the count of squashes clears, a pinned run is over, the
younger chunk that has ended takes its place, and a waiting park whose values are there takes place. -/
def complete (s : State) (c l : Nat) : State :=
  match (slotAt s c l).older with
  | none => s
  | some o =>
    if o.status == .committing && o.acks.isEmpty then
      let x := slotAt s c l
      let s := if x.pin then unregister { s with pinned := none } (.pinned c l) else s
      let y := settle { x with older := none, commitStamp := o.stamp, pin := false }
      let y := if y.parked then parkSlot y else y
      let y := if y.cur.count == 0 && y.cur.status == .executing then { y with cur := { Chunk.start y.regs with squashes := y.cur.squashes } } else y
      let y := if x.busy then y else Slot.reset
      let s := bump (bump (setSlot s c l y) (clusterOf c) 0 o.count) (clusterOf c) 1 1
      stepDone s c l o
    else s

/-- The acknowledgements of a COMMITTING chunk, all at once. -/
def drive (s : State) (c l : Nat) : State :=
  match (slotAt s c l).older with
  | none => s
  | some o => complete (o.acks.foldl (fun s k => if k == targetAck then s else invalidate s (k / 4) c l) s) c l

/-- The arbiter answers a request, whatever waits before it. -/
def commitNow (s : State) (c l : Nat) : State :=
  match commitState s c l, (slotAt s c l).older with
  | .asks inv data, _ => askLines (askInv (enqueueRequest s c l) inv) data
  | .rejected i code info, some o => reject s c l o i code info
  | .ready t v, some o => let t := grant s t c l (withEffect s c l o) v; if s.eager then drive t c l else t
  | .blocked, _ => enqueueRequest s c l
  | _, _ => s

/-- The older chunk of a slot asks for its stamp (R146, R147): behind requests that arrived before and can be answered it waits. -/
def tryCommit (s : State) (c l : Nat) : State :=
  if earlierGrantable s c l && (match commitState s c l with | .none => false | _ => true) then enqueueRequest s c l else commitNow s c l

/-- A commit request would be answered now. -/
def commitDue (s : State) (c l : Nat) : Bool :=
  (match commitState s c l with
   | .none => false
   | .blocked => false
   | _ => true) && !earlierGrantable s c l

/-! ### Events -/

/-- COMMIT (R147). -/
def execCommit (c : Coord) (sl : BitVec 2) (s : State) : Outcome := .next (tryCommit s c.toNat sl.toNat)

/-- INVALIDATION (R148). -/
def execInvalidation (c from_ : Coord) (fromSlot : BitVec 2) (s : State) : Outcome := .next (invalidate s c.toNat from_.toNat fromSlot.toNat)

/-- COMMIT_COMPLETE (R148). -/
def execCommitComplete (c : Coord) (sl : BitVec 2) (s : State) : Outcome := .next (complete s c.toNat sl.toNat)

/-- The oldest uncached store of a slot is acknowledged: its bytes have reached their target (R126, R131). -/
def storeAnswered (s : State) (c l : Nat) : State :=
  match (coreAt s c).ioStores.find? fun x => x.slot == l with
  | none => s
  | some x => updCore { s with mem := memPut s.mem x.key x.data.toNat x.size } c fun k => { k with ioStores := k.ioStores.erase x }

/-- UNCACHED_ANSWER (R126): a load's value, or the acknowledgement of a store (R131). -/
def uncachedAnswer (s : State) (c l : Nat) (value : W64) : State :=
  let x := slotAt s c l
  match x.older with
  | some o =>
    if o.status == .committing && o.acks.contains targetAck then
      let v :=
        match o.effect with
        | some i =>
          (match scalarForm i with
           | some (n, sext, _, _, _) => loadExtend n sext value.toNat
           | none => value)
        | none => value
      let regs := { x.regs with pending := fillPending (capInt v) x.regs.pending }
      complete (setSlot s c l { x with regs := regs, cur := Chunk.start regs, older := some { o with acks := o.acks.filter (· != targetAck) } }) c l
    else storeAnswered s c l
  | none => storeAnswered s c l

def execUncachedAnswer (c : Coord) (sl : BitVec 2) (value : W64) (s : State) : Outcome := .next (uncachedAnswer s c.toNat sl.toNat value)

/-- EVICTION_NOTICE (R149, R318): a notice that a core has deferred reaches the directory. -/
def execEvictionNotice (c : Coord) (line : Line) (s : State) : Outcome :=
  let k := coreAt s c.toNat
  if k.notices.contains line.toNat && !(activeLines k).contains line.toNat then
    let s := updCore s c.toNat fun k => { k with notices := NatSet.erase k.notices line.toNat }
    .next (if (l1Find k line.toNat false).isSome then s else dirLeave s line.toNat c.toNat)
  else .next s

/-- The thread that starts pinned next: the first in arrival order, of those whose cores run, while none runs pinned (R151, R336, R354). -/
def pinDue (s : State) (c l : Nat) : Bool :=
  match (slotAt s c l).pinWait with
  | none => false
  | some n =>
    s.pinned.isNone && (slotAt s c l).busy && (slotAt s c l).older.isNone && !(coreAt s c).stopped && !(coreAt s c).frozen &&
      ctxRuns s (coreAt s c).owner && s.cores.all fun k => k.2.stopped || k.2.frozen || !ctxRuns s k.2.owner ||
        k.2.slots.all fun x => match x.2.pinWait with | some m => n ≤ m || !x.2.busy | none => true

/-- PINNED_START (R151). -/
def execPinnedStart (c : Coord) (sl : BitVec 2) (s : State) : Outcome :=
  if pinDue s c.toNat sl.toNat then
    let s := setSlot s c.toNat sl.toNat { slotAt s c.toNat sl.toNat with pin := true, pinWait := none }
    .next { s with pinned := some (4 * c.toNat + sl.toNat),
                   registered := s.registered ++ [⟨.pinned c.toNat sl.toNat, (coreAt s c.toNat).owner, [], [], true⟩] }
  else .next s

/-- PARK (R69). -/
def execPark (c : Coord) (sl : BitVec 2) (s : State) : Outcome :=
  let x := slotAt s c.toNat sl.toNat
  if x.parked then .next (setSlot s c.toNat sl.toNat (parkSlot x)) else .next s

/-- The EXECUTING chunk has reached its limit (R140). -/
def limitDue (s : State) (c l : Nat) : Bool :=
  let x := slotAt s c l
  x.busy && x.cur.status == .executing && x.cur.hold == 0 && x.limit.toNat ≤ x.cur.count && x.cur.count != 0

/-- CHUNK_LIMIT (R140). -/
def execChunkLimit (c : Coord) (sl : BitVec 2) (s : State) : Outcome :=
  .next (if limitDue s c.toNat sl.toNat then endChunk s c.toNat sl.toNat else s)

/-- The MLEASE chunks of a core that wait commit (R227). -/
def leaseCommits (s : State) (c : Nat) : State :=
  [0, 1, 2, 3].foldl (fun t l =>
    match (slotAt t c l).older with
    | some o => (match o.effect with
      | some (.mlease _) => if o.status == .ended then commitNow t c l else t
      | _ => t)
    | none => t) s

/-- LEASE_GRANT (R252, R253): the array's lease goes to a core, and the MLEASE chunks of it that wait commit with the grant. -/
def leaseGranted (s : State) (cl : Nat) : State :=
  if !canGrant s cl then s else leaseCommits (grantLease s cl) (8 * cl + (clusterAt (grantLease s cl) cl).holder.toNat)

def execLeaseGrant (cl : BitVec 7) (s : State) : Outcome := .next (leaseGranted s cl.toNat)

end Sys2Proof.Machine
end

