-- ==== Sys2Proof/Machine/Sync.lean ====
section
/-! DEFINITION. The chunk-ending instructions as they issue (R141, R216 to R238, R308, R312), and the others of the barrier,
synchronisation and system families. Their external effects stand in Commit.lean. -/

namespace Sys2Proof.Machine

/-! ### The protocol of R216 -/

/-- The class a thread's PRIO takes at a chunk start (R199). -/
def prioNow (s : State) (c : Nat) (x : Slot) : Slot :=
  match kernelAt s (coreAt s c).owner x.kernel.toNat with
  | some k => if k.state == .running then { x with prio := k.cls } else x
  | none => x

/-- A pending entry for the value that a commit will give. -/
def awaits (d : Option Reg) : List Pend :=
  match d with
  | some r => if r = 0 then [] else [.g r none]
  | none => []

/-- The one-instruction chunk of a chunk-ending instruction, ENDED: the empty chunk `k` that stood ready, with what it read at issue. -/
def effectChunk (k : Chunk) (r : Regs) (i : Instr) : Chunk := { k with status := .ended, check := r, count := 1, effect := some i }

/-- The thread after a chunk-ending instruction has issued. -/
def issueEffect (s : State) (i : Instr) (m : Bool) (d : Option Reg) : State :=
  let x := prioNow s (meCore s) (mySlot s)
  let r := x.regs
  let y := settle { x with cur := effectChunk x.cur r i, regs := { r with pcc := nextPcc r, pending := awaits d } }
  setMySlot s (if m then parkSlot y else y)

/-- What the checks at issue find: a fault, an access that waits as a load does, or the thread with what its chunk has read. -/
inductive Issue
  | fault (code : Byte) (info : W64)
  | wait (s : State)
  | go (s : State)

/-- Checks that read nothing for the instruction's own chunk. -/
abbrev Check := Except (Byte × W64) Unit

def Issue.after (s : State) (c : Check) : Issue :=
  match c with
  | .error (x, i) => .fault x i
  | .ok _ => .go s

/-- The ranges that the checks at issue of a chunk-ending instruction translate, in their order. -/
def issueRanges (r : Regs) (i : Instr) : List (Nat × Nat) :=
  let g (n : Reg) : Nat := (capAddr (regsG r n)).toNat
  match i with
  | .join _ a => [(g a, 32)]
  | .suspend _ a b => (g a, 64) :: if b = 0 then [] else [(g b, 32)]
  | .klaunch _ a => [(g a, 96)]
  | .fork _ _ a b => (if a = 0 then [] else [(g a, 32)]) ++ if b = 0 then [] else [(g b, 32)]
  | .cmdq _ a => [(g a, 32)]
  | .epsend _ _ b => [(g b, 64)]
  | .eprecv _ _ a => [(g a, 64)]
  | .vcdef _ _ _ b => [(g b, 192)]
  | .vcreshape _ _ _ b => [(g b, 192)]
  | .ramo _ _ a _ _ dbl => [(g a, if dbl then 8 else 4)]
  | i =>
    match scalarForm i with
    | some (n, _, _, a, off) => [(effAddr (regsG r a) off, n)]
    | none => []

/-- The walks of checks at issue that end in a fault of translation or in POISON (R370). -/
def issueWalked (s : State) (i : Instr) (code : Byte) : State :=
  if code == Code.mapFault || code == Code.poison then
    walkParts s (myCtx s) (.core (meCore s)) ((issueRanges (myRegs s) i).flatMap fun x => lineParts x.1 x.2 (x.2 / 128 + 2))
  else s

/-- A chunk-ending instruction (R216): forbidden in a span; it parks, the chunk before it ends, its checks at issue are made, and
its one-instruction chunk has ENDED. -/
def chunkEnding (s : State) (i : Instr) (m : Bool) (d : Option Reg) (issue : State → Issue) : Outcome :=
  let c := meCore s
  let l := meSlot s
  if (mySlot s).cur.hold != 0 then .next (failSpan s i 1)
  else
    let x := parkSlot (mySlot s)
    if x.parked then .next (setMySlot s x)
    else
      let t := endChunk (setMySlot s x) c l
      let t := if t.eager && (slotAt t c l).older.isSome then tryCommit t c l else t
      if !freshChunk (mySlot t) || t.turn != s.turn || (myCore t).frozen != (myCore s).frozen then .next t
      else
        match issue t with
        | .fault code info => faults (issueWalked t i code) i code info
        | .wait u => .next u
        | .go u =>
          let u := issueEffect u i m d
          .next (if u.eager then tryCommit u c l else u)

/-- A chunk-ending instruction whose checks at issue read nothing. -/
def endingWith (s : State) (i : Instr) (m : Bool) (d : Option Reg) (check : State → Check) : Outcome :=
  chunkEnding s i m d fun t => Issue.after t (check t)

/-- No check at issue. -/
def unchecked (_ : State) : Check := .ok ()

def capCheck (f : Option Byte) : Check :=
  match f with
  | some x => .error (x, 0)
  | none => .ok ()

/-- The memory checks of R109 for bytes that the effect reads or writes later. -/
def memCheck (s : State) (a n : Nat) (reading : Bool) : Check :=
  match peekSegs s (meCore s) a n reading with
  | .error e => .error e
  | .ok _ => .ok ()

/-- One check after another. -/
def andThen (x y : Check) : Check :=
  match x with
  | .error e => .error e
  | .ok _ => y

/-- Read at issue, as a load of the instruction's own chunk: its lines, pages and misses enter the chunk (R143, R225). -/
def issueRead (s : State) (segs : List Seg) (k : State → Nat → Issue) : Issue :=
  if accessWaits s segs then .wait (askHost s segs) else k (readSegs s segs).1 (readSegs s segs).2

/-- SYSTEM on pcc (R58, R236, R238). -/
def systemCheck (s : State) : Check :=
  if capHas (myRegs s).pcc Perm.system then .ok () else .error (Code.capPerm, 0)

def addrOf (c : Cap) : Nat := (capAddr c).toNat

/-! ### Barriers (R218) -/

/-- ARRIVE (R211). -/
def execArrive (m : Bool) (ch : BitVec 6) (s : State) : Outcome := endingWith s (.arrive m ch) m none unchecked

/-- ARRIVE.NC (R211): at issue. -/
def execArriveNc (m : Bool) (ch : BitVec 6) (s : State) : Outcome := plain (arriveAt s (meCore s) ch.toNat) m

/-- WAIT (R211). -/
def execWait (m : Bool) (ch : BitVec 6) (s : State) : Outcome := endingWith s (.wait m ch) m none unchecked

/-! ### Queues (R219, R220) -/

/-- The four permissions of a join counter and a record area, in order (R220). DESIGN CHOICE: STORE_LOCAL is asked of no capability through
which the sync engine itself stores a continuation: a join counter's GUARD, a ring, the RECORDS area (notes/assumptions/58.md). -/
def counterPerms : List Nat := [Perm.load, Perm.store, Perm.loadCap, Perm.storeCap]

def counterCheck (s : State) (j : Cap) : Check :=
  andThen (capCheck (checkPerms j (addrOf j) 32 true counterPerms)) (memCheck s (addrOf j) 32 true)

/-- DQPUSH (R219). -/
def execDqpush (m : Bool) (a : Reg) (s : State) : Outcome :=
  endingWith s (.dqpush m a) m none fun t =>
    let k := readG t a
    if k.tag && capOtype k == 3 then .ok () else capCheck (checkPerms k (addrOf k) 64 true [Perm.load, Perm.loadCap])

/-- DQPOP (R219). -/
def execDqpop (m : Bool) (d : Reg) (s : State) : Outcome := endingWith s (.dqpop m d) m (some d) unchecked

/-- DQSTEAL (R219). -/
def execDqsteal (m : Bool) (d : Reg) (victim : Coord) (s : State) : Outcome := endingWith s (.dqsteal m d victim) m (some d) unchecked

/-- JOIN (R181, R220). -/
def execJoin (m : Bool) (a : Reg) (s : State) : Outcome := endingWith s (.join m a) m none fun t => counterCheck t (readG t a)

/-- A capability of the record that needs STORE_LOCAL on the area (R181). -/
def recordLocal (r : Regs) : Bool := [nextPcc r, regsG r 8, regsG r 4].any fun c => c.tag && !capHas c Perm.global

/-- SUSPEND (R181, R220). -/
def execSuspend (m : Bool) (a b : Reg) (s : State) : Outcome :=
  endingWith s (.suspend m a b) m none fun t =>
    let area := readG t a
    andThen (capCheck (checkPerms area (addrOf area) 64 true counterPerms))
      (andThen (if recordLocal (myRegs t) && !capHas area Perm.storeLocal then .error (Code.capPerm, 0) else .ok ())
        (andThen (memCheck t (addrOf area) 64 false) (if b = 0 then .ok () else counterCheck t (readG t b))))

/-- END (R181, R220). -/
def execEndThread (m : Bool) (s : State) : Outcome := endingWith s (.endThread m) m none unchecked

/-- A launch record's DONE as the thread sees it (R189, R221). -/
def doneSeen (s : State) (a : Nat) : Cap :=
  match peekSegs s (meCore s) (a + 48) 16 true with
  | .ok g => scrubCap s (myCtx s) ⟨peekTag s (meCore s) (meSlot s) (a + 48), BitVec.ofNat 128 (peekBytes s (meCore s) (meSlot s) g)⟩
  | .error _ => Cap.null

/-- KLAUNCH (R221): the record is read at issue for the check of its DONE. -/
def execKlaunch (m : Bool) (a : Reg) (s : State) : Outcome :=
  chunkEnding s (.klaunch m a) m none fun t =>
    let k := readG t a
    match andThen (capCheck (checkAligned k (addrOf k) 96 32 [Perm.load, Perm.loadCap])) (memCheck t (addrOf k) 96 true), peekSegs t (meCore t) (addrOf k) 96 true with
    | .ok _, .ok segs => issueRead t segs fun u _ => Issue.after u (capCheck (doneCheck (doneSeen t (addrOf k))))
    | c, _ => Issue.after t c

/-! ### Engines (R222 to R227) -/

/-- A program capability named by FORK (R224). -/
def programCheck (s : State) (n : Reg) : Check :=
  let p := readG s n
  if n = 0 then .ok ()
  else
    andThen (capCheck (checkPerms p (addrOf p) 32 false [Perm.load, Perm.engine]))
      (if addrOf p % 32 != 0 then .error (Code.align, 0) else memCheck s (addrOf p) 32 true)

/-- FORK (R224). -/
def execFork (m : Bool) (d a b : Reg) (s : State) : Outcome :=
  endingWith s (.fork m d a b) m (some d) fun t => andThen (programCheck t a) (programCheck t b)

/-- RNDZ (R226). -/
def execRndz (m : Bool) (s : State) : Outcome := endingWith s (.rndz m) m none unchecked

/-- ECSET (R222): held with the chunk until its commit. -/
def execEcset (m : Bool) (e : EReg) (a : Reg) (s : State) : Outcome :=
  let c := readG s a
  plain (updMyChunk s fun k => { k with ecset := Tbl.set k.ecset e.toNat c }) m

/-- CMDQ (R225): the word is read and passes checks 1 to 3 of R63 at issue, and stays with the chunk. -/
def execCmdq (m : Bool) (a : Reg) (s : State) : Outcome :=
  chunkEnding s (.cmdq m a) m none fun t =>
    let k := readG t a
    match dataCheck t k (addrOf k) 32 [Perm.load] true .never true with
    | .error (x, i) => .fault x i
    | .ok segs =>
      issueRead t segs fun u v =>
        match decodeCommand none (BitVec.ofNat 256 v) with
        | .error e => .fault (commandFault e) 0
        | .ok _ => .go (updMyChunk u fun q => { q with word := BitVec.ofNat 256 v })

/-- MLEASE (R227). -/
def execMlease (m : Bool) (s : State) : Outcome := endingWith s (.mlease m) m none unchecked

/-- MFREE (R227). -/
def execMfree (m : Bool) (s : State) : Outcome := endingWith s (.mfree m) m none unchecked

/-! ### Messages (R228, R229) -/

/-- EPSEND (R228). -/
def execEpsend (m : Bool) (a b : Reg) (s : State) : Outcome :=
  endingWith s (.epsend m a b) m none fun t =>
    let h := readG t a
    let k := readG t b
    if !h.tag then .error (Code.capTag, 0)
    else if capOtype h != 2 then .error (Code.capType, 0)
    else andThen (capCheck (checkPerms k (addrOf k) 64 true [Perm.load])) (memCheck t (addrOf k) 64 true)

/-- EPRECV (R229). -/
def execEprecv (m : Bool) (d a : Reg) (s : State) : Outcome :=
  endingWith s (.eprecv m d a) m (some d) fun t =>
    let k := readG t a
    andThen (capCheck (checkPerms k (addrOf k) 64 true [Perm.store])) (memCheck t (addrOf k) 64 false)

/-! ### Supervisor, time and translation (R234 to R238) -/

/-- TRAP (R234). -/
def execTrap (m : Bool) (code : Reg) (s : State) : Outcome := endingWith s (.trap m code) m none unchecked

/-- BKPT (R235): the chunk ends before it; in a span it is forbidden (R136). -/
def execBkpt (m : Bool) (s : State) : Outcome :=
  if (mySlot s).cur.hold != 0 then .next (failSpan s (.bkpt m) 1) else faults s (.bkpt m) Code.bkpt 0

/-- SNAP (R236). -/
def execSnap (m : Bool) (s : State) : Outcome := endingWith s (.snap m) m none systemCheck

/-- TSREAD (R237). -/
def execTsread (m : Bool) (d : Reg) (s : State) : Outcome := deferredX s m d fun _ => s.time

/-- PINV (R238). -/
def execPinv (m : Bool) (a : Reg) (s : State) : Outcome := endingWith s (.pinv m a) m none systemCheck

/-- FENCE.XP (R130). -/
def execFenceXp (m : Bool) (s : State) : Outcome := endingWith s (.fenceXp m) m none unchecked

/-- FENCE.IO (R131). -/
def execFenceIo (m : Bool) (s : State) : Outcome := endingWith s (.fenceIo m) m none unchecked

/-- CBRK (R137): the chunk ends after it. -/
def execCbrk (m : Bool) (s : State) : Outcome :=
  if (mySlot s).cur.hold != 0 then .next (failSpan s (.cbrk m) 1)
  else .next (endChunk (retire s m (myRegs s) (nextPcc (myRegs s))) (meCore s) (meSlot s))

/-! ### System registers (R231) -/

/-- SYSR (R231): as the register stands at issue; a full list parks before the check (R70). -/
def execSysr (m : Bool) (d : Reg) (x : BitVec 12) (s : State) : Outcome :=
  match readyDeferred s with
  | none => .next (waitPark s)
  | some t =>
    if !capHas (myRegs t).pcc Perm.system then faults t (.sysr m d x) Code.capPerm 0
    else
      let v := scrubCap t (myCtx t) (sysRead t (meCore t) (meSlot t) x)
      .next (retire t m (regsDefer (myRegs t) (.g d (some v))) (nextPcc (myRegs t)))

/-- SYSW (R231). -/
def execSysw (m : Bool) (x : BitVec 12) (a : Reg) (s : State) : Outcome := endingWith s (.sysw m x a) m none systemCheck

/-- SYSS (R231). -/
def execSyss (m : Bool) (x : BitVec 12) (a : Reg) (s : State) : Outcome := endingWith s (.syss m x a) m none systemCheck

/-- SYSC (R231). -/
def execSysc (m : Bool) (x : BitVec 12) (a : Reg) (s : State) : Outcome := endingWith s (.sysc m x a) m none systemCheck

/-! ### Virtual caches (R308 to R312) -/

/-- A descriptor mask's capability (R308). -/
def maskCheck (s : State) (k : Cap) : Check :=
  andThen (capCheck (checkAligned k (addrOf k) 192 64 [Perm.load])) (memCheck s (addrOf k) 192 true)

/-- An authority (R308): VCBIND over its decoded bounds. -/
def authorityCheck (k : Cap) : Check :=
  let b := capDecode k
  capCheck (checkAccess k b.1 (b.2 - b.1) Perm.vcbind false)

/-- VCDEF (R310). -/
def execVcdef (m : Bool) (d a b : Reg) (s : State) : Outcome := endingWith s (.vcdef m d a b) m (some d) fun t => maskCheck t (readG t b)

/-- VCRESHAPE (R310). -/
def execVcreshape (m : Bool) (d a b : Reg) (s : State) : Outcome :=
  endingWith s (.vcreshape m d a b) m (some d) fun t => maskCheck t (readG t b)

/-- VCBIND (R310). -/
def execVcbind (m : Bool) (d a b : Reg) (s : State) : Outcome := endingWith s (.vcbind m d a b) m (some d) fun t => authorityCheck (readG t a)

/-- VCREPARENT (R310). -/
def execVcreparent (m : Bool) (d a b : Reg) (s : State) : Outcome :=
  endingWith s (.vcreparent m d a b) m (some d) fun t => authorityCheck (readG t a)

/-- VCFREE (R310). -/
def execVcfree (m : Bool) (d a : Reg) (s : State) : Outcome := endingWith s (.vcfree m d a) m (some d) unchecked

/-- VCQUERY (R311): at issue. -/
def execVcquery (m : Bool) (d a : Reg) (s : State) : Outcome :=
  deferredX s m d fun r => vcQueryWord (ctxOf s (myCtx s)) ((capAddr (regsG r a)).toNat % 32)

/-- PFRANGE (R312): LOAD, then VCBIND, over the range. -/
def execPfrange (m : Bool) (d a b : Reg) (s : State) : Outcome :=
  endingWith s (.pfrange m d a b) m (some d) fun t =>
    let k := readG t a
    capCheck (checkPerms k (addrOf k) ((readX t b).toNat % 2 ^ 32) false [Perm.load, Perm.vcbind])

/-! ### Decoding and fetching -/

/-- ILLEGAL (R41): the chunk ends before the word and the core freezes. -/
def execIllegal (word : W32) (s : State) : Outcome :=
  .next (takeFault s (meCore s) (meSlot s) 0 Code.illegal word 0 (spanOffset (mySlot s)))

/-- The codes that a fetch can raise (R99, R109): a check of pcc, its alignment, its translation or POISON. -/
def fetchCode (code : Byte) : Bool :=
  code == Code.capTag || code == Code.capBounds || code == Code.capPerm || code == Code.capSeal || code == Code.align ||
    code == Code.mapFault || code == Code.poison

/-- FETCH_FAULT (R99): the packet's word is 0; no other code is a fetch's (R351). -/
def execFetchFault (code : Byte) (info : W64) (s : State) : Outcome :=
  .next (if fetchCode code then takeFault s (meCore s) (meSlot s) 1 code 0 info (spanOffset (mySlot s)) else s)

end Sys2Proof.Machine
end

