-- ==== Sys2Proof/Machine/MemInstr.lean ====
section
/-! DEFINITION. The memory instructions (R109, R110, R121 to R136): loads, stores, capability loads and stores, cache maintenance,
atomics and CHOLD. -/

namespace Sys2Proof.Machine

/-! ### Loads -/

/-- Some part is uncached. -/
def anyUncached (segs : List Seg) : Bool := segs.any fun g => g.p.uncached

/-- An access of the core whose checks fail takes its fault, and its walks are counted (R370). -/
def accessFaults (s : State) (i : Instr) (pre : Option Byte) (a n : Nat) (code : Byte) (info : W64) : Outcome := faults (walked s pre a n) i code info

/-- A scalar access of n bytes at ga + off. -/
structure ScalarForm where
  base : Reg
  off : BitVec 15
  n : Nat
  perm : Nat
  reading : Bool
  deriving DecidableEq, Repr

def ScalarForm.addr (f : ScalarForm) (s : State) : Nat := effAddr (readG s f.base) f.off

/-- Its checks (R109). -/
def scalarCheck (s : State) (f : ScalarForm) : Except (Byte × W64) (List Seg) :=
  dataCheck s (readG s f.base) (f.addr s) f.n [f.perm] false .scalar f.reading

/-- Its target is uncached, aligned or not: it parks first (R70, R141). -/
def parksFirst (c : Except (Byte × W64) (List Seg)) : Bool :=
  match c with
  | .ok segs => anyUncached segs
  | .error e => e.1 == Code.align

/-- The issue of an uncached scalar access, after its checks (R126). -/
def uncachedIssue (s : State) (i : Instr) (m : Bool) (d : Option Reg) (f : ScalarForm) : Outcome :=
  chunkEnding s i m d fun t =>
    match scalarCheck t f with
    | .error (x, w) => .fault x w
    | .ok _ => .go t

/-- A scalar access after its park, if it parks: as its checks with the registers it then has say. -/
def scalarGo (s : State) (i : Instr) (m : Bool) (d : Option Reg) (f : ScalarForm) (parked : Bool) (run : State → List Seg → Outcome) : Outcome :=
  match scalarCheck s f with
  | .error (x, w) => accessFaults s i (checkPerms (readG s f.base) (f.addr s) f.n false [f.perm]) (f.addr s) f.n x w
  | .ok segs => if parked && anyUncached segs then uncachedIssue s i m d f else run s segs

/-- A scalar access: an ordinary one runs at once; one whose target is uncached parks first (R70, R126) and is checked with the registers that
the park has written. DESIGN CHOICE: whether it parks is decided by its base before the park, and whether it is then uncached by its base
after it (notes/assumptions/57.md). -/
def scalarAccess (s : State) (i : Instr) (m : Bool) (d : Option Reg) (f : ScalarForm) (run : State → List Seg → Outcome) : Outcome :=
  if !parksFirst (scalarCheck s f) then scalarGo s i m d f false run
  else
    let x := parkSlot (mySlot s)
    if x.parked then .next (setMySlot s x) else scalarGo (setMySlot s x) i m d f true run

/-- A scalar load of n bytes (R121): deferred. -/
def scalarLoad (s : State) (i : Instr) (m : Bool) (d a : Reg) (off : BitVec 15) (n : Nat) (sext : Bool) : Outcome :=
  match readyDeferred s with
  | none => .next (waitPark s)
  | some t =>
    scalarAccess t i m (some d) ⟨a, off, n, Perm.load, true⟩ fun t segs =>
      if accessWaits t segs then .next (askHost t segs)
      else
        let (u, v) := readSegs t segs
        .next (retire u m (regsDefer (myRegs t) (.g d (some (capInt (loadExtend n sext v))))) (nextPcc (myRegs t)))

/-- LB (R121). -/
def execLb (m : Bool) (d ra : Reg) (off : BitVec 15) (s : State) : Outcome := scalarLoad s (.lb m d ra off) m d ra off 1 true
/-- LBU (R121). -/
def execLbu (m : Bool) (d ra : Reg) (off : BitVec 15) (s : State) : Outcome := scalarLoad s (.lbu m d ra off) m d ra off 1 false
/-- LH (R121). -/
def execLh (m : Bool) (d ra : Reg) (off : BitVec 15) (s : State) : Outcome := scalarLoad s (.lh m d ra off) m d ra off 2 true
/-- LHU (R121). -/
def execLhu (m : Bool) (d ra : Reg) (off : BitVec 15) (s : State) : Outcome := scalarLoad s (.lhu m d ra off) m d ra off 2 false
/-- LW (R121). -/
def execLw (m : Bool) (d ra : Reg) (off : BitVec 15) (s : State) : Outcome := scalarLoad s (.lw m d ra off) m d ra off 4 true
/-- LWU (R121). -/
def execLwu (m : Bool) (d ra : Reg) (off : BitVec 15) (s : State) : Outcome := scalarLoad s (.lwu m d ra off) m d ra off 4 false
/-- LD (R121). -/
def execLd (m : Bool) (d ra : Reg) (off : BitVec 15) (s : State) : Outcome := scalarLoad s (.ld m d ra off) m d ra off 8 false

/-- A capability as a load through `c` gives it (R107, R123). -/
def loadedCap (s : State) (c : Cap) (tag : Bool) (v : Nat) : Cap :=
  scrubCap s (myCtx s) ⟨tag && capHas c Perm.loadCap, BitVec.ofNat 128 v⟩

/-- LC (R123). -/
def execLc (m : Bool) (d ra : Reg) (off : BitVec 15) (s : State) : Outcome :=
  match readyDeferred s with
  | none => .next (waitPark s)
  | some t =>
    let c := readG t ra
    match dataCheck t c (effAddr c off) 16 [Perm.load] true .never true with
    | .error (f, info) => accessFaults t (.lc m d ra off) (checkPerms c (effAddr c off) 16 true [Perm.load]) (effAddr c off) 16 f info
    | .ok segs =>
      if accessWaits t segs then .next (askHost t segs)
      else
        let k := loadedCap t c (segs.any (segTag t)) (readSegs t segs).2
        .next (retire (readSegs t segs).1 m (regsDefer (myRegs t) (.g d (some k))) (nextPcc (myRegs t)))

/-! ### Stores -/

/-- A scalar store of the low n bytes of gs (R122). -/
def scalarStore (s : State) (i : Instr) (m : Bool) (src a : Reg) (off : BitVec 15) (n : Nat) : Outcome :=
  scalarAccess s i m none ⟨a, off, n, Perm.store, false⟩ fun u segs =>
    storing u i segs fun t => retire (writeSegs t (readX t src).toNat false segs) m (myRegs t) (nextPcc (myRegs t))

/-- SB (R122). -/
def execSb (m : Bool) (src ra : Reg) (off : BitVec 15) (s : State) : Outcome := scalarStore s (.sb m src ra off) m src ra off 1
/-- SH (R122). -/
def execSh (m : Bool) (src ra : Reg) (off : BitVec 15) (s : State) : Outcome := scalarStore s (.sh m src ra off) m src ra off 2
/-- SW (R122). -/
def execSw (m : Bool) (src ra : Reg) (off : BitVec 15) (s : State) : Outcome := scalarStore s (.sw m src ra off) m src ra off 4
/-- SD (R122). -/
def execSd (m : Bool) (src ra : Reg) (off : BitVec 15) (s : State) : Outcome := scalarStore s (.sd m src ra off) m src ra off 8

/-- The permissions that storing `x` through `c` takes beyond STORE (R104). -/
def storeCapCheck (c x : Cap) : Option Byte := if mayStoreCap c x then none else some Code.capPerm

/-- The checks of an access whose capability has been checked already. -/
def checkedData (s : State) (pre : Option Byte) (c : Cap) (a n : Nat) (reading : Bool) : Except (Byte × W64) (List Seg) :=
  match pre with
  | some f => .error (f, 0)
  | none => dataCheck s c a n [] false .never reading

/-- SC (R124). -/
def execSc (m : Bool) (src ra : Reg) (off : BitVec 15) (s : State) : Outcome :=
  let c := readG s ra
  let x := readG s src
  let pre := (checkAccess c (effAddr c off) 16 Perm.store true).or (storeCapCheck c x)
  match checkedData s pre c (effAddr c off) 16 false with
  | .error (f, info) => accessFaults s (.sc m src ra off) pre (effAddr c off) 16 f info
  | .ok segs =>
    storing s (.sc m src ra off) segs fun t =>
      let k := scrubCap t (myCtx t) x
      retire (writeSegs t k.img.toNat k.tag segs) m (myRegs t) (nextPcc (myRegs t))

/-! ### Cache maintenance (R127 to R129) -/

/-- PF (R127): it fills the line as a load miss would, waiting as one does, and nothing else; a check that fails leaves it without effect
(notes/assumptions/13.md). -/
def execPf (m : Bool) (ra : Reg) (off : BitVec 15) (s : State) : Outcome :=
  let c := readG s ra
  match dataCheck s c (effAddr c off) 1 [Perm.load] false .maintenance true with
  | .ok [g] =>
    if g.p.uncached then plain s m
    else if accessWaits s [g] then .next (askHost s [g])
    else plain (touchLine s g.p (segNc s g)) m
  | .ok _ => plain s m
  | .error _ => plain (walked s (checkPerms c (effAddr c off) 1 false [Perm.load]) (effAddr c off) 1) m

/-- CLEAN and FLUSH (R128): they start at the chunk's commit; an uncached line has no copy. -/
def maintain (s : State) (i : Instr) (m : Bool) (ra : Reg) (off : BitVec 15) (flush : Bool) : Outcome :=
  let c := readG s ra
  match dataCheck s c (effAddr c off) 1 [Perm.load] false .maintenance false with
  | .error (f, info) => accessFaults s i (checkPerms c (effAddr c off) 1 false [Perm.load]) (effAddr c off) 1 f info
  | .ok segs =>
    plain (segs.foldl (fun s g => if g.p.uncached then s
      else updMyChunk s fun k => { k with cmos := k.cmos ++ [⟨flush, segNc s g, g.p.ia / 128, (myCtx s).toNat⟩] }) s) m

/-- CLEAN (R128). -/
def execClean (m : Bool) (ra : Reg) (off : BitVec 15) (s : State) : Outcome := maintain s (.clean m ra off) m ra off false
/-- FLUSH (R128). -/
def execFlush (m : Bool) (ra : Reg) (off : BitVec 15) (s : State) : Outcome := maintain s (.flush m ra off) m ra off true

/-- The directory lists the acting core for a line that it has in a set and does not hold (R149); a PRIVATE page of another core is given up
first (R153). -/
def listLine (s : State) (p : Place) : State :=
  let c := meCore s
  let s := tlbFill s p
  let s :=
    match privateOwner s p with
    | some o => if o == c then s else unprivate s o p
    | none => s
  if inMyL1 s p || privateOwner s p == some c then s
  else updCore (dirJoin (dirRoom s (p.ia / 128)) (p.ia / 128) c) c fun k => { k with notices := NatSet.insert k.notices (p.ia / 128) }

/-- Drop a line in the chunk (R129): its own earlier stores to it go with the copy. A coherent line joins the write signature and
is dropped at the commit. -/
def discardSeg (s : State) (g : Seg) : State :=
  let line := g.p.ia / 128
  if segNc s g then
    updMyChunk s fun k => { k with nws := Tbl.erase k.nws line, ncDiscards := NatSet.insert k.ncDiscards line }
  else
    let s := notePage (enterLine (listLine s g.p) line true) g.p true
    updMyChunk s fun k => { k with ws := Tbl.erase k.ws line, discards := NatSet.insert k.discards line }

/-- DISCARD (R129). -/
def execDiscard (m : Bool) (ra : Reg) (off : BitVec 15) (s : State) : Outcome :=
  let c := readG s ra
  match dataCheck s c (effAddr c off / 128 * 128) 128 [Perm.store] false .maintenance false with
  | .error (f, info) =>
    let a := effAddr c off / 128 * 128
    accessFaults s (.discard m ra off) (checkPerms c a 128 false [Perm.store]) a 128 f info
  | .ok segs =>
    if anyUncached segs then plain s m
    else storingIf false s (.discard m ra off) segs fun t => retire (segs.foldl discardSeg t) m (myRegs t) (nextPcc (myRegs t))

/-! ### Atomics (R132 to R135) -/

/-- LOAD over the access, then STORE, then alignment. -/
def atomicCheck (c : Cap) (n : Nat) : Option Byte :=
  (checkAccess c (addrOf c) n Perm.load false).or
    (if !capHas c Perm.store then some Code.capPerm else if addrOf c % n != 0 then some Code.align else none)

/-- An atomic reads and writes a non-coherent line against the core's other accesses (R125). -/
def atomicOn (s : State) (segs : List Seg) : State :=
  segs.foldl (fun s g => if segNc s g then updMyChunk s fun k => { k with ncAtomics := NatSet.insert k.ncAtomics (g.p.ia / 128) } else s) s

/-- A load's part of an atomic: wait as a load does. -/
def atomicRead (t : State) (segs : List Seg) (k : Outcome) : Outcome := if accessWaits t segs then .next (askHost t segs) else k

/-- AMO (R132). -/
def execAmo (m : Bool) (d ra rb : Reg) (op : AmoOp) (dbl : Bool) (s : State) : Outcome :=
  match readyDeferred s with
  | none => .next (waitPark s)
  | some t =>
    let i : Instr := .amo m d ra rb op dbl
    let n := if dbl then 8 else 4
    let c := readG t ra
    match checkedData t (atomicCheck c n) c (addrOf c) n true with
    | .error (f, info) => accessFaults t i (atomicCheck c n) (addrOf c) n f info
    | .ok segs =>
      storing t i segs fun u =>
        let r := myRegs u
        let old := (readSegs u segs).2
        retire (writeSegs (atomicOn (readSegs u segs).1 segs) (amoResult op n old (readX u rb).toNat) false segs) m
          (regsDefer r (.g d (some (amoOld n old)))) (nextPcc r)

/-- CAS (R133): the write signature and footprint only when it stores. -/
def execCas (m : Bool) (d ra rb : Reg) (dbl : Bool) (s : State) : Outcome :=
  match readyDeferred s with
  | none => .next (waitPark s)
  | some t =>
    let i : Instr := .cas m d ra rb dbl
    let n := if dbl then 8 else 4
    let c := readG t ra
    match checkedData t (atomicCheck c n) c (addrOf c) n true with
    | .error (f, info) => accessFaults t i (atomicCheck c n) (addrOf c) n f info
    | .ok segs =>
      let old := (readSegs t segs).2
      let done (u : State) : State := retire u m (regsDefer (myRegs t) (.g d (some (amoOld n old)))) (nextPcc (myRegs t))
      if old == (readX t d).toNat % 2 ^ (8 * n) then
        storing t i segs fun u => done (writeSegs (atomicOn (readSegs u segs).1 segs) ((readX t rb).toNat % 2 ^ (8 * n)) false segs)
      else atomicRead t segs (.next (done (readSegs t segs).1))

/-- Enter a part's line in the write signature without a write (R143). -/
def claimSeg (s : State) (g : Seg) : State := if segNc s g then s else enterLine s (g.p.ia / 128) true

/-- CASC (R134). -/
def execCasc (m : Bool) (d ra rb : Reg) (s : State) : Outcome :=
  match readyDeferred s with
  | none => .next (waitPark s)
  | some t =>
    let i : Instr := .casc m d ra rb
    let c := readG t ra
    let x := readG t rb
    let pre := (atomicCheck c 16).or (storeCapCheck c x)
    match checkedData t pre c (addrOf c) 16 true with
    | .error (f, info) => accessFaults t i pre (addrOf c) 16 f info
    | .ok segs =>
      storing t i segs fun u =>
        let r := myRegs u
        let raw : Cap := ⟨segs.any (segTag u), BitVec.ofNat 128 (readSegs u segs).2⟩
        let k := scrubCap u (myCtx u) x
        let w := (readSegs u segs).1
        let w := if raw == readG u d then writeSegs (atomicOn w segs) k.img.toNat k.tag segs else segs.foldl claimSeg w
        retire w m (regsDefer r (.g d (some (loadedCap u c raw.tag raw.img.toNat)))) (nextPcc r)

/-- A context owns a core of a cluster that is available (R60). -/
def ownsCluster (s : State) (ctx : BitVec 12) (cl : Nat) : Bool :=
  !s.unavailable.contains cl && (upTo 8).any fun i => (coreAt s (8 * cl + i)).owner == ctx

/-- RAMO's target lies in the named cluster's memory (R135). -/
def ramoCheck (s : State) (cl : Nat) (segs : List Seg) : Check :=
  match segs.find? fun g => !(ownsCluster s (myCtx s) cl && isClusterMem g.p.loc && clusterOfKey g.p.loc == cl) with
  | some g => .error (Code.mapFault, mapInfo 7 g.p.ia)
  | none => if segs.any fun g => segPoisoned s (mySlot s) false g then .error (Code.poison, 0) else .ok ()

/-- RAMO (R135): its line is in both signatures. -/
def execRamo (m : Bool) (d ra : Reg) (cl : BitVec 7) (op : AmoOp) (dbl : Bool) (s : State) : Outcome :=
  chunkEnding s (.ramo m d ra cl op dbl) m (some d) fun t =>
    let c := readG t ra
    let n := if dbl then 8 else 4
    match checkedData t (atomicCheck c n) c (addrOf c) n false with
    | .error (x, i) => .fault x i
    | .ok segs => Issue.after ((segLines segs).foldl (fun u l => enterLine (enterLine u l false) l true) t) (ramoCheck t cl.toNat segs)

/-! ### CHOLD (R136) -/

/-- CHOLD (R136): the chunk before it ends, the thread parks, and a chunk starts that does not end for n instructions; one that runs again
keeps its count of squashes (R151). -/
def execChold (m : Bool) (n : BitVec 15) (s : State) : Outcome :=
  if (mySlot s).cur.hold != 0 then .next (failSpan s (.chold m n) 1)
  else
    let x := parkSlot (mySlot s)
    if x.parked then .next (setMySlot s x)
    else
      let t := endChunk (setMySlot s x) (meCore s) (meSlot s)
      if !freshChunk (mySlot t) then .next t
      else
        let x := prioNow t (meCore t) (mySlot t)
        let t := setMySlot t { x with cur := { Chunk.start x.regs with hold := n.toNat + 1, span := wordOf (.chold m n), squashes := x.cur.squashes } }
        .next (retire t m (myRegs t) (nextPcc (myRegs t)))

end Sys2Proof.Machine
end

