-- ==== Sys2Proof/Machine/Matrix.lean ====
section
/-! DEFINITION. The matrix array: its arithmetic (R30 to R35), its commands (R239 to R251), charges to the lease (R253), the drain
(R256), and the events MLDW_WEIGHTS_COMPLETE and DRAIN. A command meaning acts on the matrix sequencer of the cluster of the agent
whose turn it is; its state is the running entry at the head of that sequencer. -/

namespace Sys2Proof.Machine

/-! ### Group sums (R31, R32) -/

/-- An operand of the array, a finite one in units of 2^−16. -/
inductive MVal
  | nan
  | inf (neg : Bool)
  | fin (x : Int)
  deriving DecidableEq, Repr

/-- A byte in a mode. -/
def mval (m : MFmt) (b : Nat) : MVal :=
  match m with
  | .int8 => .fin (signedOf 8 b * 65536)
  | _ =>
    match floatValue (if m == .e5m2 then FFmt.e5m2 else FFmt.e4m3) b with
    | .nan => .nan
    | .inf n => .inf n
    | .zero _ => .fin 0
    | .fin neg x e => let v : Int := (x : Int) * 2 ^ (e + 16).toNat; .fin (if neg then -v else v)

/-- A group as its products come in: a NaN, infinities of either sign, and the exact sum in units of 2^−32. -/
structure Group where
  nan : Bool
  pos : Bool
  neg : Bool
  sum : Int
  deriving DecidableEq, Repr

def groupAdd (g : Group) (a w : MVal) : Group :=
  match a, w with
  | .nan, _ => { g with nan := true }
  | _, .nan => { g with nan := true }
  | .fin x, .fin y => { g with sum := g.sum + x * y }
  | .inf n, .inf m => if n == m then { g with pos := true } else { g with neg := true }
  | .inf n, .fin y => if y == 0 then { g with nan := true } else if n == (y < 0) then { g with pos := true } else { g with neg := true }
  | .fin x, .inf m => if x == 0 then { g with nan := true } else if m == (x < 0) then { g with pos := true } else { g with neg := true }

/-- The group value G. -/
def groupValue (g : Group) : FVal :=
  if g.nan || (g.pos && g.neg) then .nan
  else if g.pos then .inf false
  else if g.neg then .inf true
  else if g.sum == 0 then .zero false
  else .fin (g.sum < 0) g.sum.natAbs (-32)

def f32Of (v : FVal) : Nat := floatRound FFmt.f32 .rne false v

/-- n elements of width w, the lowest first. -/
def splitBits (w x : Nat) : Nat → List Nat
  | 0 => []
  | n + 1 => x % 2 ^ w :: splitBits w (x / 2 ^ w) n

/-! ### Promotion (R33, R34) -/

/-- A column's accumulator after one course. -/
def promote (c : Nat) (g : Group) (p : Nat) : Nat := fAdd FFmt.f32 .rne c (f32Of (floatMul (groupValue g) (floatValue FFmt.f32 p)))

/-- Course c of a row: `acts` are the row's bytes, `cols` the accumulators. -/
def course (amode : MFmt) (p : Plane) (acts : List Nat) (ascales : List Nat) (cols : List Nat) (c : Nat) : List Nat :=
  let groups := (upTo 16).foldl (fun gs i =>
    let k := 16 * c + i
    let a := mval amode (acts.getD k 0)
    List.zipWith (fun g w => groupAdd g a (mval p.mode w)) gs (splitBits 8 (p.weights.extractLsb' (2048 * k) 2048).toNat 256))
    (List.replicate 256 (⟨false, false, false, 0⟩ : Group))
  let scales := (splitBits 32 (p.scales.extractLsb' (512 * c) 512).toNat 16).flatMap fun w => List.replicate 16 (fMul FFmt.f32 .rne (ascales.getD c 0) w)
  List.zipWith (fun (x : Nat × Group) q => promote x.1 x.2 q) (List.zip cols groups) scales

/-- A BF16 row: 256 additions in K order, each rounded once, into columns 0 to 127. -/
def bf16Row (p : Plane) (acts : List Nat) (cols : List Nat) : List Nat :=
  let low := (upTo 256).foldl (fun cs k =>
    let a := floatValue FFmt.bf16 (acts.getD k 0)
    List.zipWith (fun c w => f32Of (floatAdd .rne (floatValue FFmt.f32 c) (floatMul a (floatValue FFmt.bf16 w)))) cs
      (splitBits 16 (p.weights.extractLsb' (2048 * k) 2048).toNat 128)) (cols.take 128)
  low ++ cols.drop 128

/-- Accumulate one activation row into an accumulator row (R33, R34). -/
def accumulate (amode : MFmt) (p : Plane) (row scales : Nat) (acc : BitVec 8192) : BitVec 8192 :=
  let cols := splitBits 32 acc.toNat 256
  let out :=
    match amode with
    | .bf16 => bf16Row p (splitBits 16 row 256) cols
    | _ => (upTo 16).foldl (course amode p (splitBits 8 row 256) (splitBits 32 scales 16)) cols
  BitVec.ofNat 8192 (elemsPack 32 out)

/-- An accumulator in an output format (R35). -/
def outConvert (f : OFmt) (nosat : Bool) (x : Nat) : Nat :=
  match f with
  | .fp32 => x
  | .bf16 => fConvert FFmt.f32 FFmt.bf16 .rne false x
  | .e4m3 => fConvert FFmt.f32 FFmt.e4m3 .rne (!nosat) x
  | .e5m2 => fConvert FFmt.f32 FFmt.e5m2 .rne (!nosat) x

def outSize : OFmt → Nat
  | .fp32 => 4
  | .bf16 => 2
  | .e4m3 => 1
  | .e5m2 => 1

/-! ### Data areas (R243) -/

/-- A row of a command's data area: the capability it goes through, its address and size. -/
structure Area where
  cap : Cap
  addr : Nat
  n : Nat
  deriving DecidableEq, Repr

def entryCap (e : Entry) (r : EReg) : Cap := Tbl.get Cap.null e.table r.toNat

def areaOf (e : Entry) (r : EReg) (off n : Nat) : Area := ⟨entryCap e r, (addrOf (entryCap e r) + off) % 2 ^ 64, n⟩

/-- CheckAccess for every row, in order; alignment to `al` when it is above 1. -/
def areasCheck (al : Nat) (perms : List Nat) : List Area → Option Byte
  | [] => none
  | a :: r => (if 1 < al then checkAligned a.cap a.addr a.n al perms else checkPerms a.cap a.addr a.n false perms).or (areasCheck al perms r)

/-- The parts of every row. -/
def areasSegs (s : State) (cl : Nat) (ctx : BitVec 12) (reading : Bool) : List Area → Attempt (List Seg)
  | [] => .ok []
  | a :: r =>
    match agentSegsFrom s (.cluster cl) ctx a.addr a.n reading, areasSegs s cl ctx reading r with
    | .error e, _ => .error e
    | _, .error e => .error e
    | .ok x, .ok y => .ok (x ++ y)

/-- A data area lies in the memory of the array's own cluster (R243 step 5). -/
def ownMemory (cl : Nat) (segs : List Seg) : Option W64 :=
  (segs.find? fun g => !(isClusterMem g.p.loc && clusterOfKey g.p.loc == cl)).map fun g => mapInfo 7 g.p.ia

/-- Steps 4 and 5 of R243 for a command's areas, each a list of rows. -/
def matrixAreas (s : State) (cl : Nat) (e : Entry) (perms : List Nat) (areas : List (List Area)) : Attempt (List Seg) :=
  match areas.findSome? fun a => areasCheck 64 perms a with
  | some f => .error (f, 0)
  | none =>
    areas.foldl (fun r a =>
      match r, areasSegs s cl e.ctx false a with
      | .error x, _ => .error x
      | _, .error x => .error x
      | .ok l, .ok g =>
        match ownMemory cl g with
        | some i => .error (Code.mapFault, i)
        | none => .ok (l ++ g)) (.ok [])

def linesOf (segs : List Seg) : List Nat := segs.map fun g => g.p.ia / 128

/-! ### Running a command -/

/-- The entry that runs, unless an MLDW of an earlier entry is still loading. DESIGN CHOICE: one of a program that another command's fault has
stopped loads on, and holds the next entry back (notes/assumptions/71.md). -/
def matrixEntry (s : State) (cl : Nat) : Option Entry :=
  let k := clusterAt s cl
  match (seqEntries k.matrix).head?, k.loading with
  | some e, some l => if l.entry.id == e.id then some e else none
  | x, _ => x

def turnCluster (s : State) : Nat := clusterOf s.turn.core.toNat

/-- A command of a program is charged at its engine chunk's commit (R253). -/
def chargeCommand (s : State) (cl : Nat) (e : Entry) : State := if e.program.isSome then leaseCharge s cl e.core.toNat else s

/-- The commit of a command's chunk, its charge, and the next command. -/
def commandDone (s : State) (cl : Nat) (e : Entry) (writes : List Nat) : Outcome :=
  .next (finishCommand (chargeCommand (engineCommit (unregister s (.matrix cl)) writes) cl e) cl false)

/-- A command waits for older registered chunks (R152), or runs. -/
def whenFree (s : State) (cl : Nat) (e : Entry) (i : Instr) (reads writes : List Nat) (k : State → Outcome) : Outcome :=
  if engineWaits s (.matrix cl) reads writes then
    .next (registerWait (updSeq s cl false fun q => { q with command := some i }) (.matrix cl) e.ctx reads writes)
  else k s

/-- A row count and base within the accumulators (R244). -/
def rowsOk (acc : Coord) (rows : BitVec 11) : Bool := 1 ≤ rows.toNat && acc.toNat + rows.toNat ≤ 1024

/-- MSWAP (R246). -/
def execMswap (s : State) : Outcome :=
  let cl := turnCluster s
  match matrixEntry s cl with
  | none => .next s
  | some e =>
    let k := clusterAt s cl
    if k.loading.isSome then .next s
    else if k.shadow.state != .ready then .next (stopCommand s cl false .mswap Code.engine 17)
    else commandDone (setCluster s cl { k with active := k.shadow, shadow := k.active }) cl e []

/-- MZERO (R248). -/
def execMzero (acc : Coord) (rows : BitVec 11) (s : State) : Outcome :=
  let cl := turnCluster s
  match matrixEntry s cl with
  | none => .next s
  | some e =>
    if !rowsOk acc rows then .next (stopCommand s cl false (.mzero acc rows) Code.engine 16)
    else
      commandDone (updCluster s cl fun k =>
        { k with acc := (upTo rows.toNat).foldl (fun t r => Tbl.erase t (acc.toNat + r)) k.acc }) cl e []

/-- MEND (R250): it is not charged, and its entry is complete. -/
def execMend (s : State) : Outcome :=
  let cl := turnCluster s
  match matrixEntry s cl with
  | none => .next s
  | some e => if (clusterAt s cl).loading.isSome then .next s else .next (finishEntry (wordRead (engineCommit s []) e) cl false)

/-! ### MLDW (R245) -/

/-- The key of memory where a byte of an access lies. -/
def segKey (segs : List Seg) (va : Nat) : Nat :=
  match segs.find? fun g => g.va ≤ va && va < g.va + g.n with
  | some g => g.p.loc + (va - g.va)
  | none => 0

/-- The first of n scales from `va` that is poisoned or invalid: its index and the fault. -/
def badScale (s : State) (segs : List Seg) (va v n : Nat) : Option (Nat × Byte) :=
  (upTo n).findSome? fun i =>
    if memPoisoned s.mem (segKey segs (va + 4 * i)) then some (i, Code.poison)
    else if !validScale (v / 2 ^ (32 * i) % 2 ^ 32) then some (i, Code.scale)
    else none

def matrixInfo (consumed index : Nat) : W64 := BitVec.ofNat 64 (consumed * 2 ^ 16 + index * 2 ^ 8)

/-- The command has passed its checks and its scales: the weights load beside what follows (R242). -/
def startLoad (s : State) (cl : Nat) (e : Entry) (i : Instr) (w : Area) (segs : List Seg) (mode : MFmt) (scales : Nat) : State :=
  let s := updCluster s cl fun k =>
    { k with shadow := { k.shadow with state := .loading, scales := if mode == .bf16 then k.shadow.scales else BitVec.ofNat 8192 scales },
             loading := some ⟨e, i, entryAt e, BitVec.ofNat 64 w.addr, mode⟩ }
  let s := (if engineWaits s (.mldw cl) (linesOf segs) [] then registerWait else registerStart) s (.mldw cl) e.ctx (linesOf segs) []
  match e.program with
  | some _ => finishCommand s cl false
  | none => updSeq s cl false fun q => { q with command := some i, position := 1 }

/-- MLDW (R245): its checks, and its scale chunk. -/
def execMldw (wfmt : MFmt) (went sent : EReg) (woff soff : W32) (s : State) : Outcome :=
  let cl := turnCluster s
  let i : Instr := .mldw wfmt went sent woff soff
  match matrixEntry s cl with
  | none => .next s
  | some e =>
    let k := clusterAt s cl
    let w := areaOf e went woff.toNat 65536
    let sc := areaOf e sent soff.toNat 1024
    if k.loading.isSome || k.matrix.position == 1 then .next s
    else if woff.toNat % 128 != 0 || soff.toNat % 64 != 0 then .next (stopCommand s cl false i Code.engine 16)
    else
      match matrixAreas s cl e [Perm.load, Perm.engine] (if wfmt == .bf16 then [[w]] else [[w], [sc]]) with
      | .error (x, info) => .next (stopCommand s cl false i x info)
      | .ok segs =>
        let ws := segs.filter fun g => w.addr ≤ g.va && g.va < w.addr + w.n
        if wfmt == .bf16 then .next (startLoad s cl e i w ws wfmt 0)
        else
          match areasSegs s cl e.ctx false [sc] with
          | .error (x, info) => .next (stopCommand s cl false i x info)
          | .ok ss =>
            whenFree s cl e i (linesOf ss) [] fun s =>
              let v := agentBytes s ss
              match badScale s ss sc.addr v 256 with
              | some (n, x) => .next (stopCommand (updCluster (unregister s (.matrix cl)) cl fun k =>
                  { k with shadow := { k.shadow with state := .empty } }) cl false i x (matrixInfo 0 n))
              | none => .next (startLoad (engineCommit (agentTouch (unregister s (.matrix cl)) false ss) []) cl e i w ws wfmt v)

/-- The MSTRM of a cluster has started its burst. -/
def streaming (s : State) (cl : Nat) : Bool := s.registered.any fun r => r.owner == .matrix cl && r.started

/-- The weight chunk of the MLDW under way may start: nothing registered before it writes its lines (R152). -/
def loadReady (s : State) (cl : Nat) : Bool :=
  (clusterAt s cl).loading.isSome && !engineWaits s (.mldw cl) ((s.registered.filter fun r => r.owner == .mldw cl).flatMap (·.reads)) []

/-- An MSTRM that waits for a token waits no longer (R255); one in its burst gives the token up. -/
def quitStream (s : State) (cl : Nat) : State :=
  updCluster (unregister (releaseToken s cl) (.matrix cl)) cl fun k => { k with waiting := none, stall := stallNow s k, draining := false }

/-- The weight load meets a fault: the shadow plane is EMPTY and the program stops, a command of it that has not started among the rest
(R245). DESIGN CHOICE: it is reported also when the command beside it has stopped the program with a fault of its own (notes/assumptions/71.md). -/
def loadFault (s : State) (cl : Nat) (l : Loading) (code : Byte) (info : W64) : State :=
  let s := updCluster (unregister s (.mldw cl)) cl fun k => { k with shadow := { k.shadow with state := .empty }, loading := none }
  let s := reportSeq s false l.entry l.wordAt (commandTop l.cmd) code info
  if ((seqEntries (clusterAt s cl).matrix).head?.map (·.id)) == some l.entry.id then finishEntry (quitStream s cl) cl false else leaseSettle s cl

/-- The weights of an MLDW can complete: a fault of theirs waits for a stream (R245). -/
def weightsDue (s : State) (cl : Nat) : Bool :=
  match (clusterAt s cl).loading with
  | none => false
  | some l =>
    loadReady s cl && (!streaming s cl || match agentSegsFrom s (.cluster cl) l.entry.ctx l.addr.toNat 65536 true with
      | .ok _ => true
      | .error _ => false)

/-- The weight chunk of an MLDW completes (R242, R245). A fault waits for the command that runs beside it: an MSTRM in its burst, since every
other runs within a step. -/
def loadComplete (s : State) (cl : Nat) : State :=
  let k := clusterAt s cl
  match k.loading with
  | none => s
  | some l =>
    if !loadReady s cl then s
    else
      match agentSegsFrom s (.cluster cl) l.entry.ctx l.addr.toNat 65536 true with
      | .error (x, info) => if streaming s cl then s else loadFault s cl l x (if x == Code.mapFault then info else 0)
      | .ok segs =>
        let v := BitVec.ofNat 524288 (agentBytes s segs)
        let s := agentTouch (unregister s (.mldw cl)) false segs
        let s := updCluster s cl fun k =>
          { k with shadow := { k.shadow with state := .ready, mode := l.mode, weights := v }, loading := none }
        let s := engineCommit s []
        let s := chargeKernel { s with fresh := s.fresh + 1 } cl l.entry.ctx l.entry.kernel (3000 * (Config.mldwCycles s.fresh).toNat)
        let s := chargeCommand s cl l.entry
        match (seqEntries (clusterAt s cl).matrix).head? with
        | some e => if e.id == l.entry.id && e.program.isNone then finishEntry s cl false else leaseSettle s cl
        | none => leaseSettle s cl

/-- MLDW_WEIGHTS_COMPLETE (R245). -/
def execMldwWeightsComplete (cl : BitVec 7) (s : State) : Outcome := .next (loadComplete s cl.toNat)

/-! ### MSTRM (R247, R255, R256) -/

/-- An MSTRM with its fields. -/
structure Stream where
  afmt : MFmt
  aent : EReg
  sent : EReg
  aoff : W32
  soff : W32
  astride : BitVec 16
  acc : Coord
  rows : BitVec 11
  rowoff : BitVec 11
  deriving DecidableEq, Repr

def streamInstr (m : Stream) : Instr := .mstrm m.afmt m.aent m.sent m.aoff m.soff m.astride m.acc m.rows m.rowoff

def rowSize (f : MFmt) : Nat := if f == .bf16 then 512 else 256

def actRow (e : Entry) (m : Stream) (r : Nat) : Area := areaOf e m.aent (m.aoff.toNat + r * m.astride.toNat) (rowSize m.afmt)
def scaleRow (e : Entry) (m : Stream) (r : Nat) : Area := areaOf e m.sent (m.soff.toNat + 64 * r) 64

/-- The rows rowoff to rows − 1. -/
def streamRows (m : Stream) : List Nat := (upTo m.rows.toNat).filter fun r => m.rowoff.toNat ≤ r

/-- Steps 1 to 3 of R243 for an MSTRM: the fault and its cause. -/
def streamFields (k : Cluster) (m : Stream) : Option Nat :=
  if !rowsOk m.acc m.rows || m.rows.toNat < m.rowoff.toNat || m.aoff.toNat % 64 != 0 || m.soff.toNat % 64 != 0 ||
      m.astride.toNat % 64 != 0 || m.astride.toNat < rowSize m.afmt then some 16
  else if k.active.state != .ready then some 17
  else
    let ok : Bool :=
      match m.afmt, k.active.mode with
      | .int8, .int8 => true
      | .bf16, .bf16 => true
      | .e4m3, x => x == .e4m3 || x == .e5m2
      | .e5m2, x => x == .e4m3 || x == .e5m2
      | _, _ => false
    if ok then none else some 18

/-- What a row does: the state with the row accumulated, or the fault with its information word. -/
def streamRow (s : State) (cl : Nat) (e : Entry) (m : Stream) (r : Nat) : Attempt State :=
  let a := actRow e m r
  let sc := scaleRow e m r
  let scales : Attempt Nat :=
    if m.afmt == .bf16 then .ok 0
    else
      match agentSegsFrom s (.cluster cl) e.ctx sc.addr 64 false with
      | .error (x, i) => .error (x, if x == Code.mapFault then i else matrixInfo r 0)
      | .ok g =>
        let v := agentBytes s g
        match badScale s g sc.addr v 16 with
        | some (n, x) => .error (x, matrixInfo r n)
        | none => .ok v
  match scales with
  | .error e => .error e
  | .ok sv =>
    match agentSegsFrom s (.cluster cl) e.ctx a.addr a.n true with
    | .error (x, i) => .error (x, if x == Code.mapFault then i else matrixInfo r 0)
    | .ok g =>
      let v := agentBytes s g
      let s := agentTouch s false g
      let s := if m.afmt == .bf16 then s else (match agentSegsFrom s (.cluster cl) e.ctx sc.addr 64 false with | .ok g => agentTouch s false g | .error _ => s)
      .ok (updCluster s cl fun k => { k with acc := Tbl.update 0 k.acc (m.acc.toNat + r) (accumulate m.afmt k.active v sv),
                                             matrix := { k.matrix with done := k.matrix.done + 1 } })

/-- The end of a burst: its energy, its token, its chunk (R198, R255, R256). -/
def burstEnd (s : State) (cl : Nat) (e : Entry) (m : Stream) : State :=
  let rows := (clusterAt s cl).matrix.done.toNat
  let s := chargeKernel s cl e.ctx e.kernel (3000 * ((if m.afmt == .bf16 then 2 else 1) * rows + 288))
  updCluster (engineCommit (unregister (releaseToken s cl) (.matrix cl)) []) cl fun k =>
    { k with draining := false, matrix := { k.matrix with done := 0 } }

/-- A stop records CONSUMED in MXSTAT (R256). -/
def noteConsumed (s : State) (cl r : Nat) : State := updCluster s cl fun k => { k with consumed := BitVec.ofNat 11 r, draining := false }

/-- A SCALE or POISON stops the stream: it drains, and the program stops (R256). -/
def streamStop (s : State) (cl : Nat) (e : Entry) (m : Stream) (r : Nat) (code : Byte) (info : W64) : State :=
  stopCommand (burstEnd (noteConsumed s cl r) cl e m) cl false (streamInstr m) code info

/-- Stream rows in order until one stops or none is left. -/
def streamAll (s : State) (cl : Nat) (e : Entry) (m : Stream) : List Nat → State
  | [] => finishCommand (chargeCommand (burstEnd s cl e m) cl e) cl false
  | r :: rest =>
    match streamRow s cl e m r with
    | .error (x, i) => streamStop s cl e m r x i
    | .ok t => streamAll t cl e m rest

/-- One row of a stream that runs step by step: the command is rewritten to the rows that are left. -/
def streamOne (s : State) (cl : Nat) (e : Entry) (m : Stream) : State :=
  match streamRows m with
  | [] => finishCommand (chargeCommand (burstEnd s cl e m) cl e) cl false
  | r :: _ =>
    match streamRow s cl e m r with
    | .error (x, i) => streamStop s cl e m r x i
    | .ok t => updSeq t cl false fun q => { q with command := some (streamInstr { m with rowoff := BitVec.ofNat 11 (r + 1) }) }

/-- MSTRM once it holds its token. -/
def streamRun (s : State) (cl : Nat) (e : Entry) (m : Stream) : State :=
  if s.eager then streamAll s cl e m (streamRows m) else streamOne s cl e m

/-- Steps 4 and 5 of R243 for an MSTRM: the parts of its rows. -/
def streamSegs (s : State) (cl : Nat) (e : Entry) (m : Stream) : Attempt (List Seg) :=
  matrixAreas s cl e [Perm.load, Perm.engine]
    (if m.afmt == .bf16 then [(streamRows m).map (actRow e m)] else [(streamRows m).map (actRow e m), (streamRows m).map (scaleRow e m)])

/-- An MSTRM that holds its token starts once nothing registered before it writes its rows (R152, R242), and then streams. -/
def streamStart (s : State) (cl : Nat) (e : Entry) (m : Stream) : Outcome :=
  if streaming s cl then .next (streamRun s cl e m)
  else
    let lines := match streamSegs s cl e m with | .ok g => linesOf g | .error _ => []
    whenFree s cl e (streamInstr m) lines [] fun s => .next (streamRun (registerStart s (.matrix cl) e.ctx lines []) cl e m)

/-- MSTRM (R247): its checks, its wait for a token, its place in the arbiter's order, and its burst. -/
def execMstrm (afmt : MFmt) (aent sent : EReg) (aoff soff : W32) (astride : BitVec 16) (acc : Coord) (rows rowoff : BitVec 11) (s : State) : Outcome :=
  let cl := turnCluster s
  let m : Stream := ⟨afmt, aent, sent, aoff, soff, astride, acc, rows, rowoff⟩
  match matrixEntry s cl with
  | none => .next s
  | some e =>
    let k := clusterAt s cl
    if k.token then streamStart s cl e m
    else if k.waiting.isSome then .next s
    else
      match streamFields k m with
      | some n => .next (stopCommand s cl false (streamInstr m) Code.engine (BitVec.ofNat 64 n))
      | none =>
        match streamSegs s cl e m with
        | .error (x, i) => .next (stopCommand s cl false (streamInstr m) x i)
        | .ok _ =>
          if rows == rowoff then commandDone s cl e []
          else .next (updSeq (updCluster s cl fun k => { k with waiting := some s.cycle }) cl false fun q => { q with command := some (streamInstr m), done := 0 })

/-- A drain of the running MSTRM (R256): CONSUMED is recorded, the token goes on, and the rows read commit, charged as a command's chunk
(R253); the command is left at rowoff = CONSUMED. A stream that has not started stops waiting. -/
def drainStream (s : State) (cl : Nat) : State :=
  let k := clusterAt s cl
  match k.matrix.command, (seqEntries k.matrix).head? with
  | some (.mstrm af ae se ao so st acc rows off), some e =>
    if streaming s cl then chargeCommand (burstEnd (noteConsumed s cl off.toNat) cl e ⟨af, ae, se, ao, so, st, acc, rows, off⟩) cl e
    else if k.token || k.waiting.isSome then quitStream (noteConsumed s cl off.toNat) cl
    else s
  | _, _ => s

/-- A sequencer that a gang switch has stopped drains its MSTRM (R256, R257). -/
def drainDue (s : State) (cl : Nat) : Bool :=
  let k := clusterAt s cl
  headSaving k.matrix && (match k.matrix.command with | some (.mstrm ..) => true | _ => false) && (streaming s cl || k.token || k.waiting.isSome)

/-- DRAIN (R256). -/
def execDrain (cl : BitVec 7) (s : State) : Outcome := .next (drainStream s cl.toNat)

/-! ### MSTORE (R249) -/

/-- One output row of an accumulator row. -/
def storeRow (f : OFmt) (nosat : Bool) (acc : BitVec 8192) : Nat :=
  elemsPack (8 * outSize f) ((splitBits 32 acc.toNat 256).map (outConvert f nosat))

/-- MSTORE (R249). -/
def execMstore (ofmt : OFmt) (nosat clear : Bool) (dent : EReg) (doff : W32) (dstride : BitVec 16) (acc : Coord) (rows : BitVec 11) (s : State) : Outcome :=
  let cl := turnCluster s
  let i : Instr := .mstore ofmt nosat clear dent doff dstride acc rows
  let b := 256 * outSize ofmt
  match matrixEntry s cl with
  | none => .next s
  | some e =>
    if !rowsOk acc rows || doff.toNat % 64 != 0 || dstride.toNat % 64 != 0 || dstride.toNat < b then .next (stopCommand s cl false i Code.engine 16)
    else
      let area (r : Nat) : Area := areaOf e dent (doff.toNat + r * dstride.toNat) b
      match matrixAreas s cl e [Perm.store, Perm.engine] [(upTo rows.toNat).map area] with
      | .error (x, info) => .next (stopCommand s cl false i x info)
      | .ok segs =>
        whenFree s cl e i [] (linesOf segs) fun s =>
          let s := (upTo rows.toNat).foldl (fun s r =>
            match agentSegsFrom s (.cluster cl) e.ctx (area r).addr b false with
            | .error _ => s
            | .ok g => agentTouch (agentPut s (storeRow ofmt nosat (Tbl.get 0 (clusterAt s cl).acc (acc.toNat + r))) g) true g) s
          let s := if clear then updCluster s cl fun k =>
            { k with acc := (upTo rows.toNat).foldl (fun t r => Tbl.erase t (acc.toNat + r)) k.acc } else s
          commandDone s cl e (linesOf segs)

end Sys2Proof.Machine
end

