-- ==== Sys2Proof/Machine/Copy.lean ====
section
/-! DEFINITION. The copy engine: checks (R264, R265), engine chunks and tags (R266, R267), the commands (R268 to R273), sync words
(R274), stops (R275, R276), the warming of ranges (R312) and the event COPY_ENGINE_CHUNK. A command meaning acts on the copy
sequencer of the cluster of the agent whose turn it is; its position is that of its next chunk. -/

namespace Sys2Proof.Machine

/-! ### Sync words (R274) -/

/-- Count n bytes in the contents of a sync word: TARGET in bits 31:0, COUNT in 63:32, GEN in 95:64. -/
def syncCount (w n : Nat) : Nat :=
  let target := w % 2 ^ 32
  if target == 0 then w
  else
    let total := w / 2 ^ 32 % 2 ^ 32 + n
    let gen := (w / 2 ^ 64 % 2 ^ 32 + total / target) % 2 ^ 32
    target + total % target * 2 ^ 32 + gen * 2 ^ 64 + w / 2 ^ 96 * 2 ^ 96

/-- Count n bytes into the sync word at these parts, which the chunk reads, and writes unless it is disarmed (R284, R288, R291). -/
def countInto (s : State) (g : List Seg) (n : Nat) : State :=
  let w := agentBytes s g
  let armed := w % 2 ^ 32 != 0
  let t := agentTouch s armed g
  if armed then agentPut t (syncCount w n) g else t

/-! ### Checks (R265) -/

def copyInfo (done : W32) (cause : Nat) : W64 := (done.setWidth 64) <<< 32 ||| BitVec.ofNat 64 cause

def stopCopy (s : State) (cl : Nat) (i : Instr) (code : Byte) (info : W64) : State :=
  stopCommand (unregister s (.copy cl)) cl true i code info

/-- Where a sequencer's entry acts from: the cluster of its core (R261). -/
def entryOrigin (e : Entry) : Origin := .cluster (clusterOf e.core.toNat)

/-- The pages of an area, each translated: MAPFAULT with its cause, cause 6 for an uncached target (R265 step 4). DESIGN CHOICE: step 4 goes
area by area in the order of step 3, and in an area a translation that fails comes before an uncached target (notes/assumptions/60.md). -/
def areaPlaces (s : State) (e : Entry) (a : Area) : Attempt (List Place) :=
  match transParts s e.ctx (entryOrigin e) (pageParts a.addr a.n (a.n / 65536 + 2)) with
  | .error (c, ia) => .error (Code.mapFault, mapInfo c ia)
  | .ok l =>
    match l.find? fun x => x.2.2.isNone, l.findSome? fun x => x.2.2.bind fun p => if p.uncached then some p else none with
    | _, some p => .error (Code.mapFault, mapInfo 6 p.ia)
    | some _, none => .error (Code.poison, 0)
    | none, none => .ok (l.filterMap fun x => x.2.2)

/-- Every area translates. -/
def areasMapped (s : State) (e : Entry) (l : List Area) : Option (Byte × W64) :=
  l.findSome? fun a => match areaPlaces s e a with | .error e => some e | .ok _ => none

/-- An area lies wholly in memory of clusters, of one cluster when it is named. -/
def inClusters (s : State) (e : Entry) (cl : Option Nat) (a : Area) : Option (Byte × W64) :=
  match areaPlaces s e a with
  | .error f => some f
  | .ok l =>
    (l.find? fun p => !(isClusterMem p.loc && (match cl with | some k => clusterOfKey p.loc == k | none => true))).map fun p =>
      (Code.mapFault, mapInfo 7 p.ia)

/-- The sync word of a command. -/
def syncArea (e : Entry) (y : SyncRef) : List Area := if y.on then [areaOf e y.yent y.yoff.toNat 16] else []

def syncPerms : List Nat := [Perm.load, Perm.store, Perm.engine]

/-- The first failing capability check. -/
def capFault (f : Option Byte) : Option (Byte × W64) := f.map fun x => (x, 0)

/-- Steps 3 and 4 for plain areas: sources, then the destination, then the sync word. -/
def copyAreas (s : State) (e : Entry) (src dst : List Area) (y : SyncRef) : Option (Byte × W64) :=
  (capFault (areasCheck 1 [Perm.load, Perm.engine] src)).or
    ((capFault (areasCheck 1 [Perm.store, Perm.engine] dst)).or
      ((capFault (areasCheck 16 syncPerms (syncArea e y))).or
        ((areasMapped s e src).or
          ((areasMapped s e dst).or ((syncArea e y).findSome? (inClusters s e none))))))

/-- TAGS needs multiples of 16 (R265 step 2). -/
def tagShape (tags : Bool) (l : List Nat) : Option (Byte × W64) := if tags && l.any (fun x => x % 16 != 0) then some (Code.engine, 33) else none

def fieldFault (bad : Bool) : Option (Byte × W64) := if bad then some (Code.engine, 32) else none

/-! ### One engine chunk (R266, R267) -/

/-- A unit keeps its tag on its way from one capability's memory to another's (R267). -/
def unitKeeps (s : State) (ctx : BitVec 12) (src dst : Cap) (c : Cap) : Bool :=
  c.tag && capHas src Perm.loadCap && capHas dst Perm.storeCap && (capHas c Perm.global || capHas dst Perm.storeLocal) && (scrubCap s ctx c).tag

/-- The tags of the units of some parts, the first lowest. -/
def agentTags (s : State) : List Seg → Nat
  | [] => 0
  | g :: r =>
    let n := g.n / 16
    (cohLine s g.p.key g.p.ia g.p.loc).tags.toNat / 2 ^ (g.p.ia % 128 / 16) % 2 ^ n + 2 ^ n * agentTags s r

/-- The tags that n units of v keep. -/
def keptTags (s : State) (ctx : BitVec 12) (src dst : Cap) (v tags : Nat) (n : Nat) : Nat :=
  (upTo n).foldl (fun t i =>
    if unitKeeps s ctx src dst ⟨tags / 2 ^ i % 2 == 1, BitVec.ofNat 128 (v / 2 ^ (128 * i))⟩ then t + 2 ^ i else t) 0

/-- A place in a reduction page: its group (R349). -/
def reductionOf (loc : Nat) : Option Nat := if 2 ^ 65 ≤ loc && 0xe00 ≤ loc / 2 ^ 65 - 1 then some (loc / 2 ^ 65 - 1 - 0xe00) else none

/-- A JVX port (R339). -/
def isJvx (n : Nat) : Bool := 2 ≤ n && n < 20

/-- Some member is a JVX partner that has agreed version 1 of the link protocol alone: it receives no reduction packets (R340). -/
def oldMember (s : State) (members : List Nat) : Bool :=
  (upTo 24).any fun n =>
    let p := Tbl.get Port.reset s.ports n
    isJvx n && p.state == .active && p.version == 1 && members.contains (Config.jvxPartner n)

/-- Some JVX port runs version 2 of the link protocol, which reductions need (R340, R349). -/
def reductionLink (s : State) : Bool :=
  (upTo 24).any fun n =>
    let p := Tbl.get Port.reset s.ports n
    isJvx n && p.state == .active && p.version == 2

/-- The bytes of a part become contributions at their page offset (R349); without a link of version 2 none are sent, nor to a group with a
member that takes no reduction packets (R340). -/
def contribute (s : State) (ctx : BitVec 12) (sync : Option W64) (group off n v : Nat) : State :=
  match Tbl.find s.reductions group with
  | none => s
  | some r =>
    let put (t : Tbl Contribution) (j : Nat) : Tbl Contribution :=
      let at_ := off + j
      Tbl.update ⟨0, 0, ctx, sync⟩ t (at_ / 64) fun c =>
        let sh := 8 * (at_ % 64)
        { c with data := (c.data &&& ~~~ (255#512 <<< sh)) ||| (BitVec.ofNat 512 (v / 2 ^ (8 * j) % 256) <<< sh),
                 mask := c.mask ||| (1#64 <<< (at_ % 64)), ctx := ctx, sync := sync }
    if !reductionLink s || oldMember s r.members then s
    else { s with reductions := Tbl.set s.reductions group { r with contrib := (upTo n).foldl put r.contrib } }

/-- The command that runs is a CPY: it alone contributes to reductions (R349). -/
def cpyRuns (s : State) (cl : Nat) : Bool :=
  match (clusterAt s cl).copy.command with
  | some (.cpy ..) => true
  | _ => false

/-- The reduction group that a part of the running command's destination goes to. -/
def groupOf (cpy : Bool) (g : Seg) : Option Nat := if cpy then reductionOf g.p.loc else none

/-- Write the parts of a chunk's destination with their tags. -/
def copyPut (s : State) (cpy : Bool) (ctx : BitVec 12) (sync : Option W64) (v tags : Nat) : List Seg → State
  | [] => s
  | g :: r =>
    let units := (g.n + 15) / 16
    let t :=
      match groupOf cpy g with
      | some k => contribute s ctx sync k (g.p.loc % 65536) g.n (v % 2 ^ (8 * g.n))
      | none =>
        let s := tlbFill (enginePage s g.p) g.p
        let b : LineBuf := { bufWrite (g.p.ia % 128) g.n v false with tags := BitVec.ofNat 8 (tags % 2 ^ units * 2 ^ (g.p.ia % 128 / 16)) }
        markPage (writeHome s g.p b) (g.p.ia / 2 ^ 16) true
    copyPut t cpy ctx sync (v / 2 ^ (8 * g.n)) (tags / 2 ^ units) r

/-- A chunk: the byte ranges it reads, those it writes, and how many bytes it counts. -/
structure Plan where
  src : List (Nat × Nat)
  dst : List (Nat × Nat)
  count : Nat
  deriving DecidableEq, Repr

/-- The parts of several ranges, one list each. -/
def rangesSegs (s : State) (e : Entry) (reading : Bool) : List (Nat × Nat) → Attempt (List (List Seg))
  | [] => .ok []
  | (a, n) :: r =>
    match agentSegsFrom s (entryOrigin e) e.ctx (a % 2 ^ 64) n reading, rangesSegs s e reading r with
    | .error f, _ => .error f
    | _, .error f => .error f
    | .ok x, .ok y => .ok (x :: y)

/-- How a chunk's units take their tags: none, or by the source's and the destination's capability. -/
abbrev TagRule := Option (Cap × Cap)

/-- What a chunk came to. -/
inductive ChunkRun
  | done (s : State)
  | waits (s : State)
  | stopped (code : Byte) (info : W64)

/-- Write several ranges, each with its value and tags. -/
def putRanges (s : State) (cpy : Bool) (ctx : BitVec 12) (sync : Option W64) : List (List Seg × Nat × Nat) → State
  | [] => s
  | (g, v, t) :: r => putRanges (copyPut s cpy ctx sync v t g) cpy ctx sync r

/-- Units that the parts of a chunk cover together lose their poison (R360). -/
def cureTogether (s : State) (segs : List Seg) : State :=
  let cover (t : Tbl LineBuf) (g : Seg) : Tbl LineBuf :=
    Tbl.set t (g.p.loc / 128) (bufOver (Tbl.get LineBuf.empty t (g.p.loc / 128)) (bufWrite (g.p.loc % 128) g.n 0 false))
  (segs.foldl cover []).foldl (fun s x => curePoison s (x.1 * 128) x.2) s

/-- Perform one engine chunk of the copy sequencer (R152, R266 to R268, R274): it waits for older registered chunks, reads every
source as memory stands, writes, counts and commits. `f` makes the values written from those read. -/
def runChunk (s : State) (cl : Nat) (e : Entry) (plan : Plan) (y : List Area) (tags : TagRule) (f : List Nat → List Nat) : ChunkRun :=
  let done := (clusterAt s cl).copy.done
  let stop (x : Byte × W64) : ChunkRun := .stopped x.1 (if x.1 == Code.mapFault then x.2 else copyInfo done 0)
  match rangesSegs s e false plan.src, rangesSegs s e false plan.dst, rangesSegs s e false (y.map fun a => (a.addr, a.n)) with
  | .error x, _, _ => stop x
  | _, .error x, _ => stop x
  | _, _, .error x => stop x
  | .ok src, .ok dst, .ok sy =>
    let sl := linesOf sy.flatten
    let reads := linesOf src.flatten ++ sl
    let writes := linesOf dst.flatten ++ sl
    if engineWaits s (.copy cl) reads writes then .waits (registerWait s (.copy cl) e.ctx reads writes)
    else
      match rangesSegs s e true plan.src, rangesSegs s e true (y.map fun a => (a.addr, a.n)) with
      | .error x, _ => stop x
      | _, .error x => stop x
      | .ok _, .ok _ =>
        let vals := f (src.map (agentBytes s))
        let out := List.zipWith (fun (g : List Seg) (v : Nat) => (g, v)) dst vals
        let kept (i : Nat) (v : Nat) : Nat :=
          match tags with
          | some (a, b) => keptTags s e.ctx a b v (agentTags s (src.getD i [])) ((plan.src.getD i (0, 0)).2 / 16)
          | none => 0
        let items := (List.zip (upTo out.length) out).map fun x => (x.2.1, x.2.2, kept x.1 x.2.2)
        let sync := (y.head?).map fun a => BitVec.ofNat 64 a.addr
        let cpy := cpyRuns s cl
        let here := dst.flatten.filter fun g => (groupOf cpy g).isNone
        let reduced := here.length != dst.flatten.length
        let t := unregister s (.copy cl)
        let t := putRanges (agentTouch t false src.flatten) cpy e.ctx sync items
        let t := agentTouch (cureTogether t here) true here
        let t := if reduced then t else sy.foldl (fun t g => countInto t g plan.count) t
        let moved := plan.dst.foldl (fun n r => n + r.2) 0
        let t := bump (chargeKernel t cl e.ctx e.kernel (400 * ((moved + 63) / 64))) cl 4 moved
        .done (engineCommit t writes)

/-- The chunk's bytes have moved: the position and DONE go on. -/
def advance (s : State) (cl : Nat) (pos count : Nat) : State :=
  updSeq s cl true fun q => { q with position := pos, done := q.done + BitVec.ofNat 32 count }

/-- Run a chunk of a command and go on: `last` says that the command is then complete. -/
def chunkThen (s : State) (cl : Nat) (i : Instr) (r : ChunkRun) (pos count : Nat) (last : Bool) : State :=
  match r with
  | .waits t => t
  | .stopped x info => stopCopy s cl i x info
  | .done t => let t := advance t cl pos count; if last then finishCommand t cl true else t

/-- How far a chunk from an address goes: to the next multiple of 2,048, or n bytes. -/
def cutAt (a n : Nat) : Nat := min n (2048 - a % 2048)

/-! ### The chunks of each command -/

/-- CPY (R268). -/
def cpyChunk (s : State) (cl : Nat) (e : Entry) (i : Instr) (tags : Bool) (d sr : Area) (y : List Area) : State :=
  let p := (clusterAt s cl).copy.position
  let n := cutAt (d.addr + p) (d.n - p)
  chunkThen s cl i (runChunk s cl e ⟨[(sr.addr + p, n)], [(d.addr + p, n)], n⟩ y (if tags then some (sr.cap, d.cap) else none) id)
    (p + n) n (d.n ≤ p + n)

/-- CPY2D (R268): the position counts the bytes of whole rows and of the row under way. -/
def cpy2dChunk (s : State) (cl : Nat) (e : Entry) (i : Instr) (tags : Bool) (d sr : EReg) (doff soff : W32) (rows rowlen ss ds : Nat) (y : List Area) : State :=
  let p := (clusterAt s cl).copy.position
  let r := p / rowlen
  let off := p % rowlen
  let da := areaOf e d (doff.toNat + r * ds + off) 0
  let sa := areaOf e sr (soff.toNat + r * ss + off) 0
  let n := cutAt da.addr (rowlen - off)
  chunkThen s cl i (runChunk s cl e ⟨[(sa.addr, n)], [(da.addr, n)], n⟩ y (if tags then some (sa.cap, da.cap) else none) id)
    (p + n) n (rows * rowlen ≤ p + n)

/-- The elements from `k` on whose destinations start in one 2,048-byte block. -/
def gatherRun (d es k count : Nat) : Nat :=
  let a := d + es * k
  min (count - k) ((2048 - a % 2048 + es - 1) / es)

/-- The size of a CPYG element. -/
def gatherSize (esize : BitVec 2) : Nat := if esize == 3 then 64 else 4 * 2 ^ esize.toNat

/-- CPYG (R269): the position counts elements. -/
def cpygChunk (s : State) (cl : Nat) (e : Entry) (i : Instr) (tags : Bool) (d : Area) (sr : EReg) (soff : W32) (es count : Nat) (y : List Area) : State :=
  let q := (clusterAt s cl).copy
  let k := q.position
  let m := gatherRun d.addr es k count
  let src := (upTo m).map fun j => ((areaOf e sr (soff.toNat + (q.offsets.getD (k + j) 0).toNat) es).addr, es)
  let dst := (upTo m).map fun j => (d.addr + es * (k + j), es)
  chunkThen s cl i (runChunk s cl e ⟨src, dst, es * m⟩ y (if tags then some (entryCap e sr, d.cap) else none) id)
    (k + m) (es * m) (count ≤ k + m)

/-- n bytes of CFILL's pattern from byte p on (R270). -/
def fillBytes (val : W32) (p : Nat) : Nat → Nat
  | 0 => 0
  | n + 1 => val.toNat / 2 ^ (8 * (p % 4)) % 256 + 256 * fillBytes val (p + 1) n

/-- CFILL (R270). -/
def cfillChunk (s : State) (cl : Nat) (e : Entry) (i : Instr) (d : Area) (val : W32) (y : List Area) : State :=
  let p := (clusterAt s cl).copy.position
  let n := cutAt (d.addr + p) (d.n - p)
  chunkThen s cl i (runChunk s cl e ⟨[], [(d.addr + p, n)], n⟩ y none fun _ => [fillBytes val p n]) (p + n) n (d.n ≤ p + n)

/-- CSYNC (R273): TARGET is written and COUNT cleared; GEN stays. -/
def csyncChunk (s : State) (cl : Nat) (e : Entry) (i : Instr) (target : W32) (y : Area) : State :=
  chunkThen s cl i (runChunk s cl e ⟨[], [(y.addr, 8)], 0⟩ [] none fun _ => [target.toNat]) 1 0 true

/-! ### CPYU (R271) -/

/-- The released key of a slot (R265 step 5, R332). -/
def modelKey (s : State) (ctx : BitVec 12) (slot : Byte) : Option (List Nat) :=
  match Tbl.get .empty s.keys slot.toNat with
  | .model o k => if o == ctx then some (bytesOf k.toNat 32) else none
  | _ => none

/-- Take ciphertext into the authentication value, whole blocks first. -/
def unsealFeed (h : Nat) (u : Unseal) (text : List Nat) : Unseal :=
  let all := u.rest.map (·.toNat) ++ text
  let k := all.length / 16
  let y := (piecesOf 16 (all.take (16 * k)) k).foldl (fun y b => ghashMul (Nat.xor y (bytesValBE b)) h 0 128) u.hash.toNat
  { u with hash := BitVec.ofNat 128 y, rest := (all.drop (16 * k)).map (BitVec.ofNat 8 ·) }

def gcmSubkey (key : List Nat) : Nat := bytesValBE (aesEncrypt key (List.replicate 16 0))

/-- The key that a CPYU has read, as bytes. -/
def unsealKey (u : Unseal) : List Nat := bytesOf u.key.toNat 32

/-- Begin: the key, and the blob's first 16 bytes, which are the additional data. -/
def unsealStart (key : List Nat) (head : Nat) : Unseal :=
  unsealFeed (gcmSubkey key) ⟨BitVec.ofNat 256 (bytesVal key), BitVec.ofNat 128 head, 0, []⟩ (bytesOf head 16)

/-- The tag over what has been taken in. -/
def unsealTag (key : List Nat) (u : Unseal) (len : Nat) : Nat :=
  let h := gcmSubkey key
  let last := padded (u.rest.map (·.toNat)) ++ bytesOfBE 128 8 ++ bytesOfBE (8 * len) 8
  let v := unsealFeed h { u with rest := [] } last
  bytesVal (bytesXor (bytesOfBE v.hash.toNat 16) (aesEncrypt key ((bytesOf u.head.toNat 12) ++ [0, 0, 0, 1])))

/-- Ciphertext from byte `off` of the text on, decrypted. -/
def unsealText (key : List Nat) (u : Unseal) (off n v : Nat) : Nat :=
  bytesVal ((gcmCrypt key (bytesOf u.head.toNat 12) (off / 16) (List.replicate (off % 16) 0 ++ bytesOf v n)).drop (off % 16) |>.take n)

/-- A chunk of CPYU's plaintext from byte p on; `extra` is what it reads besides the ciphertext. -/
def cpyuText (s : State) (cl : Nat) (e : Entry) (i : Instr) (d sr : Area) (u : Unseal) (p : Nat) (extra : List (Nat × Nat)) : State :=
  let n := cutAt (d.addr + p) (d.n - p)
  let text := match rangesSegs s e true [(sr.addr + 16 + p, n)] with | .ok g => agentBytes s g.flatten | .error _ => 0
  match runChunk s cl e ⟨extra ++ [(sr.addr + 16 + p, n)], [(d.addr + p, n)], n⟩ [] none fun _ => [unsealText (unsealKey u) u p n text] with
  | .waits t => t
  | .stopped x info => stopCopy s cl i x info
  | .done t => updSeq (advance t cl (p + n) n) cl true fun q => { q with gcm := unsealFeed (gcmSubkey (unsealKey u)) u (bytesOf text n) }

/-- CPYU's first chunk: L and the key are read, once (R271). -/
def cpyuFirst (s : State) (cl : Nat) (e : Entry) (i : Instr) (d sr : Area) (slot : Byte) : State :=
  match modelKey s e.ctx slot, rangesSegs s e true [(sr.addr, 16)] with
  | none, _ => stopCopy s cl i Code.engine (copyInfo 0 34)
  | some _, .error _ => chunkThen s cl i (runChunk s cl e ⟨[(sr.addr, 16)], [], 0⟩ [] none id) 0 0 false
  | some key, .ok g =>
    let head := agentBytes s g.flatten
    if engineWaits s (.copy cl) (linesOf g.flatten) [] then registerWait s (.copy cl) e.ctx (linesOf g.flatten) []
    else if head / 2 ^ 96 != d.n then stopCopy s cl i Code.engine (copyInfo 0 35)
    else cpyuText s cl e i d sr (unsealStart key head) 0 [(sr.addr, 16)]

/-- CPYU's chunk behind the text: the verification and the count. -/
def cpyuVerify (s : State) (cl : Nat) (e : Entry) (i : Instr) (d sr : Area) (y : List Area) : State :=
  let q := (clusterAt s cl).copy
  let len := d.n
  match rangesSegs s e true [(sr.addr + 16 + len, 16)] with
  | .error (x, info) => stopCopy s cl i x (if x == Code.mapFault then info else copyInfo q.done 0)
  | .ok g =>
    if unsealTag (unsealKey q.gcm) q.gcm len == agentBytes s g.flatten then
      chunkThen s cl i (runChunk s cl e ⟨[(sr.addr + 16 + len, 16)], [], len⟩ y none id) (len + 1) 0 true
    else if engineWaits s (.copy cl) (linesOf g.flatten) [] then registerWait s (.copy cl) e.ctx (linesOf g.flatten) []
    else advance (unregister s (.copy cl)) cl (len + 1) 0

/-- CPYU's next chunk: plaintext to position len, the verification at len, and after a tag that does not match the zeroing chunks. -/
def cpyuChunk (s : State) (cl : Nat) (e : Entry) (i : Instr) (d sr : Area) (slot : Byte) (y : List Area) : State :=
  let q := (clusterAt s cl).copy
  let len := d.n
  let p := q.position
  if p == 0 then cpyuFirst s cl e i d sr slot
  else if p < len then cpyuText s cl e i d sr q.gcm p []
  else if p == len then cpyuVerify s cl e i d sr y
  else
    let off := p - len - 1
    if len ≤ off then stopCopy s cl i Code.engine (copyInfo q.done 36)
    else
      let n := cutAt (d.addr + off) (len - off)
      chunkThen s cl i (runChunk s cl e ⟨[], [(d.addr + off, n)], n⟩ [] none fun _ => [0]) (p + n) n false

/-! ### CPFR and PFRANGE (R272, R312) -/

/-- A piece that a warming may bring into its leaf: mapped, resident, cached and coherent. -/
def warmPlace (s : State) (e : Entry) (va : Nat) : Option Place :=
  match transVa s e.ctx (entryOrigin e) (va % 2 ^ 64) with
  | .ok p => if p.uncached || isHost p.loc || 2 ^ 65 ≤ p.loc || nonCoherentLine (ctxOf s e.ctx) (p.ia / 128) then none else some p
  | _ => none

/-- Bring one 64-byte piece into its leaf; one that no cache holds is skipped while a core, or the host, holds its line modified. -/
def warmPiece (s : State) (e : Entry) (va : Nat) : State :=
  match warmPlace s e va with
  | some p =>
    let pc := pathCtx p e.ctx
    let line := p.ia / 128
    if (pieceWay s p.ia).isNone && ((dirtyLine s line).isSome || Tbl.get 0 s.hostHolds line == 2) then s
    else fetchPiece s (ctxOf s pc) pc p.key (p.ia / 64 * 64) (p.loc / 64 * 64)
  | none => s

/-- The pieces of [a, a + n), ascending. -/
def warmRange (s : State) (e : Entry) (a n : Nat) : State :=
  (upTo ((a + n + 63) / 64 - a / 64)).foldl (fun s k => warmPiece s e ((a / 64 + k) * 64)) s

/-- The home slice holds requests to the page of some piece (R294). -/
def warmHeld (s : State) (e : Entry) (a n : Nat) : Bool :=
  (upTo ((a + n + 63) / 64 - a / 64)).any fun k => match warmPlace s e ((a / 64 + k) * 64) with | some p => pageHeld s p.ia | none => false

/-- The source of a CPFR: an engine table entry, or what PFRANGE carried. -/
def cpfrSource (e : Entry) (src : EReg) (soff n : Nat) : Area :=
  match e.range with
  | some c => ⟨c, (addrOf c + soff) % 2 ^ 64, n⟩
  | none => areaOf e src soff n

/-- CPFR's next chunk. -/
def cpfrChunk (s : State) (cl : Nat) (e : Entry) (i : Instr) (a : Area) (bar : Bool) (ch : Nat) (y : List Area) : State :=
  let p := (clusterAt s cl).copy.position
  let n := cutAt (a.addr + p) (a.n - p)
  let last := decide (a.n ≤ p + n)
  if warmHeld s e (a.addr + p) n then s
  else match runChunk s cl e ⟨[], [], n⟩ y none id with
  | .waits t => t
  | .stopped x info => stopCopy s cl i x info
  | .done t =>
    let t := warmRange t e (a.addr + p) n
    let t := chargeKernel t cl e.ctx e.kernel (400 * ((n + 63) / 64))
    let t := if bar && last then arriveAt t e.core.toNat ch else t
    chunkThen s cl i (.done t) (p + n) n last

/-! ### The copy sequencer -/

/-- The next chunk of the running command. -/
def copyStep (s : State) (cl : Nat) : State :=
  match (clusterAt s cl).copy.command, (seqEntries (clusterAt s cl).copy).head? with
  | some i, some e =>
    (match i with
     | .cpy tags dst src doff soff len y => cpyChunk s cl e i tags (areaOf e dst doff.toNat len.toNat) (areaOf e src soff.toNat len.toNat) (syncArea e y)
     | .cpy2d tags dst src doff soff rows rowlen ss ds y => cpy2dChunk s cl e i tags dst src doff soff rows.toNat rowlen.toNat ss.toNat ds.toNat (syncArea e y)
     | .cpyg tags dst src _ doff soff count _ esize y =>
       let es := gatherSize esize
       cpygChunk s cl e i tags (areaOf e dst doff.toNat (count.toNat * es)) src soff es count.toNat (syncArea e y)
     | .cfill dst doff len val y => cfillChunk s cl e i (areaOf e dst doff.toNat len.toNat) val (syncArea e y)
     | .cpyu dst src doff soff len slot y => cpyuChunk s cl e i (areaOf e dst doff.toNat len.toNat) (areaOf e src soff.toNat (len.toNat + 32)) slot (syncArea e y)
     | .cpfr src soff len bar ch y => cpfrChunk s cl e i (cpfrSource e src soff.toNat len.toNat) bar ch.toNat (syncArea e y)
     | .csync yent target yoff => csyncChunk s cl e i target (areaOf e yent yoff.toNat 16)
     | _ => s)
  | _, _ => s

/-- Chunks in a row, while the same command goes on; `fuel` bounds them. -/
def copyAll (s : State) (cl : Nat) : Nat → State
  | 0 => s
  | fuel + 1 =>
    let q := (clusterAt s cl).copy
    let t := copyStep s cl
    let q' := (clusterAt t cl).copy
    if q'.command == q.command && q'.position != q.position && q'.queue.length == q.queue.length then copyAll t cl fuel else t

/-- A command that has passed its checks starts. -/
def copyStart (s : State) (cl : Nat) (i : Instr) (offsets : List W32) : State :=
  updSeq s cl true fun q => { q with command := some i, position := 0, done := 0, offsets := offsets, gcm := Unseal.reset }

/-- Run a copy command: its checks when it starts, and its chunks; `chunks` bounds their number. -/
def copyRun (s : State) (i : Instr) (chunks : Nat) (check : Nat → Entry → Except (Byte × W64) (List W32)) : Outcome :=
  let cl := turnCluster s
  let q := (clusterAt s cl).copy
  match (seqEntries q).head? with
  | none => .next s
  | some e =>
    let go (s : State) : Outcome := .next (if s.eager then copyAll s cl chunks else copyStep s cl)
    if q.command == some i then go s
    else
      match check cl e with
      | .error (x, info) => .next (stopCopy s cl i x info)
      | .ok l => go (copyStart s cl i l)

def checked (f : Option (Byte × W64)) : Except (Byte × W64) (List W32) :=
  match f with
  | some x => .error x
  | none => .ok []

/-- CPY (R268). -/
def execCpy (tags : Bool) (dst src : EReg) (doff soff len : W32) (y : SyncRef) (s : State) : Outcome :=
  copyRun s (.cpy tags dst src doff soff len y) (len.toNat + 2) fun _ e =>
    let d := areaOf e dst doff.toNat len.toNat
    let sr := areaOf e src soff.toNat len.toNat
    checked ((fieldFault (len == 0)).or ((tagShape tags [d.addr, sr.addr, len.toNat]).or (copyAreas s e [sr] [d] y)))

/-- CPY2D (R268). -/
def execCpy2d (tags : Bool) (dst src : EReg) (doff soff : W32) (rows : BitVec 12) (rowlen : BitVec 20) (sstride dstride : W32) (y : SyncRef) (s : State) : Outcome :=
  copyRun s (.cpy2d tags dst src doff soff rows rowlen sstride dstride y) (rows.toNat * rowlen.toNat + 2) fun _ e =>
    let row (r : EReg) (off st k : Nat) : Area := areaOf e r (off + k * st) rowlen.toNat
    let ds := (upTo rows.toNat).map (row dst doff.toNat dstride.toNat)
    let ss := (upTo rows.toNat).map (row src soff.toNat sstride.toNat)
    checked ((fieldFault (rows == 0 || rowlen == 0)).or
      ((tagShape tags [(areaOf e dst doff.toNat 0).addr, (areaOf e src soff.toNat 0).addr, rowlen.toNat, sstride.toNat, dstride.toNat]).or
        (copyAreas s e ss ds y)))

/-- CPYG's checks before it reads its list: its fields, its tag shape, and its list's capability (R265 steps 1 to 3). -/
def cpygFields (e : Entry) (tags : Bool) (dst src ient : EReg) (doff soff : W32) (count : Nat) (ioff : W32) (es : Nat) : Option (Byte × W64) :=
  (fieldFault (count == 0 || 65536 < count)).or
    ((tagShape tags [(areaOf e dst doff.toNat 0).addr, (areaOf e src soff.toNat 0).addr, es]).or
      (capFault (areasCheck 1 [Perm.load, Perm.engine] [areaOf e ient ioff.toNat (4 * count)])))

/-- The parts of CPYG's list, or the fault of its read. -/
def cpygList (s : State) (e : Entry) (ient : EReg) (count : Nat) (ioff : W32) (reading : Bool) : Attempt (List Seg) :=
  let list := areaOf e ient ioff.toNat (4 * count)
  match rangesSegs s e reading [(list.addr, list.n)] with
  | .error f => .error (if f.1 == Code.mapFault then f else (f.1, 0))
  | .ok g => .ok g.flatten

/-- CPYG's own order of checks (R265 step 3): the list, its reading, the elements, the destination, the sync word. -/
def cpygCheck (s : State) (e : Entry) (dst src ient : EReg) (doff soff : W32) (count : Nat) (ioff : W32) (es : Nat) (y : SyncRef) :
    Except (Byte × W64) (List W32) :=
  let d := areaOf e dst doff.toNat (count * es)
  match cpygList s e ient count ioff true with
  | .error f => .error f
  | .ok g =>
    let offs := splitBits 32 (agentBytes s g) count
    let elems := offs.map fun x => areaOf e src (soff.toNat + x) es
    match (capFault (areasCheck es [Perm.load, Perm.engine] elems)).or
        ((capFault (areasCheck 1 [Perm.store, Perm.engine] [d])).or
          ((capFault (areasCheck 16 syncPerms (syncArea e y))).or
            ((areasMapped s e elems).or
              ((areasMapped s e [d]).or ((syncArea e y).findSome? (inClusters s e none)))))) with
    | some f => .error f
    | none => .ok (offs.map (BitVec.ofNat 32 ·))

/-- CPYG (R269). Its list is read as one engine read: it waits as one, and leaves in the page table what one does (R265). -/
def execCpyg (tags : Bool) (dst src ient : EReg) (doff soff : W32) (count : BitVec 17) (ioff : W32) (esize : BitVec 2) (y : SyncRef) (s : State) : Outcome :=
  let cl := turnCluster s
  let i : Instr := .cpyg tags dst src ient doff soff count ioff esize y
  let fields (e : Entry) := cpygFields e tags dst src ient doff soff count.toNat ioff (gatherSize esize)
  let run (s : State) : Outcome :=
    copyRun s i (count.toNat + 2) fun _ e =>
      match fields e with
      | some f => .error f
      | none => cpygCheck s e dst src ient doff soff count.toNat ioff (gatherSize esize) y
  match (seqEntries (clusterAt s cl).copy).head? with
  | none => .next s
  | some e =>
    match (clusterAt s cl).copy.command == some i || (fields e).isSome, cpygList s e ient count.toNat ioff false with
    | false, .ok g =>
      if engineWaits s (.copy cl) (linesOf g) [] then .next (registerWait s (.copy cl) e.ctx (linesOf g) [])
      else run (agentTouch (unregister s (.copy cl)) false g)
    | _, _ => run s

/-- CFILL (R270). -/
def execCfill (dst : EReg) (doff len val : W32) (y : SyncRef) (s : State) : Outcome :=
  copyRun s (.cfill dst doff len val y) (len.toNat + 2) fun _ e =>
    checked ((fieldFault (len == 0)).or (copyAreas s e [] [areaOf e dst doff.toNat len.toNat] y))

/-- CPYU (R271). -/
def execCpyu (dst src : EReg) (doff soff len : W32) (slot : Byte) (y : SyncRef) (s : State) : Outcome :=
  copyRun s (.cpyu dst src doff soff len slot y) (2 * len.toNat + 4) fun cl e =>
    let d := areaOf e dst doff.toNat len.toNat
    checked ((fieldFault (len == 0)).or
      ((copyAreas s e [areaOf e src soff.toNat (len.toNat + 32)] [d] y).or
        ((inClusters s e (some cl) d).or (if (modelKey s e.ctx slot).isNone then some (Code.engine, 34) else none))))

/-- CPFR (R272), and the entry that PFRANGE places (R312). -/
def execCpfr (src : EReg) (soff len : W32) (bar : Bool) (ch : BitVec 6) (y : SyncRef) (s : State) : Outcome :=
  copyRun s (.cpfr src soff len bar ch y) (len.toNat + 2) fun _ e =>
    let a := cpfrSource e src soff.toNat len.toNat
    let perms := if e.range.isSome then [Perm.load, Perm.vcbind] else [Perm.load, Perm.engine]
    checked ((fieldFault (len == 0 || 39 < ch.toNat)).or
      ((capFault (areasCheck 1 perms [a])).or
        ((capFault (areasCheck 16 syncPerms (syncArea e y))).or ((syncArea e y).findSome? (inClusters s e none)))))

/-- CSYNC (R273). -/
def execCsync (yent : EReg) (target yoff : W32) (s : State) : Outcome :=
  copyRun s (.csync yent target yoff) 2 fun _ e =>
    let a := areaOf e yent yoff.toNat 16
    checked ((capFault (areasCheck 16 syncPerms [a])).or (inClusters s e none a))

/-- CEND (R273). -/
def execCend (s : State) : Outcome :=
  let cl := turnCluster s
  match (seqEntries (clusterAt s cl).copy).head? with
  | none => .next s
  | some e => .next (finishEntry (wordRead s e) cl true)

/-- COPY_ENGINE_CHUNK (R266). -/
def execCopyEngineChunk (cl : BitVec 7) (s : State) : Outcome := .next (copyStep s cl.toNat)

end Sys2Proof.Machine
end

