-- ==== Sys2Proof/Machine/Switch.lean ====
section
/-! DEFINITION. The gang switch (R257, R278, R335 to R338), the termination of a context (R258, R277, R302, R327, R361), and the
events of both. A save area's contents are held beside memory (notes/assumptions/14.md). -/

namespace Sys2Proof.Machine

/-! ### Cores of a context -/

/-- The cores of a context, ascending. -/
def coresOwned (s : State) (ctx : BitVec 12) : List Nat := (s.cores.filter fun k => k.2.owner == ctx && ctx != 0).map (·.1)

/-- Every line leaves a core's L1: dirty ones are written out first, and the directory hears of it. -/
def emptyL1 (s : State) (c : Nat) : State :=
  let s := (coreAt s c).l1.foldl (fun s l => evictLine s c l) s
  let s := (coreAt s c).notices.foldl (fun s l => dirLeave s l c) s
  updCore s c fun k => { k with notices := [] }

/-- Every line leaves a core's L1 where no event of R125 takes place: a dirty non-coherent line does not reach its home (R325). -/
def dropL1 (s : State) (c : Nat) : State := emptyL1 (updCore s c fun k => { k with l1 := k.l1.filter fun l => !l.nonCoherent }) c

/-- A core's registers at their reset values; the count of the messages that it has sent since READY goes on (R263). -/
def freshCore (k : Core) (owner : BitVec 12) : Core := { Core.reset with owner := owner, sent := k.sent }

/-- A core that joins or leaves a context has every register at its reset value (R329). -/
def resetCore (s : State) (c : Nat) (owner : BitVec 12) : State := setCore (dropL1 s c) c (freshCore (coreAt s c) owner)

/-! ### The stop (R335, R336) -/

/-- The core's SWITCHAT time has come. -/
def stopDue (s : State) (c : Nat) : Bool :=
  let k := coreAt s c
  k.switchAt != BitVec.allOnes 64 && k.switchAt ≤ s.time && !k.stopped && ctxRuns s k.owner

/-- A pinned thread whose chunk does not commit gives up its run, and waits for the pin again: it restarts pinned (R151). -/
def unpin (s : State) (c l : Nat) : State :=
  let x := slotAt s c l
  if x.pin && !(x.older.any fun o => o.status == .committing) then
    tick (setSlot (unregister { s with pinned := none } (.pinned c l)) c l { x with pin := false, pinWait := some s.order })
  else s

/-- EXECUTING and ENDED chunks of a core are squashed without being counted; COMMITTING ones stay (R336). -/
def squashCore (s : State) (c : Nat) : State :=
  [0, 1, 2, 3].foldl (fun s l => if (slotAt s c l).busy then squashSlot (unpin s c l) c l false else s) s

/-- A sequencer holds entries of a context. -/
def seqHas (q : Sequencer) (ctx : BitVec 12) : Bool := (seqEntries q).any fun e => e.ctx == ctx

/-- The sequencers of a cluster with entries of a context start nothing further for it, and a running MSTRM of it drains in the cycles that
follow (R256, R257, R277). -/
def stopSequencers (s : State) (cl : Nat) (ctx : BitVec 12) : State :=
  let stop (q : Sequencer) : Sequencer := if seqHas q ctx then { q with saving := NatSet.insert q.saving ctx.toNat } else q
  let runs (k : Cluster) : Bool := streaming s cl && ((seqEntries k.matrix).head?.map (·.ctx)) == some ctx
  updCluster s cl fun k => { k with matrix := stop k.matrix, copy := stop k.copy, draining := k.draining || runs k }

/-- A context's cores of a cluster. -/
def coresIn (s : State) (ctx : BitVec 12) (cl : Nat) : List Nat := (coresOwned s ctx).filter fun c => clusterOf c == cl

/-- The lease of a cluster was granted to a context, and has not ended (R252). -/
def leaseOf (s : State) (cl : Nat) (ctx : BitVec 12) : Bool :=
  let k := clusterAt s cl
  k.lease != .free && k.lastCtx == ctx

/-- A cluster's sequencers or its lease are a context's. -/
def usesCluster (s : State) (cl : Nat) (ctx : BitVec 12) : Bool :=
  let k := clusterAt s cl
  seqHas k.matrix ctx || seqHas k.copy ctx || leaseOf s cl ctx || k.loading.any fun l => l.entry.ctx == ctx

/-- Clusters where a context has no core any more and what its returned cores have left. -/
def strayClusters (s : State) (ctx : BitVec 12) : List Nat := (s.clusters.map (·.1)).filter fun cl => usesCluster s cl ctx && (coresIn s ctx cl).isEmpty

/-- A core stops (R335, R336). -/
def stopCore (s : State) (c : Nat) : State :=
  if !stopDue s c then s
  else
    let ctx := (coreAt s c).owner
    let s := updCore (squashCore s c) c fun k => { k with switchAt := BitVec.allOnes 64, stopped := true }
    let s := updCtx s ctx.toNat fun x => { x with life := .switching }
    (clusterOf c :: strayClusters s ctx).foldl (fun s cl => stopSequencers s cl ctx) s

/-- GANG_SWITCH_STOP (R336): a core stops, and with it, in the same nanosecond, every core whose time has come (R335). -/
def execGangSwitchStop (c : Coord) (s : State) : Outcome :=
  .next (if stopDue s c.toNat then (s.cores.map (·.1)).foldl stopCore s else s)

/-! ### The saves (R257, R278) -/

/-- The switch under way has saved a cluster. -/
def savedNow (c : Context) (cl : Nat) : Bool :=
  match Tbl.find c.savedClusters cl with
  | some v => v.now
  | none => false

/-- The context whose part of a cluster can be saved: it is SWITCHING, its cores there have stopped, or, where only its returned cores have left
something, all its cores, and nothing of it loads. -/
def saveDue (s : State) (cl : Nat) : Option (BitVec 12) :=
  s.contexts.findSome? fun c =>
    let ctx := BitVec.ofNat 12 c.1
    let cores := coresIn s ctx cl
    let due := if cores.isEmpty then usesCluster s cl ctx else !savedNow c.2 cl
    if c.2.life == .switching && due && ((if cores.isEmpty then coresOwned s ctx else cores).all fun x => (coreAt s x).stopped) &&
        !((clusterAt s cl).loading.any fun l => l.entry.ctx == ctx) then some ctx
    else none

/-- A sequencer's entries of a context, as a save keeps them, and what stays. -/
def seqTake (q : Sequencer) (ctx : BitVec 12) : Sequencer :=
  let mine := (seqEntries q).filter fun e => e.ctx == ctx
  if ((seqEntries q).head?.map (·.ctx)) == some ctx then { q with queue := mine, restored := [] }
  else { Sequencer.reset with queue := mine }

/-- A context's entries leave a sequencer, and nothing is saved for it there any more; what a switch has stopped for others stays stopped. -/
def seqLeave (q : Sequencer) (ctx : BitVec 12) : Sequencer :=
  let r := { q with queue := q.queue.filter (fun e => e.ctx != ctx), restored := q.restored.filter (fun e => e.ctx != ctx),
                    saving := q.saving.filter (· != ctx.toNat) }
  if ((seqEntries q).head?.map (·.ctx)) == some ctx then
    { r with command := none, position := 0, done := 0, offsets := [], gcm := Unseal.reset }
  else r

/-- The lease is FREE and the array as at reset. -/
def arrayReset (k : Cluster) : Cluster := { clearArray k with lease := .free, holder := 0, used := 0, bound := 0 }

/-- Registered chunks of a context's running entries of a cluster are withdrawn: they have not started. -/
def withdraw (s : State) (cl : Nat) (ctx : BitVec 12) : State :=
  { s with registered := s.registered.filter fun r => !(r.ctx == ctx && (r.owner == .matrix cl || r.owner == .copy cl)) }

/-- What an earlier switch has saved of a cluster and nobody has restored yet stays saved, ahead of what the context has added since. -/
def mergeSaved (old : Option SavedCluster) (v : SavedCluster) : SavedCluster :=
  match old with
  | none => v
  | some o =>
    let copy := if o.copy then { o.cluster.copy with queue := o.cluster.copy.queue ++ v.cluster.copy.queue } else v.cluster.copy
    ⟨{ (if o.lease then o.cluster else v.cluster) with copy := copy }, o.lease || v.lease, o.copy || v.copy, true⟩

/-- Save a context's part of a cluster: a running MSTRM drains; the array, the lease and the entries go to the save area, painted
capabilities of their tables without their tags (R107). -/
def saveCluster (s : State) (cl : Nat) (ctx : BitVec 12) : State :=
  let s := if ((seqEntries (clusterAt s cl).matrix).head?.map (·.ctx)) == some ctx then drainStream s cl else s
  let k := clusterAt s cl
  let mine := leaseOf s cl ctx
  let copy := seqHas k.copy ctx
  let v := scrubSaved s ⟨{ k with matrix := seqTake k.matrix ctx, copy := seqTake k.copy ctx }, mine, copy, true⟩
  let s := updCtx s ctx.toNat fun c => { c with savedClusters := Tbl.set c.savedClusters cl (mergeSaved (Tbl.find c.savedClusters cl) v) }
  let k := { k with matrix := seqLeave k.matrix ctx, copy := seqLeave k.copy ctx }
  let s := setCluster (withdraw s cl ctx) cl (if mine then arrayReset k else k)
  copyRestore s cl

/-- SEQUENCER_SAVE (R257, R278). -/
def execSequencerSave (cl : BitVec 7) (s : State) : Outcome :=
  match saveDue s cl.toNat with
  | some ctx => .next (saveCluster s cl.toNat ctx)
  | none => .next s

/-- Mortar has a release of a context to complete first (R215). -/
def releasePending (s : State) (ctx : BitVec 12) : Bool :=
  s.cores.any fun c => c.2.owner == ctx && c.2.arrived != 0 &&
    [0, 1, 2, 3].any fun n => memValid (memberAt c.2 n) && canRelease s ctx (memGid (memberAt c.2 n)) (memChannel (memberAt c.2 n))

/-- Every core of a context is stopped, its uncached accesses are acknowledged, and every save is complete (R327). -/
def savedReady (s : State) (ctx : BitVec 12) : Bool :=
  let c := ctxOf s ctx
  let cores := coresOwned s ctx
  c.life == .switching && !releasePending s ctx && (s.clusters.all fun k => !usesCluster s k.1 ctx) &&
    cores.all fun x =>
      let k := coreAt s x
      k.stopped && k.cmos.isEmpty && k.ioStores.isEmpty && (k.slots.all fun l => l.2.older.isNone) && savedNow c (clusterOf x)

/-- The island answers for the lines of host memory that a core holds M or O, once they stand in the banks (R345). -/
def islandTake (s : State) (c : Nat) : State :=
  let held := ((coreAt s c).l1.filter fun l => !l.nonCoherent && l.dirty && isHost l.loc).map (·.line)
  { s with island := held.foldl NatSet.insert s.island }

/-- One core goes to the save area and is free (R336); a pass clears painted tags on the way (R107). -/
def saveCore (s : State) (ctx : BitVec 12) (c : Nat) : State :=
  let s := emptyL1 (islandTake s c) c
  let k := coreAt s c
  setCore (updCtx s ctx.toNat fun x => { x with savedCores := Tbl.set x.savedCores c (scrubCore s ctx k) }) c (freshCore k 0)

/-- CONTEXT_SAVED (R327, R336, R337). -/
def execContextSaved (ctx : BitVec 12) (s : State) : Outcome :=
  if savedReady s ctx then
    .next (saveRecords (updCtx ((coresOwned s ctx).foldl (fun s c => saveCore s ctx c) s) ctx.toNat fun x => { x with life := .saved }) ctx)
  else .next s

/-! ### Resume (R338) -/

/-- Park entries of a core enter its queue while slots are free. -/
def refillAll (s : State) (ctx : BitVec 12) (c : Nat) : State := (upTo 8).foldl (fun s _ => refillMail s ctx c) s

/-- A core as its record gives it back: painted tags go during a pass (R107), and the count of messages is the core's own (R263). -/
def restoredCore (s : State) (ctx : BitVec 12) (c : Nat) (k : Core) : Core := { scrubCore s ctx k with sent := (coreAt s c).sent }

/-- Restore the saved cores onto the same logical cores; they restart at RESUMEAT. -/
def restoreCores (s : State) (ctx : BitVec 12) (resumeAt : W64) : State :=
  let saved := (ctxOf s ctx).savedCores
  let s := saved.foldl (fun s k => setCore (dropL1 s k.1) k.1 (restoredCore s ctx k.1 k.2)) s
  let s := updCtx s ctx.toNat fun c => { c with life := .resuming, resumeAt := resumeAt, savedCores := [] }
  saved.foldl (fun s k => refillAll s ctx k.1) s

/-- RESUMEAT has come. -/
def restartDue (s : State) (ctx : BitVec 12) : Bool := (ctxOf s ctx).life == .resuming && (ctxOf s ctx).resumeAt ≤ s.time

/-- RESTART (R338): the cores run, and what the copy sequencers saved returns to them. -/
def execRestart (ctx : BitVec 12) (s : State) : Outcome :=
  if restartDue s ctx then
    let s := (coresOwned s ctx).foldl (fun s c => updCore s c fun k => { k with stopped := false }) s
    let s := updCtx s ctx.toNat fun c => pruneSaved { c with life := .running, savedClusters := Tbl.mapVal c.savedClusters fun _ v => { v with now := false } }
    .next ((ctxOf s ctx).savedClusters.foldl (fun s v => copyRestore s v.1) s)
  else .next s

/-- A resumed context's lease can be restored. -/
def restoreDue (s : State) (cl : Nat) : Option (BitVec 12) := if (clusterAt s cl).lease == .free then leaseOwed s cl else none

/-- Restore the array, the lease and the matrix entries (R257). -/
def restoreLease (s : State) (cl : Nat) (ctx : BitVec 12) : State :=
  match Tbl.find (ctxOf s ctx).savedClusters cl with
  | none => s
  | some v =>
    let w := (scrubSaved s v).cluster
    let s := updCluster s cl fun k =>
      { k with active := w.active, shadow := w.shadow, acc := w.acc, lease := w.lease, holder := w.holder, used := w.used,
               bound := w.bound, lastCtx := ctx,
               matrix := { w.matrix with queue := k.matrix.queue, restored := w.matrix.queue, saving := k.matrix.saving, check := k.matrix.check } }
    let s := updCtx s ctx.toNat fun c => pruneSaved { c with savedClusters := Tbl.set c.savedClusters cl { v with lease := false } }
    leaseSettle s cl

/-- LEASE_RESTORE (R257). -/
def execLeaseRestore (cl : BitVec 7) (s : State) : Outcome :=
  match restoreDue s cl.toNat with
  | some ctx => .next (restoreLease s cl.toNat ctx)
  | none => .next s

/-! ### Termination (R327, R361) -/

/-- What a terminating context leaves in a cluster: no entry, no lease, and nothing of its own in the array, whether it still holds the lease
or not (R258, R277). -/
def purgeCluster (s : State) (cl : Nat) (ctx : BitVec 12) : State :=
  let mine := leaseOf s cl ctx
  let head := ((seqEntries (clusterAt s cl).matrix).head?.map (·.ctx)) == some ctx
  let s := if head then quitStream s cl else s
  updCluster s cl fun k =>
    let own := k.lastCtx == ctx
    let k := { k with matrix := seqLeave k.matrix ctx, copy := seqLeave k.copy ctx,
                      loading := k.loading.filter fun l => l.entry.ctx != ctx,
                      energy := k.energy.filter fun e => e.1 / 65536 != ctx.toNat }
    if mine then arrayReset k else if own then clearArray k else k

/-- Dirty coherent lines under key slots that go leave the L1s first, sealed (R261). -/
def sealOut (s : State) (goes : Nat → Bool) : State :=
  s.cores.foldl (fun s k => (k.2.l1.filter fun l => l.dirty && !l.nonCoherent && l.key != 0 && goes l.key.toNat).foldl (fun s l => evictLine s k.1 l) s) s

/-- Every key slot of a context is erased (R332). -/
def eraseKeys (s : State) (own : KeySlot → Bool) : State :=
  let t := sealOut s fun n => own (Tbl.get .empty s.keys n)
  { t with keys := t.keys.filter fun k => !own k.2 }

def keyOwnedBy (ctx : BitVec 12) : KeySlot → Bool
  | .seal o _ => o == ctx
  | .model o _ => o == ctx
  | .empty => false

/-- Free the virtual caches of a context at one depth (R302). -/
def freeCaches (s : State) (ctx : BitVec 12) (depth : Nat) : State :=
  (upTo 17).foldl (fun s id =>
    match vcState (ctxOf s ctx) id with
    | .undefined => s
    | .draining => s
    | _ => if vcDepth (ctxOf s ctx) id == depth then vcfreeState s ctx id else s) s

/-- A context enters TERMINATING: its kernels are FAULTED, its threads, entries, caches, keys and messages go. -/
def terminate (s : State) (ctx : BitVec 12) : State :=
  let c := ctxOf s ctx
  if c.life == .free || c.life == .terminating || ctx == 0 then s
  else
    let s := c.kernels.foldl (fun s k => finishKernel s ctx k.1 .faulted) s
    let s := updCtx s ctx.toNat fun c => { c with life := .terminating }
    let s := (coresOwned s ctx).foldl (fun s c =>
      let s := [0, 1, 2, 3].foldl (fun s l => unpin (dropRequest s c l) c l) s
      updCore (dropL1 s c) c fun k => { k with slots := [], cmos := [], ioStores := [], mail := [] }) s
    let s := (s.clusters.map (·.1)).foldl (fun s cl => purgeCluster s cl ctx) s
    let s := { s with registered := s.registered.filter fun r => r.ctx != ctx, regions := Tbl.mapVal s.regions fun _ r => if r.ctx == ctx then { r with ctx := 0 } else r }
    let s := [4, 3, 2, 1].foldl (fun s d => freeCaches s ctx d) s
    let s := updCtx s ctx.toNat fun c => { c with savedCores := [], savedClusters := [], parkedMsgs := [], transit := [], sweep := [], revBusy := false }
    let s := (s.clusters.map (·.1)).foldl (fun s cl => copyRestore s cl) s
    eraseKeys s (keyOwnedBy ctx)

/-- A core freezes with the report of a fatal error; one that is frozen already sends it after those that it has. -/
def fatalReport (s : State) (c : Nat) (p : Packet) : State :=
  let k := coreAt s c
  if !k.frozen then freeze s c p
  else if k.report.isNone then setCore s c { k with report := some p }
  else setCore s c { k with held := k.held ++ [p] }

/-- A fatal error of a context (R361): each of its cores freezes with POISON, which names the intermediate address. -/
def fatal (s : State) (ctx : BitVec 12) (ia : Nat) : State :=
  let s := terminate s ctx
  (coresOwned s ctx).foldl (fun s c => fatalReport s c (packetOf s c 0 0 Code.poison 0 0 (BitVec.ofNat 64 (2 ^ 63 + ia)))) s

/-- Everything of a terminating context is released: its caches have drained and its cores have sent their reports. -/
def freedReady (s : State) (ctx : BitVec 12) : Bool :=
  (ctxOf s ctx).life == .terminating && ((ctxOf s ctx).vcs.all fun v => v.2.state == .undefined) &&
    (coresOwned s ctx).all fun c => (coreAt s c).report.isNone && (coreAt s c).held.isEmpty

/-- CONTEXT_FREED (R327): no array remembers the id, so a context that takes it again starts with a cleared one (R252). -/
def execContextFreed (ctx : BitVec 12) (s : State) : Outcome :=
  if freedReady s ctx then
    let s := (coresOwned s ctx).foldl (fun s c => resetCore s c 0) s
    let s := { s with clusters := Tbl.mapVal s.clusters fun _ k => if k.lastCtx == ctx then { k with lastCtx := 0 } else k }
    .next (setCtx s ctx.toNat Context.reset)
  else .next s

end Sys2Proof.Machine
end

