-- ==== Sys2Proof/Machine/Cornerstone.lean ====
section
/-! DEFINITION. Cornerstone: request blocks (R328), its operations (R329), handles (R330, R331), key slots (R332), rosters (R333) and
model keys (R334). Each operation's meaning completes the request at a block's address. -/

namespace Sys2Proof.Machine

/-! ### Request blocks (R328) -/

/-- n bytes at an offset of the request block. -/
def field (b off n : Nat) : Nat := b / 2 ^ (8 * off) % 2 ^ (8 * n)

/-- The block at an address. -/
def readRequest (s : State) (blk : W64) : Nat := physGet s blk.toNat 64 4

def reqOp (b : Nat) : Nat := field b 0 2
def reqCtx (b : Nat) : Nat := field b 2 2

/-- Bytes 6 and 7 and the operand bytes outside the named ranges are zero. -/
def reservedZero (b : Nat) (named : List (Nat × Nat)) : Bool :=
  field b 6 2 == 0 && ((upTo 32).all fun i => (named.any fun r => r.1 ≤ 32 + i && 32 + i < r.1 + r.2) || field b (32 + i) 1 == 0)

/-- What a request comes to. -/
inductive Answer
  | refused (status : Nat)
  | done (s : State) (result : Nat) (k : Option Cap)

/-- Write STATUS, and for a request that is done RESULT and CAP. -/
def writeAnswer (s : State) (blk : W64) (a : Answer) : State :=
  let at_ := blk.toNat
  match a with
  | .refused n => physPut s (at_ + 4) 2 n
  | .done t result k =>
    let c := k.getD Cap.null
    let t := physPut (physPut (physPut t (at_ + 4) 2 0) (at_ + 8) 8 result) (at_ + 16) 16 c.img.toNat
    { t with mem := memSetTag t.mem (at_ + 16) c.tag }

/-- Complete the request at a block: the answer, then DONE; the block leaves the queue. -/
def complete328 (s : State) (blk : W64) (a : Answer) : State :=
  let t := writeAnswer s blk a
  { t with csDone := t.csDone + 1, doors := t.doors.erase blk }

/-- Cornerstone's next request is the block at an address, and it names an operation: requests complete one at a time, in the order of
their CSDOOR writes. -/
def atHead (s : State) (blk : W64) (op : Nat) : Bool := s.doors.head? == some blk && reqOp (readRequest s blk) == op

/-- A request: its reserved bytes, its context's state where the operation acts on one, then the operation itself. -/
def request (s : State) (blk : W64) (op : Nat) (named : List (Nat × Nat)) (states : Option (List Life)) (f : Nat → BitVec 12 → Answer) : Outcome :=
  let b := readRequest s blk
  let ctx := reqCtx b
  let life := if 1 ≤ ctx && ctx ≤ 4094 then (ctxOf s (BitVec.ofNat 12 ctx)).life else .free
  let a :=
    if !reservedZero b named then .refused 1
    else
      match states with
      | none => f b (BitVec.ofNat 12 ctx)
      | some l => if l.contains life then f b (BitVec.ofNat 12 ctx) else .refused 4
  .next (if atHead s blk op then complete328 s blk a else s)

/-- An OP that names no operation (R328). -/
def unknownOp (s : State) (blk : W64) : State := complete328 s blk (.refused 1)

/-- Contexts that a request may act on. -/
def liveStates : List Life := [.created, .running, .switching, .saved, .resuming]

/-! ### CREATE, GRANT and RETURN -/

/-- The highest generation (R331). -/
def genMax : Nat := 2 ^ 18 - 1

/-- The lowest free id (R326). -/
def freeId (s : State) : Option Nat :=
  ((upTo 4094).map (· + 1)).find? fun i => (ctxOf s (BitVec.ofNat 12 i)).life == .free && (Tbl.get 0 s.gens i).toNat != genMax

/-- The authority of a context (R329): the whole space, every permission, SYSTEM only with SYS. -/
def authority (sys : Bool) : Cap :=
  capSetBounds (capMake true (if sys then 0xfff else 0xffb) 0 0 0 0 0 0) (encodeBounds 0 (2 ^ 64)) 0

/-- The save area is aligned, large enough, and lies in one stack of local HBM (R337). -/
def saveAreaOk (base size : Nat) : Bool :=
  base % 2 ^ 16 == 0 && 188488 * 1024 ≤ size && inHbm base && inHbm (base + size - 1) && base / 2 ^ 36 == (base + size - 1) / 2 ^ 36

/-- CREATE (R329). -/
def execCreate (blk : W64) (s : State) : Outcome :=
  request s blk 1 [(32, 1), (36, 4), (40, 8), (48, 8)] none fun b _ =>
    if 8 ≤ field b 32 1 then .refused 1
    else
      match freeId s with
      | none => .refused 2
      | some id =>
        if !saveAreaOk (field b 40 8) (field b 48 8) then .refused 6
        else
          let sys := field b 32 1 / 2 % 2 == 1
          let gen := Tbl.get 0 s.gens id + 1
          let c : Context :=
            { Context.reset with
              life := .created, conf := field b 32 1 % 2 == 1, sys := sys, hostLaunch := field b 32 1 / 4 % 2 == 1,
              quota := BitVec.ofNat 32 (field b 36 4), saveBase := BitVec.ofNat 64 (field b 40 8),
              saveSize := BitVec.ofNat 64 (field b 48 8), authority := authority sys, gen := gen }
          .done { setCtx s id c with gens := Tbl.set s.gens id gen } id (some (authority sys))

/-- The cores that a bitmap and a mask name. -/
def maskedCores (bitmap mask : Nat) : List Nat :=
  ((upTo 128).filter fun k => bitmap / 2 ^ k % 2 == 1).flatMap fun k => ((upTo 8).filter fun i => mask / 2 ^ i % 2 == 1).map fun i => 8 * k + i

def markedClusters (bitmap : Nat) : List Nat := (upTo 128).filter fun k => bitmap / 2 ^ k % 2 == 1

/-- The SEAL slots that a cluster's gasket carries, with one more context's (R332). -/
def gasketLoad (s : State) (cl : Nat) (ctx : BitVec 12) : Nat :=
  (s.keys.filter fun k =>
    match k.2 with
    | .seal o _ => o == ctx || (upTo 8).any fun i => (coreAt s (8 * cl + i)).owner == o
    | _ => false).length

/-- The registers that a cluster and a die keep for a context that joins them (R183, R194, R232, R329): LEASEMAX of every cluster that gains a
core, and the ring registers of every die that does. The pass counts are no registers, and go on (R186;
notes/assumptions/67.md). -/
def joinPlaces (s : State) (ctx : BitVec 12) (cores : List Nat) : State :=
  let s := cores.foldl (fun s c => updCluster s (clusterOf c) fun k => { k with leaseMax := Cluster.reset.leaseMax }) s
  let fresh (d : CtxDie) : CtxDie := { CtxDie.reset with passes := d.passes }
  updCtx s ctx.toNat fun x => { x with life := .running, dies := Tbl.mapVal x.dies fun n d => if (cores.map dieOf).contains n then fresh d else d }

/-- GRANT (R329). -/
def execGrant (blk : W64) (s : State) : Outcome :=
  request s blk 2 [(32, 16), (48, 1)] (some [.created, .running]) fun b ctx =>
    let clusters := markedClusters (field b 32 16)
    let cores := maskedCores (field b 32 16) (field b 48 1)
    if (cores.any fun c => (coreAt s c).owner != 0) || (clusters.any fun k => s.unavailable.contains k) ||
        ((ctxOf s ctx).conf && field b 48 1 != 0xff) || clusters.any (fun k => 16 < gasketLoad s k ctx) then .refused 3
    else
      let s := clusters.foldl (fun s k => if (clusterAt s k).gated then updCluster s k fun x => { x with gated := false } else s) s
      .done (cores.foldl (fun s c => resetCore s c ctx) (joinPlaces s ctx cores)) 0 none

/-- A core that leaves its context gives its lease up as MFREE does. DESIGN CHOICE: R252 names no transition for it
(notes/assumptions/59.md). -/
def leaveLease (s : State) (c : Nat) : State := if holdsLease s c then leaseRelease s (clusterOf c) else s

/-- RETURN (R329). -/
def execReturnCores (blk : W64) (s : State) : Outcome :=
  request s blk 3 [(32, 16), (48, 1)] (some [.created, .running]) fun b ctx =>
    let cores := maskedCores (field b 32 16) (field b 48 1)
    if cores.any fun c => (coreAt s c).owner != ctx || (coreAt s c).slots.any fun x => x.2.busy then .refused 3
    else .done (cores.foldl (fun s c => resetCore (leaveLease s c) c 0) s) 0 none

/-! ### MINT and REVOKE -/

/-- A context owns a core, switched out or not. -/
def ownsCore (s : State) (ctx : BitVec 12) (core : Nat) : Bool := (coreAt s core).owner == ctx || Tbl.has (ctxOf s ctx).savedCores core

/-- MINT (R330). -/
def execMint (blk : W64) (s : State) : Outcome :=
  request s blk 4 [(32, 2), (34, 2), (36, 2)] (some liveStates) fun b ctx =>
    let core := field b 32 2
    if 1024 ≤ core || !ownsCore s ctx core || field b 36 2 != Config.moduleIndex.toNat then .refused 3
    else .done s 0 (some (handleOf Config.moduleIndex (BitVec.ofNat 10 core) ctx (BitVec.ofNat 12 (field b 34 2)) (ctxOf s ctx).gen))

/-- REVOKE (R331). -/
def execRevoke (blk : W64) (s : State) : Outcome :=
  request s blk 5 [] (some liveStates) fun _ ctx =>
    let g := (ctxOf s ctx).gen
    if g.toNat == genMax then .refused 3
    else
      let s := updCtx s ctx.toNat fun c => { c with gen := g + 1 }
      .done { s with gens := Tbl.set s.gens ctx.toNat (g + 1) } 0 none

/-! ### Key slots (R332) -/

def isEmptySlot : KeySlot → Bool
  | .empty => true
  | _ => false

/-- The lowest free slot. -/
def freeKeySlot (s : State) : Option Nat := ((upTo 255).map (· + 1)).find? fun i => isEmptySlot (Tbl.get .empty s.keys i)

/-- SEALKEY (R332): a fresh random pair. -/
def execSealkey (blk : W64) (s : State) : Outcome :=
  request s blk 6 [] (some liveStates) fun _ ctx =>
    match freeKeySlot s with
    | none => .refused 2
    | some n =>
      let clusters := (coresOwned s ctx).map clusterOf
      if clusters.any fun k => 16 ≤ gasketLoad s k ctx then .refused 3
      else .done { s with keys := Tbl.set s.keys n (.seal ctx (Config.randomKey s.fresh)), fresh := s.fresh + 1 } n none

/-- FREESLOT (R329). A CTX that names no context owns no slot. Dirty lines under the slot's key leave the L1s while the gaskets still carry it, so
that no plaintext does (R261). -/
def execFreeslot (blk : W64) (s : State) : Outcome :=
  request s blk 8 [(32, 1)] none fun b ctx =>
    let n := field b 32 1
    if n == 0 || !keyOwnedBy ctx (Tbl.get .empty s.keys n) || ctx == 0 || reqCtx b != ctx.toNat then .refused 3
    else
      let t := sealOut s (· == n)
      .done { t with keys := Tbl.erase t.keys n } 0 none

/-- The model key that a wrapped key holds (R334), when its tag matches: IV, ciphertext, tag. -/
def unwrapKey (secret : BitVec 256) (session : W32) (ctx : BitVec 12) (w : Nat) : Option (BitVec 256) :=
  let key := bytesOf secret.toNat 32
  let iv := bytesOf (field w 0 12) 12
  let text := bytesOf (field w 12 32) 32
  let aad := bytesOf session.toNat 4 ++ bytesOf ctx.toNat 2
  if gcmTag key iv aad text == bytesOf (field w 44 16) 16 then some (BitVec.ofNat 256 (bytesVal (gcmCrypt key iv 0 text))) else none

/-- MODELKEY (R334). -/
def execModelkey (blk : W64) (s : State) : Outcome :=
  request s blk 7 [(32, 4), (40, 8)] (some liveStates) fun b ctx =>
    match freeKeySlot s with
    | none => .refused 2
    | some n =>
      match s.sessions.find? fun x => x.id.toNat == field b 32 4 && x.attested with
      | none => .refused 5
      | some x =>
        match unwrapKey x.secret x.id ctx (physGet s (field b 40 8) 60 4) with
        | none => .refused 5
        | some k => .done { s with keys := Tbl.set s.keys n (.model ctx k) } n none

/-! ### Rosters (R333) -/

/-- The fabric manager's signature over a roster's earlier bytes. -/
def rosterSigned (s : State) (bytes : List Nat) : Bool :=
  match s.fmKey with
  | none => false
  | some k => ecdsaVerify k (bytes.take (bytes.length - 96)) (bytes.drop (bytes.length - 96))

/-- The member modules of a roster. -/
def rosterModules (bytes : List Nat) (count : Nat) : List Nat := (upTo count).map fun i => bytes.getD (16 + 2 * i) 0 + 256 * bytes.getD (17 + 2 * i) 0

/-- ROSTER (R333). -/
def execRoster (blk : W64) (s : State) : Outcome :=
  request s blk 9 [(40, 8), (48, 4)] none fun b _ =>
    let len := field b 48 4
    if len < 114 || 4720 < len then .refused 5
    else
      let bytes := bytesOf (physGet s (field b 40 8) len (len / 64 + 2)) len
      let count := bytes.getD 8 0 + 256 * bytes.getD 9 0
      let mods := rosterModules bytes count
      let serial := bytesVal (bytes.take 8)
      if count == 0 || 2304 < count || len != 112 + 2 * count || !mods.contains Config.moduleIndex.toNat || !rosterSigned s bytes ||
          mods.any (4096 ≤ ·) || ((bytes.drop 10).take 6).any (· != 0) then .refused 5
      else if !s.roster.isEmpty && serial ≤ s.rosterSerial.toNat then .refused 7
      else .done { s with roster := mods.foldl NatSet.insert [], rosterSerial := BitVec.ofNat 64 serial } 0 none

/-! ### RESUME and DESTROY -/

/-- A save area that cannot be read back. -/
def saveAreaBad (s : State) (c : Context) : Bool := anyPoison s.mem c.saveBase.toNat c.saveSize.toNat

/-- RESUME (R338). A core that another context now owns refuses it. -/
def execResume (blk : W64) (s : State) : Outcome :=
  request s blk 10 [(40, 8)] (some [.saved]) fun b ctx =>
    let c := ctxOf s ctx
    if c.savedCores.any fun k => (coreAt s k.1).owner != 0 then .refused 3
    else if saveAreaBad s c then .refused 6
    else .done (restoreCores s ctx (BitVec.ofNat 64 (field b 40 8))) 0 none

/-- DESTROY (R327, R329). -/
def execDestroy (blk : W64) (s : State) : Outcome :=
  request s blk 11 [] (some (.terminating :: liveStates)) fun _ ctx => .done (terminate s ctx) 0 none

/-- Complete the request at the head of the queue, by the meaning of the operation it names (R328, R329). -/
def nextRequest (s : State) : Outcome :=
  match s.doors with
  | [] => .next s
  | blk :: _ =>
    match reqOp (readRequest s blk) with
    | 1 => execCreate blk s
    | 2 => execGrant blk s
    | 3 => execReturnCores blk s
    | 4 => execMint blk s
    | 5 => execRevoke blk s
    | 6 => execSealkey blk s
    | 7 => execModelkey blk s
    | 8 => execFreeslot blk s
    | 9 => execRoster blk s
    | 10 => execResume blk s
    | 11 => execDestroy blk s
    | _ => .next (unknownOp s blk)

end Sys2Proof.Machine
end

