-- ==== Sys2Proof/Machine/Link.lean ====
section
/-! DEFINITION. The link: the ports (R339, R340), coherence with the host (R342 to R346), SPDM and TDISP (R347), the fabric and its
reductions (R348, R349) and RDMA (R350). Each event is what the other side does; what the device sends back is no state. -/

namespace Sys2Proof.Machine

/-! ### Ports -/

def portAt (s : State) (n : Nat) : Port := Tbl.get Port.reset s.ports n
def setPort (s : State) (n : Nat) (p : Port) : State := { s with ports := Tbl.set s.ports n p }
def isCxl (n : Nat) : Bool := n < 2
def isEthernet (n : Nat) : Bool := 20 ≤ n && n < 24

/-- PORT_TRAINING_START (R339). -/
def execPortTrainingStart (port : BitVec 5) (s : State) : Outcome :=
  .next (if port.toNat < 24 && (portAt s port.toNat).state == .down then setPort s port.toNat ⟨.training, 0, true⟩ else s)

/-- TIME is aligned to the domain, only ever forward (R366). -/
def alignTime (s : State) : State :=
  { s with time := if s.time < Config.domainTime s.fresh then Config.domainTime s.fresh else s.time, fresh := s.fresh + 1 }

/-- TRAINING_COMPLETE (R339); a JVX port aligns TIME (R366). -/
def execTrainingComplete (port : BitVec 5) (s : State) : Outcome :=
  let n := port.toNat
  .next (if (portAt s n).state == .training then
      let t := setPort s n { portAt s n with state := .negotiating }
      if isJvx n then alignTime t else t
    else s)

/-- The highest version that two masks share; 0 when they share none (R340). -/
def commonVersion (a b : BitVec 16) : Nat := Nat.log2 (a &&& b).toNat

/-- The version a port reports when every item is agreed; none when an item has no common version (R340). -/
def negotiate (port : Nat) (link cmd rec pkt : BitVec 16) : Option Nat :=
  if isCxl port then
    if commonVersion 0x0002 link == 0 || commonVersion 0x0002 cmd == 0 || commonVersion 0x0002 pkt == 0 then none
    else some (commonVersion 0x0002 link)
  else if isJvx port then
    if commonVersion 0x0006 link == 0 || commonVersion 0x0002 cmd == 0 || commonVersion 0x0002 rec == 0 then none
    else some (commonVersion 0x0006 link)
  else some 0

/-- A line of host memory (LOC 2), not uncached. -/
def isHostLine (p : Place) : Bool := isHost p.loc && !p.uncached

/-- A line lies in host memory, as its page translates. -/
def hostsLine (s : State) (line : Nat) : Bool := (linePlace s line).any isHostLine

/-- A port that is ACTIVE again: its partners answer, and a CXL port is no longer viral. -/
def portUp (s : State) (port : Nat) : State :=
  if isCxl port then
    { s with viral := s.viral.filter (· != port), lost := s.lost.filter (· != 4095),
             lostLines := s.lostLines.filter fun l => l % 2 != port || !hostsLine s l }
  else if isJvx port then { s with lost := s.lost.filter (· == 4095), lostLines := s.lostLines.filter (hostsLine s) }
  else s

/-- NEGOTIATION (R340): the partner's masks for the link, command words, continuation records and fault packets. -/
def execNegotiation (port : BitVec 5) (link cmd rec pkt : BitVec 16) (s : State) : Outcome :=
  let n := port.toNat
  .next (if (portAt s n).state != .negotiating then s
    else
      match negotiate n link cmd rec pkt with
      | none => setPort s n { portAt s n with state := .down, version := 0 }
      | some v => portUp (setPort s n { portAt s n with state := .active, version := BitVec.ofNat 8 v }) n)

/-! ### Lines and the other side -/

/-- A request from outside waits for a registered chunk that it would change, as a commit does (R147, R151), for a COMMITTING chunk that has
written the line (R148), for the flip of its page (R294), while a pinned thread's core owns its page (R151), and while another module owns the
line (R348). A request that
meets a back-invalidate of its line wins over what waits for that (R344). -/
def peerWaits (s : State) (line : Nat) (writes : Bool) : Bool :=
  (s.registered.any fun r =>
    (r.started || !s.bisnp.contains line) && (intersects [line] r.writes || (writes && intersects [line] r.reads))) ||
    lineHeld s s.registered line

/-- A module's own requests find the line that it owns free. -/
def ownerView (s : State) (m line : Nat) : State :=
  if Tbl.find s.remoteOwns line == some m then { s with remoteOwns := Tbl.erase s.remoteOwns line } else s

/-- A read from the host squashes the chunks that write the line (R342). -/
def testWrites (s : State) (line : Nat) : State :=
  s.cores.foldl (fun s c => [0, 1, 2, 3].foldl (fun s l => squashIf s c.1 l fun k => intersects [line] k.writes) s) s

/-- A read from outside: the line's dirty data is at its home, and no core has the line alone (R342, R344, R348). -/
def peerShare (s : State) (line : Nat) (p : Place) : State :=
  let c := match dirtyLine s line with
    | some (c, _) => c
    | none => 0
  shareLine (cleanCoherent s c line p.loc p.key) line

/-- One from the host squashes intersecting writers first. -/
def peerRead (s : State) (line : Nat) (p : Place) : State := peerShare (testWrites s line) line p

/-- A write from outside: every chunk that holds the line is squashed, no copy stays, and the data, sealed as it crossed the link, lies at
its home (R261). -/
def peerWrite (s : State) (line : Nat) (p : Place) (v : LineVal) : State :=
  let s := lineHome s line
  let k := p.loc / 128 * 128
  let piece (s : State) (i : Nat) : State :=
    pieceHome s p.key (line * 128 + 64 * i) (k + 64 * i) (v.data.extractLsb' (512 * i) 512) (v.tags.extractLsb' (4 * i) 4)
  let s := piece (piece s 0) 1
  { s with mem := (upTo 8).foldl (fun m u => memClearPoison m (k + 16 * u)) s.mem }

/-- An access from outside reclassifies its page, sets A and D and counts as foreign (R284, R288, R291). -/
def foreignTouch (s : State) (p : Place) (write : Bool) : State :=
  let page := p.ia / 2 ^ 16
  countMiss (recordShared (markPage (tlbFill (enginePage s p) p) page write) page none) page true

/-- A location lies in one of the first decoder ranges, while they come to no more than `room` bytes (R341). -/
def inRanges (loc : Nat) : Nat → Nat → List (Nat × Nat) → Bool
  | 0, _, _ => false
  | _, _, [] => false
  | n + 1, room, r :: rest => r.2 ≤ room && ((r.1 ≤ loc && loc < r.1 + r.2) || inRanges loc n (room - r.2) rest)

/-- The host may reach a location: decoders are disabled before READY (R366), and at most 8 ranges of at most 2 TiB in all count (R341). -/
def exposes (s : State) (loc : Nat) : Bool := s.ready && inRanges loc 8 (2 ^ 41) s.exposed

/-- A line of an exposed device page (R341): LOC 0 or 1 and not uncached. -/
def isDeviceLine (s : State) (p : Place) : Bool := p.loc < 2 ^ 64 && !p.uncached && exposes s p.loc

/-! ### The host -/

/-- A line leaves what the host knows the device to hold. -/
def hostForget (s : State) (l : Nat) : State := { s with hostLines := Tbl.erase s.hostLines l, island := NatSet.erase s.island l }

/-- HOST_SNPINV (R342). -/
def execHostSnpinv (line : Line) (s : State) : Outcome :=
  let l := line.toNat
  match linePlace s l with
  | none => .next s
  | some p =>
    .next (if !isHostLine p || peerWaits s l true then s
      else hostForget (lineHome s l) l)

/-- HOST_SNPDATA (R342). A line that a power-gating or a save has left to the island is answered from the banks and invalidated (R345). -/
def execHostSnpdata (line : Line) (s : State) : Outcome :=
  let l := line.toNat
  match linePlace s l with
  | none => .next s
  | some p =>
    .next (if !isHostLine p || peerWaits s l false then s
      else
        let s := peerRead s l p
        if s.island.contains l then hostForget (lineHome s l) l
        else if Tbl.has s.hostLines l then { s with hostLines := Tbl.set s.hostLines l 1 } else s)

/-- A home slice's filter has room for `filterLines` lines; one more sends BISnpInv for a line whose entry goes (R343). DESIGN CHOICE: the victim is
the lowest line of the slice that is not being evicted yet (notes/assumptions/64.md). -/
def filterEvict (s : State) (l : Nat) : State :=
  let open_ := s.hostHolds.filter fun h => h.1 != l && h.2 != 0 && dirDie h.1 == dirDie l && !s.bisnpInv.contains h.1
  if s.filterLines ≤ open_.length then askInv s ((open_.map (·.1)).take 1) else s

/-- A host access to a line of a device page, between two stamps (R344). An outstanding back-invalidate stays outstanding: the
conflict is the host's, and it is reissued. -/
def hostAccess (s : State) (l : Nat) (p : Place) (op : PeerOp) : State :=
  match op with
  | .read =>
    let s := peerRead (foreignTouch s p false) l p
    filterEvict (if Tbl.get 0 s.hostHolds l == 0 then { s with hostHolds := Tbl.set s.hostHolds l 1 } else s) l
  | .own =>
    let s := lineHome (foreignTouch s p false) l
    filterEvict { s with hostHolds := Tbl.set s.hostHolds l 2, remoteHolds := Tbl.erase s.remoteHolds l } l
  | .write d _ =>
    let s := peerWrite (foreignTouch s p true) l p ⟨d, 0⟩
    { s with hostHolds := Tbl.erase s.hostHolds l, remoteHolds := Tbl.erase s.remoteHolds l }

def peerWrites : PeerOp → Bool
  | .read => false
  | _ => true

/-- HOST_REQUEST (R343, R344). -/
def execHostRequest (line : Line) (op : PeerOp) (s : State) : Outcome :=
  let l := line.toNat
  match linePlace s l with
  | none => .next s
  | some p => .next (if !isDeviceLine s p || !portActive s (l % 2) || peerWaits s l (peerWrites op) then s else hostAccess s l p op)

/-- BISNP_RESPONSE (R343): to BISnpInv the host gives the line up, to BISnpData it keeps it shared, and it returns what it had dirty; a miss that waits for the line may go
on. -/
def execBisnpResponse (line : Line) (data : Option (BitVec 1024)) (s : State) : Outcome :=
  let l := line.toNat
  if !s.bisnp.contains l then .next s
  else
    let kept := !s.bisnpInv.contains l && Tbl.get 0 s.hostHolds l != 0
    let s := { s with bisnp := NatSet.erase s.bisnp l, bisnpInv := NatSet.erase s.bisnpInv l, answered := NatSet.insert s.answered l,
                      hostHolds := if kept then Tbl.set s.hostHolds l 1 else Tbl.erase s.hostHolds l,
                      dies := Tbl.mapVal s.dies fun _ d => { d with page := d.page.map fun c => { c with waits := c.waits.filter (· != l) } } }
    match data, linePlace s l with
    | some d, some p => .next (peerWrite s l p ⟨d, 0⟩)
    | _, _ => .next s

/-! ### Hot reset and link-down (R346) -/

/-- Lines under a key leave the L1s while the key is still there: coherent ones as an eviction; for a non-coherent one this is no event of
R125, so it does not reach its home (R325). -/
def evictKeyed (s : State) : State :=
  let s := { s with cores := Tbl.mapVal s.cores fun _ k => { k with l1 := k.l1.filter fun l => !(l.nonCoherent && l.key != 0) } }
  s.cores.foldl (fun s c => (c.2.l1.filter fun l => l.key != 0).foldl (fun s l => evictLine s c.1 l) s) s

/-- Every unit of a line is poisoned (R348, R360). -/
def poisonLine (s : State) (loc : Nat) : State := { s with mem := (upTo 8).foldl (fun m u => memSetPoison m (loc / 128 * 128 + 16 * u)) s.mem }

/-- Lines that the host owned are lost with its link; its other copies are forgotten (R348, R360). -/
def hostGone (s : State) (lines : List Nat) : State :=
  let owned := lines.filter fun l => Tbl.get 0 s.hostHolds l == 2
  let s := owned.foldl (fun s l =>
    match linePlace s l with
    | some p => poisonLine s p.loc
    | none => s) s
  { s with hostHolds := s.hostHolds.filter fun h => !lines.contains h.1, bisnp := s.bisnp.filter fun l => !lines.contains l,
           bisnpInv := s.bisnpInv.filter fun l => !lines.contains l,
           dies := Tbl.mapVal s.dies fun _ d => { d with page := d.page.map fun c => { c with waits := c.waits.filter fun l => !lines.contains l } } }

/-- The contexts that are confidential and live. -/
def confidential (s : State) : List (BitVec 12) := (s.contexts.filter fun c => c.2.conf && c.2.life != .free).map fun c => BitVec.ofNat 12 c.1

/-- The consequences of a hot reset or link-down of a CXL port. -/
def cxlConsequences (s : State) (port : Nat) : State :=
  let s := (confidential s).foldl terminate s
  let s := evictKeyed s
  let s := hostGone s ((s.hostHolds.map (·.1)).filter fun l => l % 2 == port)
  { s with keys := [], sessions := [], locks := [], ideKeys := [] }

/-- A hot reset draws a new message key besides (R263). -/
def newMessageKey (s : State) : State := rekeyMessages { s with fresh := s.fresh + 1 } (Config.randomKey s.fresh)

/-- HOT_RESET (R339, R346); after a start-up that failed it lets start-up begin again (R366). -/
def execHotReset (port : BitVec 5) (s : State) : Outcome :=
  let n := port.toNat
  .next (if isCxl n && s.bootErr != 0 && !s.ready then { s with phase := 0, bootErr := 0 }
    else if isCxl n && (portAt s n).state == .active then newMessageKey (cxlConsequences (setPort s n { portAt s n with state := .resetting, version := 0 }) n)
    else s)

/-- HOT_RESET_COMPLETE (R339). -/
def resetDue (s : State) (n : Nat) : Bool :=
  (portAt s n).state == .resetting && !(s.contexts.any fun c => c.2.conf && c.2.life == .terminating)

def execHotResetComplete (port : BitVec 5) (s : State) : Outcome :=
  .next (if resetDue s port.toNat then setPort s port.toNat { portAt s port.toNat with state := .training } else s)

/-- Where a line of host memory lies: as its dirty copy or the pool has it, else as its page translates. -/
def hostPlace (s : State) (line : Nat) : Option Nat :=
  match dirtyLine s line, granuleOf s (line * 128) with
  | some (_, l), _ => some l.loc
  | none, some g => some (g.loc + line % 16 * 128)
  | none, none => (linePlace s line).map (·.loc)

/-- One line of host memory as the island answers for it (R345): with poison when the device held it M or O. No copy stays, and the chunks
that hold it start again. -/
def islandLine (s : State) (line : Nat) : State :=
  let s := s.cores.foldl (fun s c => testCore s c.1 [line]) s
  let s' := if deviceDirty s line then (match hostPlace s line with | some a => poisonLine s a | none => s) else s
  dirRelist (dropPieces (dropCopies s' line) line) line

/-- Every host line that the device held M or O answers with poison, no copy stays, and a port is viral (R345). -/
def islandPoison (s : State) (ports : List Nat) : State :=
  let s := s.hostLines.foldl (fun s h => islandLine s h.1) s
  { s with hostLines := [], island := [], viral := ports.foldl NatSet.insert s.viral }

/-- LINK_DOWN (R339, R345, R346). -/
def execLinkDown (port : BitVec 5) (s : State) : Outcome :=
  let n := port.toNat
  if (portAt s n).state != .active then .next s
  else
    let s := setPort s n ⟨.down, 0, false⟩
    .next (if isCxl n then cxlConsequences (islandPoison s [n]) n else s)

/-! ### The fabric (R348) -/

/-- REMOTE_REQUEST (R348): a member's request is served at the home here; a request of its own home invalidates the copies here. A member that has
asked for a line to write it owns it until it writes it back. -/
def execRemoteRequest (from_ : BitVec 12) (line : Line) (op : PeerOp) (s : State) : Outcome :=
  let l := line.toNat
  let m := from_.toNat
  match linePlace s l with
  | none => .next s
  | some p =>
    if !s.roster.contains m || p.uncached || isHost p.loc || peerWaits (ownerView s m l) l (peerWrites op) then .next s
    else
      let s := { s with lost := s.lost.filter (· != m) }
      match op with
      | .read =>
        let s := peerShare (foreignTouch s p false) l p
        .next { s with remoteHolds := Tbl.update [] s.remoteHolds l fun x => NatSet.insert x m }
      | .own =>
        let s := lineHome (foreignTouch s p false) l
        .next { s with remoteHolds := Tbl.set s.remoteHolds l [m], remoteOwns := Tbl.set s.remoteOwns l m }
      | .write d t =>
        let s := peerWrite (foreignTouch s p true) l p ⟨d, t⟩
        .next { s with remoteHolds := Tbl.erase s.remoteHolds l, remoteOwns := Tbl.erase s.remoteOwns l }

/-- Lines that another module owned are lost with its answer: every unit is poisoned (R348, R360). -/
def remoteGone (s : State) (lines : List Nat) : State :=
  let s := lines.foldl (fun s l =>
    match linePlace s l with
    | some p => poisonLine s p.loc
    | none => s) s
  { s with remoteOwns := s.remoteOwns.filter fun h => !lines.contains h.1, remoteHolds := s.remoteHolds.filter fun h => !lines.contains h.1 }

/-- The lines that a module owns. -/
def ownedBy (s : State) (m : Nat) : List Nat := (s.remoteOwns.filter fun h => h.2 == m).map (·.1)

/-- One request for a line gets no answer: what the partner owned of it is lost, and a read of it from the partner raises POISON (R348). -/
def lineGone (s : State) (partner line : Nat) : State :=
  if partner == 4095 && (Tbl.get 0 s.hostHolds line == 2 || s.bisnp.contains line) then hostGone s [line]
  else if Tbl.find s.remoteOwns line == some partner then remoteGone s [line]
  else { s with lostLines := NatSet.insert s.lostLines line }

/-- A partner answers nothing any more. -/
def partnerGone (s : State) (partner : Nat) : State :=
  let s := { s with lost := NatSet.insert s.lost partner }
  if partner == 4095 then hostGone s s.bisnp else remoteGone s (ownedBy s partner)

/-- REQUEST_LOST (R348): a request to a partner, 4,095 for the host, gets no answer: one for a line, or all of them. A lost writeback
poisons its line. -/
def execRequestLost (partner : BitVec 12) (lost : LostRequest) (s : State) : Outcome :=
  match lost with
  | .access (some line) => .next (lineGone s partner.toNat line.toNat)
  | .access none => .next (partnerGone s partner.toNat)
  | .writeback line =>
    match linePlace s line.toNat with
    | some p =>
      .next (if p.loc < 2 ^ 64 then s else poisonLine s p.loc)
    | none => .next s

/-! ### In-switch reduction (R349) -/

/-- The width of an element in bytes. -/
def elemBytes : ElemType → Nat
  | .f32 => 4
  | .bf16 => 2
  | .i32 => 4
  | .i64 => 8

/-- The sum of two elements, rounded to nearest even. -/
def elemAdd (t : ElemType) (a b : Nat) : Nat :=
  match t with
  | .f32 => fAdd FFmt.f32 .rne a b
  | .bf16 => fAdd FFmt.bf16 .rne a b
  | .i32 => (a + b) % 2 ^ 32
  | .i64 => (a + b) % 2 ^ 64

/-- Add the elements of two pieces of 64 bytes. -/
def pieceAdd (t : ElemType) (a b : Nat) : Nat :=
  let w := 8 * elemBytes t
  bytesFrom w ((upTo (64 / elemBytes t)).map fun i => elemAdd t (a / 2 ^ (w * i) % 2 ^ w) (b / 2 ^ (w * i) % 2 ^ w))
where
  bytesFrom (w : Nat) : List Nat → Nat
    | [] => 0
    | x :: r => x + 2 ^ w * bytesFrom w r

/-- Add pieces in the fixed tree over the members from the i-th on; `fuel` bounds the tree's depth. -/
def treeAdd (t : ElemType) (i : Nat) (l : List Nat) : Nat → Nat
  | 0 => 0
  | fuel + 1 =>
    match l with
    | [] => 0
    | [x] => x
    | _ =>
      let k := 1 + Config.treeSplit (4096 * i + l.length) % (l.length - 1)
      pieceAdd t (treeAdd t i (l.take k) fuel) (treeAdd t (i + k) (l.drop k) fuel)

/-- Every member's contribution in ascending module order, this module's among them; none when one is missing. What a module that is no
member of the roster sends is dropped (R333). -/
def allContributions (s : State) (r : Reduction) (mine : BitVec 512) (others : List (Nat × BitVec 512)) : Option (List Nat) :=
  r.members.mapM fun m =>
    if m == Config.moduleIndex.toNat then some mine.toNat
    else (others.find? fun o => o.1 == m && s.roster.contains m).map (·.2.toNat)

/-- The parts of the sync word that counts a sum's arrival. -/
def resultSync (s : State) (c : Contribution) : List Seg :=
  match c.sync with
  | some y => (match agentSegs s c.ctx y.toNat 16 true with | .ok g => g | .error _ => [])
  | none => []

/-- Write the bytes of a mask, one engine chunk, and count them into the sync word (R274). -/
def resultPut (s : State) (c : Contribution) (a v : Nat) : State :=
  let n := ((upTo 64).filter fun i => c.mask.getLsbD i).length
  match transIa s c.ctx .outside a with
  | .ok p =>
    if p.uncached then s
    else
      let sy := resultSync s c
      let b : LineBuf := ⟨BitVec.ofNat 1024 (v * 2 ^ (8 * (a % 128))), BitVec.ofNat 128 (c.mask.toNat * 2 ^ (a % 128)), 0,
        BitVec.ofNat 8 (unitsOf c.mask.toNat 4 * 2 ^ (a % 128 / 16))⟩
      let s := markPage (writeHome (tlbFill (enginePage s p) p) p b) (p.ia / 2 ^ 16) true
      let s := if sy.isEmpty then s else countInto s sy n
      engineCommit s (p.ia / 128 :: segLines sy)
  | _ => s
where
  unitsOf (mask : Nat) : Nat → Nat
    | 0 => 0
    | k + 1 => (if mask % 2 ^ 16 == 0 then 0 else 1) + 2 * unitsOf (mask / 2 ^ 16) k

/-- The lines that the sum of a piece of a group is written to. -/
def resultLines (s : State) (group piece : Nat) : List Nat :=
  match Tbl.find s.reductions group with
  | none => []
  | some r =>
    match Tbl.find r.contrib piece with
    | none => []
    | some c => (r.buffer.toNat + 64 * piece) / 128 :: segLines (resultSync s c)

/-- REDUCTION_RESULT (R349): every other member has contributed to a piece. The packets take version 2 of the link protocol (R340). -/
def execReductionResult (group : Byte) (piece : BitVec 10) (others : List (Nat × BitVec 512)) (s : State) : Outcome :=
  match Tbl.find s.reductions group.toNat with
  | none => .next s
  | some r =>
    match if reductionLink s && !oldMember s r.members then Tbl.find r.contrib piece.toNat else none with
    | none => .next s
    | some c =>
      match allContributions s r c.data others with
      | none => .next s
      | some l =>
        let s := { s with reductions := Tbl.set s.reductions group.toNat { r with contrib := Tbl.erase r.contrib piece.toNat } }
        .next (resultPut s c (r.buffer.toNat + 64 * piece.toNat) (treeAdd r.elem 0 l (l.length + 1)))

/-- REDUCTION_GROUP_CONFIG (R340, R349): refused when it would include a partner of version 1. -/
def execReductionGroupConfig (group : Byte) (members : List Nat) (elem : ElemType) (buffer : BitVec 48) (s : State) : Outcome :=
  let l := members.foldl NatSet.insert []
  .next (if oldMember s l || !l.contains Config.moduleIndex.toNat then s else { s with reductions := Tbl.set s.reductions group.toNat ⟨l, elem, buffer, []⟩ })

/-! ### RDMA (R350) -/

/-- Every page of a region is mapped and has no key. -/
def regionOk (s : State) (ctx : BitVec 12) (c : Cap) : Bool :=
  let d := capDecode c
  let n := d.2 - d.1
  match transParts s ctx .outside (pageParts d.1 n (n / 65536 + 2)) with
  | .error _ => false
  | .ok l => l.all fun x => match x.2.2 with | some p => p.key == 0 && !p.uncached | none => false

/-- MEMORY_REGION_REGISTRATION (R350): the lowest free index, with its next generation. -/
def execMemoryRegionRegistration (ctx : BitVec 12) (region : Cap) (s : State) : Outcome :=
  .next (if !region.tag || ctx == 0 || !regionOk s ctx region then s
    else
      match (upTo 65536).find? fun i => ((Tbl.find s.regions i).map (·.ctx)).getD 0 == 0 with
      | none => s
      | some i =>
        let gen : Byte := ((Tbl.find s.regions i).map (·.gen + 1)).getD 0
        { s with regions := Tbl.set s.regions i ⟨ctx, region, gen⟩ })

/-- Write bytes as engine chunks of one granule or less; a chunk that cannot be written ends the write. Whether all were written comes with
the state. -/
def rdmaPut (s : State) (ctx : BitVec 12) (a : Nat) (l : List Byte) : Nat → State × Bool
  | 0 => (s, l.isEmpty)
  | fuel + 1 =>
    if l.isEmpty then (s, true)
    else
      let n := min l.length (2048 - a % 2048)
      match agentSegs s ctx (a % 2 ^ 64) n false with
      | .error _ => (s, false)
      | .ok g =>
        let s := agentTouch (agentPut s (bytesVal ((l.take n).map (·.toNat))) g) true g
        rdmaPut (engineCommit s (segLines g)) ctx (a + n) (l.drop n) fuel

/-- The context and the first address that an incoming RDMA write of a queue pair writes at; none when there is no such pair, or its remote key,
its range or its permission refuses it. -/
def rdmaTarget (s : State) (key : RdmaKey) (off : W32) (n : Nat) : Option (BitVec 12 × Nat) :=
  match if s.queuePairs.contains key.qp.toNat then Tbl.find s.regions (key.rkey.extractLsb' 8 16).toNat else none with
  | none => none
  | some r =>
    let a := (capDecode r.cap).1 + off.toNat
    if r.ctx == 0 || r.gen != key.rkey.extractLsb' 0 8 || !capHas r.cap Perm.store || (capDecode r.cap).2 < a + n ||
        !((upTo 24).any fun n => isEthernet n && portActive s n) then none
    else some (r.ctx, a)

/-- The completion entry of a write, at the stamp of its last engine chunk: whoever takes it comes after that (R156, R350). -/
def rdmaReport (qp : BitVec 12) (r : State × Bool) : State :=
  if r.2 then { r.1 with completions := r.1.completions ++ [(qp.toNat, r.1.stamp - 1)] } else r.1

/-- RDMA_WRITE (R350): the remote key's index is its upper 16 bits, its generation the lower 8. -/
def execRdmaWrite (key : RdmaKey) (off : W32) (bytes : List Byte) (s : State) : Outcome :=
  .next (match rdmaTarget s key off bytes.length with
    | some (ctx, a) => rdmaReport key.qp (rdmaPut s ctx a bytes (bytes.length + 1))
    | none => s)

/-! ### SPDM and TDISP (R347) -/

/-- A context has one interface, which has the context's number (R341; notes/assumptions/62.md). -/
def tdiExists (s : State) (tdi : BitVec 12) : Bool := tdi != 0 && (ctxOf s tdi).life != .free

/-- LOCK_INTERFACE (R347): the first request locks; a second one gets an error response that names the interface. Up to 64 interfaces are locked
at once (R341). -/
def execLockInterface (tdi : BitVec 12) (s : State) : Outcome :=
  .next (if s.locks.contains tdi.toNat then { s with lockErrors := s.lockErrors ++ [tdi.toNat] }
    else if !tdiExists s tdi || 64 ≤ s.locks.length then s
    else { s with locks := s.locks ++ [tdi.toNat] })

/-- The five measurement blocks (R347). -/
def measurementBlocks (s : State) : List (BitVec 384) :=
  let m (i : Nat) : BitVec 384 := s.measured.getD i 0
  let key : BitVec 384 := match s.fmKey with
    | some k => BitVec.ofNat 384 (bytesVal (sha384 (bytesOf k.toNat 96)))
    | none => Config.measurement s.fresh
  [m 0, m 1, m 2, s.rosterSerial.setWidth 384, key]

/-- ATTESTATION (R347): a session whose requester has the blocks under Cornerstone's signature; with an IDE key it sets up the key of a CXL port
(R341). -/
def execAttestation (session : W32) (keys : SessionKeys) (s : State) : Outcome :=
  .next { s with ideKeys := (match keys.ide with
                   | some k => Tbl.set s.ideKeys k.1.toNat k.2
                   | none => s.ideKeys),
                 sessions := (s.sessions.filter fun x => x.id != session) ++ [⟨session, keys.secret, true⟩],
                 reports := s.reports ++ [⟨session, measurementBlocks s, Config.attestationSignature s.fresh⟩], fresh := s.fresh + 1 }

/-- FM_PUBLIC_KEY_WRITE (R347): once. -/
def execFmPublicKeyWrite (key : BitVec 768) (s : State) : Outcome :=
  .next (match s.fmKey with
    | none => { s with fmKey := some key }
    | some _ => s)

end Sys2Proof.Machine
end

