-- ==== Sys2Proof/Machine/Debug.lean ====
section
/-! DEFINITION. Faults, freezing and the supervisor: fault packets (R352, R353, R355), the debug window (R356 to R359, R364), and
the errors of memory (R360 to R362). The supervisor's programs are outside the machine; what it writes comes as an event. -/

namespace Sys2Proof.Machine

/-! ### Packets -/

/-- A slot of a freezing core has stopped (R353): its chunks have committed, or its one-instruction chunk waits for a condition. -/
def slotStopped (s : State) (c l : Nat) : Bool :=
  let x := slotAt s c l
  !x.busy ||
    (x.cur.status == .executing && x.cur.count == 0 &&
      match x.older with
      | none => true
      | some o => o.status == .ended && o.effect.isSome && !commitDue s c l)

/-- The packet as it leaves: its stamp is that of the slot's last committed chunk, unless a sequencer raised it. -/
def stamped (s : State) (c : Nat) (p : Packet) : Packet :=
  if p.source.toNat < 2 then { p with stamp := (slotAt s c p.slot.toNat).commitStamp } else p

/-- The inbox that packets go to: supervisor 1's while supervisor 0 is held in reset (R355). -/
def inboxOf (d : Die) : List Packet := if d.supReset then d.inbox1 else d.inbox0
def inboxRoom (d : Die) : Bool := (inboxOf d).length < 256
def inboxPut (d : Die) (p : Packet) : Die := if d.supReset then { d with inbox1 := d.inbox1 ++ [p] } else { d with inbox0 := d.inbox0 ++ [p] }

/-- Waiting unit reports enter the inbox as far as it has room. -/
def unitsIn (d : Die) : Die :=
  let n := 256 - (inboxOf d).length
  (d.units.take n).foldl inboxPut { d with units := d.units.drop n }

/-- A frozen core can send its packet. -/
def packetDue (s : State) (c : Nat) : Bool :=
  let k := coreAt s c
  k.frozen && k.report.isSome && inboxRoom (dieAt s (dieOf c)) && [0, 1, 2, 3].all fun l => slotStopped s c l

/-- The next held report of a core becomes the one that it sends. -/
def nextHeld (k : Core) (time : W64) : Core :=
  match k.held with
  | p :: r => { k with report := some { p with time := time }, held := r }
  | [] => k

/-- A packet that is due leaves its core for the supervisor's inbox. A core of a terminating context is not resumed, so it sends what it
holds at once (R361). -/
def sendPacket (s : State) (c : Nat) : State :=
  if !packetDue s c then s
  else
    match (coreAt s c).report with
    | none => s
    | some p =>
      let q := stamped s c p
      let ends := (ctxOf s (coreAt s c).owner).life == .terminating
      let s := updCore s c fun k =>
        let k := { k with report := none, packet := packetBits q }
        if ends then nextHeld k s.time else k
      updDie s (dieOf c) fun d => inboxPut d q

/-- FAULT_PACKET (R353, R355). -/
def execFaultPacket (c : Coord) (s : State) : Outcome := .next (sendPacket s c.toNat)

/-- SUPERVISOR_RESET (R355). -/
def execSupervisorReset (die : BitVec 3) (held : Bool) (s : State) : Outcome := .next (updDie s die.toNat fun d => unitsIn { d with supReset := held })

/-! ### HALT, RESUME and STEP -/

/-- HALT (R355). -/
def haltCore (s : State) (c : Nat) : State := freeze s c (packetOf s c 0 0 Code.bkpt (capAddr (slotAt s c 0).regs.pcc) 0 1)

def execHalt (c : Coord) (s : State) : Outcome := .next (haltCore s c.toNat)

/-- The supervisor works on a core: it has taken the core's packets and the unit reports from its inbox (R355; notes/assumptions/73.md). -/
def packetTaken (s : State) (c : Nat) : State :=
  let left (l : List Packet) : List Packet := l.filter fun p => !p.unit && p.coord.toNat != c
  updDie s (dieOf c) fun d => unitsIn { d with inbox0 := left d.inbox0, inbox1 := left d.inbox1 }

/-- Slots marked in ENDSLOT end as END does (R358). -/
def applyEndslot (s : State) (c : Nat) : State :=
  let s := [0, 1, 2, 3].foldl (fun s l => if (coreAt s c).endSlot.getLsbD l && (slotAt s c l).busy then endEffect (unpin s c l) c l else s) s
  updCore s c fun k => { k with endSlot := 0 }

/-- The lines whose loss a core has reported are asked for again once the supervisor lets it go on (notes/assumptions/34.md). -/
def askAgain (s : State) : State := { s with lostLines := [] }

/-- A write of 1 to RESUME (R358): a report that is held, or one that has not left the core yet, keeps the core frozen
(R353, R355; notes/assumptions/73.md). -/
def resumeCore (s : State) (c : Nat) : State :=
  let s := sendPacket s c
  if !(coreAt s c).frozen then s
  else
    let s := applyEndslot (packetTaken s c) c
    let k := coreAt s c
    if k.report.isSome then s
    else if k.held.isEmpty then askAgain (setCore s c { k with frozen := false })
    else setCore s c (nextHeld k s.time)

/-- DBG_RESUME (R358). -/
def execDbgResume (c : Coord) (s : State) : Outcome := .next (resumeCore s c.toNat)

/-- What a core has found and has not sent as a step begins: a fault that the step's slot finds anew, and a halt, are withdrawn; another
report is held until the next resume (notes/assumptions/73.md). -/
def unsentHeld (k : Core) (l : Nat) : Core :=
  match k.report with
  | none => k
  | some p =>
    if (atInstruction p && p.slot.toNat == l) || (p.code == Code.bkpt && p.info == 1) then { k with report := none }
    else { k with report := none, held := p :: k.held }

/-- A slot whose earlier chunks, those that have ended before its step, do not complete it. -/
def beforeStep (x : Slot) : Slot :=
  { x with older := x.older.map fun o => { o with beforeStep := true },
           cur := if x.cur.status == .executing then x.cur else { x.cur with beforeStep := true } }

/-- A write of 1 to STEP (R359). -/
def stepCore (s : State) (c l : Nat) : State :=
  let s := sendPacket s c
  if !(coreAt s c).frozen then s
  else
    let s := updCore (packetTaken s c) c fun k => unsentHeld k l
    let x := slotAt s c l
    if !x.busy then updCore s c fun k => { k with report := some (packetOf s c l 0 Code.step 0 0 1) }
    else askAgain (updCore (setSlot s c l (beforeStep x)) c fun k => { k with frozen := false, stepping := some (BitVec.ofNat 2 l) })

/-- STEP (R359). -/
def execStep (c : Coord) (sl : BitVec 2) (s : State) : Outcome := .next (stepCore s c.toNat sl.toNat)

/-! ### The debug window (R356, R357) -/

/-- The registers of the slot that SEL shows change; its next chunk starts from them. -/
def updShown (s : State) (c : Nat) (f : Regs → Regs) : State :=
  let l := (coreAt s c).selSlot.toNat
  let x := slotAt s c l
  let r := f x.regs
  setSlot s c l { x with regs := r, cur := if freshChunk x then Chunk.start r else x.cur }

/-- The pending entries of a written register go. -/
def dropPending (r : Regs) (p : Pend → Bool) : Regs := { r with pending := r.pending.filter fun q => !p q }

/-- A tag may be set on an image: it passes CBUILD's checks against the context's authority and the revocation check (R357). -/
def tagAllowed (s : State) (c : Nat) (img : BitVec 128) : Bool :=
  let ctx := (coreAt s c).owner
  (buildCheck (ctxOf s ctx).authority img).isNone && (scrubCap s ctx ⟨true, img⟩).tag

/-- Write tag bits over registers: `get` and `put` reach register n; a refused one sets TAGREF. -/
def writeTags (s : State) (c : Nat) (bits : Nat) (get : State → Nat → Cap) (put : State → Nat → Cap → State) : Nat → State
  | 0 => s
  | n + 1 =>
    let s := writeTags s c bits get put n
    let old := get s n
    if bits / 2 ^ n % 2 == 0 then (if old.tag then put s n ⟨false, old.img⟩ else s)
    else if old.tag then s
    else if tagAllowed s c old.img then put s n ⟨true, old.img⟩
    else updCore s c fun k => { k with tagRef := true }

def shownRegs (s : State) (c : Nat) : Regs := (slotAt s c (coreAt s c).selSlot.toNat).regs

/-! #### SRDATA and SRTAG (R364) -/

/-- A per-thread or per-core register; the others are the context's, the cluster's or the package's (R232). -/
def isLocalSys (i : BitVec 12) : Bool := i.toNat ≤ 0x012

/-- A capability register (R232). -/
def isCapSys (i : BitVec 12) : Bool := i.toNat == 0x010 || (0x014 ≤ i.toNat && i.toNat ≤ 0x017) || i.toNat == 0x019

/-- A register that R232 allocates. -/
def sysExists (i : BitVec 12) : Bool := sysAllows .r i || sysAllows .w i

/-- A window write of a register: at once for the thread's and the core's registers, else as an engine chunk of the supervisor with empty
signatures, which takes a stamp also where the register ignores the write. -/
def debugSysPut (s : State) (c : Nat) (v : Cap) : State :=
  let k := coreAt s c
  let s := if isLocalSys k.srIndex || !sysExists k.srIndex then s else engineCommit s []
  if sysAllows .w k.srIndex then sysWrite s c k.selSlot.toNat k.srIndex v else s

/-- A window write of SRDATA or SRTAG. -/
def debugSysWrite (s : State) (c : Nat) (tagWrite : Bool) (value : BitVec 128) : State :=
  let k := coreAt s c
  let old := sysRead s c k.selSlot.toNat k.srIndex
  let refused (s : State) (x : Bool) : State := updCore s c fun k => { k with tagRef := x }
  if !tagWrite then debugSysPut s c ⟨false, value⟩
  else if !isCapSys k.srIndex then s
  else if !value.getLsbD 0 then debugSysPut (refused s false) c ⟨false, old.img⟩
  else if tagAllowed s c old.img then debugSysPut (refused s false) c ⟨true, old.img⟩
  else refused s true

/-- DEBUG_SYSREG_WRITE (R364). -/
def execDebugSysregWrite (c : Coord) (tagWrite : Bool) (value : BitVec 128) (s : State) : Outcome :=
  .next (if (coreAt s c.toNat).frozen then debugSysWrite s c.toNat tagWrite value else s)

/-! #### Registers by offset -/

/-- The register of the window that an offset falls in: its own offset and its bytes (R356). -/
def windowReg (off : Nat) : Option (Nat × Nat) :=
  if off < 0x018 then some (off / 8 * 8, 8)
  else if off < 0x040 then none
  else if off < 0x0c0 then some (off / 64 * 64, 64)
  else if off < 0x0d0 then some (0x0c0, 16)
  else if off < 0x0e0 then (if off < 0x0d8 then some (0x0d0, 8) else none)
  else if off < 0x0f0 then some (0x0e0, 16)
  else if off < 0x100 then (if off < 0x0f8 then some (0x0f0, 8) else none)
  else if off < 0x300 then some (off / 16 * 16, 16)
  else if off < 0x308 then some (0x300, 8)
  else if 0x310 ≤ off && off < 0x320 then some (0x310, 16)
  else if 0x320 ≤ off && off < 0x328 then some (0x320, 8)
  else if 0x400 ≤ off && off < 0x480 then some (off / 16 * 16, 16)
  else if 0x480 ≤ off && off < 0x488 then some (0x480, 8)
  else if 0x500 ≤ off && off < 0x510 then some (off / 8 * 8, 8)
  else if 0x540 ≤ off && off < 0x580 then some (0x540, 64)
  else if 0x600 ≤ off && off < 0x610 then some (0x600, 16)
  else none

/-- A bit for each number below n that `f` picks. -/
def bitsOf (f : Nat → Bool) (n : Nat) : Nat := (upTo n).foldl (fun x i => if f i then x + 2 ^ i else x) 0

/-- The entry of the shown slot's pending list that SEL.PEND names. -/
def shownPend (s : State) (c : Nat) : Option Pend := (shownRegs s c).pending[(coreAt s c).selPend.toNat]?

/-- PENDDST: the class and the number of an entry's register. -/
def pendDst : Pend → Nat
  | .g d _ => d.toNat
  | .v d _ => 2 ^ 6 + d.toNat
  | .k d _ => 2 ^ 7 + d.toNat

/-- PENDVAL: an entry's value, with the tag of a g register in bit 128 (R71); one that its target has not given yet is a free value
(notes/assumptions/40.md). -/
def pendVal (s : State) : Pend → BitVec 512
  | .g _ (some v) => v.img.setWidth 512 ||| (if v.tag then 1#512 <<< 128 else 0)
  | .g _ none => Config.uncollected s.fresh
  | .v _ v => v
  | .k _ v => v.setWidth 512

/-- A register of a frozen core's window, by its own offset (R356). -/
def windowField (s : State) (c base : Nat) : BitVec 512 :=
  let k := coreAt s c
  let r := shownRegs s c
  let word (n : Nat) : BitVec 512 := BitVec.ofNat 512 n
  if base == 0x010 then word (k.selPend.toNat * 2 ^ 16 + k.selVreg.toNat * 2 ^ 8 + k.selSlot.toNat)
  else if base == 0x080 then regsV r k.selVreg
  else if base == 0x0c0 then word ((upTo 8).foldl (fun n i => n + (regsK r (BitVec.ofNat 3 i)).toNat * 2 ^ (16 * i)) 0)
  else if base == 0x0d0 then word k.srIndex.toNat
  else if base == 0x0e0 then (sysRead s c k.selSlot.toNat k.srIndex).img.setWidth 512
  else if base == 0x0f0 then word (if isCapSys k.srIndex && (sysRead s c k.selSlot.toNat k.srIndex).tag then 1 else 0)
  else if base < 0x300 then (regsG r (BitVec.ofNat 5 ((base - 0x100) / 16))).img.setWidth 512
  else if base == 0x300 then word (bitsOf (fun n => (regsG r (BitVec.ofNat 5 n)).tag) 32)
  else if base == 0x310 then r.pcc.img.setWidth 512
  else if base == 0x320 then word (if r.pcc.tag then 1 else 0)
  else if base < 0x480 then (Tbl.get Cap.null k.engine ((base - 0x400) / 16)).img.setWidth 512
  else if base == 0x480 then word (bitsOf (fun n => (Tbl.get Cap.null k.engine n).tag) 8)
  else if base == 0x500 then word r.pending.length
  else if base == 0x508 then word ((shownPend s c).elim 0 pendDst)
  else if base == 0x540 then (shownPend s c).elim 0 (pendVal s)
  else (ctxOf s k.owner).authority.img.setWidth 512

/-- A register of the window: DBGCTL, DBGSTAT and PACKET always, every other register of a frozen core alone (R356). -/
def windowValue (s : State) (c base : Nat) : BitVec 512 :=
  let k := coreAt s c
  if base == 0x000 then BitVec.ofNat 512 (k.endSlot.toNat * 2 ^ 8)
  else if base == 0x008 then BitVec.ofNat 512 ((if k.frozen then 1 else 0) + k.held.length * 4 + if k.tagRef then 2 ^ 8 else 0)
  else if base == 0x040 then k.packet
  else if k.frozen then windowField s c base
  else 0

/-- What the debug window reads from an offset on, up to the end of the register there. -/
def windowRead (s : State) (c off : Nat) : BitVec 512 :=
  match windowReg off with
  | some (base, _) => windowValue s c base >>> (8 * (off - base))
  | none => 0

/-! #### Writes by offset -/

/-- DBGCTL (R356): RESUME and STEP act on a core that is frozen as they are written, and together they are ignored (R358). -/
def dbgctlWrite (s : State) (c : Nat) (v : W64) : State :=
  let was := (coreAt s c).frozen
  let s := updCore s c fun k => { k with endSlot := v.extractLsb' 8 4 }
  let s := if v.getLsbD 0 then haltCore s c else s
  if !was || (v.getLsbD 1 && v.getLsbD 2) then s
  else if v.getLsbD 1 then resumeCore s c
  else if v.getLsbD 2 then stepCore s c (v.extractLsb' 6 2).toNat
  else s

/-- A write of some bytes of a register of a frozen core's window, which leave `value` in it; `wrote` says which 16-bit pieces of it the
bytes touch. -/
def windowFieldWrite (s : State) (c base : Nat) (wrote : Nat → Bool) (value : BitVec 512) : State :=
  let img := value.extractLsb' 0 128
  let v := value.extractLsb' 0 64
  let tagWrite (s : State) : State := updCore s c fun k => { k with tagRef := false }
  if base == 0x010 then updCore s c fun k => { k with selPend := v.extractLsb' 16 5, selVreg := v.extractLsb' 8 5, selSlot := v.extractLsb' 0 2 }
  else if base == 0x080 then
    let n := (coreAt s c).selVreg
    updShown s c fun r => dropPending (regsSetV r n value) (pendIsV n)
  else if base == 0x0c0 then
    updShown s c fun r => (upTo 8).foldl (fun r i =>
      let n := BitVec.ofNat 3 i
      if n != 0 && wrote i then dropPending (regsSetK r n (img.extractLsb' (16 * i) 16)) (pendIsK n) else r) r
  else if base == 0x0d0 then updCore s c fun k => { k with srIndex := v.extractLsb' 0 12 }
  else if base == 0x0e0 then debugSysWrite s c false img
  else if base == 0x0f0 then debugSysWrite s c true img
  else if 0x100 ≤ base && base < 0x300 then
    let n := BitVec.ofNat 5 ((base - 0x100) / 16)
    updShown s c fun r => dropPending (regsSetG r n ⟨false, img⟩) (pendIsG n)
  else if base == 0x300 then
    writeTags (tagWrite s) c v.toNat (fun s n => regsG (shownRegs s c) (BitVec.ofNat 5 n))
      (fun s n x => updShown s c fun r => dropPending (regsSetG r (BitVec.ofNat 5 n) x) (pendIsG (BitVec.ofNat 5 n))) 32
  else if base == 0x310 then updShown s c fun r => { r with pcc := ⟨false, img⟩ }
  else if base == 0x320 then
    writeTags (tagWrite s) c (v.toNat % 2) (fun s _ => (shownRegs s c).pcc) (fun s _ x => updShown s c fun r => { r with pcc := x }) 1
  else if 0x400 ≤ base && base < 0x480 then
    updCore s c fun k => { k with engine := Tbl.set k.engine ((base - 0x400) / 16) ⟨false, img⟩ }
  else if base == 0x480 then
    writeTags (tagWrite s) c v.toNat (fun s n => Tbl.get Cap.null (coreAt s c).engine n)
      (fun s n x => updCore s c fun k => { k with engine := Tbl.set k.engine n x }) 8
  else s

/-- Put n bytes, the lowest of `value` first, over those of a register from byte `at_` on. -/
def mergeBytes (old : BitVec 512) (at_ n : Nat) (value : BitVec 512) : BitVec 512 :=
  let mask : BitVec 512 := BitVec.ofNat 512 (2 ^ (8 * n) - 1) <<< (8 * at_)
  (old &&& ~~~ mask) ||| ((value <<< (8 * at_)) &&& mask)

/-- A write of n bytes of the register at `base`, from its byte `at_` on; while a core runs only DBGCTL takes one (R356). -/
def windowRegWrite (s : State) (c base at_ n : Nat) (value : BitVec 512) : State :=
  let v := mergeBytes (windowValue s c base) at_ n value
  if base == 0 then dbgctlWrite s c (v.extractLsb' 0 64)
  else if (coreAt s c).frozen then windowFieldWrite s c base (fun i => at_ / 2 ≤ i && i ≤ (at_ + n - 1) / 2) v
  else s

/-- A write of bytes from an offset on, register by register in ascending order; `fuel` bounds the registers and the bytes between them. -/
def windowWrite (s : State) (c off n : Nat) (value : BitVec 512) : Nat → State
  | 0 => s
  | fuel + 1 =>
    if n == 0 then s
    else
      match windowReg off with
      | none => windowWrite s c (off + 1) (n - 1) (value >>> 8) fuel
      | some (base, size) =>
        let k := min n (base + size - off)
        windowWrite (windowRegWrite s c base (off - base) k value) c (off + k) (n - k) (value >>> (8 * k)) fuel

/-- DEBUG_WINDOW_WRITE (R356, R357). -/
def execDebugWindowWrite (c : Coord) (off : BitVec 12) (data : WindowData) (s : State) : Outcome :=
  .next (windowWrite s c.toNat off.toNat (min data.size.toNat 64) data.value 64)

/-! ### Errors of memory (R360 to R362) -/

/-- Fatal for a context, with the page of the error retired (R361). -/
def fatalAt (s : State) (ctx : BitVec 12) (ia : Nat) : State := retirePage (if ctx == 0 then s else fatal s ctx ia) ia

/-- An error in a line of an L1 (R360): a clean line is dropped, a dirty one is fatal and is never written back. -/
def l1Error (s : State) (c line : Nat) : State :=
  match (coreAt s c).l1.find? fun x => x.line == line with
  | none => s
  | some x =>
    let s := if x.nonCoherent then updCore s c fun k => { k with l1 := k.l1.filter fun y => !(y.line == line && y.nonCoherent) } else dropOwn s c line
    if x.dirty then fatalAt s (coreAt s c).owner (line * 128) else s

/-- A unit report (R362). -/
def unitReport (s : State) (bank set : Nat) : Packet :=
  { ctx := 0, code := Code.poison, slot := 0, source := 0, unit := true, coord := 0, pcc := 0, word := 0,
    info := BitVec.ofNat 64 (bank * 2 ^ 32 + set), stamp := 0, time := s.time, kernel := 0, modIdx := Config.moduleIndex.setWidth 16 }

/-- The repair log's entry of a way. -/
def wayEntry (key : Nat) : Nat := 3 * 2 ^ 32 + key

/-- Quarantine a way (R362): the set's spare takes its place, or the way is lost for good. REPAIRSTAT counts the spares in use and the ways
lost (R367). -/
def quarantine (s : State) (bank set way : Nat) : State :=
  let key := (bank * 32 + set) * 16 + way
  let s := { s with banks := Tbl.erase s.banks key, repairs := s.repairs ++ [wayEntry key] }
  let s :=
    if !s.spares.contains (bank * 32 + set) then
      { s with spares := NatSet.insert s.spares (bank * 32 + set), repairstat := s.repairstat + BitVec.ofNat 64 (2 ^ 16) }
    else if s.lostWays.contains key then s
    else { s with lostWays := NatSet.insert s.lostWays key, repairstat := s.repairstat + 1 }
  updDie s (bank / 192) fun d => unitsIn { d with units := d.units ++ [unitReport s bank set] }

/-- The caches above the one that holds a way of a bank (R296, R301). -/
def aboveWay (s : State) (bank way : Nat) : Context × List Nat :=
  match Tbl.find s.slices (bank * 16 + way) with
  | some o => (ctxOf s (BitVec.ofNat 12 (o / 32)), evictPath (ctxOf s (BitVec.ofNat 12 (o / 32))) (o % 32))
  | none => (Context.reset, [])

/-- An error in a piece of a way of a bank: the other dirty pieces of its granule leave as at an eviction, and the way is quarantined; a
clean piece is fetched again where it is asked for, a dirty one is fatal (R360). -/
def bankError (s : State) (bank set way piece : Nat) : State :=
  let key := (bank * 32 + set) * 16 + way
  match Tbl.find s.banks key with
  | none => quarantine s bank set way
  | some g =>
    let up := aboveWay s bank way
    let s := evictInto up.1 up.2 { s with banks := Tbl.set s.banks key { g with dirty := g.dirty &&& ~~~ (1#32 <<< piece) } } key
    let s := quarantine s bank set way
    if g.dirty.getLsbD piece then fatalAt s g.owner (g.addr * 2048 + 64 * piece) else s

/-- Pages whose leaf names a frame, found in the table from its root (R283). -/
def pagesAt (s : State) (k : Nat) : List Nat :=
  let has (l : BitVec 128) (large : Bool) : Bool :=
    let p := leafPlace l large 0
    leafUsable l large && p ≤ k && k < p + (if large then 2 ^ 25 else 2 ^ 16)
  let entry (at_ : Nat) : BitVec 128 := (readEntry s at_).getD 0
  (upTo 16384).flatMap fun i =>
    match pointerOf (entry (s.ptroot.toNat / 2 ^ 18 * 2 ^ 18 + 16 * i)) with
    | none => []
    | some t2 =>
      (upTo 512).flatMap fun j =>
        let e := entry (t2 + 16 * j)
        if e.getLsbD 2 then (if has e true then [i * 2 ^ 34 + j * 2 ^ 25] else [])
        else
          match pointerOf e with
          | none => []
          | some t3 => (upTo 512).filterMap fun m => if has (entry (t3 + 16 * m)) false then some (i * 2 ^ 34 + j * 2 ^ 25 + m * 2 ^ 16) else none

/-- An error in memory: the unit is poisoned, and in HBM or second-tier memory its pages are retired. -/
def memoryError (s : State) (k : Nat) : State :=
  if 2 ^ 48 ≤ k then s
  else
    let pages := if isClusterMem k then [] else pagesAt s k
    pages.foldl retirePage { s with mem := memSetPoison s.mem k }

/-- ECC_UNCORRECTABLE (R360 to R362). -/
def execEccUncorrectable (place : EccPlace) (s : State) : Outcome :=
  match place with
  | .l1 c line => .next (l1Error s c.toNat line.toNat)
  | .bank b set way piece => .next (if b.toNat < 1536 then bankError s b.toNat set.toNat way.toNat piece.toNat else s)
  | .memory k => .next (memoryError s k)
  | .registers c => .next (if (coreAt s c.toNat).owner == 0 then s else fatal s (coreAt s c.toNat).owner 0)
  | .array cl =>
    let k := clusterAt s cl.toNat
    let owner := (coreAt s (8 * cl.toNat + k.holder.toNat)).owner
    .next (if k.lease == .free || owner == 0 then s else fatal s owner 0)

/-- ECC_CORRECTABLE (R360). -/
def execEccCorrectable (die : BitVec 3) (s : State) : Outcome := .next (updDie s die.toNat fun d => { d with eccCount := d.eccCount + 1 })

end Sys2Proof.Machine
end

