-- ==== Sys2Proof/Machine/Boot.lean ====
section
/-! DEFINITION. Start-up and repair (R366 to R368), power (R345, R369) and snapshots (R370, R371). -/

namespace Sys2Proof.Machine

/-! ### Start-up (R366) -/

/-- Start-up has neither failed nor completed and stands at this phase. -/
def inPhase (s : State) (n : Nat) : Bool := !s.ready && s.bootErr == 0 && s.phase.toNat == n

/-- Start-up that has failed begins again: by a cycle of the power or a CXL hot reset (R366). -/
def startAgain (s : State) : State := if s.bootErr != 0 && !s.ready then { s with phase := 0, bootErr := 0 } else s

/-- POWER_ON (R366): Cornerstone measures the firmware. -/
def execPowerOn (ok : Bool) (s0 : State) : Outcome :=
  let s := startAgain s0
  .next (if !inPhase s 0 then s
    else if !ok then { s with bootErr := 7 }
    else { s with phase := 1, measured := [Config.measurement s.fresh, Config.measurement (s.fresh + 1)], fresh := s.fresh + 2 })

/-- The units of a kind in the repair log. -/
def loggedUnits (s : State) (kind : Nat) : List Nat := (s.repairs.filter fun r => r / 2 ^ 32 == kind).map (· % 2 ^ 32)

/-- The union of the fuse map's units and the log's of a kind: each once. -/
def failedUnits (s : State) (fused : List Nat) (kind : Nat) : List Nat := (fused ++ loggedUnits s kind).foldl NatSet.insert []

/-- Of group k of numbers, `width` numbers wide: the failed units among its first `n` places that no good spare takes the place of, and the
spares in use. The `spares` places after the first `n` are the group's spares. -/
def shortOf (failed : List Nat) (width n spares k : Nat) : Nat × Nat :=
  let at_ (lo hi : Nat) : Nat := (failed.filter fun u => u / width == k && lo ≤ u % width && u % width < hi).length
  let good := spares - at_ n (n + spares)
  (at_ 0 n - good, min (at_ 0 n) good)

/-- The failed lanes of a port; 2 of a port's lanes are its spares. -/
def failedLanes (failed : List Nat) (port : Nat) : Nat := (failed.filter fun u => u / 16 == port).length

/-- The banks of a die that have no spare: its highest logical numbers (R367). -/
def lostBanks (die short : Nat) : List Nat := (upTo short).map fun i => 192 * die + 191 - i

/-- The banks of a bank group, 24 × die + its number on the die (R296). -/
def groupBanks (g : Nat) : List Nat := (upTo 8).map fun i => 8 * g + i

/-- Apply the union of the fuse map and the repair log (R367). -/
def repair (s : State) : State :=
  let cores := failedUnits s s.fuses.cores 0
  let banks := failedUnits s s.fuses.banks 1
  let lanes := failedUnits s s.fuses.lanes 2
  let ways := loggedUnits s 3
  let noPort (p : Nat) : Bool := 2 < failedLanes lanes p
  let unavailable := (upTo 128).filter fun k => 0 < (shortOf cores 16 8 1 k).1 || noPort k
  let bad := ((upTo 8).flatMap fun d => lostBanks d (shortOf banks 256 192 8 d).1) ++
    ((upTo 192).filter fun g => noPort (128 + g)).flatMap groupBanks
  let spares := (ways.map (· / 16)).foldl NatSet.insert []
  let lost := spares.foldl (fun l x => (((ways.filter fun w => w / 16 == x).drop 1)).foldl NatSet.insert l) []
  let spareCores := (upTo 128).foldl (fun n k => n + (shortOf cores 16 8 1 k).2) 0
  let spareBanks := (upTo 8).foldl (fun n d => n + (shortOf banks 256 192 8 d).2) 0
  let spareLanes := (upTo 320).foldl (fun n p => n + min (failedLanes lanes p) 2) 0
  { s with unavailable := unavailable, badBanks := bad.foldl NatSet.insert [], spares := spares, lostWays := lost,
           repairstat := BitVec.ofNat 64 (lost.length + spares.length * 2 ^ 16 + spareLanes * 2 ^ 32 + spareBanks * 2 ^ 40 +
             spareCores * 2 ^ 48 + unavailable.length * 2 ^ 56) }

/-- FUSE (R367). -/
def execFuse (map : FuseMap) (s : State) : Outcome :=
  .next (if !inPhase s 1 then s
    else if !map.ok then { s with bootErr := 1 }
    else { repair { s with fuses := map } with phase := 2, measured := s.measured.take 2 ++ [Config.measurement s.fresh], fresh := s.fresh + 1 })

/-- The repair log's entry of a failed unit; what has no unit is logged by the ERR code. -/
def unitEntry (err : Byte) : FailedUnit → Nat
  | .core n => n.toNat
  | .bank n => 2 ^ 32 + n.toNat
  | .lane n => 2 * 2 ^ 32 + n.toNat
  | .way bank set way => wayEntry ((bank.toNat * 32 + set.toNat) * 16 + way.toNat)
  | .frame n => 5 * 2 ^ 32 + n.toNat
  | .other => 4 * 2 ^ 32 + err.toNat

/-- CALIB (R366): error 0 for success. A unit that fails is logged, and start-up begins again; its second failure stops start-up (R367). -/
def execCalib (end_ : Calibration) (s : State) : Outcome :=
  let err := end_.err
  let unit := unitEntry err end_.failed
  .next (if !inPhase s 2 then s
    else if err == 0 then
      { s with phase := 3, time := 0, ports := (upTo 20).foldl (fun t n => Tbl.set t n ⟨.training, 0, true⟩) s.ports }
    else if err.toNat < 2 || 5 < err.toNat then s
    else if s.repairs.contains unit then { s with bootErr := err }
    else { s with phase := 0, repairs := s.repairs ++ [unit] })

/-- What of memory lies outside the device: the host's and other modules'. -/
def outsideMem (m : Memory) : Memory :=
  let out (k : Nat) : Bool := 2 ^ 64 ≤ k
  { bytes := m.bytes.filter fun c => out c.1, poison := m.poison.filter fun u => out (16 * u), tags := m.tags.filter fun u => out (16 * u),
    summary := m.summary.filter fun r => out (8192 * r) }

/-- What INIT leaves (R368): memory, caches, cores, arrays and contexts as at reset, the next stamp 1. -/
def initState (s : State) : State :=
  { s with cores := [], clusters := [], dies := [], contexts := [], mem := outsideMem s.mem,
           stamp := 1, ptroot := 0, tlb := [], shared := [], banks := [], slices := [], keys := [], gens := [], csDone := 0, doors := [],
           hostLines := [], island := [], hostHolds := [], bisnp := [], bisnpInv := [], answered := [], lostLines := [], requests := [],
           retired := (loggedUnits s 5).foldl NatSet.insert [], pinned := none, registered := [], remoteHolds := [], remoteOwns := [] }

/-- The units in which INIT met an error are logged and repaired, so that INIT goes on (R368). -/
def absorb (s : State) (errors : List FailedUnit) : State :=
  if errors.isEmpty then s else repair { s with repairs := s.repairs ++ errors.map (unitEntry 6) }

/-- INIT (R368), then READY; Cornerstone draws the message key (R263). An error that no repair absorbs is one that has no unit. -/
def execInit (end_ : Zeroing) (s : State) : Outcome :=
  .next (if !inPhase s 3 then s
    else if !end_.ok || end_.errors.contains .other then { s with bootErr := 6 }
    else { initState (absorb s end_.errors) with phase := 4, ready := true, messageKey := Config.randomKey s.fresh, fresh := s.fresh + 1 })

/-! ### Power -/

/-- Change every die's token count by firmware (R369). -/
def lowerTokens (s : State) : State :=
  (upTo 8).foldl (fun s d =>
    let n := (dieAt s d).tokenCount.toNat
    if n ≤ 1 then s else updDie (powertokWrite s d (BitVec.ofNat 64 (n - 1))) d fun x => { x with lowered := x.lowered + 1 }) s

def restoreTokens (s : State) : State :=
  (upTo 8).foldl (fun s d =>
    let x := dieAt s d
    if x.lowered == 0 then s
    else updDie (powertokWrite s d (BitVec.ofNat 64 (x.tokenCount.toNat + 1))) d fun x => { x with lowered := x.lowered - 1 }) s

/-- POWER_INTERVAL (R369): an interval's power in watts. -/
def execPowerInterval (watts : BitVec 16) (s : State) : Outcome :=
  .next (if 3000 < watts.toNat then { lowerTokens s with calm := 0 }
    else if watts.toNat < 2700 then
      let s := { s with calm := s.calm + 1 }
      if 100 ≤ s.calm then restoreTokens s else s
    else { s with calm := 0 })

/-- Every coherent line leaves a core's L1, dirty ones written out; non-coherent ones stay, for no event of R125 takes place (R325). -/
def emptyCoherent (s : State) (c : Nat) : State :=
  let s := (coreAt s c).l1.foldl (fun s l => if l.nonCoherent then s else evictLine s c l) s
  let s := (coreAt s c).notices.foldl (fun s l => dirLeave s l c) s
  updCore s c fun k => { k with notices := [] }

/-- CLUSTER_POWER_GATE (R345): a cluster that runs no thread and no command writes its lines out. -/
def execClusterPowerGate (cl : BitVec 7) (s : State) : Outcome :=
  let k := cl.toNat
  let cores := (upTo 8).map fun i => 8 * k + i
  .next (if (cores.any fun c => (coreAt s c).slots.any fun x => x.2.busy) || !(seqEntries (clusterAt s k).matrix).isEmpty ||
        !(seqEntries (clusterAt s k).copy).isEmpty then s
    else updCluster (cores.foldl (fun s c => emptyCoherent (islandTake s c) c) s) k fun x => { x with gated := true })

/-- FORCED_RESET (R345): the device is in reset, and the island answers for what it held. What lies outside the device stays, with
Cornerstone's store. -/
def execForcedReset (s : State) : Outcome :=
  let t := islandPoison s [0, 1]
  .next { State.reset with
          mem := outsideMem t.mem, viral := [0, 1], fmKey := s.fmKey, repairs := s.repairs, turn := s.turn, sched := s.sched, inputs := s.inputs, eager := s.eager,
          pace := s.pace, fresh := s.fresh, cycle := s.cycle, order := s.order, filterLines := s.filterLines }

/-! ### Snapshots (R370, R371) -/

/-- The eight words of a cluster block. -/
def clusterWords (s : State) (k : Cluster) : Tbl W64 :=
  let n (i : Nat) : W64 := Tbl.get 0 k.counters i
  [(0, n 0), (1, n 1), (2, n 2), (3, (stallNow s k).setWidth 64), (4, n 4), (5, n 5), (6, n 6), (7, BitVec.ofNat 64 ((n 7).toNat / 1000000))]

/-- The words of a die block. -/
def dieWords (s : State) (die : Nat) : Tbl W64 :=
  let d := dieAt s die
  [(0, s.stamp), (1, BitVec.ofNat 64 d.directory.length), (2, d.plaza.grants), (3, d.walks)]

/-- A request's time has come. -/
def latchDue (s : State) : Bool := s.armed && s.latchAt ≤ s.time

/-- SNAPSHOT_LATCH (R370, R371). -/
def execSnapshotLatch (s : State) : Outcome :=
  .next (if !latchDue s then s
    else
      let t := { s with clusters := Tbl.mapVal s.clusters fun _ k => { k with latched := clusterWords s k } }
      let t := (upTo 8).foldl (fun t d => updDie t d fun x => { x with latched := dieWords s d }) t
      { t with armed := false, snapTime := s.latchAt })

end Sys2Proof.Machine
end

