-- ==== Sys2Proof/Machine/Integer.lean ====
section
/-! DEFINITION. The meanings of the integer and immediate instructions (R73 to R76). -/

namespace Sys2Proof.Machine

/-- An integer operand out of a register file (R67). -/
def regsX (r : Regs) (n : Reg) : W64 := capAddr (regsG r n)

/-- The number of leading zero bits of the low n bits of x. -/
def leadZeros (x : Nat) : Nat → Nat
  | 0 => 0
  | n + 1 => if x / 2 ^ n % 2 == 1 then 0 else 1 + leadZeros x n

/-- The number of trailing zero bits, at most n. -/
def trailZeros (x : Nat) : Nat → Nat
  | 0 => 0
  | n + 1 => if x % 2 == 1 then 0 else 1 + trailZeros (x / 2) n

/-- The number of one bits among the low n. -/
def onesCount (x : Nat) : Nat → Nat
  | 0 => 0
  | n + 1 => x % 2 + onesCount (x / 2) n

def sminW (a b : W64) : W64 := if a.slt b then a else b
def smaxW (a b : W64) : W64 := if a.slt b then b else a
def uminW (a b : W64) : W64 := if a.ult b then a else b
def umaxW (a b : W64) : W64 := if a.ult b then b else a

/-- The high half of a 128-bit product (R73). -/
def mulHigh (a b : W64) : W64 := BitVec.ofInt 64 (a.toInt * b.toInt / 2 ^ 64)
def mulHighU (a b : W64) : W64 := BitVec.ofNat 64 (a.toNat * b.toNat / 2 ^ 64)

/-- Division (R28): toward zero, all ones by zero, and −2^63 by −1 wraps to itself. -/
def divS (a b : W64) : W64 := if b = 0 then BitVec.allOnes 64 else BitVec.ofInt 64 (a.toInt.tdiv b.toInt)
def divU (a b : W64) : W64 := if b = 0 then BitVec.allOnes 64 else BitVec.ofNat 64 (a.toNat / b.toNat)
def remS (a b : W64) : W64 := if b = 0 then a else BitVec.ofInt 64 (a.toInt.tmod b.toInt)
def remU (a b : W64) : W64 := if b = 0 then a else BitVec.ofNat 64 (a.toNat % b.toNat)

/-- The shift amount of a register operand: bits 5:0. -/
def shiftOf (b : W64) : Nat := b.toNat % 64

/-- ADD (R73). -/
def execAdd (m : Bool) (d ra rb : Reg) (s : State) : Outcome :=
  let a := readX s ra
  let b := readX s rb
  immediateX s m d (a + b)

/-- SUB (R73). -/
def execSub (m : Bool) (d ra rb : Reg) (s : State) : Outcome :=
  let a := readX s ra
  let b := readX s rb
  immediateX s m d (a - b)

/-- AND (R73). -/
def execAnd (m : Bool) (d ra rb : Reg) (s : State) : Outcome :=
  let a := readX s ra
  let b := readX s rb
  immediateX s m d (a &&& b)

/-- OR (R73). -/
def execOr (m : Bool) (d ra rb : Reg) (s : State) : Outcome :=
  let a := readX s ra
  let b := readX s rb
  immediateX s m d (a ||| b)

/-- XOR (R73). -/
def execXor (m : Bool) (d ra rb : Reg) (s : State) : Outcome :=
  let a := readX s ra
  let b := readX s rb
  immediateX s m d (a ^^^ b)

/-- ANDN (R73). -/
def execAndn (m : Bool) (d ra rb : Reg) (s : State) : Outcome :=
  let a := readX s ra
  let b := readX s rb
  immediateX s m d (a &&& ~~~ b)

/-- ORN (R73). -/
def execOrn (m : Bool) (d ra rb : Reg) (s : State) : Outcome :=
  let a := readX s ra
  let b := readX s rb
  immediateX s m d (a ||| ~~~ b)

/-- SHL (R73). -/
def execShl (m : Bool) (d ra rb : Reg) (s : State) : Outcome :=
  let a := readX s ra
  let b := readX s rb
  immediateX s m d (a <<< shiftOf b)

/-- SHR (R73). -/
def execShr (m : Bool) (d ra rb : Reg) (s : State) : Outcome :=
  let a := readX s ra
  let b := readX s rb
  immediateX s m d (a >>> shiftOf b)

/-- SRA (R73). -/
def execSra (m : Bool) (d ra rb : Reg) (s : State) : Outcome :=
  let a := readX s ra
  let b := readX s rb
  immediateX s m d (a.sshiftRight (shiftOf b))

/-- ROL (R73). -/
def execRol (m : Bool) (d ra rb : Reg) (s : State) : Outcome :=
  let a := readX s ra
  let b := readX s rb
  immediateX s m d (a.rotateLeft (shiftOf b))

/-- ROR (R73). -/
def execRor (m : Bool) (d ra rb : Reg) (s : State) : Outcome :=
  let a := readX s ra
  let b := readX s rb
  immediateX s m d (a.rotateRight (shiftOf b))

/-- SLT (R73). -/
def execSlt (m : Bool) (d ra rb : Reg) (s : State) : Outcome :=
  let a := readX s ra
  let b := readX s rb
  immediateX s m d (boolW (a.slt b))

/-- SLTU (R73). -/
def execSltu (m : Bool) (d ra rb : Reg) (s : State) : Outcome :=
  let a := readX s ra
  let b := readX s rb
  immediateX s m d (boolW (a.ult b))

/-- MIN (R73). -/
def execMin (m : Bool) (d ra rb : Reg) (s : State) : Outcome :=
  let a := readX s ra
  let b := readX s rb
  immediateX s m d (sminW a b)

/-- MAX (R73). -/
def execMax (m : Bool) (d ra rb : Reg) (s : State) : Outcome :=
  let a := readX s ra
  let b := readX s rb
  immediateX s m d (smaxW a b)

/-- MINU (R73). -/
def execMinu (m : Bool) (d ra rb : Reg) (s : State) : Outcome :=
  let a := readX s ra
  let b := readX s rb
  immediateX s m d (uminW a b)

/-- MAXU (R73). -/
def execMaxu (m : Bool) (d ra rb : Reg) (s : State) : Outcome :=
  let a := readX s ra
  let b := readX s rb
  immediateX s m d (umaxW a b)

/-- MUL (R73); a deferred result (R68). -/
def execMul (m : Bool) (d ra rb : Reg) (s : State) : Outcome :=
  deferredX s m d fun r =>
    let a := regsX r ra
    let b := regsX r rb
    a * b

/-- MULH (R73); a deferred result (R68). -/
def execMulh (m : Bool) (d ra rb : Reg) (s : State) : Outcome :=
  deferredX s m d fun r =>
    let a := regsX r ra
    let b := regsX r rb
    mulHigh a b

/-- MULHU (R73); a deferred result (R68). -/
def execMulhu (m : Bool) (d ra rb : Reg) (s : State) : Outcome :=
  deferredX s m d fun r =>
    let a := regsX r ra
    let b := regsX r rb
    mulHighU a b

/-- DIV (R73); a deferred result (R68). -/
def execDiv (m : Bool) (d ra rb : Reg) (s : State) : Outcome :=
  deferredX s m d fun r =>
    let a := regsX r ra
    let b := regsX r rb
    divS a b

/-- DIVU (R73); a deferred result (R68). -/
def execDivu (m : Bool) (d ra rb : Reg) (s : State) : Outcome :=
  deferredX s m d fun r =>
    let a := regsX r ra
    let b := regsX r rb
    divU a b

/-- REM (R73); a deferred result (R68). -/
def execRem (m : Bool) (d ra rb : Reg) (s : State) : Outcome :=
  deferredX s m d fun r =>
    let a := regsX r ra
    let b := regsX r rb
    remS a b

/-- REMU (R73); a deferred result (R68). -/
def execRemu (m : Bool) (d ra rb : Reg) (s : State) : Outcome :=
  deferredX s m d fun r =>
    let a := regsX r ra
    let b := regsX r rb
    remU a b

/-- CLZ (R73). -/
def execClz (m : Bool) (d ra : Reg) (s : State) : Outcome :=
  let a := readX s ra
  immediateX s m d (BitVec.ofNat 64 (leadZeros a.toNat 64))

/-- CTZ (R73). -/
def execCtz (m : Bool) (d ra : Reg) (s : State) : Outcome :=
  let a := readX s ra
  immediateX s m d (BitVec.ofNat 64 (trailZeros a.toNat 64))

/-- POPC (R73). -/
def execPopc (m : Bool) (d ra : Reg) (s : State) : Outcome :=
  let a := readX s ra
  immediateX s m d (BitVec.ofNat 64 (onesCount a.toNat 64))

/-- SEXT.b (R73). -/
def execSextB (m : Bool) (d ra : Reg) (s : State) : Outcome :=
  let a := readX s ra
  immediateX s m d ((a.extractLsb' 0 8).signExtend 64)

/-- SEXT.h (R73). -/
def execSextH (m : Bool) (d ra : Reg) (s : State) : Outcome :=
  let a := readX s ra
  immediateX s m d ((a.extractLsb' 0 16).signExtend 64)

/-- SEXT.w (R73). -/
def execSextW (m : Bool) (d ra : Reg) (s : State) : Outcome :=
  let a := readX s ra
  immediateX s m d ((a.extractLsb' 0 32).signExtend 64)

/-- ZEXT.b (R73). -/
def execZextB (m : Bool) (d ra : Reg) (s : State) : Outcome :=
  let a := readX s ra
  immediateX s m d ((a.extractLsb' 0 8).setWidth 64)

/-- ZEXT.h (R73). -/
def execZextH (m : Bool) (d ra : Reg) (s : State) : Outcome :=
  let a := readX s ra
  immediateX s m d ((a.extractLsb' 0 16).setWidth 64)

/-- ZEXT.w (R73). -/
def execZextW (m : Bool) (d ra : Reg) (s : State) : Outcome :=
  let a := readX s ra
  immediateX s m d ((a.extractLsb' 0 32).setWidth 64)

/-- SEL (R73): the condition is the register that aux names. -/
def execSel (m : Bool) (d ra rb rc : Reg) (s : State) : Outcome :=
  immediateX s m d (if readX s rc != 0 then readX s ra else readX s rb)

/-- ADDI (R74). -/
def execAddi (m : Bool) (d ra : Reg) (imm : BitVec 15) (s : State) : Outcome :=
  let a := readX s ra
  let b := imm.signExtend 64
  immediateX s m d (a + b)

/-- ANDI (R74). -/
def execAndi (m : Bool) (d ra : Reg) (imm : BitVec 15) (s : State) : Outcome :=
  let a := readX s ra
  let b := imm.signExtend 64
  immediateX s m d (a &&& b)

/-- ORI (R74). -/
def execOri (m : Bool) (d ra : Reg) (imm : BitVec 15) (s : State) : Outcome :=
  let a := readX s ra
  let b := imm.signExtend 64
  immediateX s m d (a ||| b)

/-- XORI (R74). -/
def execXori (m : Bool) (d ra : Reg) (imm : BitVec 15) (s : State) : Outcome :=
  let a := readX s ra
  let b := imm.signExtend 64
  immediateX s m d (a ^^^ b)

/-- SLTI (R74). -/
def execSlti (m : Bool) (d ra : Reg) (imm : BitVec 15) (s : State) : Outcome :=
  let a := readX s ra
  let b := imm.signExtend 64
  immediateX s m d (boolW (a.slt b))

/-- SLTIU (R74). -/
def execSltiu (m : Bool) (d ra : Reg) (imm : BitVec 15) (s : State) : Outcome :=
  let a := readX s ra
  let b := imm.signExtend 64
  immediateX s m d (boolW (a.ult b))

/-- SHLI (R74). -/
def execShli (m : Bool) (d ra : Reg) (sh : BitVec 6) (s : State) : Outcome :=
  let a := readX s ra
  immediateX s m d (a <<< sh.toNat)

/-- SHRI (R74). -/
def execShri (m : Bool) (d ra : Reg) (sh : BitVec 6) (s : State) : Outcome :=
  let a := readX s ra
  immediateX s m d (a >>> sh.toNat)

/-- SRAI (R74). -/
def execSrai (m : Bool) (d ra : Reg) (sh : BitVec 6) (s : State) : Outcome :=
  let a := readX s ra
  immediateX s m d (a.sshiftRight sh.toNat)

/-- LUI (R75). -/
def execLui (m : Bool) (d : Reg) (imm : BitVec 20) (s : State) : Outcome := immediateX s m d (imm.signExtend 64 <<< 12)

/-- AUPCC (R76): a capability near pcc, untagged when its address is not representable. -/
def execAupcc (m : Bool) (d : Reg) (imm : BitVec 20) (s : State) : Outcome :=
  let c := (myRegs s).pcc
  immediateCap s m d (capMove c (capAddr c + (imm.signExtend 64 <<< 2)))

end Sys2Proof.Machine
end

