-- ==== Sys2Proof/Machine/CapInstr.lean ====
section
/-! DEFINITION. The meanings of the capability instructions (R111 to R120). -/

namespace Sys2Proof.Machine

/-- CGETADDR (R111). -/
def execCgetaddr (m : Bool) (d ra : Reg) (s : State) : Outcome :=
  let c := readG s ra
  immediateX s m d (capAddr c)

/-- CGETBASE (R111). -/
def execCgetbase (m : Bool) (d ra : Reg) (s : State) : Outcome :=
  let c := readG s ra
  immediateX s m d (BitVec.ofNat 64 (capDecode c).1)

/-- CGETLEN (R111). -/
def execCgetlen (m : Bool) (d ra : Reg) (s : State) : Outcome :=
  let c := readG s ra
  immediateX s m d (BitVec.ofNat 64 (min ((capDecode c).2 - (capDecode c).1) (2 ^ 64 - 1)))

/-- CGETPERM (R111). -/
def execCgetperm (m : Bool) (d ra : Reg) (s : State) : Outcome :=
  let c := readG s ra
  immediateX s m d ((capPerms c).setWidth 64)

/-- CGETTYPE (R111). -/
def execCgettype (m : Bool) (d ra : Reg) (s : State) : Outcome :=
  let c := readG s ra
  immediateX s m d ((capOtype c).setWidth 64)

/-- CGETTAG (R111). -/
def execCgettag (m : Bool) (d ra : Reg) (s : State) : Outcome :=
  let c := readG s ra
  immediateX s m d (boolW c.tag)

/-- A new address; a sealed source and an address that is not representable leave no tag (R112). -/
def withAddr (c : Cap) (a : W64) : Cap := if capOtype c != 0 then capSetTag (capMove c a) false else capMove c a

/-- CSETADDR (R112). -/
def execCsetaddr (m : Bool) (d ra rb : Reg) (s : State) : Outcome := immediateCap s m d (withAddr (readG s ra) (readX s rb))

/-- CINCADDR (R112). -/
def execCincaddr (m : Bool) (d ra rb : Reg) (s : State) : Outcome :=
  let c := readG s ra
  immediateCap s m d (withAddr c (capAddr c + readX s rb))

/-- CINCADDRI (R112). -/
def execCincaddri (m : Bool) (d ra : Reg) (imm : BitVec 15) (s : State) : Outcome :=
  let c := readG s ra
  immediateCap s m d (withAddr c (capAddr c + imm.signExtend 64))

/-- New bounds from the address (R113): a fault, or the capability. -/
def boundsFrom (c : Cap) (len : Nat) (exact_ : Bool) : Except Byte Cap :=
  let lo := (capAddr c).toNat
  let hi := lo + len
  let valid := c.tag && capOtype c == 0
  if valid && 2 ^ 64 < hi then .error Code.capBounds
  else
    let x := encodeBounds lo (min hi (2 ^ 64))
    let src := capDecode c
    if valid && exact_ && (x.lo != lo || x.hi != hi) then .error Code.capBounds
    else if valid && (x.lo < src.1 || src.2 < x.hi) then .error Code.capBounds
    else .ok (capSetTag (capSetBounds c x (capAddr c)) valid)

/-- Write a capability result or take the fault. -/
def capOrFault (s : State) (i : Instr) (m : Bool) (d : Reg) (r : Except Byte Cap) : Outcome :=
  match r with
  | .error f => faults s i f 0
  | .ok c => immediateCap s m d c

/-- CSETBNDS (R113). -/
def execCsetbnds (m : Bool) (d ra rb : Reg) (s : State) : Outcome :=
  capOrFault s (.csetbnds m d ra rb) m d (boundsFrom (readG s ra) (readX s rb).toNat false)

/-- CSETBNDSE (R113). -/
def execCsetbndse (m : Bool) (d ra rb : Reg) (s : State) : Outcome :=
  capOrFault s (.csetbndse m d ra rb) m d (boundsFrom (readG s ra) (readX s rb).toNat true)

/-- CSETBNDSI (R113). -/
def execCsetbndsi (m : Bool) (d ra : Reg) (imm : BitVec 15) (s : State) : Outcome :=
  capOrFault s (.csetbndsi m d ra imm) m d (boundsFrom (readG s ra) imm.toNat false)

/-- CANDPERM (R114). -/
def execCandperm (m : Bool) (d ra rb : Reg) (s : State) : Outcome :=
  let c := readG s ra
  let r := capSetPerms c (capPerms c &&& (readX s rb).extractLsb' 0 12)
  immediateCap s m d (if capOtype c != 0 then capSetTag r false else r)

/-- CCLRTAG (R114). -/
def execCclrtag (m : Bool) (d ra : Reg) (s : State) : Outcome := immediateCap s m d (capSetTag (readG s ra) false)

/-- The authority check of CSEAL and CUNSEAL (R115). -/
def sealAuthority (b : Cap) (perm : Nat) : Option Byte :=
  if !b.tag then some Code.capTag
  else if capOtype b != 0 then some Code.capSeal
  else if !capHas b perm then some Code.capPerm
  else if (capAddr b).toNat < (capDecode b).1 || (capDecode b).2 ≤ (capAddr b).toNat then some Code.capBounds
  else none

def sealWith (a b : Cap) : Except Byte Cap :=
  match sealAuthority b Perm.sealing with
  | some f => .error f
  | none =>
    if (capAddr b).toNat < 16 || 4095 < (capAddr b).toNat then .error Code.capType
    else if capOtype a != 0 then .error Code.capSeal
    else .ok (capSetOtype a ((capAddr b).setWidth 12))

def unsealWith (a b : Cap) : Except Byte Cap :=
  match sealAuthority b Perm.unseal with
  | some f => .error f
  | none =>
    if (capOtype a).toNat < 16 || (capOtype a).toNat != (capAddr b).toNat then .error Code.capType
    else
      let r := capSetOtype a 0
      .ok (if capHas b Perm.global then r else capSetPerms r (capPerms r &&& 0x7ff))

/-- CSEAL (R115). -/
def execCseal (m : Bool) (d ra rb : Reg) (s : State) : Outcome :=
  capOrFault s (.cseal m d ra rb) m d (sealWith (readG s ra) (readG s rb))

/-- CUNSEAL (R115). -/
def execCunseal (m : Bool) (d ra rb : Reg) (s : State) : Outcome :=
  capOrFault s (.cunseal m d ra rb) m d (unsealWith (readG s ra) (readG s rb))

def sentryOf (c : Cap) : Except Byte Cap :=
  if !c.tag then .error Code.capTag
  else if capOtype c != 0 then .error Code.capSeal
  else if !capHas c Perm.exec then .error Code.capPerm
  else .ok (capSetOtype c 1)

/-- CSEALENT (R116). -/
def execCsealent (m : Bool) (d ra : Reg) (s : State) : Outcome := capOrFault s (.csealent m d ra) m d (sentryOf (readG s ra))

def buildFrom (auth : Cap) (img : BitVec 128) : Except Byte Cap :=
  match buildCheck auth img with
  | some f => .error f
  | none => .ok ⟨true, img⟩

/-- CBUILD (R117). -/
def execCbuild (m : Bool) (d ra rb : Reg) (s : State) : Outcome :=
  capOrFault s (.cbuild m d ra rb) m d (buildFrom (readG s ra) (readG s rb).img)

/-- CSUBSET (R118). -/
def subsetWord (a b : Cap) : W64 :=
  boolW (a.tag == b.tag) ||| (boolW ((capDecode a).1 ≤ (capDecode b).1 && (capDecode b).2 ≤ (capDecode a).2) <<< 1) |||
    (boolW (capPerms b &&& ~~~ (capPerms a) == 0) <<< 2)

/-- CSUBSET (R118). -/
def execCsubset (m : Bool) (d ra rb : Reg) (s : State) : Outcome := immediateX s m d (subsetWord (readG s ra) (readG s rb))

/-- CSAME (R118). -/
def execCsame (m : Bool) (d ra rb : Reg) (s : State) : Outcome := immediateX s m d (boolW (readG s ra == readG s rb))

/-- A length rounded up to what its exponent can express (R119). -/
def fitLen (len : Nat) : Nat :=
  let e := fitExp len
  if e == 63 then 2 ^ 64 - 1 else (len + 2 ^ e - 1) / 2 ^ e * 2 ^ e

/-- CFITLEN (R119). -/
def execCfitlen (m : Bool) (d ra : Reg) (s : State) : Outcome := immediateX s m d (BitVec.ofNat 64 (fitLen (readX s ra).toNat))

/-- CFITEXP (R119). -/
def execCfitexp (m : Bool) (d ra : Reg) (s : State) : Outcome := immediateX s m d (BitVec.ofNat 64 (fitExp (readX s ra).toNat))

/-- CMOV (R111). -/
def execCmov (m : Bool) (d ra : Reg) (s : State) : Outcome := immediateCap s m d (readG s ra)

end Sys2Proof.Machine
end

