-- ==== Sys2Proof/Machine/Control.lean ====
section
/-! DEFINITION. The meanings of the control instructions (R83 to R87). -/

namespace Sys2Proof.Machine

/-- B.cond (R83): a reach in words from this instruction's address; a target outside pcc's representable region leaves pcc untagged (R96). -/
def execBCond (m : Bool) (c : Cond) (ra rb : Reg) (disp : BitVec 12) (s : State) : Outcome :=
  let r := myRegs s
  let next := if condHolds c (readX s ra) (readX s rb) then capMove r.pcc (capAddr r.pcc + (disp.signExtend 64 <<< 2)) else nextPcc r
  .next (retire s m r next)

/-- The link that J and JC write: a sentry for the next instruction (R84). -/
def linkOf (r : Regs) : Cap := capSetOtype (nextPcc r) 1

/-- Write a link to gd: an immediate result, subject to a revocation pass (R68, R107). -/
def linked (s : State) (r : Regs) (d : Reg) : Regs := regsImmediate r d (scrubCap s (myCtx s) (linkOf r))

/-- J (R84): after a park (R70), the link and the jump. -/
def execJ (m : Bool) (d : Reg) (disp : BitVec 20) (s : State) : Outcome :=
  let x := parkSlot (mySlot s)
  if x.parked then .next (setMySlot s x)
  else
    .next (retire (setMySlot s x) m (linked s x.regs d)
      (capMove x.regs.pcc (capAddr x.regs.pcc + (disp.signExtend 64 <<< 2))))

/-- The check of JC's target (R85): a fault, or the capability that becomes pcc. -/
def jumpTarget (t : Cap) : Except Byte Cap :=
  if !t.tag then .error Code.capTag
  else if capOtype t != 0 && capOtype t != 1 then .error Code.capSeal
  else if !capHas t Perm.exec then .error Code.capPerm
  else if (capAddr t).toNat % 4 != 0 then .error Code.align
  else .ok (capSetOtype t 0)

/-- JC (R85): after a park, the checks, the link and the new pcc. -/
def execJc (m : Bool) (d ra : Reg) (s : State) : Outcome :=
  let x := parkSlot (mySlot s)
  if x.parked then .next (setMySlot s x)
  else
    let t := setMySlot s x
    match jumpTarget (regsG x.regs ra) with
    | .error f => faults t (.jc m d ra) f 0
    | .ok p => .next (retire t m (linked s x.regs d) (scrubCap s (myCtx s) p))

end Sys2Proof.Machine
end

