-- ==== Sys2Proof/Machine/Floating.lean ====
section
/-! DEFINITION. The meanings of the scalar floating-point instructions (R77 to R82). P selects .d, and a clear P .s. -/

namespace Sys2Proof.Machine

def fmtOf (p : Bool) : FFmt := if p then FFmt.f64 else FFmt.f32

/-- A scalar operand: bits 63:0 for .d, 31:0 for .s (R77). -/
def fpOperand (p : Bool) (x : W64) : Nat := if p then x.toNat else x.toNat % 2 ^ 32

/-- A deferred floating-point or integer result computed from the operands a, b and gd. -/
def fpResult (s : State) (m : Bool) (d ra rb : Reg) (p : Bool) (f : Nat → Nat → Nat → Nat) : Outcome :=
  deferredX s m d fun r =>
    BitVec.ofNat 64 (f (fpOperand p (regsX r ra)) (fpOperand p (regsX r rb)) (fpOperand p (regsX r d)))

/-- The sign moved into a magnitude (R82). -/
def signInto (f : FFmt) (mag : Nat) (neg : Bool) : Nat := signed f neg (mag % f.signBit)

def signOf (f : FFmt) (x : Nat) : Bool := x / f.signBit % 2 == 1

/-- FADD (R78). -/
def execFadd (m : Bool) (d ra rb : Reg) (p : Bool) (rm : RM) (s : State) : Outcome :=
  fpResult s m d ra rb p fun a b _ => fAdd (fmtOf p) rm a b

/-- FSUB (R78). -/
def execFsub (m : Bool) (d ra rb : Reg) (p : Bool) (rm : RM) (s : State) : Outcome :=
  fpResult s m d ra rb p fun a b _ => fSub (fmtOf p) rm a b

/-- FMUL (R78). -/
def execFmul (m : Bool) (d ra rb : Reg) (p : Bool) (rm : RM) (s : State) : Outcome :=
  fpResult s m d ra rb p fun a b _ => fMul (fmtOf p) rm a b

/-- FDIV (R78). -/
def execFdiv (m : Bool) (d ra rb : Reg) (p : Bool) (rm : RM) (s : State) : Outcome :=
  fpResult s m d ra rb p fun a b _ => fDiv (fmtOf p) rm a b

/-- FMADD (R78). -/
def execFmadd (m : Bool) (d ra rb : Reg) (p : Bool) (rm : RM) (s : State) : Outcome :=
  fpResult s m d ra rb p fun a b c => fMulAdd (fmtOf p) rm a b c

/-- FMSUB (R78). -/
def execFmsub (m : Bool) (d ra rb : Reg) (p : Bool) (rm : RM) (s : State) : Outcome :=
  fpResult s m d ra rb p fun a b c => fMulSub (fmtOf p) rm a b c

/-- FSQRT (R78). -/
def execFsqrt (m : Bool) (d ra : Reg) (p : Bool) (rm : RM) (s : State) : Outcome :=
  fpResult s m d ra 0 p fun a _ _ => fSqrt (fmtOf p) rm a

/-- FMIN (R79). -/
def execFmin (m : Bool) (d ra rb : Reg) (p : Bool) (s : State) : Outcome :=
  fpResult s m d ra rb p fun a b _ => floatMin (fmtOf p) a b

/-- FMAX (R79). -/
def execFmax (m : Bool) (d ra rb : Reg) (p : Bool) (s : State) : Outcome :=
  fpResult s m d ra rb p fun a b _ => floatMax (fmtOf p) a b

/-- FEQ (R79). -/
def execFeq (m : Bool) (d ra rb : Reg) (p : Bool) (s : State) : Outcome :=
  fpResult s m d ra rb p fun a b _ => if floatEq (fmtOf p) a b then 1 else 0

/-- FLT (R79). -/
def execFlt (m : Bool) (d ra rb : Reg) (p : Bool) (s : State) : Outcome :=
  fpResult s m d ra rb p fun a b _ => if floatLt (fmtOf p) a b then 1 else 0

/-- FLE (R79). -/
def execFle (m : Bool) (d ra rb : Reg) (p : Bool) (s : State) : Outcome :=
  fpResult s m d ra rb p fun a b _ => if floatLe (fmtOf p) a b then 1 else 0

/-- A conversion of FCVT (R29, R80). -/
def fcvtOf (c : Fcvt) (rm : RM) (x : W64) : Nat :=
  let w := x.toNat % 2 ^ 32
  match c with
  | .sd => fConvert .f64 .f32 rm false x.toNat
  | .ds => fConvert .f32 .f64 rm false w
  | .sl => floatRound .f32 rm false (floatOfInt x.toInt)
  | .slu => floatRound .f32 rm false (floatOfInt x.toNat)
  | .dl => floatRound .f64 rm false (floatOfInt x.toInt)
  | .dlu => floatRound .f64 rm false (floatOfInt x.toNat)
  | .ls => wrapTo 64 (floatToInt rm (floatValue .f32 w) (-2 ^ 63) (2 ^ 63 - 1))
  | .lus => wrapTo 64 (floatToInt rm (floatValue .f32 w) 0 (2 ^ 64 - 1))
  | .ld => wrapTo 64 (floatToInt rm (floatValue .f64 x.toNat) (-2 ^ 63) (2 ^ 63 - 1))
  | .lud => wrapTo 64 (floatToInt rm (floatValue .f64 x.toNat) 0 (2 ^ 64 - 1))

/-- FCVT (R80). -/
def execFcvt (m : Bool) (d ra : Reg) (c : Fcvt) (rm : RM) (s : State) : Outcome :=
  deferredX s m d fun r => BitVec.ofNat 64 (fcvtOf c rm (regsX r ra))

/-- FCLASS (R81). -/
def execFclass (m : Bool) (d ra : Reg) (p : Bool) (s : State) : Outcome :=
  fpResult s m d ra 0 p fun a _ _ => fClass (fmtOf p) a

/-- FSGNJ (R82): bits move, a NaN's payload with them. -/
def execFsgnj (m : Bool) (d ra rb : Reg) (p : Bool) (s : State) : Outcome :=
  fpResult s m d ra rb p fun a b _ => signInto (fmtOf p) a (signOf (fmtOf p) b)

/-- FSGNJ.abs (R82). -/
def execFsgnjAbs (m : Bool) (d ra : Reg) (p : Bool) (s : State) : Outcome :=
  fpResult s m d ra 0 p fun a _ _ => signInto (fmtOf p) a false

/-- FSGNJ.neg (R82). -/
def execFsgnjNeg (m : Bool) (d ra : Reg) (p : Bool) (s : State) : Outcome :=
  fpResult s m d ra 0 p fun a _ _ => signInto (fmtOf p) a (!signOf (fmtOf p) a)

/-- FSGNJ.x (R82). -/
def execFsgnjX (m : Bool) (d ra rb : Reg) (p : Bool) (s : State) : Outcome :=
  fpResult s m d ra rb p fun a b _ => signInto (fmtOf p) a (signOf (fmtOf p) a != signOf (fmtOf p) b)

end Sys2Proof.Machine
end

