-- ==== Sys2Proof/Machine/Vector.lean ====
section
/-! DEFINITION. The meanings of the vector instructions (R157 to R172). -/

namespace Sys2Proof.Machine

/-! ### Elements under a mask -/

/-- Whether the mask makes element i of n active (R158). -/
def active (k : Mask) (n i : Nat) : Bool := k.getLsbD (if n ≤ 16 then i else if n = 32 then i / 2 else i / 4)

/-- Element i of n, of width w, is f i where the mask makes it active, and the old element elsewhere (R158). -/
def masked (k : Mask) (w n : Nat) (old : Vec) (f : Nat → Nat) : Vec :=
  vecOf w n fun i => if active k n i then f i else elemOf w i old

/-- A deferred vector result (R159). -/
def vectorResult (s : State) (m : Bool) (d : Reg) (f : Regs → Vec) : Outcome := deferredWith s m fun r => .v d (f r)

def fFmt : FTy → FFmt
  | .f32 => FFmt.f32
  | .bf16 => FFmt.bf16
  | .f64 => FFmt.f64

def fWidth : FTy → Nat
  | .f32 => 32
  | .bf16 => 16
  | .f64 => 64

def iWidth : ITy → Nat
  | .i32 => 32
  | .i64 => 64

def mWidth : MTy → Nat
  | .w32 => 32
  | .w64 => 64
  | .w16 => 16

/-- An elementwise operation of width w on va, vb and vd (R161, R164). -/
def elementwise (s : State) (m : Bool) (d ra rb : Reg) (w : Nat) (k : KReg) (f : Nat → Nat → Nat → Nat) : Outcome :=
  vectorResult s m d fun r =>
    masked (regsK r k) w (512 / w) (regsV r d) fun i => f (elemOf w i (regsV r ra)) (elemOf w i (regsV r rb)) (elemOf w i (regsV r d))

/-! ### Floating point (R161) -/

/-- VADD on a floating-point type (R161). -/
def execVaddFloat (m : Bool) (d ra rb : Reg) (t : FTy) (k : KReg) (s : State) : Outcome :=
  elementwise s m d ra rb (fWidth t) k fun a b _ => fAdd (fFmt t) .rne a b

/-- VSUB on a floating-point type (R161). -/
def execVsubFloat (m : Bool) (d ra rb : Reg) (t : FTy) (k : KReg) (s : State) : Outcome :=
  elementwise s m d ra rb (fWidth t) k fun a b _ => fSub (fFmt t) .rne a b

/-- VMUL on a floating-point type (R161). -/
def execVmulFloat (m : Bool) (d ra rb : Reg) (t : FTy) (k : KReg) (s : State) : Outcome :=
  elementwise s m d ra rb (fWidth t) k fun a b _ => fMul (fFmt t) .rne a b

/-- VFMA on a floating-point type (R161). -/
def execVfma (m : Bool) (d ra rb : Reg) (t : FTy) (k : KReg) (s : State) : Outcome :=
  elementwise s m d ra rb (fWidth t) k fun a b c => fMulAdd (fFmt t) .rne a b c

/-- VFNMA on a floating-point type (R161). -/
def execVfnma (m : Bool) (d ra rb : Reg) (t : FTy) (k : KReg) (s : State) : Outcome :=
  elementwise s m d ra rb (fWidth t) k fun a b c => fNegMulAdd (fFmt t) .rne a b c

/-- VDIV on a floating-point type (R161). -/
def execVdiv (m : Bool) (d ra rb : Reg) (t : FTy) (k : KReg) (s : State) : Outcome :=
  elementwise s m d ra rb (fWidth t) k fun a b _ => fDiv (fFmt t) .rne a b

/-- VMIN on a floating-point type (R161). -/
def execVminFloat (m : Bool) (d ra rb : Reg) (t : FTy) (k : KReg) (s : State) : Outcome :=
  elementwise s m d ra rb (fWidth t) k fun a b _ => floatMin (fFmt t) a b

/-- VMAX on a floating-point type (R161). -/
def execVmaxFloat (m : Bool) (d ra rb : Reg) (t : FTy) (k : KReg) (s : State) : Outcome :=
  elementwise s m d ra rb (fWidth t) k fun a b _ => floatMax (fFmt t) a b

/-- VSQRT (R161). -/
def execVsqrt (m : Bool) (d ra : Reg) (t : FTy) (k : KReg) (s : State) : Outcome :=
  elementwise s m d ra 0 (fWidth t) k fun a _ _ => fSqrt (fFmt t) .rne a

/-! ### Compares (R162) -/

/-- The mask a compare writes: bit i of a 32-bit or 64-bit type, and the two elements of a lane together for .bf16. -/
def compareMask (k : Mask) (w : Nat) (rel : Nat → Bool) : Mask :=
  let n := 512 / w
  BitVec.ofNat 16 (elemsPack 1 ((upTo 16).map fun m =>
    if n = 32 then (if k.getLsbD m && rel (2 * m) && rel (2 * m + 1) then 1 else 0)
    else if m < n && k.getLsbD m && rel m then 1 else 0))

def vcondFloat (f : FFmt) (c : VCond) (a b : Nat) : Bool :=
  match c with
  | .eq => floatEq f a b
  | .ne => !floatEq f a b
  | .lt => floatLt f a b
  | .le => floatLe f a b

/-- VCMP on a floating-point type (R162). -/
def execVcmpFloat (m : Bool) (c : VCond) (kd : KReg) (ra rb : Reg) (t : FTy) (k : KReg) (s : State) : Outcome :=
  deferredWith s m fun r =>
    .k kd (compareMask (regsK r k) (fWidth t) fun i => vcondFloat (fFmt t) c (elemOf (fWidth t) i (regsV r ra)) (elemOf (fWidth t) i (regsV r rb)))

/-- VCMP on an integer type, signed (R162). -/
def execVcmpInt (m : Bool) (c : VCond) (kd : KReg) (ra rb : Reg) (t : ITy) (k : KReg) (s : State) : Outcome :=
  deferredWith s m fun r =>
    .k kd (compareMask (regsK r k) (iWidth t) fun i =>
      vcondInt c (signedOf (iWidth t) (elemOf (iWidth t) i (regsV r ra))) (signedOf (iWidth t) (elemOf (iWidth t) i (regsV r rb))))

/-! ### Reductions (R36, R37, R163) -/

/-- The tree of R36: `n` halvings of the list. -/
def reduceTree (f : Nat → Nat → Nat) (l : List Nat) : Nat → Nat
  | 0 => l.headD 0
  | n + 1 =>
    let h := l.length / 2
    reduceTree f (List.zipWith f (l.take h) (l.drop h)) n

/-- The result stands in lane 0, or in lanes 0 and 1; the rest is zero (R163). -/
def reduction (s : State) (m : Bool) (d ra : Reg) (w : Nat) (k : KReg) (ident : Nat) (widen : Nat → Nat) (f : Nat → Nat → Nat) : Outcome :=
  vectorResult s m d fun r =>
    let n := 512 / w
    let l := (upTo n).map fun i => if active (regsK r k) n i then widen (elemOf w i (regsV r ra)) else ident
    BitVec.ofNat 512 (reduceTree f l (Nat.log2 n))

/-- The format a floating-point reduction runs in: .bf16 is widened exactly to FP32 (R36). -/
def fReduceFmt : FTy → FFmt
  | .f64 => FFmt.f64
  | _ => FFmt.f32

def fWiden (t : FTy) (x : Nat) : Nat :=
  match t with
  | .bf16 => fConvert .bf16 .f32 .rne false x
  | _ => x

/-- VREDADD on a floating-point type (R163). -/
def execVredaddFloat (m : Bool) (d ra : Reg) (t : FTy) (k : KReg) (s : State) : Outcome :=
  reduction s m d ra (fWidth t) k ((fReduceFmt t).signBit) (fWiden t) (fAdd (fReduceFmt t) .rne)

/-- VREDMAX on a floating-point type (R163). -/
def execVredmaxFloat (m : Bool) (d ra : Reg) (t : FTy) (k : KReg) (s : State) : Outcome :=
  reduction s m d ra (fWidth t) k (signed (fReduceFmt t) true (fReduceFmt t).infBits) (fWiden t) (floatMax (fReduceFmt t))

/-- VREDMIN on a floating-point type (R163). -/
def execVredminFloat (m : Bool) (d ra : Reg) (t : FTy) (k : KReg) (s : State) : Outcome :=
  reduction s m d ra (fWidth t) k ((fReduceFmt t).infBits) (fWiden t) (floatMin (fReduceFmt t))

def minSigned (w a b : Nat) : Nat := if signedOf w a < signedOf w b then a else b
def maxSigned (w a b : Nat) : Nat := if signedOf w a < signedOf w b then b else a

/-- VREDADD on an integer type (R163). -/
def execVredaddInt (m : Bool) (d ra : Reg) (t : ITy) (k : KReg) (s : State) : Outcome :=
  reduction s m d ra (iWidth t) k (0) id (fun a b => (a + b) % 2 ^ (iWidth t))

/-- VREDMAX on an integer type (R163). -/
def execVredmaxInt (m : Bool) (d ra : Reg) (t : ITy) (k : KReg) (s : State) : Outcome :=
  reduction s m d ra (iWidth t) k (2 ^ ((iWidth t) - 1)) id (maxSigned (iWidth t))

/-- VREDMIN on an integer type (R163). -/
def execVredminInt (m : Bool) (d ra : Reg) (t : ITy) (k : KReg) (s : State) : Outcome :=
  reduction s m d ra (iWidth t) k (2 ^ ((iWidth t) - 1) - 1) id (minSigned (iWidth t))

/-! ### Integers (R164): every result is taken modulo 2^w as its element is written -/

/-- VADD on an integer type (R164). -/
def execVaddInt (m : Bool) (d ra rb : Reg) (t : ITy) (k : KReg) (s : State) : Outcome :=
  elementwise s m d ra rb (iWidth t) k fun a b _ => a + b

/-- VSUB on an integer type (R164). -/
def execVsubInt (m : Bool) (d ra rb : Reg) (t : ITy) (k : KReg) (s : State) : Outcome :=
  elementwise s m d ra rb (iWidth t) k fun a b _ => a + 2 ^ (iWidth t) - b

/-- VMUL on an integer type (R164). -/
def execVmulInt (m : Bool) (d ra rb : Reg) (t : ITy) (k : KReg) (s : State) : Outcome :=
  elementwise s m d ra rb (iWidth t) k fun a b _ => a * b

/-- VMIN on an integer type (R164). -/
def execVminInt (m : Bool) (d ra rb : Reg) (t : ITy) (k : KReg) (s : State) : Outcome :=
  elementwise s m d ra rb (iWidth t) k fun a b _ => minSigned (iWidth t) a b

/-- VMAX on an integer type (R164). -/
def execVmaxInt (m : Bool) (d ra rb : Reg) (t : ITy) (k : KReg) (s : State) : Outcome :=
  elementwise s m d ra rb (iWidth t) k fun a b _ => maxSigned (iWidth t) a b

/-- VAND on an integer type (R164). -/
def execVand (m : Bool) (d ra rb : Reg) (t : ITy) (k : KReg) (s : State) : Outcome :=
  elementwise s m d ra rb (iWidth t) k fun a b _ => Nat.land a b

/-- VOR on an integer type (R164). -/
def execVor (m : Bool) (d ra rb : Reg) (t : ITy) (k : KReg) (s : State) : Outcome :=
  elementwise s m d ra rb (iWidth t) k fun a b _ => Nat.lor a b

/-- VXOR on an integer type (R164). -/
def execVxor (m : Bool) (d ra rb : Reg) (t : ITy) (k : KReg) (s : State) : Outcome :=
  elementwise s m d ra rb (iWidth t) k fun a b _ => Nat.xor a b

/-- VSHL on an integer type (R164). -/
def execVshl (m : Bool) (d ra rb : Reg) (t : ITy) (k : KReg) (s : State) : Outcome :=
  elementwise s m d ra rb (iWidth t) k fun a b _ => a * 2 ^ (b % (iWidth t))

/-- VSHR on an integer type (R164). -/
def execVshr (m : Bool) (d ra rb : Reg) (t : ITy) (k : KReg) (s : State) : Outcome :=
  elementwise s m d ra rb (iWidth t) k fun a b _ => a / 2 ^ (b % (iWidth t))

/-- VSRA on an integer type (R164). -/
def execVsra (m : Bool) (d ra rb : Reg) (t : ITy) (k : KReg) (s : State) : Outcome :=
  elementwise s m d ra rb (iWidth t) k fun a b _ => wrapTo (iWidth t) (signedOf (iWidth t) a / 2 ^ (b % (iWidth t)))

/-! ### Moves (R165) -/

/-- VSEL: every element is written, from va where its bit of k is 1 and from vb elsewhere. -/
def execVsel (m : Bool) (d ra rb : Reg) (t : MTy) (k : KReg) (s : State) : Outcome :=
  vectorResult s m d fun r => masked (regsK r k) (mWidth t) (512 / (mWidth t)) (regsV r rb) fun i => elemOf (mWidth t) i (regsV r ra)

/-- VPERM: the index is the low bits of vb's element. -/
def execVperm (m : Bool) (d ra rb : Reg) (t : MTy) (k : KReg) (s : State) : Outcome :=
  vectorResult s m d fun r =>
    masked (regsK r k) (mWidth t) (512 / (mWidth t)) (regsV r d) fun i =>
      elemOf (mWidth t) (elemOf (mWidth t) i (regsV r rb) % (512 / (mWidth t))) (regsV r ra)

/-- VBCAST. -/
def execVbcast (m : Bool) (d ra : Reg) (t : MTy) (k : KReg) (s : State) : Outcome :=
  vectorResult s m d fun r => masked (regsK r k) (mWidth t) (512 / (mWidth t)) (regsV r d) fun _ => (regsX r ra).toNat

/-- VIOTA. -/
def execViota (m : Bool) (d : Reg) (t : MTy) (k : KReg) (s : State) : Outcome :=
  vectorResult s m d fun r => masked (regsK r k) (mWidth t) (512 / (mWidth t)) (regsV r d) fun i => i

/-- VMVS: zero-extended. -/
def execVmvs (m : Bool) (d ra : Reg) (index : BitVec 5) (t : MTy) (s : State) : Outcome :=
  deferredX s m d fun r => BitVec.ofNat 64 (elemOf (mWidth t) index.toNat (regsV r ra))

/-- VMVV. -/
def execVmvv (m : Bool) (d ra : Reg) (t : MTy) (k : KReg) (s : State) : Outcome :=
  vectorResult s m d fun r => masked (regsK r k) (mWidth t) (512 / (mWidth t)) (regsV r d) fun i => elemOf (mWidth t) i (regsV r ra)

/-! ### Conversion (R166) -/

def cWidth : CTy → Nat
  | .f32 | .i32 => 32
  | .bf16 => 16
  | .f64 | .i64 => 64
  | .f8e4 | .f8e5 => 8

def cFmt : CTy → Option FFmt
  | .f32 => some FFmt.f32
  | .bf16 => some FFmt.bf16
  | .f64 => some FFmt.f64
  | .f8e4 => some FFmt.e4m3
  | .f8e5 => some FFmt.e5m2
  | .i32 | .i64 => none

/-- The saturating rows hold for the FP8 destinations. -/
def cSaturates : CTy → Bool
  | .f8e4 | .f8e5 => true
  | _ => false

/-- Convert one element (R29, R166). -/
def convertElem (dst src : CTy) (x : Nat) : Nat :=
  match cFmt src, cFmt dst with
  | some f, some g => floatRound g .rne (cSaturates dst) (floatValue f x)
  | some f, none => wrapTo (cWidth dst) (floatToInt .rtz (floatValue f x) (-2 ^ ((cWidth dst) - 1)) (2 ^ ((cWidth dst) - 1) - 1))
  | none, some g => floatRound g .rne (cSaturates dst) (floatOfInt (signedOf (cWidth src) x))
  | none, none => wrapTo (cWidth dst) (signedOf (cWidth src) x)

/-- VCVT (R166). -/
def execVcvt (m : Bool) (d ra : Reg) (dst src : CTy) (k : KReg) (s : State) : Outcome :=
  vectorResult s m d fun r =>
    let n := 512 / max (cWidth dst) (cWidth src)
    masked (regsK r k) (cWidth dst) n (regsV r d) fun i => convertElem dst src (elemOf (cWidth src) i (regsV r ra))

/-! ### Masks (R167): immediate results -/

/-- An immediate mask result. -/
def maskResult (s : State) (m : Bool) (kd : KReg) (x : Mask) : Outcome :=
  let r := regsSetK (myRegs s) kd x
  .next (retire s m { r with pending := r.pending.filter fun p => !pendIsK kd p } (nextPcc r))

/-- KAND. -/
def execKand (m : Bool) (kd ka kb : KReg) (s : State) : Outcome := maskResult s m kd (readK s ka &&& readK s kb)

/-- KOR. -/
def execKor (m : Bool) (kd ka kb : KReg) (s : State) : Outcome := maskResult s m kd (readK s ka ||| readK s kb)

/-- KXOR. -/
def execKxor (m : Bool) (kd ka kb : KReg) (s : State) : Outcome := maskResult s m kd (readK s ka ^^^ readK s kb)

/-- KNOT. -/
def execKnot (m : Bool) (kd ka : KReg) (s : State) : Outcome := maskResult s m kd (~~~ (readK s ka))

/-- KPOP. -/
def execKpop (m : Bool) (d : Reg) (ka : KReg) (s : State) : Outcome :=
  immediateX s m d (BitVec.ofNat 64 (onesCount (readK s ka).toNat 16))

/-! ### Memory (R168 to R172) -/

/-- The active elements of an access: each index and its address A(i) modulo 2^64. -/
def laneAddrs (k : Mask) (n : Nat) (addr : Nat → Nat) : List (Nat × Nat) :=
  ((upTo n).filter fun i => active k n i).map fun i => (i, addr i % 2 ^ 64)

/-- The set F of elements that fail a check, bit i for element i. -/
def laneSet (l : List (Nat × Nat)) (f : Nat → Bool) : Nat := l.foldl (fun x e => if f e.2 then x + 2 ^ e.1 else x) 0

/-- What translation says of one element: a cause, or nothing wrong. -/
def laneCause (s : State) (a n : Nat) : Option Nat :=
  match transParts s (myCtx s) (.core (meCore s)) (lineParts a n 3) with
  | .error (c, _) => some c
  | .ok l => if (placesOf l).any fun g => g.p.uncached then some 6 else none

def laneSegs (s : State) (a n : Nat) : List Seg :=
  match transParts s (myCtx s) (.core (meCore s)) (lineParts a n 3) with
  | .error _ => []
  | .ok l => placesOf l

/-- The element meets a poisoned unit it reads, or a poisoned page-table entry. -/
def lanePoisoned (s : State) (reading : Bool) (a n : Nat) : Bool :=
  match transParts s (myCtx s) (.core (meCore s)) (lineParts a n 3) with
  | .error _ => false
  | .ok l =>
    let segs := placesOf l
    segs.length != l.length || (reading && segs.any fun g => segPoisoned s (mySlot s) (segNc s g) g || segLost s g)

/-- The checks of R169, each over every active element before the next: the fault and its information word. -/
def laneCheck (s : State) (c : Cap) (l : List (Nat × Nat)) (n perm : Nat) (reading : Bool) : Option (Byte × W64) :=
  let all := laneSet l fun _ => true
  let bounds := laneSet l fun a => a < (capDecode c).1 || (capDecode c).2 < a + n
  let al := laneSet l fun a => a % n != 0
  let map := laneSet l fun a => (laneCause s a n).isSome
  let pois := laneSet l fun a => lanePoisoned s reading a n
  if l.isEmpty then none
  else if !c.tag then some (Code.capTag, BitVec.ofNat 64 all)
  else if capOtype c != 0 then some (Code.capSeal, BitVec.ofNat 64 all)
  else if !capHas c perm then some (Code.capPerm, BitVec.ofNat 64 all)
  else if bounds != 0 then some (Code.capBounds, BitVec.ofNat 64 bounds)
  else if al != 0 then some (Code.align, BitVec.ofNat 64 al)
  else if map != 0 then
    some (Code.mapFault, BitVec.ofNat 64 ((l.findSome? fun e => laneCause s e.2 n).getD 0 * 2 ^ 60 + map))
  else if pois != 0 then some (Code.poison, BitVec.ofNat 64 pois)
  else none

/-- The walks of an access whose checks reached translation, over every active element (R169, R370). -/
def laneWalked (s : State) (l : List (Nat × Nat)) (n : Nat) (code : Byte) : State :=
  if code == Code.mapFault || code == Code.poison then
    l.foldl (fun s e => walkParts s (myCtx s) (.core (meCore s)) (lineParts e.2 n 3)) s
  else s

/-- The active elements with their parts, translated before any is accessed. -/
def laneParts (s : State) (n : Nat) (l : List (Nat × Nat)) : List (Nat × List Seg) := l.map fun e => (e.1, laneSegs s e.2 n)

/-- Read the active elements in ascending order: each element's index and value. -/
def laneReads (s : State) : List (Nat × List Seg) → State × List (Nat × Nat)
  | [] => (s, [])
  | (i, g) :: r =>
    let (s, v) := readSegs s g
    let (s, l) := laneReads s r
    (s, (i, v) :: l)

/-- Write the active elements in ascending order (R171). -/
def laneWrites (s : State) (f : Nat → Nat) : List (Nat × List Seg) → State
  | [] => s
  | (i, g) :: r => laneWrites (writeSegs s (f i) false g) f r

/-- A vector load (R170): deferred, all elements or none. -/
def vectorLoad (s : State) (i : Instr) (m : Bool) (d ra : Reg) (w n : Nat) (k : KReg) (addr : Regs → Nat → Nat) : Outcome :=
  match readyDeferred s with
  | none => .next (waitPark s)
  | some t =>
    let r := myRegs t
    let l := laneAddrs (regsK r k) n (addr r)
    match laneCheck t (regsG r ra) l (w / 8) Perm.load true with
    | some (f, info) => faults (laneWalked t l (w / 8) f) i f info
    | none =>
      let parts := laneParts t (w / 8) l
      if accessWaits t (parts.flatMap (·.2)) then .next (askHost t (parts.flatMap (·.2)))
      else
        let (u, vals) := laneReads t parts
        let v := masked (regsK r k) w n (regsV r d) fun j => Tbl.get 0 vals j
        .next (retire u m (regsDefer r (.v d v)) (nextPcc r))

/-- A vector store (R171). -/
def vectorStore (s : State) (i : Instr) (m : Bool) (src ra : Reg) (w n : Nat) (k : KReg) (addr : Regs → Nat → Nat) : Outcome :=
  let r := myRegs s
  let l := laneAddrs (regsK r k) n (addr r)
  match laneCheck s (regsG r ra) l (w / 8) Perm.store false with
  | some (f, info) => faults (laneWalked s l (w / 8) f) i f info
  | none =>
    let parts := laneParts s (w / 8) l
    storing s i (parts.flatMap (·.2)) fun t =>
      retire (laneWrites t (fun j => elemOf w j (regsV r src)) parts) m r (nextPcc r)

/-- The addresses of R168. -/
def unitAddr (ra : Reg) (r : Regs) (i : Nat) : Nat := (regsX r ra).toNat + 4 * i
def strideAddr (ra rb : Reg) (r : Regs) (i : Nat) : Nat := (regsX r ra).toNat + i * (regsX r rb).toNat
def offsetAddr (w : Nat) (ra rb : Reg) (r : Regs) (i : Nat) : Nat :=
  (regsX r ra).toNat + wrapTo 64 (signedOf w (elemOf w i (regsV r rb)))

/-- VLD (R170): sixteen 4-byte elements. -/
def execVld (m : Bool) (v ra : Reg) (k : KReg) (s : State) : Outcome :=
  vectorLoad s (.vld m v ra k) m v ra 32 16 k (unitAddr ra)

/-- VST (R171). -/
def execVst (m : Bool) (v ra : Reg) (k : KReg) (s : State) : Outcome :=
  vectorStore s (.vst m v ra k) m v ra 32 16 k (unitAddr ra)

/-- VLDS (R170). -/
def execVlds (m : Bool) (v ra rb : Reg) (t : ITy) (k : KReg) (s : State) : Outcome :=
  vectorLoad s (.vlds m v ra rb t k) m v ra (iWidth t) (512 / (iWidth t)) k (strideAddr ra rb)

/-- VSTS (R171). -/
def execVsts (m : Bool) (v ra rb : Reg) (t : ITy) (k : KReg) (s : State) : Outcome :=
  vectorStore s (.vsts m v ra rb t k) m v ra (iWidth t) (512 / (iWidth t)) k (strideAddr ra rb)

/-- VGATH (R170). -/
def execVgath (m : Bool) (v ra rb : Reg) (t : ITy) (k : KReg) (s : State) : Outcome :=
  vectorLoad s (.vgath m v ra rb t k) m v ra (iWidth t) (512 / (iWidth t)) k (offsetAddr (iWidth t) ra rb)

/-- VSCAT (R171). -/
def execVscat (m : Bool) (v ra rb : Reg) (t : ITy) (k : KReg) (s : State) : Outcome :=
  vectorStore s (.vscat m v ra rb t k) m v ra (iWidth t) (512 / (iWidth t)) k (offsetAddr (iWidth t) ra rb)

end Sys2Proof.Machine
end

