-- ==== Sys2Proof/Machine/Dispatch.lean ====
section
/-! DEFINITION. What each instruction, command and event does: one arm per constructor of Instr. -/

namespace Sys2Proof.Machine

open Sys2Proof

/-- One instruction, command or event. -/
def exec (i : Instr) (s : State) : Host.Outcome State Fault Refusal :=
  match i with
  | .add m d a b => Sys2Proof.Machine.execAdd m d a b s
  | .sub m d a b => Sys2Proof.Machine.execSub m d a b s
  | .and m d a b => Sys2Proof.Machine.execAnd m d a b s
  | .or m d a b => Sys2Proof.Machine.execOr m d a b s
  | .xor m d a b => Sys2Proof.Machine.execXor m d a b s
  | .andn m d a b => Sys2Proof.Machine.execAndn m d a b s
  | .orn m d a b => Sys2Proof.Machine.execOrn m d a b s
  | .shl m d a b => Sys2Proof.Machine.execShl m d a b s
  | .shr m d a b => Sys2Proof.Machine.execShr m d a b s
  | .sra m d a b => Sys2Proof.Machine.execSra m d a b s
  | .rol m d a b => Sys2Proof.Machine.execRol m d a b s
  | .ror m d a b => Sys2Proof.Machine.execRor m d a b s
  | .slt m d a b => Sys2Proof.Machine.execSlt m d a b s
  | .sltu m d a b => Sys2Proof.Machine.execSltu m d a b s
  | .min m d a b => Sys2Proof.Machine.execMin m d a b s
  | .max m d a b => Sys2Proof.Machine.execMax m d a b s
  | .minu m d a b => Sys2Proof.Machine.execMinu m d a b s
  | .maxu m d a b => Sys2Proof.Machine.execMaxu m d a b s
  | .mul m d a b => Sys2Proof.Machine.execMul m d a b s
  | .mulh m d a b => Sys2Proof.Machine.execMulh m d a b s
  | .mulhu m d a b => Sys2Proof.Machine.execMulhu m d a b s
  | .div m d a b => Sys2Proof.Machine.execDiv m d a b s
  | .divu m d a b => Sys2Proof.Machine.execDivu m d a b s
  | .rem m d a b => Sys2Proof.Machine.execRem m d a b s
  | .remu m d a b => Sys2Proof.Machine.execRemu m d a b s
  | .clz m d a => Sys2Proof.Machine.execClz m d a s
  | .ctz m d a => Sys2Proof.Machine.execCtz m d a s
  | .popc m d a => Sys2Proof.Machine.execPopc m d a s
  | .sextB m d a => Sys2Proof.Machine.execSextB m d a s
  | .sextH m d a => Sys2Proof.Machine.execSextH m d a s
  | .sextW m d a => Sys2Proof.Machine.execSextW m d a s
  | .zextB m d a => Sys2Proof.Machine.execZextB m d a s
  | .zextH m d a => Sys2Proof.Machine.execZextH m d a s
  | .zextW m d a => Sys2Proof.Machine.execZextW m d a s
  | .sel m d a b c => Sys2Proof.Machine.execSel m d a b c s
  | .addi m d a imm => Sys2Proof.Machine.execAddi m d a imm s
  | .andi m d a imm => Sys2Proof.Machine.execAndi m d a imm s
  | .ori m d a imm => Sys2Proof.Machine.execOri m d a imm s
  | .xori m d a imm => Sys2Proof.Machine.execXori m d a imm s
  | .slti m d a imm => Sys2Proof.Machine.execSlti m d a imm s
  | .sltiu m d a imm => Sys2Proof.Machine.execSltiu m d a imm s
  | .shli m d a sh => Sys2Proof.Machine.execShli m d a sh s
  | .shri m d a sh => Sys2Proof.Machine.execShri m d a sh s
  | .srai m d a sh => Sys2Proof.Machine.execSrai m d a sh s
  | .lui m d imm => Sys2Proof.Machine.execLui m d imm s
  | .aupcc m d imm => Sys2Proof.Machine.execAupcc m d imm s
  | .fadd m d a b p rm => Sys2Proof.Machine.execFadd m d a b p rm s
  | .fsub m d a b p rm => Sys2Proof.Machine.execFsub m d a b p rm s
  | .fmul m d a b p rm => Sys2Proof.Machine.execFmul m d a b p rm s
  | .fdiv m d a b p rm => Sys2Proof.Machine.execFdiv m d a b p rm s
  | .fmadd m d a b p rm => Sys2Proof.Machine.execFmadd m d a b p rm s
  | .fmsub m d a b p rm => Sys2Proof.Machine.execFmsub m d a b p rm s
  | .fsqrt m d a p rm => Sys2Proof.Machine.execFsqrt m d a p rm s
  | .fmin m d a b p => Sys2Proof.Machine.execFmin m d a b p s
  | .fmax m d a b p => Sys2Proof.Machine.execFmax m d a b p s
  | .feq m d a b p => Sys2Proof.Machine.execFeq m d a b p s
  | .flt m d a b p => Sys2Proof.Machine.execFlt m d a b p s
  | .fle m d a b p => Sys2Proof.Machine.execFle m d a b p s
  | .fsgnj m d a b p => Sys2Proof.Machine.execFsgnj m d a b p s
  | .fsgnjX m d a b p => Sys2Proof.Machine.execFsgnjX m d a b p s
  | .fcvt m d a c rm => Sys2Proof.Machine.execFcvt m d a c rm s
  | .fclass m d a p => Sys2Proof.Machine.execFclass m d a p s
  | .fsgnjAbs m d a p => Sys2Proof.Machine.execFsgnjAbs m d a p s
  | .fsgnjNeg m d a p => Sys2Proof.Machine.execFsgnjNeg m d a p s
  | .bCond m c a b disp => Sys2Proof.Machine.execBCond m c a b disp s
  | .j m d disp => Sys2Proof.Machine.execJ m d disp s
  | .jc m d a => Sys2Proof.Machine.execJc m d a s
  | .cgetaddr m d a => Sys2Proof.Machine.execCgetaddr m d a s
  | .cgetbase m d a => Sys2Proof.Machine.execCgetbase m d a s
  | .cgetlen m d a => Sys2Proof.Machine.execCgetlen m d a s
  | .cgetperm m d a => Sys2Proof.Machine.execCgetperm m d a s
  | .cgettype m d a => Sys2Proof.Machine.execCgettype m d a s
  | .cgettag m d a => Sys2Proof.Machine.execCgettag m d a s
  | .cclrtag m d a => Sys2Proof.Machine.execCclrtag m d a s
  | .csealent m d a => Sys2Proof.Machine.execCsealent m d a s
  | .cfitlen m d a => Sys2Proof.Machine.execCfitlen m d a s
  | .cfitexp m d a => Sys2Proof.Machine.execCfitexp m d a s
  | .cmov m d a => Sys2Proof.Machine.execCmov m d a s
  | .csetaddr m d a b => Sys2Proof.Machine.execCsetaddr m d a b s
  | .cincaddr m d a b => Sys2Proof.Machine.execCincaddr m d a b s
  | .csetbnds m d a b => Sys2Proof.Machine.execCsetbnds m d a b s
  | .csetbndse m d a b => Sys2Proof.Machine.execCsetbndse m d a b s
  | .candperm m d a b => Sys2Proof.Machine.execCandperm m d a b s
  | .cseal m d a b => Sys2Proof.Machine.execCseal m d a b s
  | .cunseal m d a b => Sys2Proof.Machine.execCunseal m d a b s
  | .cbuild m d a b => Sys2Proof.Machine.execCbuild m d a b s
  | .csubset m d a b => Sys2Proof.Machine.execCsubset m d a b s
  | .csame m d a b => Sys2Proof.Machine.execCsame m d a b s
  | .cincaddri m d a imm => Sys2Proof.Machine.execCincaddri m d a imm s
  | .csetbndsi m d a imm => Sys2Proof.Machine.execCsetbndsi m d a imm s
  | .lb m d a off => Sys2Proof.Machine.execLb m d a off s
  | .lbu m d a off => Sys2Proof.Machine.execLbu m d a off s
  | .lh m d a off => Sys2Proof.Machine.execLh m d a off s
  | .lhu m d a off => Sys2Proof.Machine.execLhu m d a off s
  | .lw m d a off => Sys2Proof.Machine.execLw m d a off s
  | .lwu m d a off => Sys2Proof.Machine.execLwu m d a off s
  | .ld m d a off => Sys2Proof.Machine.execLd m d a off s
  | .lc m d a off => Sys2Proof.Machine.execLc m d a off s
  | .sb m src a off => Sys2Proof.Machine.execSb m src a off s
  | .sh m src a off => Sys2Proof.Machine.execSh m src a off s
  | .sw m src a off => Sys2Proof.Machine.execSw m src a off s
  | .sd m src a off => Sys2Proof.Machine.execSd m src a off s
  | .sc m src a off => Sys2Proof.Machine.execSc m src a off s
  | .pf m a off => Sys2Proof.Machine.execPf m a off s
  | .clean m a off => Sys2Proof.Machine.execClean m a off s
  | .flush m a off => Sys2Proof.Machine.execFlush m a off s
  | .discard m a off => Sys2Proof.Machine.execDiscard m a off s
  | .amo m d a b op dbl => Sys2Proof.Machine.execAmo m d a b op dbl s
  | .cas m d a b dbl => Sys2Proof.Machine.execCas m d a b dbl s
  | .casc m d a b => Sys2Proof.Machine.execCasc m d a b s
  | .ramo m d a cl op dbl => Sys2Proof.Machine.execRamo m d a cl op dbl s
  | .chold m n => Sys2Proof.Machine.execChold m n s
  | .vaddFloat m d a b t k => Sys2Proof.Machine.execVaddFloat m d a b t k s
  | .vsubFloat m d a b t k => Sys2Proof.Machine.execVsubFloat m d a b t k s
  | .vmulFloat m d a b t k => Sys2Proof.Machine.execVmulFloat m d a b t k s
  | .vfma m d a b t k => Sys2Proof.Machine.execVfma m d a b t k s
  | .vfnma m d a b t k => Sys2Proof.Machine.execVfnma m d a b t k s
  | .vdiv m d a b t k => Sys2Proof.Machine.execVdiv m d a b t k s
  | .vminFloat m d a b t k => Sys2Proof.Machine.execVminFloat m d a b t k s
  | .vmaxFloat m d a b t k => Sys2Proof.Machine.execVmaxFloat m d a b t k s
  | .vsqrt m d a t k => Sys2Proof.Machine.execVsqrt m d a t k s
  | .vredaddFloat m d a t k => Sys2Proof.Machine.execVredaddFloat m d a t k s
  | .vredmaxFloat m d a t k => Sys2Proof.Machine.execVredmaxFloat m d a t k s
  | .vredminFloat m d a t k => Sys2Proof.Machine.execVredminFloat m d a t k s
  | .vcmpFloat m c kd a b t k => Sys2Proof.Machine.execVcmpFloat m c kd a b t k s
  | .vaddInt m d a b t k => Sys2Proof.Machine.execVaddInt m d a b t k s
  | .vsubInt m d a b t k => Sys2Proof.Machine.execVsubInt m d a b t k s
  | .vmulInt m d a b t k => Sys2Proof.Machine.execVmulInt m d a b t k s
  | .vminInt m d a b t k => Sys2Proof.Machine.execVminInt m d a b t k s
  | .vmaxInt m d a b t k => Sys2Proof.Machine.execVmaxInt m d a b t k s
  | .vand m d a b t k => Sys2Proof.Machine.execVand m d a b t k s
  | .vor m d a b t k => Sys2Proof.Machine.execVor m d a b t k s
  | .vxor m d a b t k => Sys2Proof.Machine.execVxor m d a b t k s
  | .vshl m d a b t k => Sys2Proof.Machine.execVshl m d a b t k s
  | .vshr m d a b t k => Sys2Proof.Machine.execVshr m d a b t k s
  | .vsra m d a b t k => Sys2Proof.Machine.execVsra m d a b t k s
  | .vcmpInt m c kd a b t k => Sys2Proof.Machine.execVcmpInt m c kd a b t k s
  | .vredaddInt m d a t k => Sys2Proof.Machine.execVredaddInt m d a t k s
  | .vredmaxInt m d a t k => Sys2Proof.Machine.execVredmaxInt m d a t k s
  | .vredminInt m d a t k => Sys2Proof.Machine.execVredminInt m d a t k s
  | .vsel m d a b t k => Sys2Proof.Machine.execVsel m d a b t k s
  | .vperm m d a b t k => Sys2Proof.Machine.execVperm m d a b t k s
  | .vbcast m d a t k => Sys2Proof.Machine.execVbcast m d a t k s
  | .vmvv m d a t k => Sys2Proof.Machine.execVmvv m d a t k s
  | .viota m d t k => Sys2Proof.Machine.execViota m d t k s
  | .vmvs m d a index t => Sys2Proof.Machine.execVmvs m d a index t s
  | .vcvt m d a dst src k => Sys2Proof.Machine.execVcvt m d a dst src k s
  | .kand m kd ka kb => Sys2Proof.Machine.execKand m kd ka kb s
  | .kor m kd ka kb => Sys2Proof.Machine.execKor m kd ka kb s
  | .kxor m kd ka kb => Sys2Proof.Machine.execKxor m kd ka kb s
  | .knot m kd ka => Sys2Proof.Machine.execKnot m kd ka s
  | .kpop m d ka => Sys2Proof.Machine.execKpop m d ka s
  | .vld m v a k => Sys2Proof.Machine.execVld m v a k s
  | .vst m v a k => Sys2Proof.Machine.execVst m v a k s
  | .vlds m v a b t k => Sys2Proof.Machine.execVlds m v a b t k s
  | .vsts m v a b t k => Sys2Proof.Machine.execVsts m v a b t k s
  | .vgath m v a b t k => Sys2Proof.Machine.execVgath m v a b t k s
  | .vscat m v a b t k => Sys2Proof.Machine.execVscat m v a b t k s
  | .arrive m ch => Sys2Proof.Machine.execArrive m ch s
  | .arriveNc m ch => Sys2Proof.Machine.execArriveNc m ch s
  | .wait m ch => Sys2Proof.Machine.execWait m ch s
  | .dqpush m a => Sys2Proof.Machine.execDqpush m a s
  | .dqpop m d => Sys2Proof.Machine.execDqpop m d s
  | .dqsteal m d victim => Sys2Proof.Machine.execDqsteal m d victim s
  | .join m a => Sys2Proof.Machine.execJoin m a s
  | .suspend m a b => Sys2Proof.Machine.execSuspend m a b s
  | .endThread m => Sys2Proof.Machine.execEndThread m s
  | .klaunch m a => Sys2Proof.Machine.execKlaunch m a s
  | .fork m d a b => Sys2Proof.Machine.execFork m d a b s
  | .rndz m => Sys2Proof.Machine.execRndz m s
  | .ecset m e a => Sys2Proof.Machine.execEcset m e a s
  | .cmdq m a => Sys2Proof.Machine.execCmdq m a s
  | .mlease m => Sys2Proof.Machine.execMlease m s
  | .mfree m => Sys2Proof.Machine.execMfree m s
  | .bkpt m => Sys2Proof.Machine.execBkpt m s
  | .snap m => Sys2Proof.Machine.execSnap m s
  | .fenceXp m => Sys2Proof.Machine.execFenceXp m s
  | .fenceIo m => Sys2Proof.Machine.execFenceIo m s
  | .cbrk m => Sys2Proof.Machine.execCbrk m s
  | .epsend m a b => Sys2Proof.Machine.execEpsend m a b s
  | .eprecv m d a => Sys2Proof.Machine.execEprecv m d a s
  | .trap m code => Sys2Proof.Machine.execTrap m code s
  | .tsread m d => Sys2Proof.Machine.execTsread m d s
  | .pinv m a => Sys2Proof.Machine.execPinv m a s
  | .sysr m d x => Sys2Proof.Machine.execSysr m d x s
  | .sysw m x a => Sys2Proof.Machine.execSysw m x a s
  | .syss m x a => Sys2Proof.Machine.execSyss m x a s
  | .sysc m x a => Sys2Proof.Machine.execSysc m x a s
  | .vcdef m d a b => Sys2Proof.Machine.execVcdef m d a b s
  | .vcreshape m d a b => Sys2Proof.Machine.execVcreshape m d a b s
  | .vcbind m d a b => Sys2Proof.Machine.execVcbind m d a b s
  | .vcreparent m d a b => Sys2Proof.Machine.execVcreparent m d a b s
  | .pfrange m d a b => Sys2Proof.Machine.execPfrange m d a b s
  | .vcfree m d a => Sys2Proof.Machine.execVcfree m d a s
  | .vcquery m d a => Sys2Proof.Machine.execVcquery m d a s
  | .mldw wfmt went sent woff soff => Sys2Proof.Machine.execMldw wfmt went sent woff soff s
  | .mldwWeightsComplete cl => Sys2Proof.Machine.execMldwWeightsComplete cl s
  | .mswap => Sys2Proof.Machine.execMswap s
  | .mstrm afmt aent sent aoff soff astride acc rows rowoff => Sys2Proof.Machine.execMstrm afmt aent sent aoff soff astride acc rows rowoff s
  | .mzero acc rows => Sys2Proof.Machine.execMzero acc rows s
  | .mstore ofmt nosat clear dent doff dstride acc rows => Sys2Proof.Machine.execMstore ofmt nosat clear dent doff dstride acc rows s
  | .mend => Sys2Proof.Machine.execMend s
  | .cpy tags dst src doff soff len y => Sys2Proof.Machine.execCpy tags dst src doff soff len y s
  | .cpy2d tags dst src doff soff rows rowlen sstride dstride y => Sys2Proof.Machine.execCpy2d tags dst src doff soff rows rowlen sstride dstride y s
  | .cpyg tags dst src ient doff soff count ioff esize y => Sys2Proof.Machine.execCpyg tags dst src ient doff soff count ioff esize y s
  | .cfill dst doff len val y => Sys2Proof.Machine.execCfill dst doff len val y s
  | .cpyu dst src doff soff len slot y => Sys2Proof.Machine.execCpyu dst src doff soff len slot y s
  | .cpfr src soff len bar ch y => Sys2Proof.Machine.execCpfr src soff len bar ch y s
  | .csync yent target yoff => Sys2Proof.Machine.execCsync yent target yoff s
  | .cend => Sys2Proof.Machine.execCend s
  | .copyEngineChunk cl => Sys2Proof.Machine.execCopyEngineChunk cl s
  | .park c sl => Sys2Proof.Machine.execPark c sl s
  | .chunkLimit c sl => Sys2Proof.Machine.execChunkLimit c sl s
  | .commit c sl => Sys2Proof.Machine.execCommit c sl s
  | .invalidation c from_ fromSlot => Sys2Proof.Machine.execInvalidation c from_ fromSlot s
  | .commitComplete c sl => Sys2Proof.Machine.execCommitComplete c sl s
  | .pinnedStart c sl => Sys2Proof.Machine.execPinnedStart c sl s
  | .cmoComplete c => Sys2Proof.Machine.execCmoComplete c s
  | .uncachedAnswer c sl value => Sys2Proof.Machine.execUncachedAnswer c sl value s
  | .acquisition c sl => Sys2Proof.Machine.execAcquisition c sl s
  | .lrtail value => Sys2Proof.Machine.execLrtail value s
  | .launchRingEntry => Sys2Proof.Machine.execLaunchRingEntry s
  | .kcancel ctx value => Sys2Proof.Machine.execKcancel ctx value s
  | .energyReport cl => Sys2Proof.Machine.execEnergyReport cl s
  | .groupJoin c n value => Sys2Proof.Machine.execGroupJoin c n value s
  | .groupLeave c n value => Sys2Proof.Machine.execGroupLeave c n value s
  | .release ctx gid ch => Sys2Proof.Machine.execRelease ctx gid ch s
  | .chunkcfgWrite c sl value => Sys2Proof.Machine.execChunkcfgWrite c sl value s
  | .dqringWrite c value => Sys2Proof.Machine.execDqringWrite c value s
  | .injringWrite ctx die cls value => Sys2Proof.Machine.execInjringWrite ctx die cls value s
  | .revpassStart ctx => Sys2Proof.Machine.execRevpassStart ctx s
  | .revocationSweep ctx => Sys2Proof.Machine.execRevocationSweep ctx s
  | .revocationPassComplete ctx => Sys2Proof.Machine.execRevocationPassComplete ctx s
  | .iawWrite c n value => Sys2Proof.Machine.execIawWrite c n value s
  | .ncwWrite c n value => Sys2Proof.Machine.execNcwWrite c n value s
  | .ptrootWrite value => Sys2Proof.Machine.execPtrootWrite value s
  | .leaseGrant cl => Sys2Proof.Machine.execLeaseGrant cl s
  | .mxleaseForce cl => Sys2Proof.Machine.execMxleaseForce cl s
  | .powertokWrite die value => Sys2Proof.Machine.execPowertokWrite die value s
  | .tokenTake cl => Sys2Proof.Machine.execTokenTake cl s
  | .drain cl => Sys2Proof.Machine.execDrain cl s
  | .switchatWrite c value => Sys2Proof.Machine.execSwitchatWrite c value s
  | .gangSwitchStop c => Sys2Proof.Machine.execGangSwitchStop c s
  | .sequencerSave cl => Sys2Proof.Machine.execSequencerSave cl s
  | .contextSaved ctx => Sys2Proof.Machine.execContextSaved ctx s
  | .parkEntry ctx => Sys2Proof.Machine.execParkEntry ctx s
  | .restart ctx => Sys2Proof.Machine.execRestart ctx s
  | .leaseRestore cl => Sys2Proof.Machine.execLeaseRestore cl s
  | .contextFreed ctx => Sys2Proof.Machine.execContextFreed ctx s
  | .create blk => Sys2Proof.Machine.execCreate blk s
  | .grant blk => Sys2Proof.Machine.execGrant blk s
  | .returnCores blk => Sys2Proof.Machine.execReturnCores blk s
  | .mint blk => Sys2Proof.Machine.execMint blk s
  | .revoke blk => Sys2Proof.Machine.execRevoke blk s
  | .sealkey blk => Sys2Proof.Machine.execSealkey blk s
  | .modelkey blk => Sys2Proof.Machine.execModelkey blk s
  | .freeslot blk => Sys2Proof.Machine.execFreeslot blk s
  | .roster blk => Sys2Proof.Machine.execRoster blk s
  | .resume blk => Sys2Proof.Machine.execResume blk s
  | .destroy blk => Sys2Proof.Machine.execDestroy blk s
  | .migrate die page => Sys2Proof.Machine.execMigrate die page s
  | .migrationChunk die => Sys2Proof.Machine.execMigrationChunk die s
  | .flipBiasToHost die page => Sys2Proof.Machine.execFlipBiasToHost die page s
  | .flipBiasToDevice die page => Sys2Proof.Machine.execFlipBiasToDevice die page s
  | .biasFlipComplete die => Sys2Proof.Machine.execBiasFlipComplete die s
  | .reshapeWalk ctx id => Sys2Proof.Machine.execReshapeWalk ctx id s
  | .flushThrough ctx id => Sys2Proof.Machine.execFlushThrough ctx id s
  | .vcDrain ctx id => Sys2Proof.Machine.execVcDrain ctx id s
  | .evictionNotice c line => Sys2Proof.Machine.execEvictionNotice c line s
  | .hostSnpinv line => Sys2Proof.Machine.execHostSnpinv line s
  | .hostSnpdata line => Sys2Proof.Machine.execHostSnpdata line s
  | .hostRequest line op => Sys2Proof.Machine.execHostRequest line op s
  | .bisnpResponse line data => Sys2Proof.Machine.execBisnpResponse line data s
  | .portTrainingStart port => Sys2Proof.Machine.execPortTrainingStart port s
  | .trainingComplete port => Sys2Proof.Machine.execTrainingComplete port s
  | .negotiation port link cmd rec pkt => Sys2Proof.Machine.execNegotiation port link cmd rec pkt s
  | .hotReset port => Sys2Proof.Machine.execHotReset port s
  | .linkDown port => Sys2Proof.Machine.execLinkDown port s
  | .remoteRequest from_ line op => Sys2Proof.Machine.execRemoteRequest from_ line op s
  | .requestLost partner lost => Sys2Proof.Machine.execRequestLost partner lost s
  | .reductionResult group piece others => Sys2Proof.Machine.execReductionResult group piece others s
  | .rdmaWrite key off bytes => Sys2Proof.Machine.execRdmaWrite key off bytes s
  | .lockInterface tdi => Sys2Proof.Machine.execLockInterface tdi s
  | .attestation session keys => Sys2Proof.Machine.execAttestation session keys s
  | .fmPublicKeyWrite key => Sys2Proof.Machine.execFmPublicKeyWrite key s
  | .faultPacket c => Sys2Proof.Machine.execFaultPacket c s
  | .eccUncorrectable place => Sys2Proof.Machine.execEccUncorrectable place s
  | .eccCorrectable die => Sys2Proof.Machine.execEccCorrectable die s
  | .halt c => Sys2Proof.Machine.execHalt c s
  | .dbgResume c => Sys2Proof.Machine.execDbgResume c s
  | .step c sl => Sys2Proof.Machine.execStep c sl s
  | .debugWindowWrite c off data => Sys2Proof.Machine.execDebugWindowWrite c off data s
  | .debugSysregWrite c tagWrite value => Sys2Proof.Machine.execDebugSysregWrite c tagWrite value s
  | .snapin => Sys2Proof.Machine.execSnapin s
  | .snapctl value => Sys2Proof.Machine.execSnapctl value s
  | .snapshotLatch => Sys2Proof.Machine.execSnapshotLatch s
  | .powerOn ok => Sys2Proof.Machine.execPowerOn ok s
  | .fuse map => Sys2Proof.Machine.execFuse map s
  | .calib end_ => Sys2Proof.Machine.execCalib end_ s
  | .init end_ => Sys2Proof.Machine.execInit end_ s
  | .powerInterval watts => Sys2Proof.Machine.execPowerInterval watts s
  | .registerWrite reg value => Sys2Proof.Machine.execRegisterWrite reg value s
  | .illegal word => Sys2Proof.Machine.execIllegal word s
  | .fetchFault code info => Sys2Proof.Machine.execFetchFault code info s
  | .clusterPowerGate cl => Sys2Proof.Machine.execClusterPowerGate cl s
  | .forcedReset => Sys2Proof.Machine.execForcedReset s
  | .supervisorReset die held => Sys2Proof.Machine.execSupervisorReset die held s
  | .hotResetComplete port => Sys2Proof.Machine.execHotResetComplete port s
  | .reductionGroupConfig group members elem buffer => Sys2Proof.Machine.execReductionGroupConfig group members elem buffer s
  | .memoryRegionRegistration ctx region => Sys2Proof.Machine.execMemoryRegionRegistration ctx region s

end Sys2Proof.Machine
end

