-- ==== Sys2Proof/Machine/Energy.lean ====
section
/-! DEFINITION. What a cluster charges for an instruction (R198) and the class a thread takes at a chunk start (R199): what step
adds around a thread's instruction. -/

namespace Sys2Proof.Machine

/-- An instruction of the vector majors VFLT, VINT, VMOV, VCV, VMASK and VMEM (R39). -/
def isVector (i : Instr) : Bool := 0x30 ≤ (wordOf i).toNat / 2 ^ 25 % 64 && (wordOf i).toNat / 2 ^ 25 % 64 ≤ 0x35

/-- At a chunk start the acting thread takes its kernel's class (R199). -/
def takeClassNow (s : State) : State := if freshChunk (mySlot s) then setMySlot s (prioNow s (meCore s) (mySlot s)) else s

/-- The step has raised a report at an instruction of the acting thread, which has not executed (R41, R353). -/
def raised (s t : State) : Bool :=
  (myCore t).report != (myCore s).report &&
    match (myCore t).report with
    | some p => atInstruction p && p.slot == s.turn.slot
    | none => false

/-- The step has squashed the chunk of the acting thread: its instructions stand in no chunk any more (R136). -/
def gaveUp (x y : Slot) : Bool := x.cur.count != 0 && y.cur.count == 0 && y.older == x.older

/-- A slot has one instruction more: its next address has moved, or its chunk counts one more, whether it goes on or has ended. -/
def oneMore (x y : Slot) : Bool :=
  y.regs.pcc != x.regs.pcc || y.cur.count == x.cur.count + 1 || (y.older != x.older && (y.older.map (·.count)) == some (x.cur.count + 1))

/-- The acting thread has executed an instruction, by what its slot shows. -/
def executed (s t : State) : Bool := !raised s t && !gaveUp (mySlot s) (mySlot t) && oneMore (mySlot s) (mySlot t)

/-- Charge the kernel of the thread that acted from s for the instruction (R198). -/
def chargeInstr (s t : State) (i : Instr) : State :=
  if executed s t then
    chargeKernel t (clusterOf (meCore s)) (coreAt s (meCore s)).owner (mySlot s).kernel (if isVector i then 150 else 20)
  else t

/-- The charge around an outcome. -/
def charged (s : State) (i : Instr) (o : Outcome) : Outcome :=
  match o with
  | .next t => .next (chargeInstr s t i)
  | o => o

end Sys2Proof.Machine
end

