-- ==== Sys2Proof/Machine/Schedule.lean ====
section
/-! DEFINITION. What happens next: the events that the machine itself brings about when they are due, the fetch of an instruction
(R99), and which agent acts (notes/assumptions/2.md). Step.lean puts them together. -/

namespace Sys2Proof.Machine

/-! ### Fetch (R99) -/

/-- The translation of a fetch: a line that the instruction L1 holds reaches no home slice (R285). -/
def transFetch (s : State) (va : Nat) : Trans :=
  match windowFind (ctxOf s (myCtx s)) va with
  | none => .fault 1 0
  | some ia => transIa (if (myCore s).code.contains (ia / 128) then { s with ptroot := s.ptroot ||| 1 } else s) (myCtx s) (.core (meCore s)) ia

/-- The line at the acting thread's pcc lies in a non-coherent window of its context (R125). -/
def fetchNc (s : State) (p : Place) : Bool := nonCoherentLine (ctxOf s (myCtx s)) (p.ia / 128)

/-- The instruction L1 does not hold a line. -/
def fetchMisses (s : State) (p : Place) : Bool := !(myCore s).code.contains (p.ia / 128)

/-- The word at the acting thread's pcc with its place, or the fault of its fetch. -/
def fetchWord (s : State) : Except (Byte × W64) (Place × W32) :=
  let r := myRegs s
  match checkPerms r.pcc (capAddr r.pcc).toNat 4 true [Perm.exec] with
  | some f => .error (f, 0)
  | none =>
    match transFetch s (capAddr r.pcc).toNat with
    | .fault x ia => .error (Code.mapFault, mapInfo x ia)
    | .poisoned _ => .error (Code.poison, 0)
    | .ok p =>
      if p.uncached then .error (Code.mapFault, mapInfo 6 p.ia)
      else if memPoisoned s.mem p.loc || (fetchMisses s p && missLost s p (fetchNc s p)) then .error (Code.poison, 0)
      else
        let v := if fetchNc s p then homeLine s p.key p.ia p.loc else cohLine s p.key p.ia p.loc
        .ok (p, BitVec.ofNat 32 (lineBytes v (p.ia % 128) 4))

/-- The walk of a fetch that fails (R370). -/
def fetchWalked (s : State) (code : Byte) : State :=
  if code == Code.mapFault || code == Code.poison then walkParts s (myCtx s) (.core (meCore s)) [((capAddr (myRegs s).pcc).toNat, 4)] else s

/-- The line that a fetch misses, when the miss must wait: its page is being flipped (R294), the line is the host's (R343) or another
module's (R348), a COMMITTING chunk's (R148) or a pinned core's (R151). -/
def fetchHeld (s : State) : Option Place :=
  match transFetch s (capAddr (myRegs s).pcc).toNat with
  | .ok p =>
    if p.uncached || !fetchMisses s p then none
    else if heldFor s (pinOwner s (meCore s) (meSlot s)) p.ia || hostMust s p || remoteMust s (p.ia / 128) ||
        (!fetchNc s p && (missHeld s (p.ia / 128) || missWaits s p)) then
      some p
    else none
  | _ => none

/-- The host is asked for a line that a fetch waits for. -/
def fetchAsk (s : State) (p : Place) : State := if hostMust s p then askLines s [p.ia / 128] else s

/-- A fetch reaches its home slice, which keeps the translation; a miss in a page PRIVATE to another core makes it SHARED (R153). -/
def fetchReach (s : State) (p : Place) : State :=
  let s := tlbFill s p
  if !fetchMisses s p || fetchNc s p then s
  else
    match privateOwner s p with
    | some o => if o == meCore s then s else unprivate s o p
    | none => s

/-- What a fetch adds to the chunk that its instruction stands in (R99, R143): its page (R284, R288) and its miss (R291). -/
def fetchNoted (s : State) (p : Place) (k : Chunk) : Chunk :=
  let page := p.ia / 2 ^ 16
  let k := if fetchNc s p then { k with pages := Tbl.set k.pages page (Tbl.get false k.pages page) } else { k with fetched := NatSet.insert k.fetched page }
  if fetchMisses s p && leafAci p.leaf != 0 then { k with misses := page :: k.misses } else k

/-- The fetch of an instruction that has executed, from s to t: its chunk's commit marks it, at once where that chunk has committed in the same
step; and the instruction L1 holds the line. -/
def noteFetch (s t : State) (p : Place) : State :=
  let x := mySlot t
  let now : State := publishPages t (meCore t) (fetchNoted s p (Chunk.start Regs.reset))
  let t :=
    if x.cur.count != 0 then setMySlot t { x with cur := fetchNoted s p x.cur }
    else
      match x.older with
      | some o => if o.status == .ended then setMySlot t { x with older := some (fetchNoted s p o) } else now
      | none => now
  let t := if fetchMisses s p then { t with answered := NatSet.erase t.answered (p.ia / 128) } else t
  updCore t (meCore t) fun k => codeFill k (p.ia / 128)

/-- The fetch of an instruction that has executed is noted; one that waits is fetched again. -/
def withFetch (s : State) (p : Place) (o : Outcome) : Outcome :=
  match o with
  | .next t => .next (if executed s t then noteFetch s t p else t)
  | o => o

/-! ### Events that are due -/

/-- An event of the machine's own with where it happens. -/
inductive Due
  | boot (n : Nat)
  | latch
  | energy (cl : Nat)
  | limit (c l : Nat)
  | park (c l : Nat)
  | commit (c l : Nat)
  | complete (c l : Nat)
  | invalidation (k c l : Nat)
  | pinned (c l : Nat)
  | cmo (c : Nat)
  | notice (c line : Nat)
  | packet (c : Nat)
  | switchStop (c : Nat)
  | streamDrain (cl : Nat)
  | weights (cl : Nat)
  | lease (cl : Nat)
  | save (cl : Nat)
  | restore (cl : Nat)
  | saved (ctx : BitVec 12)
  | restart (ctx : BitVec 12)
  | freed (ctx : BitVec 12)
  | passDone (ctx : BitVec 12)
  | parkEntry (ctx : BitVec 12)
  | release (ctx : BitVec 12) (gid : BitVec 31) (ch : Nat)
  | launch
  | request
  | remoteSend
  | flip (die : Nat)
  | resetDone (port : Nat)
  | sweep (ctx : BitVec 12)
  | migration (die : Nat)
  | reshape (ctx : BitVec 12) (id : Nat)
  | flush (ctx : BitVec 12) (id : Nat)
  | drain (ctx : BitVec 12) (id : Nat)
  | acquire (c l : Nat)
  deriving DecidableEq, Repr

/-- Bring an event about, by its meaning. -/
def runDue (d : Due) (s : State) : Outcome :=
  match d with
  | .boot 0 => execPowerOn true s
  | .boot 1 => execFuse ⟨[], [], [], true⟩ s
  | .boot 2 => execCalib ⟨0, .other⟩ s
  | .boot _ => execInit ⟨true, []⟩ s
  | .latch => execSnapshotLatch s
  | .energy cl => execEnergyReport (BitVec.ofNat 7 cl) s
  | .limit c l => execChunkLimit (BitVec.ofNat 10 c) (BitVec.ofNat 2 l) s
  | .park c l => execPark (BitVec.ofNat 10 c) (BitVec.ofNat 2 l) s
  | .commit c l => execCommit (BitVec.ofNat 10 c) (BitVec.ofNat 2 l) s
  | .complete c l => execCommitComplete (BitVec.ofNat 10 c) (BitVec.ofNat 2 l) s
  | .invalidation k c l => execInvalidation (BitVec.ofNat 10 k) (BitVec.ofNat 10 c) (BitVec.ofNat 2 l) s
  | .pinned c l => execPinnedStart (BitVec.ofNat 10 c) (BitVec.ofNat 2 l) s
  | .cmo c => execCmoComplete (BitVec.ofNat 10 c) s
  | .notice c line => execEvictionNotice (BitVec.ofNat 10 c) (BitVec.ofNat 41 line) s
  | .packet c => execFaultPacket (BitVec.ofNat 10 c) s
  | .switchStop c => execGangSwitchStop (BitVec.ofNat 10 c) s
  | .streamDrain cl => execDrain (BitVec.ofNat 7 cl) s
  | .weights cl => execMldwWeightsComplete (BitVec.ofNat 7 cl) s
  | .lease cl => execLeaseGrant (BitVec.ofNat 7 cl) s
  | .save cl => execSequencerSave (BitVec.ofNat 7 cl) s
  | .restore cl => execLeaseRestore (BitVec.ofNat 7 cl) s
  | .saved ctx => execContextSaved ctx s
  | .restart ctx => execRestart ctx s
  | .freed ctx => execContextFreed ctx s
  | .passDone ctx => execRevocationPassComplete ctx s
  | .parkEntry ctx => execParkEntry ctx s
  | .release ctx gid ch => execRelease ctx gid (BitVec.ofNat 6 ch) s
  | .launch => execLaunchRingEntry s
  | .request => nextRequest s
  | .remoteSend => .next (remoteSendTake s)
  | .flip die => execBiasFlipComplete (BitVec.ofNat 3 die) s
  | .resetDone port => execHotResetComplete (BitVec.ofNat 5 port) s
  | .sweep ctx => execRevocationSweep ctx s
  | .migration die => execMigrationChunk (BitVec.ofNat 3 die) s
  | .reshape ctx id => execReshapeWalk ctx (BitVec.ofNat 5 id) s
  | .flush ctx id => execFlushThrough ctx (BitVec.ofNat 5 id) s
  | .drain ctx id => execVcDrain ctx (BitVec.ofNat 5 id) s
  | .acquire c l => execAcquisition (BitVec.ofNat 10 c) (BitVec.ofNat 2 l) s

def firstOf (a : Option Due) (b : Unit → Option Due) : Option Due :=
  match a with
  | some d => some d
  | none => b ()

/-- What is due of a slot: its chunk's limit, its park, its commit, its pinned start. -/
def slotDue (s : State) (c l : Nat) (x : Slot) : Option Due :=
  if limitDue s c l then some (.limit c l)
  else if x.parked && x.regs.pending.all pendReady then some (.park c l)
  else
    match x.older with
    | some o =>
      if o.status == .committing then
        match o.acks.find? (· != targetAck) with
        | some k => some (.invalidation (k / 4) c l)
        | none => if o.acks.isEmpty then some (.complete c l) else none
      else if commitDue s c l then some (.commit c l)
      else none
    | none => if pinDue s c l then some (.pinned c l) else none

/-- What is due of a core. -/
def coreDue (s : State) (c : Nat) (k : Core) : Option Due :=
  if packetDue s c then some (.packet c)
  else if !k.cmos.isEmpty then some (.cmo c)
  else
    match k.notices.find? fun l => !(activeLines k).contains l with
    | some l => some (.notice c l)
    | none => k.slots.findSome? fun x => slotDue s c x.1 x.2

/-- What is due of a cluster. -/
def clusterDue (s : State) (cl : Nat) (k : Cluster) : Option Due :=
  if !k.energy.isEmpty && s.cycle % 4096 == cl then some (.energy cl)
  else if drainDue s cl then some (.streamDrain cl)
  else if (saveDue s cl).isSome then some (.save cl)
  else if (restoreDue s cl).isSome then some (.restore cl)
  else if canGrant s cl then some (.lease cl)
  else if weightsDue s cl then some (.weights cl)
  else none

/-- What is due of a context. -/
def contextDue (s : State) (n : Nat) (c : Context) : Option Due :=
  let ctx := BitVec.ofNat 12 n
  if savedReady s ctx then some (.saved ctx)
  else if freedReady s ctx then some (.freed ctx)
  else if revDone s ctx then some (.passDone ctx)
  else if !c.transit.isEmpty then some (.parkEntry ctx)
  else none

/-- The work of the engines behind a context or a page, in every second cycle. -/
def backgroundDue (s : State) : Option Due :=
  if s.cycle % 2 == 1 then none
  else
    firstOf (s.dies.findSome? fun d => if migrationDue s d.1 then some (.migration d.1) else none) fun _ =>
      s.contexts.findSome? fun x =>
        let ctx := BitVec.ofNat 12 x.1
        if sweepDue s ctx then some (.sweep ctx)
        else
          x.2.vcs.findSome? fun v =>
            match v.2.state with
            | .reshaping => some (.reshape ctx v.1)
            | .reparenting => some (.flush ctx v.1)
            | .draining => some (.drain ctx v.1)
            | _ => none

/-- Some deque or injection ring holds an entry. -/
def anyWork (s : State) : Bool :=
  (s.cores.any fun c => dequeCount c.2 != 0) || s.contexts.any fun c => c.2.dies.any fun d => [0, 1, 2, 3].any fun i => injCount d.2 i != 0

/-- A free slot that finds work (R184). -/
def acquireDue (s : State) : Option Due :=
  if !anyWork s then none
  else
    s.cores.findSome? fun c =>
      match [0, 1, 2, 3].find? fun l => canAcquire s c.1 l with
      | some l => if acquireReady s c.1 then some (.acquire c.1 l) else none
      | none => none

/-- A context whose cores start again (R338). -/
def restartNow (s : State) : Option (BitVec 12) := (s.contexts.find? fun c => restartDue s (BitVec.ofNat 12 c.1)).map fun c => BitVec.ofNat 12 c.1

/-- Cores stop for a gang switch or start after one, or blocks latch a snapshot, at their very time, and a barrier that has been reached is
released: nothing else comes before (R212, R335, R338, R371). -/
def timeDue (s : State) : Bool :=
  s.ready && (latchDue s || (dueRelease s).isSome || (restartNow s).isSome || s.cores.any fun c => stopDue s c.1)

/-- The event that is due next; none while only agents may act. -/
def due (s : State) : Option Due :=
  if !s.ready then (if s.bootErr == 0 && s.phase.toNat < 4 then some (.boot s.phase.toNat) else none)
  else if latchDue s then some .latch
  else
    firstOf ((dueRelease s).map fun r => .release r.1 r.2.1 r.2.2) fun _ =>
    firstOf ((restartNow s).map Due.restart) fun _ =>
    firstOf ((s.cores.find? fun c => stopDue s c.1).map fun c => .switchStop c.1) fun _ =>
    firstOf (s.clusters.findSome? fun k => clusterDue s k.1 k.2) fun _ =>
    firstOf (s.cores.findSome? fun c => coreDue s c.1 c.2) fun _ =>
    firstOf (s.contexts.findSome? fun c => contextDue s c.1 c.2) fun _ =>
    firstOf (if s.doors.isEmpty then none else some .request) fun _ =>
    firstOf (if remoteSendReady s then some .remoteSend else none) fun _ =>
    firstOf (if launchDue s then some .launch else none) fun _ =>
    firstOf (s.dies.findSome? fun d => if flipReady s d.1 then some (.flip d.1) else none) fun _ =>
    firstOf ([0, 1].findSome? fun n => if resetDue s n then some (.resetDone n) else none) fun _ =>
    firstOf (backgroundDue s) fun _ => acquireDue s

/-! ### Agents -/

/-- Agents in one order: the slots by core, then each cluster's two sequencers. -/
def agentIndex (a : Agent) : Nat :=
  match a.part with
  | .slot => 4 * a.core.toNat + a.slot.toNat
  | .matrix => 4096 + 2 * clusterOf a.core.toNat
  | .copy => 4096 + 2 * clusterOf a.core.toNat + 1

def agentOf (n : Nat) : Agent :=
  if n < 4096 then ⟨BitVec.ofNat 10 (n / 4), BitVec.ofNat 2 n, .slot⟩
  else if n < 4352 then ⟨BitVec.ofNat 10 (8 * ((n - 4096) / 2)), 0, if n % 2 == 0 then .matrix else .copy⟩
  else ⟨0, 0, .slot⟩

/-- A sequencer can go on with its running entry. -/
def seqAble (s : State) (cl : Nat) (copy : Bool) : Bool :=
  let q := seqOf (clusterAt s cl) copy
  match (seqEntries q).head? with
  | none => false
  | some e => entryRuns s e && !headSaving q && (copy || (clusterAt s cl).waiting.isNone)

def agentAble (s : State) (a : Agent) : Bool :=
  match a.part with
  | .slot => canIssue s a.core.toNat a.slot.toNat
  | .matrix => seqAble s (clusterOf a.core.toNat) false
  | .copy => seqAble s (clusterOf a.core.toNat) true

/-- Every agent that can act, in order. -/
def ableAgents (s : State) : List Nat :=
  (s.cores.flatMap fun c => c.2.slots.filterMap fun x => if canIssue s c.1 x.1 then some (4 * c.1 + x.1) else none) ++
    s.clusters.flatMap fun k => [false, true].filterMap fun copy => if seqAble s k.1 copy then some (4096 + 2 * k.1 + if copy then 1 else 0) else none

/-- The agent that acts: the one asked for, if it can, else the next from the turn on. -/
def nextAgent (s : State) : Option Agent :=
  let turnOn : Option Agent :=
    if agentAble s s.turn then some s.turn
    else
      let l := ableAgents s
      match l.find? fun n => agentIndex s.turn ≤ n with
      | some n => some (agentOf n)
      | none => l.head?.map agentOf
  match s.sched with
  | a :: _ => if agentAble s a then some a else turnOn
  | [] => turnOn

def withTurn (s : State) (a : Agent) : State := { s with turn := a, sched := s.sched.drop 1 }

/-- The acting agent stays while a thread is in the middle of a chunk; else the turn goes on. -/
def passTurn (s t : State) : State :=
  let x := mySlot t
  if s.turn.part == .slot && executed s t && x.cur.status == .executing && x.cur.count != 0 &&
      !limitDue t s.turn.core.toNat s.turn.slot.toNat then t
  else { t with turn := agentOf (agentIndex s.turn + 1) }

/-- A thread's instruction (R41, R99): fetched and decoded, then its meaning, and what its cluster charges. -/
def runThread (s : State) : Outcome :=
  let s := takeClassNow s
  match fetchWord s with
  | .error (code, info) => execFetchFault code info (fetchWalked s code)
  | .ok (p, w) =>
    match fetchHeld s with
    | some p => .next (fetchAsk s p)
    | none =>
      let t := fetchReach s p
      match decodeWord w with
      | .ok i => withFetch t p (charged t i (exec i t))
      | .error _ => execIllegal w t

/-- The context and the range of the next command word that a sequencer reads through its program capability. -/
def seqWordExtent (s : State) (cl : Nat) (copy : Bool) : Option (BitVec 12 × Extent) :=
  let q := seqOf (clusterAt s cl) copy
  match q.command, (seqEntries q).head? with
  | none, some e => e.program.map fun p => (e.ctx, ⟨(capAddr p).toNat, 32, false⟩)
  | _, _ => none

/-- The read of a sequencer's next command word waits as an engine chunk does: for whom, and for what. -/
def seqHeld (s : State) (cl : Nat) (copy : Bool) : Option (BitVec 12 × Extent) :=
  match seqWordExtent s cl copy with
  | some (ctx, x) => if extentsWait s ctx [x] then some (ctx, x) else none
  | none => none

/-- A sequencer's command (R64, R224). -/
def runSequencer (s : State) (copy : Bool) : Outcome :=
  let cl := myCluster s
  match seqHeld s cl copy with
  | some (ctx, x) => .next (extentsAsk s ctx [x])
  | none =>
    match seqFetch s cl copy with
    | .command i => exec i s
    | .fault word code info => .next (stopAt s cl copy word code info)
    | .empty => .next s

def runAgent (s : State) : Outcome :=
  match s.turn.part with
  | .slot => runThread s
  | .matrix => runSequencer s false
  | .copy => runSequencer s true

/-! ### Inputs -/

/-- The lines that a write from outside puts by engine chunks (R349, R350). -/
def inputLines (s : State) (i : Instr) : List Nat :=
  match i with
  | .rdmaWrite key off bytes =>
    (match rdmaTarget s key off bytes.length with
     | some (ctx, a) => extentLines s ctx [⟨a, bytes.length, true⟩] true
     | none => [])
  | .reductionResult group piece _ => resultLines s group.toNat piece.toNat
  | .kcancel ctx value => extentLines s ctx (kcancelExtents s ctx value) true
  | _ => []

/-- The lines that an event from outside reads and writes, for what the host must give before it (R343). -/
def inputAccess (s : State) (i : Instr) : List Nat × List Nat :=
  match i with
  | .remoteRequest _ l op => ([l.toNat], if peerWrites op then [l.toNat] else [])
  | i => ([], inputLines s i)

/-- An event from outside waits while a cut in time is due, while a registered chunk that it would change is in progress, and for the host. -/
def inputReady (s : State) (i : Instr) : Bool :=
  !timeDue s &&
    match i with
    | .hostSnpinv l => !peerWaits s l.toNat true
    | .hostSnpdata l => !peerWaits s l.toNat false
    | .hostRequest l op => !peerWaits s l.toNat (peerWrites op)
    | .remoteRequest m l op =>
      !peerWaits (ownerView s m.toNat l.toNat) l.toNat (peerWrites op) && (engineAsks s (inputAccess s i).1 (inputAccess s i).2).isEmpty
    | .rdmaWrite .. | .reductionResult .. | .kcancel .. => !engineWaits s .device [] (inputLines s i)
    | _ => true

/-- The host answers a back-invalidate whatever waits: its answer may pass what came before it. -/
def isAnswer : Instr → Bool
  | .bisnpResponse .. => true
  | _ => false

/-- The event from outside that comes next, and those that stay: the first one, or while it waits the host's first answer. -/
def nextInput (s : State) : Option (Instr × List Instr) :=
  match s.inputs with
  | [] => none
  | i :: rest =>
    if inputReady s i then some (i, rest)
    else if timeDue s then none
    else (rest.find? isAnswer).map fun j => (j, i :: rest.erase j)

/-- While an event from outside waits for the host, the host is asked. -/
def askForInput (s : State) : State :=
  match s.inputs with
  | [] => s
  | i :: _ => if s.ready then askEngine s (inputAccess s i).1 (inputAccess s i).2 else s

/-! ### Time -/

/-- TIME (R237) runs from CALIB on. -/
def tickTime (s : State) : State := { s with cycle := s.cycle + 1, time := if 3 ≤ s.phase.toNat then s.time + s.pace else s.time }

/-- The slots whose older chunk has ENDED: each asks for its stamp (R147). -/
def askingSlots (s : State) : List Nat :=
  s.cores.flatMap fun c => c.2.slots.filterMap fun x =>
    match x.2.older with
    | some o => if o.status == .ended then some (4 * c.1 + x.1) else none
    | none => none

/-- Requests stand in the order in which their chunks have ended and could ask (R147, R223). -/
def noteRequests (s : State) : State :=
  let now := askingSlots s
  let kept := s.requests.filter now.contains
  { s with requests := kept ++ now.filter fun n => !kept.contains n }

/-- A cycle passes: requests that have come up stand in line (R147), what the host sees of its lines follows what the device holds (R342), the
tokens that stand at waiting streams are taken and the rings turn (R255), and the Plazas move their packets (R320). -/
def passTime (s : State) : State := plazaTick (ringTick (tickTime (ringTakes (hostSettle (noteRequests s)))))

end Sys2Proof.Machine
end

