-- ==== Sys2Proof/Machine/Step.lean ====
section
/-! DEFINITION. The step: an event from outside, else an event that is due, else an agent's instruction, and then a cycle of time;
and how the host places an instruction for the next step. -/

namespace Sys2Proof.Machine

/-- A step's end: time passes. -/
def finishStep (o : Outcome) : Outcome :=
  match o with
  | .next t => .next (passTime t)
  | o => o

/-- An agent's turn. -/
def agentStep (s : State) (a : Agent) : Outcome :=
  match runAgent (withTurn s a) with
  | .next t => .next (passTurn (withTurn s a) t)
  | o => o

/-- A step in which nothing comes from outside. -/
def innerStep (s : State) : Outcome :=
  match due s with
  | some d => finishStep (runDue d s)
  | none =>
    match nextAgent s with
    | some a => finishStep (agentStep s a)
    | none => if s.bootErr != 0 && !s.ready then .fault .startUpFailed else finishStep (.next s)

/-- One step of the machine. -/
def step (s : State) : Host.Outcome State Fault Refusal :=
  match nextInput s with
  | some (i, rest) => finishStep (exec i { s with inputs := rest })
  | none => innerStep (askForInput s)

/-! ### Placing an instruction -/

/-- A page table of one 64 KiB page of context 1: intermediate page 0 at 0x10000 in HBM, by tables at 0x40000, 0x80000 and
0x90000 (R283, R284). -/
def placeTable (m : Memory) : Memory := memPut (memPut (memPut m 0x40000 0x80001 16) 0x80000 0x90001 16) 0x90000 (2 ^ 116 + 0x10005) 16

/-- Context 1 RUNNING on core 0, with window 0 from virtual 0x10000 to intermediate page 0 (R280). -/
def placeContext : Context := { Context.reset with life := .running, iaw := [(0, 1#1 ++ 0#9 ++ 16#6 ++ 0#32 ++ 0#16 ++ 1#48 ++ 0#16)] }

def placePcc : Cap := capSetAddr capRoot 0x10000

def placeRegs : Regs := { Regs.reset with pcc := placePcc }

/-- Core 0 with a thread in slot 0. -/
def placeCore : Core := { Core.reset with owner := 1, slots := [(0, { Slot.reset with busy := true, regs := placeRegs, cur := Chunk.start placeRegs })] }

/-- The machine READY, with context 1 on core 0 (notes/assumptions/3.md). -/
def placed (s : State) : State :=
  { s with phase := 4, bootErr := 0, ready := true, inputs := [], sched := [], ptroot := 0x40001, tlb := [],
           mem := placeTable s.mem, cores := Tbl.set s.cores 0 placeCore, contexts := Tbl.set s.contexts 1 placeContext }

/-- A queued command word of core 0's thread. -/
def placeEntry0 (w : BitVec 256) : Entry :=
  { program := none, word := w, addr := 0, range := none, table := [], core := 0, slot := 0, ctx := 1, kernel := 0, stamp := 0, id := 0 }

/-- A control word stands at the pcc of core 0's thread, whose turn it is; a command word at the head of the sequencer it names. -/
def State.withFetchWord (s : State) (nbits w : Nat) : State :=
  let t := placed s
  if nbits ≤ 32 then { t with mem := memPut t.mem 0x10000 w 4, turn := ⟨0, 0, .slot⟩ }
  else
    let word := BitVec.ofNat 256 w
    let e := placeEntry0 word
    if word.extractLsb' 240 4 == (1 : BitVec 4) then
      { updSeq t 0 true (fun q => { q with queue := [e] }) with turn := ⟨0, 0, .copy⟩ }
    else { updSeq t 0 false (fun q => { q with queue := [e] }) with turn := ⟨0, 0, .matrix⟩ }

end Sys2Proof.Machine
end

