-- ==== Sys2Proof/Safety.lean ====
section
/-! DEFINITION. The terms that claims use: what a step keeps, what an instruction of a thread leaves behind when it retires, when
its external effect takes place at once, and a byte of memory as a thread reads it. A fault of the manual is a next state (R353),
so a run is safe while no step refuses and memory keeps its canonical form. -/

namespace Sys2Proof.Machine

/-- Memory and the tables of cores, slots, clusters, accumulators, dies, contexts and host lines, and what a context has saved of them, are in
their canonical form: equal contents are equal data. -/
structure State.Inv (s : State) : Prop where
  mem : s.mem.wf = true
  cores : Tbl.wf s.cores = true
  slots : (s.cores.all fun c => Tbl.wf c.2.slots) = true
  clusters : Tbl.wf s.clusters = true
  arrays : (s.clusters.all fun c => Tbl.wf c.2.acc) = true
  dies : Tbl.wf s.dies = true
  contexts : Tbl.wf s.contexts = true
  savedSlots : (s.contexts.all fun c => c.2.savedCores.all fun k => Tbl.wf k.2.slots) = true
  savedArrays : (s.contexts.all fun c => c.2.savedClusters.all fun v => Tbl.wf v.2.cluster.acc) = true
  hostHolds : Tbl.wf s.hostHolds = true
  hostLines : Tbl.wf s.hostLines = true

/-- A step that is none of the machine's stops. -/
def stepsOn (s : State) : Prop := ∃ t, step s = .next t

/-- A thread's core has taken a fault: it is frozen, and its report waits to be sent or has been sent (R353). -/
def tookFault (s : State) (c : Nat) : Prop := (coreAt s c).frozen = true

/-! ### Retiring -/

/-- Registers after an instruction with marker m (R69): the marker's park writes the pending list when all its values are there. -/
def afterMarker (m : Bool) (r : Regs) : Regs := if m && r.pending.all pendReady then regsPark r else r

/-- A chunk that has ended. -/
def endedChunk (k : Chunk) : Chunk := { k with status := .ended, hold := 0 }

/-- Where the chunk k that an instruction of slot x belongs to stands in the slot y afterwards: it goes on; or it has ended, in its
own place, or in the older place with a new chunk started (R138, R140). -/
def Joined (x y : Slot) (k : Chunk) : Prop :=
  (y.older = x.older ∧ y.cur = k) ∨ (y.older = x.older ∧ y.cur = endedChunk k) ∨
    (x.older = none ∧ y.older = some (endedChunk k) ∧ y.cur = Chunk.start y.regs)

/-- What no instruction that only retires changes of its slot. -/
def SlotKept (x y : Slot) : Prop :=
  y.busy = x.busy ∧ y.pinWait = x.pinWait ∧ y.pin = x.pin ∧ y.kernel = x.kernel ∧ y.prio = x.prio ∧ y.limit = x.limit ∧
    y.commitStamp = x.commitStamp ∧ y.outstanding = x.outstanding

/-- t is u after the acting thread, whose slot stood as x, has executed an instruction with marker m that leaves the registers r and
goes on at pcc: nothing but that slot has changed, and the instruction is counted in its chunk. -/
def Retires (u : State) (x : Slot) (m : Bool) (r : Regs) (pcc : Cap) (t : State) : Prop :=
  t = setMySlot u (mySlot t) ∧ (mySlot t).regs = afterMarker m { r with pcc := pcc } ∧
    (mySlot t).parked = (if m then !r.pending.all pendReady else x.parked) ∧
    SlotKept x (mySlot t) ∧ Joined x (mySlot t) (countInstr x.cur)

/-- An immediate result c in gd (R68, R69), and the next instruction follows. -/
def Writes (s : State) (m : Bool) (d : Reg) (c : Cap) (t : State) : Prop :=
  Retires s (mySlot s) m (regsImmediate (myRegs s) d c) (nextPcc (myRegs s)) t

/-- An immediate integer result in gd (R67). -/
def WritesX (s : State) (m : Bool) (d : Reg) (v : W64) (t : State) : Prop := Writes s m d (capInt v) t

/-- The thread as a deferred-result instruction finds it: a full pending list has parked first (R70). -/
def deferSlot (s : State) : Slot := roomForDeferred (mySlot s)

/-- A deferred-result instruction issues: no full list waits for its values. -/
def CanDefer (s : State) : Prop := (deferSlot s).parked = false

/-- A deferred result (R68, R69): it joins the pending list, and the next instruction follows. -/
def Defers (s : State) (m : Bool) (p : Pend) (t : State) : Prop :=
  Retires s (deferSlot s) m (regsDefer (deferSlot s).regs p) (nextPcc (deferSlot s).regs) t

/-- A deferred integer result for gd. -/
def DefersX (s : State) (m : Bool) (d : Reg) (v : W64) (t : State) : Prop := Defers s m (.g d (some (capInt v))) t

/-- No result: the registers stay, and the next instruction follows. -/
def Passes (s : State) (m : Bool) (t : State) : Prop := Retires s (mySlot s) m (myRegs s) (nextPcc (myRegs s)) t

/-- The thread as an instruction that parks first finds it (R70), and that its park waits for no value. -/
def parkedSlot (s : State) : Slot := parkSlot (mySlot s)
def CanPark (s : State) : Prop := (mySlot s).regs.pending.all pendReady = true

/-! ### Memory as a thread reads it -/

/-- The byte that the acting thread reads at a virtual address: its chunk's stores over its read record, or over what the caches and memory
hold (R155); none where the address does not translate. -/
def seenByte (s : State) (va : Nat) : Option Byte :=
  match transVa s (myCtx s) (.core (meCore s)) va with
  | .ok p => some (BitVec.ofNat 8 (lineBytes (viewLine s p (nonCoherentLine (ctxOf s (myCtx s)) (p.ia / 128))) (p.ia % 128) 1))
  | _ => none

/-- The tag that the acting thread finds with the 16-byte unit of a virtual address (R100). -/
def seenTag (s : State) (va : Nat) : Option Bool :=
  match transVa s (myCtx s) (.core (meCore s)) va with
  | .ok p => some ((viewLine s p (nonCoherentLine (ctxOf s (myCtx s)) (p.ia / 128))).tags.getLsbD (p.ia % 128 / 16))
  | _ => none

/-- A line under the stores of the acting thread's two chunks, its read record apart: the record goes when a chunk ends, and the line stands. -/
def heldLine (s : State) (p : Place) (nc : Bool) : LineVal :=
  chunkOver (mySlot s).cur nc (p.ia / 128) (homeLine s p.key p.ia p.loc) (foundLine s p nc)

/-- The byte that stands at a virtual address for the acting thread, its stores included; a read gives it where the chunk has recorded no
other value of the line. None where the address does not translate. -/
def heldByte (s : State) (va : Nat) : Option Byte :=
  match transVa s (myCtx s) (.core (meCore s)) va with
  | .ok p => some (BitVec.ofNat 8 (lineBytes (heldLine s p (nonCoherentLine (ctxOf s (myCtx s)) (p.ia / 128))) (p.ia % 128) 1))
  | _ => none

/-- The tag that stands for the acting thread with the 16-byte unit of a virtual address. -/
def heldTag (s : State) (va : Nat) : Option Bool :=
  match transVa s (myCtx s) (.core (meCore s)) va with
  | .ok p => some ((heldLine s p (nonCoherentLine (ctxOf s (myCtx s)) (p.ia / 128))).tags.getLsbD (p.ia % 128 / 16))
  | _ => none

/-- Byte i of a number. -/
def byteOf (v i : Nat) : Byte := BitVec.ofNat 8 (v / 2 ^ (8 * i))

/-- v is the number whose bytes, lowest first, the acting thread reads at a, a + 1, … -/
def Seen (s : State) (a n v : Nat) : Prop := v < 2 ^ (8 * n) ∧ ∀ j < n, seenByte s (a + j) = some (byteOf v j)

/-- Every line of some parts is in the acting core's data L1. -/
def AllHit (s : State) (segs : List Seg) : Prop := ∀ g ∈ segs, (l1Find (myCore s) (g.p.ia / 128) (segNc s g)).isSome = true

/-- A byte that a chunk's write buffer holds for a line, if it holds it. -/
def chunkByte (k : Chunk) (nc : Bool) (line off : Nat) : Option Byte :=
  match Tbl.find (if nc then k.nws else k.ws) line with
  | some b => if b.mask.getLsbD off then some (b.data.extractLsb' (8 * off) 8) else none
  | none => none

/-- A byte as a slot's chunks have stored it: the younger chunk's store, else the older one's. -/
def bufferedByte (x : Slot) (nc : Bool) (line off : Nat) : Option Byte :=
  match chunkByte x.cur nc line off with
  | some b => some b
  | none => match x.older with
    | some o => chunkByte o nc line off
    | none => none

/-- A value cut into the values of the parts it is stored through, the first lowest. -/
def splitValue (v : Nat) : List Seg → List (Seg × Nat)
  | [] => []
  | g :: r => (g, v) :: splitValue (v / 2 ^ (8 * g.n)) r

/-- The byte that storing values through their parts, one after the other, puts at an intermediate address, if one is put there. -/
def storedByte : List (Seg × Nat) → Nat → Option Byte
  | [], _ => none
  | (g, v) :: r, a =>
    match storedByte r a with
    | some b => some b
    | none => if g.p.ia ≤ a ∧ a < g.p.ia + g.n then some (byteOf v (a - g.p.ia)) else none

/-- Some part touches the 16-byte unit of an intermediate address. -/
def touchesUnit (l : List (Seg × Nat)) (a : Nat) : Prop := ∃ g ∈ l, g.1.p.ia / 16 ≤ a / 16 ∧ a / 16 ≤ (g.1.p.ia + g.1.n - 1) / 16

/-- In t memory stands for the acting thread as in s, but for the bytes that storing values through their parts has put there and the tags of
the units touched, which are `tag` (R101, R104). -/
def SeesStored (s t : State) (l : List (Seg × Nat)) (tag : Bool) : Prop :=
  ∀ va, match transVa s (myCtx s) (.core (meCore s)) va with
    | .ok q =>
      heldByte t va = (match storedByte l q.ia with | some b => some b | none => heldByte s va) ∧
        (touchesUnit l q.ia → heldTag t va = some tag) ∧ (¬touchesUnit l q.ia → heldTag t va = heldTag s va)
    | _ => heldByte t va = none ∧ heldTag t va = none

/-- Memory stands for the acting thread in t as in s, every byte and tag of it. -/
def SeesSame (s t : State) : Prop := ∀ va, heldByte t va = heldByte s va ∧ heldTag t va = heldTag s va

/-- A core j that differs from k in its slots and its data L1 alone: its owner, engine table, members, barrier state, deque, mail,
reports, debug window and the rest stand. -/
def coreKept (k j : Core) : Prop := j = { k with slots := j.slots, l1 := j.l1 }

/-- An access of the acting thread's chunk that hits has led from t to u: of the machine only the recency of the core's data L1, cached
translations, the count of walks and the lines a pinned chunk registers have changed, and of the thread only its chunk, which stands
as k. -/
structure Hits (t u : State) (k : Chunk) : Prop where
  rest : u = { t with cores := u.cores, dies := u.dies, tlb := u.tlb, order := u.order, registered := u.registered }
  walks : ∀ d, dieAt u d = { dieAt t d with walks := (dieAt u d).walks }
  others : ∀ c, c ≠ meCore t → coreAt u c = coreAt t c
  core : coreKept (myCore t) (myCore u)
  slots : ∀ l, l ≠ meSlot t → slotAt u (meCore t) l = slotAt t (meCore t) l
  slot : mySlot u = { mySlot t with cur := k }

/-- A piece of an intermediate address is dirty in the bank pool. -/
def pieceDirty (s : State) (ia : Nat) : Bool := ((granuleOf s ia).map fun g => g.dirty.getLsbD (ia / 64 % 32)).getD false

/-- A piece comes to the leaf of its path without an eviction: no cache of the path is being reshaped, and the piece stands at the leaf; or the
leaf has its granule or a free way, and at most one way of the pool has the piece. -/
def EasyPiece (s : State) (c : Context) (ia : Nat) : Prop :=
  ∃ v rest, pathOf c ia = v :: rest ∧ (∀ x ∈ v :: rest, (vcAt c x).state ≠ .reshaping) ∧
    let ways := waysOf s c v ia
    ((∃ k, findWay s ways ia = some k ∧ holdsPiece s k ia = true) ∨
      (((∃ k, findWay s ways ia = some k ∧ holdsPiece s k ia = false) ∨
          (findWay s ways ia = none ∧ ∃ k ∈ ways, Tbl.has s.banks k = false)) ∧
        ∀ j k, holdsPiece s j ia = true → holdsPiece s k ia = true → j = k))

/-- A part whose line the acting core's L1 misses, and whose fill evicts nothing: its set has a free way, the miss is answered, and a coherent
line has no dirty copy in an L1, no other owner, room in the directory, and pieces that come to the leaf without an eviction. -/
structure EasyMiss (t : State) (g : Seg) : Prop where
  miss : l1Find (myCore t) (g.p.ia / 128) (segNc t g) = none
  way : ((myCore t).l1.filter fun x => x.line % 128 == g.p.ia / 128 % 128).length < 8
  banks : Tbl.wf t.banks = true
  served : locLost t g.p.ia g.p.loc = false
  coherent : segNc t g = false →
    let line := g.p.ia / 128
    let pc := pathCtx g.p (myCtx t)
    let c := ctxOf t pc
    (privateOwner t g.p = none ∨ privateOwner t g.p = some (meCore t)) ∧ dirtyLine t line = none ∧
      ((dirFind t line).isSome = true ∨ ((dieAt t (dirDie line)).directory.filter fun e => dirSet e.line == dirSet line).length < 16) ∧
      pathOf c (line * 128 + 64) = pathOf c (line * 128) ∧ EasyPiece t c (line * 128) ∧
      EasyPiece (fetchPiece t c pc g.p.key (line * 128) (g.p.loc / 128 * 128)) c (line * 128 + 64)

/-- The miss of a part g has led from t to u: the line stands clean in the acting core's L1 as its home, or for a coherent line the pool and
memory, have it; a coherent line's pieces stand in the leaf, dirty as they were (R301); memory, the lines dirty in an L1 and what the pool
and memory give of every line have not changed. -/
structure Fills (t u : State) (g : Seg) : Prop where
  line : ∃ l, l1Find (myCore u) (g.p.ia / 128) (segNc t g) = some l ∧ l.dirty = false ∧
    (⟨l.data, l.tags⟩ : LineVal) =
      if segNc t g then homeLine t g.p.key g.p.ia g.p.loc else cohLine t g.p.key g.p.ia g.p.loc
  leaf : segNc t g = false → ∀ i < 2, let c := ctxOf t (pathCtx g.p (myCtx t)); let ia := g.p.ia / 128 * 128 + 64 * i
    ∃ v rest k, pathOf c ia = v :: rest ∧ findWay u (waysOf u c v ia) ia = some k ∧ holdsPiece u k ia = true
  dirty : ∀ i < 2, pieceDirty u (g.p.ia / 128 * 128 + 64 * i) = pieceDirty t (g.p.ia / 128 * 128 + 64 * i)
  mem : u.mem = t.mem
  lines : ∀ line, dirtyLine u line = dirtyLine t line
  own : lineBelow u g.p.key g.p.ia g.p.loc = lineBelow t g.p.key g.p.ia g.p.loc
  below : ∀ key ia loc, ia / 128 ≠ g.p.ia / 128 → pieceBelow u key ia loc = pieceBelow t key ia loc

/-- What a load through some parts leaves of the chunk: the coherent lines are in the read signature (R143) and, with the value read, in the
read record (R154), the pages are noted. -/
def readChunk (s : State) (segs : List Seg) (k j : Chunk) : Prop :=
  j = { k with reads := j.reads, rs := j.rs, pages := j.pages, misses := j.misses } ∧
    (∀ x, x ∈ j.reads ↔ x ∈ k.reads ∨ ∃ g ∈ segs, segNc s g = false ∧ x = g.p.ia / 128) ∧
      ∀ x, Tbl.find j.rs x = match segs.find? fun g => !segNc s g && g.p.ia / 128 == x with
        | some g => some (recordedLine s g.p false)
        | none => Tbl.find k.rs x

/-- What a store through some parts leaves of the chunk: the coherent lines are in the write signature and footprint (R143), the bytes in
its write buffer (R154). -/
def writtenChunk (s : State) (segs : List Seg) (k j : Chunk) : Prop :=
  j = { k with writes := j.writes, ws := j.ws, nws := j.nws, homes := j.homes, pages := j.pages, misses := j.misses } ∧
    ∀ x, x ∈ j.writes ↔ x ∈ k.writes ∨ ∃ g ∈ segs, segNc s g = false ∧ x = g.p.ia / 128

/-- The state in which a store runs: its chunk has room (R140), or the boundary falls before it and the next chunk has room; `way` says
whether its lines take ways of the L1. -/
def StoresIn (s : State) (segs : List Seg) (way : Bool) (t : State) : Prop :=
  accessWaits s segs = false ∧
    ((storeRoom s segs way = .ok ∧ t = s) ∨
      (storeRoom s segs way = .boundary ∧ t = endChunk s (meCore s) (meSlot s) ∧ freshChunk (mySlot t) = true ∧
        storeRoom t segs way = .ok))

/-! ### An external effect that takes place at once -/

/-- The acting thread stands at the start of a chunk with nothing before it, on a core that runs and is not being debugged, and its
commits ask for their stamp in the same step: what a chunk-ending instruction does, it does in one step. -/
structure Alone (s : State) : Prop where
  inv : s.Inv
  eager : s.eager = true
  busy : (mySlot s).busy = true
  fresh : (mySlot s).cur = Chunk.start (myRegs s)
  first : (mySlot s).older = none
  free : (mySlot s).pin = false ∧ (mySlot s).parked = false
  empty : (mySlot s).regs.pending = []
  first_to_ask : s.requests = []
  runs : (myCore s).stopped = false ∧ (myCore s).frozen = false ∧ (myCore s).stepping = none ∧ ctxRuns s (myCtx s) = true

/-- What the checks at issue leave of a thread that stood alone: it can ask for its stamp in the same step. -/
structure Asks (s w : State) : Prop where
  turn : w.turn = s.turn
  eager : w.eager = true
  regs : myRegs w = myRegs s
  first : (mySlot w).older = none ∧ (mySlot w).pin = false
  stores : (mySlot w).cur.nws = []
  first_to_ask : w.requests = []
  runs : (myCore w).stopped = false ∧ (myCore w).frozen = false ∧ ctxRuns w (myCtx w) = true

/-- The state in which the effect of the one-instruction chunk of i is found: what it accesses is no PRIVATE page of another agent's any more
(R153), the chunk is committing, and the thread stands after the instruction with an entry for its result (R216). -/
def inEffect (s : State) (i : Instr) (m : Bool) (d : Option Reg) : State :=
  let o := effectChunk (mySlot s).cur (myRegs s) i
  let u := issueEffect s i m d
  let t := effectPages u (meCore s) i (effectExtents u (meCore s) (meSlot s) o.check i)
  setSlot t (meCore s) (meSlot s) { slotAt t (meCore s) (meSlot s) with older := some { o with status := .committing } }

/-- The registers once the effect has given its value. -/
def effectRegs (s u : State) (m : Bool) (d : Option Reg) (v : Option Cap) : Regs :=
  let p := match v with
    | some k => fillPending (scrubCap u (myCtx u) k) (awaits d)
    | none => awaits d
  afterMarker m { myRegs s with pcc := nextPcc (myRegs s), pending := p }

/-- t is u, the state after the effect, once the chunk is committed: the stamp is taken, the thread stands after the instruction at
the start of a chunk, and its cluster has counted one instruction and one chunk. -/
def Commits (s u : State) (m : Bool) (d : Option Reg) (v : Option Cap) (t : State) : Prop :=
  ∃ y : Slot,
    t = bump (bump (setMySlot { u with stamp := u.stamp + 1 } y) (myCluster s) 0 1) (myCluster s) 1 1 ∧
      y.regs = effectRegs s u m d v ∧ y.older = none ∧ y.cur = Chunk.start y.regs ∧ y.commitStamp = u.stamp ∧
      y.busy = (mySlot u).busy ∧ y.outstanding = (mySlot u).outstanding ∧ y.limit = (mySlot u).limit ∧
      y.kernel = (mySlot u).kernel ∧ y.prio = (mySlot u).prio

/-- The chunk of i as it asks for its stamp, with what its effect touches. -/
def askingChunk (s : State) (i : Instr) (m : Bool) (d : Option Reg) : Chunk :=
  withEffect (issueEffect s i m d) (meCore s) (meSlot s) (effectChunk (mySlot s).cur (myRegs s) i)

/-- Nothing holds the commit of i back but its own condition: no registered or COMMITTING chunk meets what its effect touches (R147), no
pinned atomic of the core is in progress on a line that it writes (R125), no page of it is being flipped or is a pinned core's (R151, R294),
and the host has nothing to answer for it (R343). -/
def Unheld (s : State) (i : Instr) (m : Bool) (d : Option Reg) : Prop :=
  let t := issueEffect s i m d
  let o := effectChunk (mySlot s).cur (myRegs s) i
  arbiterFree t (meCore s) (meSlot s) (askingChunk s i m d) = true ∧ atomicHeld t (meCore s) (meSlot s) o = false ∧
    effectHeld t (meCore s) (meSlot s) o (askingChunk s i m d) = false ∧ hostInvs t (askingChunk s i m d) ++ hostDatas t o (askingChunk s i m d) = []

/-- t is u, the state after the effect, once the chunk is granted its stamp, published with what the effect has touched, and
acknowledged. -/
def Granted (s : State) (i : Instr) (m : Bool) (d : Option Reg) (u : State) (v : Option Cap) (t : State) : Prop :=
  t = drive (grant (issueEffect s i m d) u (meCore s) (meSlot s) (askingChunk s i m d) v) (meCore s) (meSlot s)

/-- The same, with what the thread then has: its value, its place after the instruction, and the stamp. -/
def Takes (s : State) (i : Instr) (m : Bool) (d : Option Reg) (u : State) (v : Option Cap) (t : State) : Prop :=
  Granted s i m d u v t ∧ t.stamp = s.stamp + 1 ∧ (slotAt t (meCore s) (meSlot s)).regs = effectRegs s u m d v ∧
    (slotAt t (meCore s) (meSlot s)).older = none ∧ (slotAt t (meCore s) (meSlot s)).commitStamp = s.stamp

/-- The chunk of i stays ENDED and its request waits (R147). -/
def Waits (s : State) (i : Instr) (m : Bool) (d : Option Reg) (t : State) : Prop :=
  t = enqueueRequest (issueEffect s i m d) (meCore s) (meSlot s)

/-- The thread has ended with its instruction: u is the state after the effect, in which the slot is free, and its chunk has taken its stamp. -/
def Ends (s : State) (i : Instr) (m : Bool) (u t : State) : Prop :=
  Granted s i m none u none t ∧ t.stamp = s.stamp + 1 ∧ slotAt t (meCore s) (meSlot s) = Slot.reset

/-! ### Lines at their home -/

/-- At most one way of the bank pool holds each piece of a line (R301). -/
def OnePool (s : State) (line : Nat) : Prop :=
  ∀ i < 2, ∀ a ∈ s.banks, ∀ b ∈ s.banks, a.2.addr = line / 16 → b.2.addr = line / 16 → a.2.present.getLsbD (line * 2 % 32 + i) = true →
    b.2.present.getLsbD (line * 2 % 32 + i) = true → a.1 = b.1

/-- The line of a place stands in t at its home alone, and reads w: sealed there under its page's key, with its tags, and no L1 and no bank
keeps a copy; every other byte of memory and every other line of an L1 is as in s. -/
structure AtHome (s t : State) (p : Place) (w : LineVal) : Prop where
  data : (memLine t.mem (p.loc / 128 * 128)).data = gasketLine s false (heldKey p.loc p.key) (p.ia / 128 * 128) w.data
  tags : (memLine t.mem (p.loc / 128 * 128)).tags = w.tags
  elsewhere : ∀ a, a / 128 ≠ p.loc / 128 → memByte t.mem a = memByte s.mem a
  clean : dirtyLine t (p.ia / 128) = none
  pool : ∀ i < 2, granuleOf t (p.ia / 128 * 128 + 64 * i) = none
  copies : ∀ c x, x ∈ (coreAt t c).l1 ↔ x ∈ (coreAt s c).l1 ∧ (x.nonCoherent = true ∨ x.line ≠ p.ia / 128)

/-! ### Commands of the sequencers -/

/-- No context that has resumed waits for copy entries of its save on a cluster (R278). -/
def NothingOwed (s : State) (cl : Nat) : Prop :=
  ∀ c ∈ s.contexts, ∀ v, Tbl.find c.2.savedClusters cl = some v → v.copy = false ∨ c.2.life ≠ .running

/-- The running command of entry e is complete in t: the entry stands at its next word, or, when it was one queued word, has left the
sequencer and its thread's outstanding set (R224, R226); the entries behind it stay. -/
structure CommandDone (s : State) (cl : Nat) (copy : Bool) (e : Entry) (t : State) : Prop where
  command : (seqOf (clusterAt t cl) copy).command = none
  entries : (seqEntries (seqOf (clusterAt t cl) copy)).map (fun x => (x.id, x.program.map (·.img))) =
    (match e.program with
     | some p => [(e.id, some (capSetAddr p (capAddr p + 32)).img)]
     | none => []) ++ (seqEntries (seqOf (clusterAt s cl) copy)).tail.map fun x => (x.id, x.program.map (·.img))
  outstanding : e.program = none → e.id ∉ (slotAt t e.core.toNat e.slot.toNat).outstanding

/-- What a matrix command that only computes leaves as it is, but for the A bit of the page that its word was read from: memory, every other
cluster and die register, and of every thread all but its outstanding set. -/
def ArrayOnly (s : State) (cl : Nat) (e : Entry) (t : State) : Prop :=
  ∃ u : State, u = { s with clusters := u.clusters, registered := u.registered, stamp := s.stamp + 1 } ∧
    (∀ k, k ≠ cl → clusterAt u k = clusterAt s k) ∧
    let w := wordRead u e
    t.mem = w.mem ∧ t.banks = w.banks ∧ t.tlb = w.tlb ∧ (∀ k, k ≠ cl → clusterAt t k = clusterAt w k) ∧ (∀ d, dieAt t d = dieAt w d) ∧
      (∀ c, ctxOf t c = ctxOf w c) ∧ (∀ c l, slotAt t c l = { slotAt w c l with outstanding := (slotAt t c l).outstanding }) ∧
      t.time = s.time ∧ t.stamp = s.stamp + 1

end Sys2Proof.Machine
end

