-- ==== Sys2Proof/Certificates/Slice0/Obligations.lean ====
section
/-! DEFINITION. What is claimed of the model, each claim from the manual's rules: for the provers. Where a clause rests on the model's
own choice, its docstring names the log entry. -/

open Sys2Proof Sys2Proof.Machine

/-! ### Registers and results -/

/-- R5, R67, R158: g0 and k0 are hard-wired, and every other register reads what was last written to it. -/
def Obligations.HardwiredRegisters : Prop :=
  ∀ (r : Regs) (n d : Reg) (c : Cap) (j k : KReg) (x : Mask) (w e : Reg) (v : Vec),
    regsG r 0 = Cap.null ∧ regsK r 0 = BitVec.allOnes 16 ∧
      regsG (regsSetG r d c) n = (if n = d ∧ d ≠ 0 then c else regsG r n) ∧
      regsK (regsSetK r k x) j = (if j = k ∧ k ≠ 0 then x else regsK r j) ∧
      regsV (regsSetV r e v) w = (if w = e then v else regsV r w) ∧
      regsK (regsSetG r d c) j = regsK r j ∧ regsG (regsSetK r k x) n = regsG r n ∧ regsV (regsSetG r d c) w = regsV r w ∧
      regsV (regsSetK r k x) w = regsV r w ∧ regsG (regsSetV r e v) n = regsG r n ∧ regsK (regsSetV r e v) j = regsK r j ∧
      regsSetG r 0 c = r ∧ regsSetK r 0 x = r

/-- R68, R69: an immediate result stands in its register for the next instruction and takes the register's pending entries away; a
deferred result leaves every register as it is and is the last entry of the list (none for g0, whose results are discarded: the
model's choice, notes/assumptions/12.md).
R69: a park writes the pending list oldest first: what a register holds after it is the value of its last entry, or what it held;
the list is empty, and pcc stands. -/
def Obligations.Results : Prop :=
  (∀ (r : Regs) (n d : Reg) (c : Cap) (v : Option Cap) (j : KReg) (w : Reg) (x : Vec) (y : Mask) (q : Pend),
    (regsG (regsImmediate r d c) n = if n = d ∧ d ≠ 0 then c else regsG r n) ∧
      (q ∈ (regsImmediate r d c).pending ↔ q ∈ r.pending ∧ pendIsG d q = false) ∧
      regsK (regsImmediate r d c) j = regsK r j ∧ regsV (regsImmediate r d c) w = regsV r w ∧
      (regsImmediate r d c).pcc = r.pcc ∧
      regsDefer r (.g d v) = (if d = 0 then r else { r with pending := r.pending ++ [.g d v] }) ∧
      regsDefer r (.v w x) = { r with pending := r.pending ++ [.v w x] } ∧
      regsDefer r (.k j y) = { r with pending := r.pending ++ [.k j y] }) ∧
  (∀ (r : Regs) (l q : List Pend) (n : Reg) (j : KReg) (w : Reg),
    r.pending.all pendReady = true →
      (regsPark r).pending = [] ∧ (regsPark r).pcc = r.pcc ∧
      (n ≠ 0 → ∀ c, r.pending = l ++ .g n (some c) :: q → (∀ p ∈ q, pendIsG n p = false) → regsG (regsPark r) n = c) ∧
      (∀ x, r.pending = l ++ .v w x :: q → (∀ p ∈ q, pendIsV w p = false) → regsV (regsPark r) w = x) ∧
      (j ≠ 0 → ∀ x, r.pending = l ++ .k j x :: q → (∀ p ∈ q, pendIsK j p = false) → regsK (regsPark r) j = x) ∧
      ((∀ p ∈ r.pending, pendIsG n p = false) → regsG (regsPark r) n = regsG r n) ∧
      ((∀ p ∈ r.pending, pendIsV w p = false) → regsV (regsPark r) w = regsV r w) ∧
      ((∀ p ∈ r.pending, pendIsK j p = false) → regsK (regsPark r) j = regsK r j))

/-- The frame of every instruction that only retires (Retires, which the statements of results give): no other slot, no other
core, no special register, no engine table, barrier register or array, no byte that stands for the thread, and of its own slot only the registers
and the chunk's count. -/
def Obligations.RetiringFrame : Prop :=
  ∀ (u : State) (m : Bool) (r : Regs) (pcc : Cap) (t : State),
    u.Inv → Retires u (mySlot u) m r pcc t →
      (∀ c, c ≠ meCore u → coreAt t c = coreAt u c) ∧
      (∀ c l, (c ≠ meCore u ∨ l ≠ meSlot u) → slotAt t c l = slotAt u c l) ∧
      (coreKept (myCore u) (myCore t) ∧ (myCore t).l1 = (myCore u).l1 ∧ (myCore t).frozen = (myCore u).frozen) ∧
      (∀ k, clusterAt t k = clusterAt u k) ∧ (∀ d, dieAt t d = dieAt u d) ∧ (∀ c, ctxOf t c = ctxOf u c) ∧
      t.mem = u.mem ∧ t.banks = u.banks ∧ t.time = u.time ∧ t.stamp = u.stamp ∧ t.keys = u.keys ∧
      (∀ x : BitVec 12, sysRead t (meCore t) (meSlot t) x = sysRead u (meCore u) (meSlot u) x) ∧
      (∀ va, heldByte t va = heldByte u va ∧ heldTag t va = heldTag u va)

/-! ### Scalar instructions -/

/-- R73: the operations of major INT whose result is immediate.
R73: CLZ, CTZ and POPC write the count that their words describe. -/
def Obligations.IntegerRegisterResults : Prop :=
  (∀ (s : State) (m : Bool) (d ra rb rc : Reg),
    let a := readX s ra
    let b := readX s rb
    let sh := b.toNat % 64
    (∃ t, exec (.add m d ra rb) s = .next t ∧ WritesX s m d (a + b) t) ∧
    (∃ t, exec (.sub m d ra rb) s = .next t ∧ WritesX s m d (a - b) t) ∧
    (∃ t, exec (.and m d ra rb) s = .next t ∧ WritesX s m d (a &&& b) t) ∧
    (∃ t, exec (.or m d ra rb) s = .next t ∧ WritesX s m d (a ||| b) t) ∧
    (∃ t, exec (.xor m d ra rb) s = .next t ∧ WritesX s m d (a ^^^ b) t) ∧
    (∃ t, exec (.andn m d ra rb) s = .next t ∧ WritesX s m d (a &&& ~~~b) t) ∧
    (∃ t, exec (.orn m d ra rb) s = .next t ∧ WritesX s m d (a ||| ~~~b) t) ∧
    (∃ t, exec (.shl m d ra rb) s = .next t ∧ WritesX s m d (a <<< sh) t) ∧
    (∃ t, exec (.shr m d ra rb) s = .next t ∧ WritesX s m d (a >>> sh) t) ∧
    (∃ t, exec (.sra m d ra rb) s = .next t ∧ WritesX s m d (BitVec.ofInt 64 (a.toInt / 2 ^ sh)) t) ∧
    (∃ t, exec (.rol m d ra rb) s = .next t ∧ WritesX s m d (a <<< sh ||| a >>> ((64 - sh) % 64)) t) ∧
    (∃ t, exec (.ror m d ra rb) s = .next t ∧ WritesX s m d (a >>> sh ||| a <<< ((64 - sh) % 64)) t) ∧
    (∃ t, exec (.slt m d ra rb) s = .next t ∧ WritesX s m d (if a.toInt < b.toInt then 1 else 0) t) ∧
    (∃ t, exec (.sltu m d ra rb) s = .next t ∧ WritesX s m d (if a.toNat < b.toNat then 1 else 0) t) ∧
    (∃ t, exec (.min m d ra rb) s = .next t ∧ WritesX s m d (BitVec.ofInt 64 (min a.toInt b.toInt)) t) ∧
    (∃ t, exec (.max m d ra rb) s = .next t ∧ WritesX s m d (BitVec.ofInt 64 (max a.toInt b.toInt)) t) ∧
    (∃ t, exec (.minu m d ra rb) s = .next t ∧ WritesX s m d (BitVec.ofNat 64 (min a.toNat b.toNat)) t) ∧
    (∃ t, exec (.maxu m d ra rb) s = .next t ∧ WritesX s m d (BitVec.ofNat 64 (max a.toNat b.toNat)) t) ∧
    (∃ t, exec (.sextB m d ra) s = .next t ∧ WritesX s m d ((a.setWidth 8).signExtend 64) t) ∧
    (∃ t, exec (.sextH m d ra) s = .next t ∧ WritesX s m d ((a.setWidth 16).signExtend 64) t) ∧
    (∃ t, exec (.sextW m d ra) s = .next t ∧ WritesX s m d ((a.setWidth 32).signExtend 64) t) ∧
    (∃ t, exec (.zextB m d ra) s = .next t ∧ WritesX s m d (BitVec.ofNat 64 (a.toNat % 2 ^ 8)) t) ∧
    (∃ t, exec (.zextH m d ra) s = .next t ∧ WritesX s m d (BitVec.ofNat 64 (a.toNat % 2 ^ 16)) t) ∧
    (∃ t, exec (.zextW m d ra) s = .next t ∧ WritesX s m d (BitVec.ofNat 64 (a.toNat % 2 ^ 32)) t) ∧
    (∃ t, exec (.sel m d ra rb rc) s = .next t ∧ WritesX s m d (if readX s rc ≠ 0 then a else b) t)) ∧
  (∀ (s : State) (m : Bool) (d ra : Reg),
    let a := (readX s ra).toNat
    (∃ t v, exec (.clz m d ra) s = .next t ∧ WritesX s m d (BitVec.ofNat 64 v) t ∧ v ≤ 64 ∧ a < 2 ^ (64 - v) ∧
      (v < 64 → 2 ^ (63 - v) ≤ a)) ∧
    (∃ t v, exec (.ctz m d ra) s = .next t ∧ WritesX s m d (BitVec.ofNat 64 v) t ∧ v ≤ 64 ∧ a % 2 ^ v = 0 ∧
      (v < 64 → a / 2 ^ v % 2 = 1)) ∧
    (∃ t, exec (.popc m d ra) s = .next t ∧
      WritesX s m d (BitVec.ofNat 64 ((List.range 64).countP fun i => (readX s ra).getLsbD i)) t))

/-- R73, R28: the deferred operations of major INT; the corners of a division are spelled out. -/
def Obligations.IntegerDeferredResults : Prop :=
  ∀ (s : State) (m : Bool) (d ra rb : Reg), CanDefer s →
    let a := capAddr (regsG (deferSlot s).regs ra)
    let b := capAddr (regsG (deferSlot s).regs rb)
    (∃ t, exec (.mul m d ra rb) s = .next t ∧ DefersX s m d (BitVec.ofNat 64 (a.toNat * b.toNat)) t) ∧
    (∃ t, exec (.mulh m d ra rb) s = .next t ∧ DefersX s m d ((a.signExtend 128 * b.signExtend 128).extractLsb' 64 64) t) ∧
    (∃ t, exec (.mulhu m d ra rb) s = .next t ∧ DefersX s m d ((a.setWidth 128 * b.setWidth 128).extractLsb' 64 64) t) ∧
    (∃ t q, exec (.div m d ra rb) s = .next t ∧ DefersX s m d q t ∧ (b = 0 → q = BitVec.allOnes 64) ∧
      (a = BitVec.intMin 64 → b = BitVec.allOnes 64 → q = BitVec.intMin 64) ∧
      (b ≠ 0 → ¬(a = BitVec.intMin 64 ∧ b = BitVec.allOnes 64) → q.toInt = a.toInt.tdiv b.toInt)) ∧
    (∃ t q, exec (.divu m d ra rb) s = .next t ∧ DefersX s m d q t ∧ (b = 0 → q = BitVec.allOnes 64) ∧
      (b ≠ 0 → q.toNat = a.toNat / b.toNat)) ∧
    (∃ t r, exec (.rem m d ra rb) s = .next t ∧ DefersX s m d r t ∧ (b = 0 → r = a) ∧
      (a = BitVec.intMin 64 → b = BitVec.allOnes 64 → r = 0) ∧ (b ≠ 0 → r.toInt = a.toInt - b.toInt * a.toInt.tdiv b.toInt)) ∧
    (∃ t r, exec (.remu m d ra rb) s = .next t ∧ DefersX s m d r t ∧ (b = 0 → r = a) ∧
      (b ≠ 0 → r.toNat = a.toNat - b.toNat * (a.toNat / b.toNat)))

/-- R74, R75, R76: the immediate instructions; AUPCC's result is subject to a revocation pass (R107). -/
def Obligations.IntegerImmediateResults : Prop :=
  ∀ (s : State) (m : Bool) (d ra : Reg) (imm : BitVec 15) (sh : BitVec 6) (imm20 : BitVec 20),
    let a := readX s ra
    let p := (myRegs s).pcc
    (∃ t, exec (.addi m d ra imm) s = .next t ∧ WritesX s m d (BitVec.ofInt 64 (a.toInt + imm.toInt)) t) ∧
    (∃ t, exec (.andi m d ra imm) s = .next t ∧ WritesX s m d (a &&& imm.signExtend 64) t) ∧
    (∃ t, exec (.ori m d ra imm) s = .next t ∧ WritesX s m d (a ||| imm.signExtend 64) t) ∧
    (∃ t, exec (.xori m d ra imm) s = .next t ∧ WritesX s m d (a ^^^ imm.signExtend 64) t) ∧
    (∃ t, exec (.shli m d ra sh) s = .next t ∧ WritesX s m d (BitVec.ofNat 64 (a.toNat * 2 ^ sh.toNat)) t) ∧
    (∃ t, exec (.shri m d ra sh) s = .next t ∧ WritesX s m d (BitVec.ofNat 64 (a.toNat / 2 ^ sh.toNat)) t) ∧
    (∃ t, exec (.srai m d ra sh) s = .next t ∧ WritesX s m d (BitVec.ofInt 64 (a.toInt / 2 ^ sh.toNat)) t) ∧
    (∃ t, exec (.slti m d ra imm) s = .next t ∧ WritesX s m d (if a.toInt < imm.toInt then 1 else 0) t) ∧
    (∃ t, exec (.sltiu m d ra imm) s = .next t ∧ WritesX s m d (if a.toNat < (imm.signExtend 64).toNat then 1 else 0) t) ∧
    (∃ t, exec (.lui m d imm20) s = .next t ∧ WritesX s m d (BitVec.ofInt 64 (imm20.toInt * 4096)) t) ∧
    (∃ t c, exec (.aupcc m d imm20) s = .next t ∧ Writes s m d (scrubCap s (myCtx s) c) t ∧
      capAddr c = BitVec.ofInt 64 ((capAddr p).toInt + 4 * imm20.toInt) ∧ c.img.extractLsb' 64 64 = p.img.extractLsb' 64 64 ∧
      c.tag = (p.tag && addrRepresentable (capE p).toNat (capDecode p).1 (capAddr c).toNat))

/-! ### Floating point -/

/-- R77 to R79, R81, R82: the scalar floating-point operations, each one deferred result. P 1 is .d, which reads and writes 64 bits;
.s reads and writes 32, and bits 63:32 of its result are zero. -/
def Obligations.FloatResults : Prop :=
  ∀ (s : State) (m : Bool) (d ra rb : Reg) (p : Bool) (rm : RM), CanDefer s →
    let f := if p then FFmt.f64 else FFmt.f32
    let w := if p then 64 else 32
    let a := (capAddr (regsG (deferSlot s).regs ra)).toNat % 2 ^ w
    let b := (capAddr (regsG (deferSlot s).regs rb)).toNat % 2 ^ w
    let c := (capAddr (regsG (deferSlot s).regs d)).toNat % 2 ^ w
    let va := floatValue f a
    let vb := floatValue f b
    let vc := floatValue f c
    (∃ t, exec (.fadd m d ra rb p rm) s = .next t ∧ DefersX s m d (BitVec.ofNat 64 (floatRound f rm false (floatAdd rm va vb))) t) ∧
    (∃ t, exec (.fsub m d ra rb p rm) s = .next t ∧
      DefersX s m d (BitVec.ofNat 64 (floatRound f rm false (floatAdd rm va (floatNeg vb)))) t) ∧
    (∃ t, exec (.fmul m d ra rb p rm) s = .next t ∧ DefersX s m d (BitVec.ofNat 64 (floatRound f rm false (floatMul va vb))) t) ∧
    (∃ t, exec (.fdiv m d ra rb p rm) s = .next t ∧ DefersX s m d (BitVec.ofNat 64 (floatRound f rm false (floatDiv va vb))) t) ∧
    (∃ t, exec (.fsqrt m d ra p rm) s = .next t ∧ DefersX s m d (BitVec.ofNat 64 (floatRound f rm false (floatSqrt va))) t) ∧
    (∃ t, exec (.fmadd m d ra rb p rm) s = .next t ∧
      DefersX s m d (BitVec.ofNat 64 (floatRound f rm false (floatAdd rm (floatMul va vb) vc))) t) ∧
    (∃ t, exec (.fmsub m d ra rb p rm) s = .next t ∧
      DefersX s m d (BitVec.ofNat 64 (floatRound f rm false (floatAdd rm (floatMul va vb) (floatNeg vc)))) t) ∧
    (∃ t v, exec (.fmin m d ra rb p) s = .next t ∧ DefersX s m d (BitVec.ofNat 64 v) t ∧
      ((va = .nan ∨ vb = .nan) → v = f.nanBits) ∧ (va ≠ .nan → vb ≠ .nan → (v = a ∨ v = b) ∧
        floatLe f v a = true ∧ floatLe f v b = true ∧
        (v / f.signBit = 1 ∨ ((a / f.signBit = 0 ∨ floatLt f v a = true) ∧ (b / f.signBit = 0 ∨ floatLt f v b = true))))) ∧
    (∃ t v, exec (.fmax m d ra rb p) s = .next t ∧ DefersX s m d (BitVec.ofNat 64 v) t ∧
      ((va = .nan ∨ vb = .nan) → v = f.nanBits) ∧ (va ≠ .nan → vb ≠ .nan → (v = a ∨ v = b) ∧
        floatLe f a v = true ∧ floatLe f b v = true ∧
        (v / f.signBit = 0 ∨ ((a / f.signBit = 1 ∨ floatLt f a v = true) ∧ (b / f.signBit = 1 ∨ floatLt f b v = true))))) ∧
    (∃ t, exec (.feq m d ra rb p) s = .next t ∧
      DefersX s m d (if va ≠ .nan ∧ vb ≠ .nan ∧ floatKey f a = floatKey f b then 1 else 0) t) ∧
    (∃ t, exec (.flt m d ra rb p) s = .next t ∧
      DefersX s m d (if va ≠ .nan ∧ vb ≠ .nan ∧ floatKey f a < floatKey f b then 1 else 0) t) ∧
    (∃ t, exec (.fle m d ra rb p) s = .next t ∧
      DefersX s m d (if va ≠ .nan ∧ vb ≠ .nan ∧ floatKey f a ≤ floatKey f b then 1 else 0) t) ∧
    (∃ t k, exec (.fclass m d ra p) s = .next t ∧ DefersX s m d k t ∧ k.toNat < 512 ∧ k.getLsbD 8 = decide (f.signBit ≤ a) ∧
      let kind := k.extractLsb' 0 8
      let exponent := a % f.signBit / 2 ^ f.mBits
      (kind = 1 ↔ ∃ n, va = .zero n) ∧ (kind = 8 ↔ ∃ n, va = .inf n) ∧
      (kind = 2 ↔ (∃ n i e, va = .fin n i e) ∧ exponent = 0) ∧ (kind = 4 ↔ (∃ n i e, va = .fin n i e) ∧ exponent ≠ 0) ∧
      (kind = 16 ↔ va = .nan ∧ a / 2 ^ (f.mBits - 1) % 2 = 0) ∧ (kind = 32 ↔ va = .nan ∧ a / 2 ^ (f.mBits - 1) % 2 = 1)) ∧
    (∃ t, exec (.fsgnj m d ra rb p) s = .next t ∧ DefersX s m d (BitVec.ofNat 64 (a % f.signBit + b / f.signBit * f.signBit)) t) ∧
    (∃ t, exec (.fsgnjAbs m d ra p) s = .next t ∧ DefersX s m d (BitVec.ofNat 64 (a % f.signBit)) t) ∧
    (∃ t, exec (.fsgnjNeg m d ra p) s = .next t ∧
      DefersX s m d (BitVec.ofNat 64 (a % f.signBit + (1 - a / f.signBit) * f.signBit)) t) ∧
    (∃ t, exec (.fsgnjX m d ra rb p) s = .next t ∧
      DefersX s m d (BitVec.ofNat 64 (a % f.signBit + (a / f.signBit + b / f.signBit) % 2 * f.signBit)) t)

/-- R80, R29: the ten conversions of FCVT; to an integer the value is rounded and then clamped, and NaN gives 0. -/
def Obligations.FloatConversions : Prop :=
  ∀ (s : State) (m : Bool) (d ra : Reg) (rm : RM), CanDefer s →
    let x := capAddr (regsG (deferSlot s).regs ra)
    let w := x.toNat % 2 ^ 32
    let clamp (v : FVal) (lo hi : Int) : Int :=
      match v with
      | .nan => 0
      | .inf neg => if neg then lo else hi
      | .zero _ => 0
      | .fin neg n e => max lo (min hi (if neg then -(roundTo rm neg n e 0 : Int) else (roundTo rm neg n e 0 : Int)))
    (∃ t, exec (.fcvt m d ra .sd rm) s = .next t ∧
      DefersX s m d (BitVec.ofNat 64 (floatRound .f32 rm false (floatValue .f64 x.toNat))) t) ∧
    (∃ t, exec (.fcvt m d ra .ds rm) s = .next t ∧
      DefersX s m d (BitVec.ofNat 64 (floatRound .f64 rm false (floatValue .f32 w))) t) ∧
    (∃ t, exec (.fcvt m d ra .sl rm) s = .next t ∧
      DefersX s m d (BitVec.ofNat 64 (floatRound .f32 rm false (floatOfInt x.toInt))) t) ∧
    (∃ t, exec (.fcvt m d ra .slu rm) s = .next t ∧
      DefersX s m d (BitVec.ofNat 64 (floatRound .f32 rm false (floatOfInt x.toNat))) t) ∧
    (∃ t, exec (.fcvt m d ra .dl rm) s = .next t ∧
      DefersX s m d (BitVec.ofNat 64 (floatRound .f64 rm false (floatOfInt x.toInt))) t) ∧
    (∃ t, exec (.fcvt m d ra .dlu rm) s = .next t ∧
      DefersX s m d (BitVec.ofNat 64 (floatRound .f64 rm false (floatOfInt x.toNat))) t) ∧
    (∃ t, exec (.fcvt m d ra .ls rm) s = .next t ∧
      DefersX s m d (BitVec.ofInt 64 (clamp (floatValue .f32 w) (-2 ^ 63) (2 ^ 63 - 1))) t) ∧
    (∃ t, exec (.fcvt m d ra .lus rm) s = .next t ∧
      DefersX s m d (BitVec.ofInt 64 (clamp (floatValue .f32 w) 0 (2 ^ 64 - 1))) t) ∧
    (∃ t, exec (.fcvt m d ra .ld rm) s = .next t ∧
      DefersX s m d (BitVec.ofInt 64 (clamp (floatValue .f64 x.toNat) (-2 ^ 63) (2 ^ 63 - 1))) t) ∧
    (∃ t, exec (.fcvt m d ra .lud rm) s = .next t ∧
      DefersX s m d (BitVec.ofInt 64 (clamp (floatValue .f64 x.toNat) 0 (2 ^ 64 - 1))) t)

/-- R26, R29, R35: beyond the largest finite value, an unbounded exponent taken, a saturating conversion gives the largest finite value with the sign;
another gives the default NaN in a format without infinity, and ±∞ or the largest finite value as the mode says in the others; ±∞ itself
saturates, or stays, or is the default NaN.
R26: what roundTo makes of m × 2^e as a multiple n of 2^q, for each mode: an exact multiple stays; else the neighbour toward zero,
toward the side of the mode, or the nearest with its tie rule.
R24: a result that is a NaN is the default NaN of its format, in every format, mode and saturation.
R22, R23, R25, R27: a value that a format holds, subnormals, zeros and infinities among them, rounds to its own pattern in every mode. -/
def Obligations.Rounding : Prop :=
  (∀ (neg : Bool) (m d : Nat) (e : Int),
    let n (rm : RM) := roundTo rm neg m e (e + d)
    (∀ rm, m % 2 ^ d = 0 → n rm * 2 ^ d = m) ∧
      (∀ rm, n rm = m / 2 ^ d ∨ (n rm = m / 2 ^ d + 1 ∧ m % 2 ^ d ≠ 0)) ∧
      n .rtz = m / 2 ^ d ∧
      (neg = false → n .rdn = m / 2 ^ d ∧ m ≤ n .rup * 2 ^ d) ∧
      (neg = true → n .rup = m / 2 ^ d ∧ m ≤ n .rdn * 2 ^ d) ∧
      (2 * m ≤ 2 * (n .rne * 2 ^ d) + 2 ^ d ∧ 2 * (n .rne * 2 ^ d) ≤ 2 * m + 2 ^ d) ∧
      (2 * (m % 2 ^ d) = 2 ^ d → n .rne % 2 = 0 ∧ n .rmm = m / 2 ^ d + 1) ∧
      (2 * m ≤ 2 * (n .rmm * 2 ^ d) + 2 ^ d ∧ 2 * (n .rmm * 2 ^ d) ≤ 2 * m + 2 ^ d)) ∧
  (∀ (f : FFmt) (rm : RM) (sat : Bool) (v : FVal),
    f ∈ [FFmt.f64, FFmt.f32, FFmt.bf16, FFmt.e5m2, FFmt.e4m3] →
      (floatValue f (floatRound f rm sat v) = .nan → floatRound f rm sat v = f.nanBits) ∧
      (v = .nan → floatRound f rm sat v = f.nanBits) ∧ floatRound f rm sat v < 2 * f.signBit ∧
      FFmt.f64.nanBits = 0x7ff8000000000000 ∧ FFmt.f32.nanBits = 0x7fc00000 ∧ FFmt.bf16.nanBits = 0x7fc0 ∧
      FFmt.e5m2.nanBits = 0x7e ∧ FFmt.e4m3.nanBits = 0x7f) ∧
  (∀ (f : FFmt) (rm : RM) (bits : Nat),
    f ∈ [FFmt.f64, FFmt.f32, FFmt.bf16, FFmt.e5m2, FFmt.e4m3] → bits < 2 * f.signBit → floatValue f bits ≠ .nan →
      floatRound f rm false (floatValue f bits) = bits) ∧
  (∀ (f : FFmt) (significand : Nat) (q : Int) (rm : RM) (neg : Bool) (m d : Nat),
    (f, significand, q) ∈ [(FFmt.f64, 2 ^ 53 - 1, (971 : Int)), (FFmt.f32, 2 ^ 24 - 1, 104), (FFmt.bf16, 255, 120), (FFmt.e5m2, 7, 13),
      (FFmt.e4m3, 14, 5)] →
      let signedBits (mag : Nat) : Nat := (if neg then f.signBit else 0) + mag
      let inf := (2 ^ f.eBits - 1) * 2 ^ f.mBits
      floatValue f f.maxFinite = .fin false significand q ∧
      (significand < roundTo rm neg m (-d) q →
        floatRound f rm true (.fin neg m (-d)) = signedBits f.maxFinite ∧
        floatRound f rm false (.fin neg m (-d)) =
          if f = .e4m3 then 0x7f
          else signedBits (match rm with
            | .rne | .rmm => inf
            | .rtz => f.maxFinite
            | .rdn => if neg then inf else f.maxFinite
            | .rup => if neg then f.maxFinite else inf)) ∧
      floatRound f rm true (.inf neg) = signedBits f.maxFinite ∧
      floatRound f rm false (.inf neg) = if f = .e4m3 then 0x7f else signedBits inf)

/-! ### Control -/

/-- R83 to R85, R96: B.cond goes to its target or on, pcc losing its tag where the target leaves its representable region; J and JC park
(R70), write their link, and go to their target; a sentry unseals. The link is a sentry for the next instruction, and it and JC's new pcc are
subject to a revocation pass (R107).
R69, R70: J and JC, and with a full list the deferred-result instructions of INT and FLT, leave everything but the thread's parked flag while
their park waits for a value. -/
def Obligations.ControlResults : Prop :=
  (∀ (s : State) (m : Bool) (c : Cond) (d ra rb : Reg) (disp : BitVec 12) (disp20 : BitVec 20),
    let a := readX s ra
    let b := readX s rb
    let p := (myRegs s).pcc
    let x := parkedSlot s
    let link := scrubCap s (myCtx s) (capSetOtype (capSetAddr x.regs.pcc (capAddr x.regs.pcc + 4)) 1)
    let moved (k : Cap) (by_ : W64) : Cap :=
      ⟨k.tag && addrRepresentable (capE k).toNat (capDecode k).1 (capAddr k + by_).toNat, k.img.extractLsb' 64 64 ++ (capAddr k + by_)⟩
    let holds : Prop :=
      match c with
      | .eq => a = b
      | .ne => a ≠ b
      | .lt => a.toInt < b.toInt
      | .ge => b.toInt ≤ a.toInt
      | .ltu => a.toNat < b.toNat
      | .geu => b.toNat ≤ a.toNat
    (∃ t, exec (.bCond m c ra rb disp) s = .next t ∧
      (holds → Retires s (mySlot s) m (myRegs s) (moved p (BitVec.ofInt 64 (4 * disp.toInt))) t) ∧
      (¬holds → Retires s (mySlot s) m (myRegs s) (capSetAddr p (capAddr p + 4)) t)) ∧
    (CanPark s → ∃ t, exec (.j m d disp20) s = .next t ∧
      Retires s x m (regsImmediate x.regs d link)
        (moved x.regs.pcc (BitVec.ofInt 64 (4 * disp20.toInt))) t) ∧
    (CanPark s →
      let v := regsG x.regs ra
      v.tag = true → (capOtype v = 0 ∨ capOtype v = 1) → capHas v Perm.exec = true → (capAddr v).toNat % 4 = 0 →
        ∃ t, exec (.jc m d ra) s = .next t ∧
          Retires s x m (regsImmediate x.regs d link) (scrubCap s (myCtx s) (capSetOtype v 0)) t)) ∧
  (∀ (s : State) (m : Bool) (d ra rb : Reg) (disp20 : BitVec 20),
    (¬CanPark s → exec (.j m d disp20) s = .next (setMySlot s { mySlot s with parked := true }) ∧
      exec (.jc m d ra) s = .next (setMySlot s { mySlot s with parked := true })) ∧
    (¬CanPark s → (mySlot s).regs.pending.length = 16 → ∀ (p : Bool) (rm : RM) (k : Fcvt), ∀ i ∈ [Instr.mul m d ra rb, .mulh m d ra rb,
        .mulhu m d ra rb, .div m d ra rb, .divu m d ra rb, .rem m d ra rb, .remu m d ra rb, .fadd m d ra rb p rm, .fsub m d ra rb p rm,
        .fmul m d ra rb p rm, .fdiv m d ra rb p rm, .fsqrt m d ra p rm, .fmadd m d ra rb p rm, .fmsub m d ra rb p rm, .fmin m d ra rb p,
        .fmax m d ra rb p, .feq m d ra rb p, .flt m d ra rb p, .fle m d ra rb p, .fclass m d ra p, .fcvt m d ra k rm, .fsgnj m d ra rb p,
        .fsgnjAbs m d ra p, .fsgnjNeg m d ra p, .fsgnjX m d ra rb p],
      exec i s = .next (setMySlot s { mySlot s with parked := true })) ∧
    ((mySlot s).regs.pending.length ≠ 16 → (mySlot s).parked = false → CanDefer s) ∧ (CanPark s → (mySlot s).parked = false → CanDefer s))

/-! ### Capabilities -/

/-- R96: a change of the address that stays in the representable region, tag or no tag, leaves the decoded bounds as they are.
R97: encoding rounds outward, and the encoded bounds decode to the bounds returned, at every address from which they were asked. -/
def Obligations.CapabilityFormat : Prop :=
  (∀ (c : Cap) (a : W64),
    addrRepresentable (capE c).toNat (capDecode c).1 a.toNat = true →
      capDecode (capSetAddr c a) = capDecode c ∧ capRepresentable (capSetAddr c a) = true ∧
        (capMove c a).tag = c.tag ∧ capAddr (capMove c a) = a) ∧
  (∀ (c : Cap) (base top : Nat), base ≤ top → top ≤ 2 ^ 64 → base < 2 ^ 64 →
    let x := encodeBounds base top
    x.lo ≤ base ∧ top ≤ x.hi ∧ x.hi ≤ 2 ^ 64 ∧ capDecode (capSetBounds c x (BitVec.ofNat 64 base)) = (x.lo, x.hi) ∧
      capRepresentable (capSetBounds c x (BitVec.ofNat 64 base)) = true ∧ (top - base ≤ 0xefff → x.lo = base ∧ x.hi = top))

/-- R103: what the deriving operations give is untagged, or unsealed with bounds within the source's and permissions among the source's. Within a
program only CBUILD makes a tag, and then within its authority. -/
def Obligations.DerivedWithinSource : Prop :=
  ∀ (c x r : Cap) (len : Nat) (exactly : Bool) (a : W64),
    let within (r c : Cap) : Prop := r.tag = true → c.tag = true ∧ capOtype c = 0 ∧ (capDecode c).1 ≤ (capDecode r).1 ∧
      (capDecode r).2 ≤ (capDecode c).2 ∧ capPerms r &&& ~~~(capPerms c) = 0
    (boundsFrom c len exactly = .ok r → within r c) ∧ within (withAddr c a) c ∧
      (buildFrom c x.img = .ok r → within r c ∧ r = ⟨true, x.img⟩) ∧
      (sentryOf c = .ok r → c.tag = true ∧ capOtype c = 0 ∧ capOtype r = 1 ∧ capDecode r = capDecode c ∧ capPerms r = capPerms c) ∧
      (sealWith c x = .ok r → capOtype c = 0 ∧ r.tag = c.tag ∧ (capOtype r).toNat = (capAddr x).toNat ∧ capHas x Perm.sealing = true ∧
        capDecode r = capDecode c ∧ capPerms r = capPerms c) ∧
      (unsealWith c x = .ok r → capOtype r = 0 ∧ r.tag = c.tag ∧ (capOtype c).toNat = (capAddr x).toNat ∧ capHas x Perm.unseal = true ∧
        capDecode r = capDecode c ∧ capPerms r &&& ~~~(capPerms c) = 0)

/-- R111, R112, R114, R118 to R120: the capability instructions that never fault. A capability that one writes is subject to a revocation
pass (R107). -/
def Obligations.CapabilityResults : Prop :=
  ∀ (s : State) (m : Bool) (d ra rb : Reg) (imm : BitVec 15),
    let a := readG s ra
    let b := readG s rb
    let scrubbed (c : Cap) : Cap := scrubCap s (myCtx s) c
    let moved (a : Cap) (x : W64) : Cap :=
      ⟨a.tag && capOtype a == 0 && addrRepresentable (capE a).toNat (capDecode a).1 x.toNat, a.img.extractLsb' 64 64 ++ x⟩
    (∃ t, exec (.cgetaddr m d ra) s = .next t ∧ WritesX s m d (capAddr a) t) ∧
    (∃ t, exec (.cgetbase m d ra) s = .next t ∧ WritesX s m d (BitVec.ofNat 64 (capDecode a).1) t) ∧
    (∃ t, exec (.cgetlen m d ra) s = .next t ∧
      WritesX s m d (if (capDecode a).2 - (capDecode a).1 < 2 ^ 64 then BitVec.ofNat 64 ((capDecode a).2 - (capDecode a).1)
        else BitVec.allOnes 64) t) ∧
    (∃ t, exec (.cgetperm m d ra) s = .next t ∧ WritesX s m d (BitVec.ofNat 64 (capPerms a).toNat) t) ∧
    (∃ t, exec (.cgettype m d ra) s = .next t ∧ WritesX s m d (BitVec.ofNat 64 (capOtype a).toNat) t) ∧
    (∃ t, exec (.cgettag m d ra) s = .next t ∧ WritesX s m d (if a.tag = true then 1 else 0) t) ∧
    (∃ t, exec (.csetaddr m d ra rb) s = .next t ∧ Writes s m d (scrubbed (moved a (capAddr b))) t) ∧
    (∃ t, exec (.cincaddr m d ra rb) s = .next t ∧ Writes s m d (scrubbed (moved a (capAddr a + capAddr b))) t) ∧
    (∃ t, exec (.cincaddri m d ra imm) s = .next t ∧
      Writes s m d (scrubbed (moved a (BitVec.ofInt 64 ((capAddr a).toInt + imm.toInt)))) t) ∧
    (∃ t c, exec (.candperm m d ra rb) s = .next t ∧ Writes s m d (scrubbed c) t ∧ c.tag = (a.tag && capOtype a == 0) ∧
      capPerms c = capPerms a &&& (capAddr b).setWidth 12 ∧ c.img.setWidth 116 = a.img.setWidth 116) ∧
    (∃ t, exec (.cclrtag m d ra) s = .next t ∧ Writes s m d ⟨false, a.img⟩ t) ∧
    (∃ t, exec (.csubset m d ra rb) s = .next t ∧
      WritesX s m d (BitVec.ofNat 64 ((if a.tag = b.tag then 1 else 0) +
        (if (capDecode a).1 ≤ (capDecode b).1 ∧ (capDecode b).2 ≤ (capDecode a).2 then 2 else 0) +
        (if capPerms b &&& ~~~(capPerms a) = 0 then 4 else 0))) t) ∧
    (∃ t, exec (.csame m d ra rb) s = .next t ∧ WritesX s m d (if a = b then 1 else 0) t) ∧
    (∃ t e, exec (.cfitexp m d ra) s = .next t ∧ WritesX s m d (BitVec.ofNat 64 e) t ∧
      ((e ≤ 48 ∧ ((capAddr a).toNat + 2 ^ e - 1) / 2 ^ e ≤ 0xefff ∧ ∀ i < e, 0xefff < ((capAddr a).toNat + 2 ^ i - 1) / 2 ^ i) ∨
        (e = 63 ∧ ∀ i ≤ 48, 0xefff < ((capAddr a).toNat + 2 ^ i - 1) / 2 ^ i)) ∧
      ∃ u n, exec (.cfitlen m d ra) s = .next u ∧ WritesX s m d (BitVec.ofNat 64 n) u ∧
        (e ≤ 48 → n % 2 ^ e = 0 ∧ (capAddr a).toNat ≤ n ∧ n < (capAddr a).toNat + 2 ^ e) ∧ (e = 63 → n = 2 ^ 64 - 1)) ∧
    (∃ t, exec (.cmov m d ra) s = .next t ∧ Writes s m d (scrubbed a) t)

/-- R113, R115 to R117: the capability instructions that may fault, where they do not: what they write. -/
def Obligations.CapabilityDerivations : Prop :=
  ∀ (s : State) (m : Bool) (d ra rb : Reg) (imm : BitVec 15),
    let a := readG s ra
    let b := readG s rb
    let lo := (capAddr a).toNat
    let valid := a.tag = true ∧ capOtype a = 0
    let scrubbed (c : Cap) : Cap := scrubCap s (myCtx s) c
    let bounds (len : Nat) (exactly : Bool) (o : Outcome) : Prop :=
      let x := encodeBounds lo (min (lo + len) (2 ^ 64))
      (valid → lo + len ≤ 2 ^ 64 ∧ (capDecode a).1 ≤ x.lo ∧ x.hi ≤ (capDecode a).2 ∧ (exactly = true → x.lo = lo ∧ x.hi = lo + len)) →
        ∃ t c, o = .next t ∧ Writes s m d (scrubbed c) t ∧ (c.tag = true ↔ valid) ∧ capDecode c = (x.lo, x.hi) ∧ capAddr c = capAddr a ∧
          capPerms c = capPerms a ∧ capOtype c = capOtype a
    let authority (perm : Nat) : Prop :=
      b.tag = true ∧ capOtype b = 0 ∧ capHas b perm = true ∧ (capDecode b).1 ≤ (capAddr b).toNat ∧ (capAddr b).toNat < (capDecode b).2
    bounds (capAddr b).toNat false (exec (.csetbnds m d ra rb) s) ∧ bounds (capAddr b).toNat true (exec (.csetbndse m d ra rb) s) ∧
    bounds imm.toNat false (exec (.csetbndsi m d ra imm) s) ∧
    (authority Perm.sealing → 16 ≤ (capAddr b).toNat → (capAddr b).toNat ≤ 4095 → capOtype a = 0 →
      ∃ t, exec (.cseal m d ra rb) s = .next t ∧ Writes s m d (scrubbed (capSetOtype a ((capAddr b).setWidth 12))) t) ∧
    (authority Perm.unseal → 16 ≤ (capOtype a).toNat → (capOtype a).toNat = (capAddr b).toNat →
      ∃ t c, exec (.cunseal m d ra rb) s = .next t ∧ Writes s m d (scrubbed c) t ∧ c.tag = a.tag ∧ capOtype c = 0 ∧
        capHas c Perm.global = (capHas a Perm.global && capHas b Perm.global) ∧
        (capPerms c).setWidth 11 = (capPerms a).setWidth 11 ∧ c.img.setWidth 104 = a.img.setWidth 104) ∧
    (a.tag = true → capOtype a = 0 → capHas a Perm.exec = true →
      ∃ t, exec (.csealent m d ra) s = .next t ∧ Writes s m d (scrubbed (capSetOtype a 1)) t) ∧
    (a.tag = true → capOtype a = 0 → (capOtype b = 0 ∨ capOtype b = 1) → capPerms b &&& ~~~(capPerms a) = 0 →
      (capOtype b = 1 → capHas b Perm.exec = true) → capRsv b = 0 → (capT b - capB b).toNat ≤ 0xefff →
      (capDecode b).2 ≤ 2 ^ 64 → (capDecode a).1 ≤ (capDecode b).1 → (capDecode b).2 ≤ (capDecode a).2 → capRepresentable b = true →
        ∃ t, exec (.cbuild m d ra rb) s = .next t ∧ Writes s m d (scrubbed ⟨true, b.img⟩) t)

/-- R85, R113, R115 to R117: where a capability instruction or JC faults, and with which code; the first failing check decides. -/
def Obligations.CapabilityFaults : Prop :=
  ∀ (s : State) (m : Bool) (d ra rb : Reg) (imm : BitVec 15),
    let a := readG s ra
    let b := readG s rb
    let x := encodeBounds (capAddr a).toNat ((capAddr a).toNat + (capAddr b).toNat)
    let raises (i : Instr) (code : Byte) : Prop := exec i s = .next (raise s i code 0)
    (a.tag = true → capOtype a = 0 → (2 ^ 64 < (capAddr a).toNat + (capAddr b).toNat ∨ x.lo < (capDecode a).1 ∨ (capDecode a).2 < x.hi) →
      raises (.csetbnds m d ra rb) Code.capBounds ∧ raises (.csetbndse m d ra rb) Code.capBounds) ∧
    (a.tag = true → capOtype a = 0 → (x.lo ≠ (capAddr a).toNat ∨ x.hi ≠ (capAddr a).toNat + (capAddr b).toNat) →
      raises (.csetbndse m d ra rb) Code.capBounds) ∧
    (let y := encodeBounds (capAddr a).toNat ((capAddr a).toNat + imm.toNat)
     a.tag = true → capOtype a = 0 → (2 ^ 64 < (capAddr a).toNat + imm.toNat ∨ y.lo < (capDecode a).1 ∨ (capDecode a).2 < y.hi) →
       raises (.csetbndsi m d ra imm) Code.capBounds) ∧
    (b.tag = false → raises (.cseal m d ra rb) Code.capTag ∧ raises (.cunseal m d ra rb) Code.capTag) ∧
    (b.tag = true → capOtype b ≠ 0 → raises (.cseal m d ra rb) Code.capSeal ∧ raises (.cunseal m d ra rb) Code.capSeal) ∧
    (b.tag = true → capOtype b = 0 → capHas b Perm.sealing = false → raises (.cseal m d ra rb) Code.capPerm) ∧
    (b.tag = true → capOtype b = 0 → capHas b Perm.unseal = false → raises (.cunseal m d ra rb) Code.capPerm) ∧
    (let outside := (capAddr b).toNat < (capDecode b).1 ∨ (capDecode b).2 ≤ (capAddr b).toNat
     b.tag = true → capOtype b = 0 →
       (capHas b Perm.sealing = true →
         (outside → raises (.cseal m d ra rb) Code.capBounds) ∧
         (¬outside → ((capAddr b).toNat < 16 ∨ 4095 < (capAddr b).toNat) → raises (.cseal m d ra rb) Code.capType) ∧
         (¬outside → 16 ≤ (capAddr b).toNat → (capAddr b).toNat ≤ 4095 → capOtype a ≠ 0 → raises (.cseal m d ra rb) Code.capSeal)) ∧
       (capHas b Perm.unseal = true →
         (outside → raises (.cunseal m d ra rb) Code.capBounds) ∧
         (¬outside → ((capOtype a).toNat < 16 ∨ (capOtype a).toNat ≠ (capAddr b).toNat) → raises (.cunseal m d ra rb) Code.capType))) ∧
    (a.tag = false → raises (.csealent m d ra) Code.capTag ∧ raises (.cbuild m d ra rb) Code.capTag) ∧
    (a.tag = true → capOtype a ≠ 0 → raises (.csealent m d ra) Code.capSeal ∧ raises (.cbuild m d ra rb) Code.capSeal) ∧
    (a.tag = true → capOtype a = 0 → capHas a Perm.exec = false → raises (.csealent m d ra) Code.capPerm) ∧
    (a.tag = true → capOtype a = 0 → capOtype b ≠ 0 → capOtype b ≠ 1 → raises (.cbuild m d ra rb) Code.capType) ∧
    (a.tag = true → capOtype a = 0 → (capOtype b = 0 ∨ capOtype b = 1) → capPerms b &&& ~~~(capPerms a) ≠ 0 →
      raises (.cbuild m d ra rb) Code.capPerm) ∧
    (a.tag = true → capOtype a = 0 → capPerms b &&& ~~~(capPerms a) = 0 → capOtype b = 1 → capHas b Perm.exec = false →
      raises (.cbuild m d ra rb) Code.capPerm) ∧
    (a.tag = true → capOtype a = 0 → (capOtype b = 0 ∨ capOtype b = 1) → capPerms b &&& ~~~(capPerms a) = 0 →
      (capOtype b = 1 → capHas b Perm.exec = true) →
      (capRsv b ≠ 0 ∨ 0xefff < (capT b - capB b).toNat ∨ 2 ^ 64 < (capDecode b).2 ∨ (capDecode b).1 < (capDecode a).1 ∨
        (capDecode a).2 < (capDecode b).2 ∨ capRepresentable b = false) →
      raises (.cbuild m d ra rb) Code.capBounds) ∧
    (CanPark s →
      let t := setMySlot s (parkedSlot s)
      let v := regsG (parkedSlot s).regs ra
      let raisesJc (code : Byte) : Prop := exec (.jc m d ra) s = .next (raise t (.jc m d ra) code 0)
      (v.tag = false → raisesJc Code.capTag) ∧
        (v.tag = true → capOtype v ≠ 0 → capOtype v ≠ 1 → raisesJc Code.capSeal) ∧
        (v.tag = true → (capOtype v = 0 ∨ capOtype v = 1) → capHas v Perm.exec = false → raisesJc Code.capPerm) ∧
        (v.tag = true → (capOtype v = 0 ∨ capOtype v = 1) → capHas v Perm.exec = true → (capAddr v).toNat % 4 ≠ 0 → raisesJc Code.align))

/-! ### Memory -/

/-- R121, R143, R155: a scalar load whose parts are cached and that need not wait defers the n bytes that the thread reads at its
address, sign- or zero-extended; what hits changes, it changes in the chunk and the cache's recency, and no byte that the
thread reads. R301, R322: a miss whose fill evicts nothing brings the line and leaves memory and every other line. An access
that waits, or whose fill squashes its own chunk (log entry 5), is outside the hypotheses. -/
def Obligations.ScalarLoads : Prop :=
  ∀ (s : State) (m : Bool) (d ra : Reg) (off : BitVec 15), s.Inv → CanDefer s →
    let t := setMySlot s (deferSlot s)
    let c := readG t ra
    let a := effAddr c off
    let loads (i : Instr) (n : Nat) (ext : Nat → W64) : Prop :=
      ∀ segs, dataCheck t c a n [Perm.load] false .scalar true = .ok segs → anyUncached segs = false → accessWaits t segs = false →
        ∃ u v w, exec i s = .next w ∧
          Retires u (mySlot u) m (regsDefer (myRegs t) (.g d (some (capInt (ext v))))) (nextPcc (myRegs t)) w ∧
          (segs.length ≤ 1 → Seen t a n v) ∧ (∀ g, segs = [g] → EasyMiss t g → Fills t u g) ∧
          (AllHit t segs → Seen t a n v ∧ SeesSame s w ∧ ∃ k, Hits t u k ∧ readChunk t segs (mySlot t).cur k)
    loads (.lb m d ra off) 1 (fun v => (BitVec.ofNat 8 v).signExtend 64) ∧
    loads (.lbu m d ra off) 1 (fun v => (BitVec.ofNat 8 v).setWidth 64) ∧
    loads (.lh m d ra off) 2 (fun v => (BitVec.ofNat 16 v).signExtend 64) ∧
    loads (.lhu m d ra off) 2 (fun v => (BitVec.ofNat 16 v).setWidth 64) ∧
    loads (.lw m d ra off) 4 (fun v => (BitVec.ofNat 32 v).signExtend 64) ∧
    loads (.lwu m d ra off) 4 (fun v => (BitVec.ofNat 32 v).setWidth 64) ∧
    loads (.ld m d ra off) 8 (fun v => BitVec.ofNat 64 v)

/-- R122, R140, R154: a scalar store whose parts are cached writes the low n bytes of gs to its address, in its chunk or, where
the boundary falls before it, in the next; the registers stay, and the thread reads every other byte as before. R301, R322: a miss whose fill
evicts nothing brings the line and leaves memory and every other line. An access that waits, or whose fill squashes its own chunk (log
entry 5), is outside the hypotheses. -/
def Obligations.ScalarStores : Prop :=
  ∀ (s : State) (m : Bool) (src ra : Reg) (off : BitVec 15), s.Inv →
    let c := readG s ra
    let a := effAddr c off
    let stores (i : Instr) (n : Nat) : Prop :=
      ∀ segs t, dataCheck s c a n [Perm.store] false .scalar false = .ok segs → anyUncached segs = false → StoresIn s segs true t →
        let v := (readX s src).toNat
        ∃ u w, exec i s = .next w ∧ Retires u (mySlot u) m (myRegs s) (nextPcc (myRegs s)) w ∧
          (∀ g, segs = [g] → ∀ j < n, bufferedByte (mySlot w) (segNc s g) (g.p.ia / 128) (g.p.ia % 128 + j) = some (byteOf v j)) ∧
          (∀ g, segs = [g] → EasyMiss t g → Fills t u g) ∧
          (AllHit s segs → SeesStored s w (splitValue v segs) false ∧ ∃ k, Hits t u k ∧ writtenChunk t segs (mySlot t).cur k)
    stores (.sb m src ra off) 1 ∧ stores (.sh m src ra off) 2 ∧ stores (.sw m src ra off) 4 ∧ stores (.sd m src ra off) 8

/-- R104, R107, R123, R124: LC defers the 16 bytes and the tag that the thread finds, the tag only through LOAD_CAP; SC writes 16 bytes and
the tag, which memory of the host does not keep (R100). A miss fills as a load's or a store's does (R301, R322). Both are subject to a revocation pass. -/
def Obligations.CapabilityLoadStore : Prop :=
  ∀ (s : State) (m : Bool) (d src ra : Reg) (off : BitVec 15), s.Inv →
    (CanDefer s →
      let t := setMySlot s (deferSlot s)
      let c := readG t ra
      let a := effAddr c off
      ∀ segs, dataCheck t c a 16 [Perm.load] true .never true = .ok segs → accessWaits t segs = false →
        ∃ u v tag w, exec (.lc m d ra off) s = .next w ∧
          Retires u (mySlot u) m
            (regsDefer (myRegs t) (.g d (some (scrubCap t (myCtx t) ⟨tag && capHas c Perm.loadCap, BitVec.ofNat 128 v⟩))))
            (nextPcc (myRegs t)) w ∧
          Seen t a 16 v ∧ seenTag t a = some tag ∧ (∀ g, segs = [g] → EasyMiss t g → Fills t u g) ∧
          (AllHit t segs → SeesSame s w ∧ ∃ k, Hits t u k ∧ readChunk t segs (mySlot t).cur k)) ∧
    (let c := readG s ra
     let a := effAddr c off
     let x := readG s src
     checkAccess c a 16 Perm.store true = none → (x.tag = true → capHas c Perm.storeCap = true) →
      (x.tag = true → capHas x Perm.global = false → capHas c Perm.storeLocal = true) →
      ∀ segs t, dataCheck s c a 16 [] false .never false = .ok segs → StoresIn s segs true t →
        let k := scrubCap s (myCtx s) x
        ∃ u w g, exec (.sc m src ra off) s = .next w ∧ segs = [g] ∧ Retires u (mySlot u) m (myRegs s) (nextPcc (myRegs s)) w ∧
          (∀ j < 16, bufferedByte (mySlot w) (segNc s g) (g.p.ia / 128) (g.p.ia % 128 + j) = some (byteOf k.img.toNat j)) ∧
          (EasyMiss t g → Fills t u g) ∧
          (AllHit s segs → SeesStored s w [(g, k.img.toNat)] (k.tag && !isHost g.p.loc) ∧
            ∃ j, Hits t u j ∧ writtenChunk t segs (mySlot t).cur j))

/-- R132, R133: AMO defers the old value and stores the operation's result; CAS stores gb where gd holds the old value. R134: CASC
compares 16 bytes and their tag with gd, stores gb where they agree, and defers what it found; the line joins the write
signature either way (R143). CASC's order of checks is the model's choice (log entry 32). -/
def Obligations.AtomicInstructions : Prop :=
  (∀ (s : State) (m : Bool) (d ra rb : Reg) (op : AmoOp) (dbl : Bool), s.Inv → CanDefer s →
    let t := setMySlot s (deferSlot s)
    let c := readG t ra
    let n := if dbl then 8 else 4
    let a := (capAddr c).toNat
    let x := (readX t rb).toNat % 2 ^ (8 * n)
    let signed (y : Nat) : Int := if y < 2 ^ (8 * n - 1) then (y : Int) else (y : Int) - 2 ^ (8 * n)
    let result (old : Nat) : Nat :=
      match op with
      | .add => (old + x) % 2 ^ (8 * n)
      | .and => Nat.land old x
      | .or => Nat.lor old x
      | .xor => Nat.xor old x
      | .min => if signed old ≤ signed x then old else x
      | .max => if signed old ≤ signed x then x else old
      | .minu => min old x
      | .maxu => max old x
      | .swap => x
    let loaded (old : Nat) : Cap := capInt (if dbl then BitVec.ofNat 64 old else (BitVec.ofNat 32 old).signExtend 64)
    checkAccess c a n Perm.load false = none → capHas c Perm.store = true → a % n = 0 →
      ∀ segs, dataCheck t c a n [] false .never true = .ok segs →
        (∀ t', StoresIn t segs true t' →
          ∃ u old w g, exec (.amo m d ra rb op dbl) s = .next w ∧ segs = [g] ∧ Seen t' a n old ∧
            Retires u (mySlot u) m (regsDefer (myRegs t) (.g d (some (loaded old)))) (nextPcc (myRegs t)) w ∧
            (∀ j < n, bufferedByte (mySlot w) (segNc s g) (g.p.ia / 128) (g.p.ia % 128 + j) = some (byteOf (result old) j)) ∧
            (AllHit t segs → SeesStored s w [(g, result old)] false ∧ ∃ k, Hits t' u k)) ∧
        (∃ old, Seen t a n old ∧
          ((readX t d).toNat % 2 ^ (8 * n) = old → ∀ t', StoresIn t segs true t' →
            ∃ u w g, exec (.cas m d ra rb dbl) s = .next w ∧ segs = [g] ∧
              Retires u (mySlot u) m (regsDefer (myRegs t) (.g d (some (loaded old)))) (nextPcc (myRegs t)) w ∧
              (∀ j < n, bufferedByte (mySlot w) (segNc s g) (g.p.ia / 128) (g.p.ia % 128 + j) = some (byteOf x j)) ∧
              (AllHit t segs → SeesStored s w [(g, x)] false ∧ ∃ k, Hits t' u k)) ∧
          ((readX t d).toNat % 2 ^ (8 * n) ≠ old → accessWaits t segs = false →
            ∃ u w, exec (.cas m d ra rb dbl) s = .next w ∧
              Retires u (mySlot u) m (regsDefer (myRegs t) (.g d (some (loaded old)))) (nextPcc (myRegs t)) w ∧
              (AllHit t segs → SeesSame s w ∧ ∃ k, Hits t u k ∧ readChunk t segs (mySlot t).cur k)))) ∧
  (∀ (s : State) (m : Bool) (d ra rb : Reg), s.Inv → CanDefer s →
    let t := setMySlot s (deferSlot s)
    let c := readG t ra
    let a := (capAddr c).toNat
    let x := readG t rb
    let k := scrubCap t (myCtx t) x
    checkAccess c a 16 Perm.load false = none → capHas c Perm.store = true → a % 16 = 0 →
      (x.tag = true → capHas c Perm.storeCap = true) → (x.tag = true → capHas x Perm.global = false → capHas c Perm.storeLocal = true) →
      ∀ segs t', dataCheck t c a 16 [] false .never true = .ok segs → StoresIn t segs true t' →
        ∃ u v tag w g, exec (.casc m d ra rb) s = .next w ∧ segs = [g] ∧ Seen t' a 16 v ∧ seenTag t' a = some tag ∧
          Retires u (mySlot u) m
            (regsDefer (myRegs t) (.g d (some (scrubCap t (myCtx t) ⟨tag && capHas c Perm.loadCap, BitVec.ofNat 128 v⟩))))
            (nextPcc (myRegs t)) w ∧
          (readG t d = ⟨tag, BitVec.ofNat 128 v⟩ →
            (∀ j < 16, bufferedByte (mySlot w) (segNc s g) (g.p.ia / 128) (g.p.ia % 128 + j) = some (byteOf k.img.toNat j)) ∧
            (AllHit t segs → SeesStored s w [(g, k.img.toNat)] (k.tag && !isHost g.p.loc) ∧ ∃ j, Hits t' u j)) ∧
          (readG t d ≠ ⟨tag, BitVec.ofNat 128 v⟩ → AllHit t segs → SeesSame s w ∧ ∃ j, Hits t' u j ∧
            j = { (mySlot t').cur with reads := j.reads, writes := j.writes, rs := j.rs, pages := j.pages, misses := j.misses } ∧
            (segNc s g = false → g.p.ia / 128 ∈ j.reads ∧ g.p.ia / 128 ∈ j.writes)))

/-- R127 to R129: PF never faults; it brings its line in where the set has a free way and the fill evicts nothing (R301, R322), and waits as a
load's miss waits. CLEAN and FLUSH join what starts at the commit; DISCARD drops the chunk's own stores to the line, and the copy with its
commit, and a coherent line joins the write signature. That a PF whose check fails does nothing but its walk is the model's choice,
notes/assumptions/13.md. -/
def Obligations.CacheMaintenance : Prop :=
  ∀ (s : State) (m : Bool) (ra : Reg) (off : BitVec 15), s.Inv →
    let c := readG s ra
    let a := effAddr c off
    let x := mySlot s
    let after (k : Chunk) (w : State) : Prop := Retires s { x with cur := k } m (myRegs s) (nextPcc (myRegs s)) w
    (∃ w, exec (.pf m ra off) s = .next w ∧
      (∀ e, dataCheck s c a 1 [Perm.load] false .maintenance true = .error e →
        ∃ u, Passes u m w ∧ u = { s with tlb := u.tlb, dies := u.dies } ∧ ∀ d, dieAt u d = { dieAt s d with walks := (dieAt u d).walks }) ∧
      (∀ segs, dataCheck s c a 1 [Perm.load] false .maintenance true = .ok segs → anyUncached segs = true → Passes s m w) ∧
      (∀ segs, dataCheck s c a 1 [Perm.load] false .maintenance true = .ok segs → anyUncached segs = false → accessWaits s segs = true →
        w = askHost s segs) ∧
      (∀ segs, dataCheck s c a 1 [Perm.load] false .maintenance true = .ok segs → anyUncached segs = false → accessWaits s segs = false →
        ∃ u, Retires u (mySlot u) m (myRegs u) (nextPcc (myRegs u)) w ∧ (AllHit s segs → Hits s u x.cur ∧ SeesSame s w) ∧
          ∀ g, segs = [g] → EasyMiss s g → Fills s u g ∧ mySlot u = x ∧ (l1Find (myCore w) (g.p.ia / 128) (segNc s g)).isSome = true)) ∧
    (∀ segs, dataCheck s c a 1 [Perm.load] false .maintenance false = .ok segs →
      ∃ g u w, segs = [g] ∧ exec (.clean m ra off) s = .next u ∧ exec (.flush m ra off) s = .next w ∧
        (g.p.uncached = true → Passes s m u ∧ Passes s m w) ∧
        (g.p.uncached = false →
          after { x.cur with cmos := x.cur.cmos ++ [⟨false, segNc s g, g.p.ia / 128, (myCtx s).toNat⟩] } u ∧
          after { x.cur with cmos := x.cur.cmos ++ [⟨true, segNc s g, g.p.ia / 128, (myCtx s).toNat⟩] } w)) ∧
    (∀ segs, dataCheck s c (a / 128 * 128) 128 [Perm.store] false .maintenance false = .ok segs →
      ∃ g, segs = [g] ∧
        (g.p.uncached = true → ∃ w, exec (.discard m ra off) s = .next w ∧ Passes s m w) ∧
        (g.p.uncached = false → segNc s g = true → StoresIn s segs false s → ∃ w, exec (.discard m ra off) s = .next w ∧
          after { x.cur with nws := Tbl.erase x.cur.nws (g.p.ia / 128), ncDiscards := NatSet.insert x.cur.ncDiscards (g.p.ia / 128) } w) ∧
        (g.p.uncached = false → segNc s g = false → StoresIn s segs false s → AllHit s segs →
          (privateOwner s g.p = none ∨ privateOwner s g.p = some (meCore s)) → ∃ u w k,
          exec (.discard m ra off) s = .next w ∧ Hits s u k ∧ Retires u (mySlot u) m (myRegs s) (nextPcc (myRegs s)) w ∧
          k = { x.cur with ws := Tbl.erase x.cur.ws (g.p.ia / 128), discards := NatSet.insert x.cur.discards (g.p.ia / 128),
                           writes := NatSet.insert x.cur.writes (g.p.ia / 128), pages := k.pages }) ∧
        (g.p.uncached = false → segNc s g = false → ∀ t, StoresIn s segs false t → ∃ u w, exec (.discard m ra off) s = .next w ∧
          Retires u (mySlot u) m (myRegs s) (nextPcc (myRegs s)) w ∧
          g.p.ia / 128 ∈ (mySlot u).cur.discards ∧ g.p.ia / 128 ∈ (mySlot u).cur.writes ∧
          (∀ o, privateOwner t g.p = some o → o ≠ meCore t → entryOf g.p ∈ u.shared)))

/-- R98, R109: the first check that fails decides an access's fault, and nothing of the access takes place; the walks it made are counted
(R370). R121, R122, R126, R132 to R134, R346: of a scalar load or store the order is the capability (tag, seal, permission, bounds), the
translation, the alignment of an uncached target, which is checked after the park (log entry 57), and for a load poison; of an atomic the
LOAD check, STORE, the alignment, the translation, an uncached target, and poison.
R169: a vector access checks every active element before it accesses any, in the order TAG, SEAL, PERM, BOUNDS, ALIGN, MAP, POISON, and the
information word holds the failing set, and for a MAPFAULT the cause of its lowest element. -/
def Obligations.AccessFaults : Prop :=
  (∀ (s : State) (m : Bool) (d ra rb : Reg) (off : BitVec 15) (op : AmoOp) (dbl : Bool),
    let t := setMySlot s (deferSlot s)
    let fails (c : Cap) (a n perm : Nat) (f : Byte) : Prop :=
      f = (if c.tag = false then Code.capTag else if capOtype c ≠ 0 then Code.capSeal else if capHas c perm = false then Code.capPerm
        else Code.capBounds) ∧
      (c.tag = false ∨ capOtype c ≠ 0 ∨ capHas c perm = false ∨ a < (capDecode c).1 ∨ (capDecode c).2 < a + n)
    let stores : List (Instr × Nat) := [(.sb m d ra off, 1), (.sh m d ra off, 2), (.sw m d ra off, 4), (.sd m d ra off, 8)]
    let loads : List (Instr × Nat) := [(.lb m d ra off, 1), (.lbu m d ra off, 1), (.lh m d ra off, 2), (.lhu m d ra off, 2),
      (.lw m d ra off, 4), (.lwu m d ra off, 4), (.ld m d ra off, 8)]
    let atomics : List (Instr × Nat) := [(.amo m d ra rb op dbl, if dbl then 8 else 4), (.cas m d ra rb dbl, if dbl then 8 else 4)]
    let parts (s : State) (a n : Nat) := transParts s (myCtx s) (.core (meCore s)) (lineParts a n (n / 128 + 2))
    (∀ i ∈ stores, ∀ f, fails (readG s ra) (effAddr (readG s ra) off) i.2 Perm.store f →
      exec i.1 s = .next (raise s i.1 f 0)) ∧
    (∀ i ∈ loads, ∀ f, CanDefer s → fails (readG t ra) (effAddr (readG t ra) off) i.2 Perm.load f →
      exec i.1 s = .next (raise t i.1 f 0)) ∧
    (∀ i ∈ stores, ∀ cause ia, checkAccess (readG s ra) (effAddr (readG s ra) off) i.2 Perm.store false = none →
      parts s (effAddr (readG s ra) off) i.2 = .error (cause, ia) →
      exec i.1 s = .next (raise (walked s none (effAddr (readG s ra) off) i.2) i.1 Code.mapFault (BitVec.ofNat 64 (cause * 2 ^ 60 + ia)))) ∧
    (∀ i ∈ loads, ∀ cause ia, CanDefer s → checkAccess (readG t ra) (effAddr (readG t ra) off) i.2 Perm.load false = none →
      parts t (effAddr (readG t ra) off) i.2 = .error (cause, ia) →
      exec i.1 s = .next (raise (walked t none (effAddr (readG t ra) off) i.2) i.1 Code.mapFault (BitVec.ofNat 64 (cause * 2 ^ 60 + ia)))) ∧
    (∀ i ∈ loads, ∀ l, CanDefer s → checkAccess (readG t ra) (effAddr (readG t ra) off) i.2 Perm.load false = none →
      parts t (effAddr (readG t ra) off) i.2 = .ok l → (∀ g ∈ placesOf l, g.p.uncached = false) →
      ((placesOf l).length ≠ l.length ∨
        ∃ g ∈ placesOf l, segPoisoned t (mySlot t) (segNc t g) g = true ∨ segLost t g = true) →
      exec i.1 s = .next (raise (walked t none (effAddr (readG t ra) off) i.2) i.1 Code.poison 0)) ∧
    (let p := setMySlot s (parkedSlot s)
     let away (s : State) (n : Nat) : Prop :=
       checkAccess (readG s ra) (effAddr (readG s ra) off) n Perm.store false = none ∧ effAddr (readG s ra) off % n ≠ 0 ∧
         ∃ l, parts s (effAddr (readG s ra) off) n = .ok l ∧ ∃ g ∈ placesOf l, g.p.uncached = true
     ∀ i ∈ stores, away s i.2 →
       (CanPark s → away p i.2 → exec i.1 s = .next (raise (walked p none (effAddr (readG p ra) off) i.2) i.1 Code.align 0)) ∧
       (¬CanPark s → exec i.1 s = .next p)) ∧
    (∀ a, (readG s ra).tag = true → capOtype (readG s ra) = 0 → capHas (readG s ra) Perm.store = true →
      effAddr (readG s ra) off = a → (capDecode (readG s ra)).1 ≤ a → a + 16 ≤ (capDecode (readG s ra)).2 → a % 16 ≠ 0 →
      exec (.sc m d ra off) s = .next (raise s (.sc m d ra off) Code.align 0)) ∧
    (CanDefer s → ∀ i ∈ (.casc m d ra rb, 16) :: atomics,
      let c := readG t ra
      let a := (capAddr c).toNat
      (∀ f, fails c a i.2 Perm.load f → exec i.1 s = .next (raise t i.1 f 0)) ∧
      (checkAccess c a i.2 Perm.load false = none →
        (capHas c Perm.store = false → exec i.1 s = .next (raise t i.1 Code.capPerm 0)) ∧
        (capHas c Perm.store = true → a % i.2 ≠ 0 → exec i.1 s = .next (raise t i.1 Code.align 0)))) ∧
    (CanDefer s → ∀ i ∈ atomics,
      let c := readG t ra
      let a := (capAddr c).toNat
      checkAccess c a i.2 Perm.load false = none → capHas c Perm.store = true → a % i.2 = 0 →
        (∀ cause ia, transVa t (myCtx t) (.core (meCore t)) a = .fault cause ia →
          exec i.1 s = .next (raise (walked t none a i.2) i.1 Code.mapFault (BitVec.ofNat 64 (cause * 2 ^ 60 + ia)))) ∧
        (∀ p, transVa t (myCtx t) (.core (meCore t)) a = .ok p →
          let g : Seg := ⟨a, i.2, p⟩
          (p.uncached = true →
            exec i.1 s = .next (raise (walked t none a i.2) i.1 Code.mapFault (BitVec.ofNat 64 (6 * 2 ^ 60 + p.ia)))) ∧
          (p.uncached = false → segPoisoned t (mySlot t) (segNc t g) g = true ∨ segLost t g = true →
            exec i.1 s = .next (raise (walked t none a i.2) i.1 Code.poison 0))))) ∧
  (∀ (s : State) (m : Bool) (v ra rb : Reg) (t : ITy) (k : KReg),
    let faulting (i : Instr) (s q : State) (w n perm : Nat) (reading : Bool) (addr : Nat → Nat) : Prop :=
      let c := regsG (myRegs q) ra
      let on (j : Nat) : Prop := j < n ∧ (regsK (myRegs q) k).getLsbD j = true
      let gives (code : Byte) (bad : Nat → Prop) (cause : Nat) : Prop :=
        ∃ u info, exec i s = .next (raise u i code (BitVec.ofNat 64 (cause * 2 ^ 60 + info))) ∧ info < 2 ^ 16 ∧
          (∀ j, info.testBit j = true ↔ on j ∧ bad j) ∧ u = { q with tlb := u.tlb, dies := u.dies } ∧
          (code ≠ Code.mapFault → code ≠ Code.poison → u = q)
      let outside (j : Nat) : Prop := addr j < (capDecode c).1 ∨ (capDecode c).2 < addr j + w / 8
      let cause (j : Nat) := laneCause q (addr j) (w / 8)
      (∃ j, on j) →
        (c.tag = false → gives Code.capTag (fun _ => True) 0) ∧
        (c.tag = true → capOtype c ≠ 0 → gives Code.capSeal (fun _ => True) 0) ∧
        (c.tag = true → capOtype c = 0 → capHas c perm = false → gives Code.capPerm (fun _ => True) 0) ∧
        (c.tag = true → capOtype c = 0 → capHas c perm = true →
          ((∃ j, on j ∧ outside j) → gives Code.capBounds outside 0) ∧
          ((∀ j, on j → ¬outside j) →
            ((∃ j, on j ∧ addr j % (w / 8) ≠ 0) → gives Code.align (fun j => addr j % (w / 8) ≠ 0) 0) ∧
            ((∀ j, on j → addr j % (w / 8) = 0) →
              (∀ j x, on j → cause j = some x → (∀ l < j, on l → cause l = none) → gives Code.mapFault (fun l => cause l ≠ none) x) ∧
              ((∀ j, on j → cause j = none) → (∃ j, on j ∧ lanePoisoned q reading (addr j) (w / 8) = true) →
                gives Code.poison (fun l => lanePoisoned q reading (addr l) (w / 8) = true) 0))))
    let at4 (r : Regs) (j : Nat) : Nat := ((capAddr (regsG r ra)).toNat + 4 * j) % 2 ^ 64
    let atStride (r : Regs) (j : Nat) : Nat := ((capAddr (regsG r ra)).toNat + j * (capAddr (regsG r rb)).toNat) % 2 ^ 64
    let atOffset (r : Regs) (j : Nat) : Nat :=
      (capAddr (regsG r ra) + (BitVec.ofNat (iWidth t) (elemOf (iWidth t) j (regsV r rb))).signExtend 64).toNat
    let q := setMySlot s (deferSlot s)
    let x := myRegs q
    let r := myRegs s
    (CanDefer s →
      faulting (.vld m v ra k) s q 32 16 Perm.load true (at4 x) ∧
      faulting (.vlds m v ra rb t k) s q (iWidth t) (512 / iWidth t) Perm.load true (atStride x) ∧
      faulting (.vgath m v ra rb t k) s q (iWidth t) (512 / iWidth t) Perm.load true (atOffset x)) ∧
    faulting (.vst m v ra k) s s 32 16 Perm.store false (at4 r) ∧
    faulting (.vsts m v ra rb t k) s s (iWidth t) (512 / iWidth t) Perm.store false (atStride r) ∧
    faulting (.vscat m v ra rb t k) s s (iWidth t) (512 / iWidth t) Perm.store false (atOffset r))
/-! ### Vectors -/

/-- R158, R159, R161: every elementwise floating-point instruction defers a vector whose active elements are the scalar operation's result and
whose other elements are vd's. -/
def Obligations.VectorFloatResults : Prop :=
  ∀ (s : State) (m : Bool) (d ra rb : Reg) (t : FTy) (k : KReg), CanDefer s →
    let r := (deferSlot s).regs
    let w := fWidth t
    let f := fFmt t
    let a (j : Nat) := elemOf w j (regsV r ra)
    let b (j : Nat) := elemOf w j (regsV r rb)
    let c (j : Nat) := elemOf w j (regsV r d)
    let writes (i : Instr) (v : Nat → Nat) : Prop :=
      ∃ u x, exec i s = .next u ∧ Defers s m (.v d x) u ∧
        ∀ j < 512 / w, elemOf w j x = if (regsK r k).getLsbD (if w = 16 then j / 2 else j) then v j % 2 ^ w else c j
    writes (.vaddFloat m d ra rb t k) (fun j => fAdd f .rne (a j) (b j)) ∧
    writes (.vsubFloat m d ra rb t k) (fun j => fSub f .rne (a j) (b j)) ∧
    writes (.vmulFloat m d ra rb t k) (fun j => fMul f .rne (a j) (b j)) ∧
    writes (.vfma m d ra rb t k) (fun j => fMulAdd f .rne (a j) (b j) (c j)) ∧
    writes (.vfnma m d ra rb t k) (fun j => fNegMulAdd f .rne (a j) (b j) (c j)) ∧
    writes (.vdiv m d ra rb t k) (fun j => fDiv f .rne (a j) (b j)) ∧
    writes (.vminFloat m d ra rb t k) (fun j => floatMin f (a j) (b j)) ∧
    writes (.vmaxFloat m d ra rb t k) (fun j => floatMax f (a j) (b j)) ∧
    writes (.vsqrt m d ra t k) (fun j => fSqrt f .rne (a j))

/-- R158, R159, R164: the elementwise integer instructions, modulo 2^w, shifts by the low bits of vb's element. -/
def Obligations.VectorIntegerResults : Prop :=
  ∀ (s : State) (m : Bool) (d ra rb : Reg) (t : ITy) (k : KReg), CanDefer s →
    let r := (deferSlot s).regs
    let w := iWidth t
    let a (j : Nat) : BitVec w := BitVec.ofNat w (elemOf w j (regsV r ra))
    let b (j : Nat) : BitVec w := BitVec.ofNat w (elemOf w j (regsV r rb))
    let writes (i : Instr) (v : Nat → BitVec w) : Prop :=
      ∃ u x, exec i s = .next u ∧ Defers s m (.v d x) u ∧
        ∀ j < 512 / w, elemOf w j x = if (regsK r k).getLsbD j then (v j).toNat else elemOf w j (regsV r d)
    writes (.vaddInt m d ra rb t k) (fun j => a j + b j) ∧
    writes (.vsubInt m d ra rb t k) (fun j => a j - b j) ∧
    writes (.vmulInt m d ra rb t k) (fun j => a j * b j) ∧
    writes (.vminInt m d ra rb t k) (fun j => if (a j).toInt ≤ (b j).toInt then a j else b j) ∧
    writes (.vmaxInt m d ra rb t k) (fun j => if (a j).toInt ≤ (b j).toInt then b j else a j) ∧
    writes (.vand m d ra rb t k) (fun j => a j &&& b j) ∧
    writes (.vor m d ra rb t k) (fun j => a j ||| b j) ∧
    writes (.vxor m d ra rb t k) (fun j => a j ^^^ b j) ∧
    writes (.vshl m d ra rb t k) (fun j => a j <<< ((b j).toNat % w)) ∧
    writes (.vshr m d ra rb t k) (fun j => a j >>> ((b j).toNat % w)) ∧
    writes (.vsra m d ra rb t k) (fun j => (a j).sshiftRight ((b j).toNat % w))

/-- R162: a compare defers a mask, zero where inactive; a lane of .bf16 is 1 where both of its elements compare. -/
def Obligations.VectorCompares : Prop :=
  ∀ (s : State) (m : Bool) (c : VCond) (kd : KReg) (ra rb : Reg) (t : FTy) (u : ITy) (k : KReg), CanDefer s →
    let r := (deferSlot s).regs
    let relF (j : Nat) : Prop :=
      let x := elemOf (fWidth t) j (regsV r ra)
      let y := elemOf (fWidth t) j (regsV r rb)
      match c with
      | .eq => floatEq (fFmt t) x y = true
      | .ne => floatEq (fFmt t) x y = false
      | .lt => floatLt (fFmt t) x y = true
      | .le => floatLe (fFmt t) x y = true
    let relI (j : Nat) : Prop :=
      let x := (BitVec.ofNat (iWidth u) (elemOf (iWidth u) j (regsV r ra))).toInt
      let y := (BitVec.ofNat (iWidth u) (elemOf (iWidth u) j (regsV r rb))).toInt
      match c with
      | .eq => x = y
      | .ne => x ≠ y
      | .lt => x < y
      | .le => x ≤ y
    (∃ w x, exec (.vcmpFloat m c kd ra rb t k) s = .next w ∧ Defers s m (.k kd x) w ∧
      ∀ j < 16, x.getLsbD j = true ↔ (regsK r k).getLsbD j = true ∧
        (if t = .bf16 then relF (2 * j) ∧ relF (2 * j + 1) else j < 512 / fWidth t ∧ relF j)) ∧
    (∃ w x, exec (.vcmpInt m c kd ra rb u k) s = .next w ∧ Defers s m (.k kd x) w ∧
      ∀ j < 16, x.getLsbD j = true ↔ (regsK r k).getLsbD j = true ∧ j < 512 / iWidth u ∧ relI j)

/-- R36, R37, R163: a floating-point reduction is the balanced tree whose leaves are the active elements, widened, or the identity, and whose
node at each level joins a lane with the one half the level's width above it; its result stands lowest and the rest is zero.
R163: an integer reduction gives the sum modulo 2^w, the greatest and the least of the active elements, or the identity of none. -/
def Obligations.VectorReductions : Prop :=
  (∀ (s : State) (m : Bool) (d ra : Reg) (t : FTy) (k : KReg), CanDefer s →
    let r := (deferSlot s).regs
    let w := fWidth t
    let n := 512 / w
    let g := if t = .f64 then FFmt.f64 else FFmt.f32
    let wide (x : Nat) : Nat := if t = .bf16 then fConvert .bf16 .f32 .rne false x else x
    let reduces (i : Instr) (ident : Nat) (f : Nat → Nat → Nat) : Prop :=
      ∃ u, ∃ T : Nat → Nat → Nat,
        (∀ j < n, T 0 j = if (regsK r k).getLsbD (if w = 16 then j / 2 else j) then wide (elemOf w j (regsV r ra)) else ident) ∧
        (∀ l j, j < n / 2 ^ (l + 1) → T (l + 1) j = f (T l j) (T l (j + n / 2 ^ (l + 1)))) ∧
        exec i s = .next u ∧ Defers s m (.v d (BitVec.ofNat 512 (T (if w = 32 then 4 else if w = 16 then 5 else 3) 0))) u
    reduces (.vredaddFloat m d ra t k) (if t = .f64 then 0x8000000000000000 else 0x80000000) (fAdd g .rne) ∧
    reduces (.vredmaxFloat m d ra t k) (if t = .f64 then 0xfff0000000000000 else 0xff800000) (floatMax g) ∧
    reduces (.vredminFloat m d ra t k) (if t = .f64 then 0x7ff0000000000000 else 0x7f800000) (floatMin g)) ∧
  (∀ (s : State) (m : Bool) (d ra : Reg) (t : ITy) (k : KReg), CanDefer s →
    let r := (deferSlot s).regs
    let w := iWidth t
    let n := 512 / w
    let e (j : Nat) : BitVec w := BitVec.ofNat w (elemOf w j (regsV r ra))
    let on (j : Nat) : Prop := j < n ∧ (regsK r k).getLsbD j = true
    (∃ u, exec (.vredaddInt m d ra t k) s = .next u ∧
      Defers s m (.v d (BitVec.ofNat 512
        (((List.range n).map fun j => if (regsK r k).getLsbD j then (e j).toNat else 0).sum % 2 ^ w))) u) ∧
    (∃ u y, exec (.vredmaxInt m d ra t k) s = .next u ∧ Defers s m (.v d (BitVec.ofNat 512 (BitVec.toNat (w := w) y))) u ∧
      (∀ j, on j → (e j).toInt ≤ y.toInt) ∧ ((∃ j, on j ∧ e j = y) ∨ y = BitVec.intMin w)) ∧
    (∃ u y, exec (.vredminInt m d ra t k) s = .next u ∧ Defers s m (.v d (BitVec.ofNat 512 (BitVec.toNat (w := w) y))) u ∧
      (∀ j, on j → y.toInt ≤ (e j).toInt) ∧ ((∃ j, on j ∧ e j = y) ∨ y = BitVec.intMax w)))

/-- R165: the vector moves.
R67, R167: the mask instructions write at once; KPOP counts. -/
def Obligations.VectorMovesAndMasks : Prop :=
  (∀ (s : State) (m : Bool) (d ra rb : Reg) (t : MTy) (k : KReg) (index : BitVec 5), CanDefer s →
    let r := (deferSlot s).regs
    let w := mWidth t
    let n := 512 / w
    let a (j : Nat) := elemOf w j (regsV r ra)
    let b (j : Nat) := elemOf w j (regsV r rb)
    let on (j : Nat) : Bool := (regsK r k).getLsbD (if w = 16 then j / 2 else j)
    let writes (i : Instr) (v other : Nat → Nat) : Prop :=
      ∃ u x, exec i s = .next u ∧ Defers s m (.v d x) u ∧ ∀ j < n, elemOf w j x = if on j then v j else other j
    let old (j : Nat) := elemOf w j (regsV r d)
    writes (.vsel m d ra rb t k) a b ∧
    writes (.vperm m d ra rb t k) (fun j => a (b j % n)) old ∧
    writes (.vbcast m d ra t k) (fun _ => (capAddr (regsG r ra)).toNat % 2 ^ w) old ∧
    writes (.vmvv m d ra t k) a old ∧
    writes (.viota m d t k) (fun j => j) old ∧
    (index.toNat < n → ∃ u, exec (.vmvs m d ra index t) s = .next u ∧ DefersX s m d (BitVec.ofNat 64 (a index.toNat)) u)) ∧
  (∀ (s : State) (m : Bool) (d : Reg) (kd ka kb : KReg),
    let a := readK s ka
    let b := readK s kb
    let writes (i : Instr) (x : Mask) : Prop :=
      ∃ t q, exec i s = .next t ∧ Retires s (mySlot s) m q (nextPcc (myRegs s)) t ∧
        (∀ j, regsK q j = if j = kd ∧ kd ≠ 0 then x else readK s j) ∧ (∀ n, regsG q n = readG s n) ∧ (∀ n, regsV q n = readV s n) ∧
        (∀ p, p ∈ q.pending ↔ p ∈ (myRegs s).pending ∧ pendIsK kd p = false)
    writes (.kand m kd ka kb) (a &&& b) ∧ writes (.kor m kd ka kb) (a ||| b) ∧ writes (.kxor m kd ka kb) (a ^^^ b) ∧
    writes (.knot m kd ka) (~~~a) ∧
    (∃ t, exec (.kpop m d ka) s = .next t ∧
      WritesX s m d (BitVec.ofNat 64 ((List.range 16).countP fun i => a.getLsbD i)) t))

/-- R166: VCVT converts the elements that both types hold a place for, by the scalar rules of R29; elements that no source element gives
are zero. -/
def Obligations.VectorConversions : Prop :=
  ∀ (s : State) (m : Bool) (d ra : Reg) (dst src : CTy) (k : KReg), CanDefer s →
    let r := (deferSlot s).regs
    let w := cWidth dst
    let n := 512 / max (cWidth dst) (cWidth src)
    let e (j : Nat) := elemOf (cWidth src) j (regsV r ra)
    let signed (x : Nat) : Int := (BitVec.ofNat (cWidth src) x).toInt
    ∃ u x, exec (.vcvt m d ra dst src k) s = .next u ∧ Defers s m (.v d x) u ∧
      (∀ j < n, (regsK r k).getLsbD (if n = 32 then j / 2 else if n = 64 then j / 4 else j) = false → elemOf w j x = elemOf w j (regsV r d)) ∧
      (∀ j < n, (regsK r k).getLsbD (if n = 32 then j / 2 else if n = 64 then j / 4 else j) = true →
        (∀ f g, cFmt src = some f → cFmt dst = some g →
          elemOf w j x = floatRound g .rne (dst == .f8e4 || dst == .f8e5) (floatValue f (e j)) % 2 ^ w) ∧
        (∀ f, cFmt src = some f → cFmt dst = none →
          BitVec.ofNat w (elemOf w j x) =
            BitVec.ofInt w (floatToInt .rtz (floatValue f (e j)) (-2 ^ (w - 1)) (2 ^ (w - 1) - 1))) ∧
        (∀ g, cFmt src = none → cFmt dst = some g →
          elemOf w j x = floatRound g .rne (dst == .f8e4 || dst == .f8e5) (floatOfInt (signed (e j))) % 2 ^ w) ∧
        (cFmt src = none → cFmt dst = none → elemOf w j x = (BitVec.ofInt w (signed (e j))).toNat)) ∧
      (∀ j, n ≤ j → j < 512 / w → elemOf w j x = 0)

/-- R168 to R171: a vector load defers a vector whose active elements are what the thread reads at their addresses; a vector store writes
its active elements in ascending order. A miss of a lone part fills as a scalar access's does (R301, R322). Both need every active element to
pass the checks of R169. -/
def Obligations.VectorMemory : Prop :=
  ∀ (s : State) (m : Bool) (v ra rb : Reg) (t : ITy) (k : KReg), s.Inv →
    let q := setMySlot s (deferSlot s)
    let on (r : Regs) (n : Nat) : List Nat := (List.range n).filter fun j => (regsK r k).getLsbD j
    let loads (i : Instr) (w n : Nat) (addr : Regs → Nat → Nat) : Prop :=
      let r := myRegs q
      let l := (on r n).map fun j => (j, addr r j)
      let segs := l.flatMap fun e => laneSegs q e.2 (w / 8)
      CanDefer s → laneCheck q (regsG r ra) l (w / 8) Perm.load true = none → accessWaits q segs = false →
        ∃ u x z, exec i s = .next z ∧ Retires u (mySlot u) m (regsDefer r (.v v x)) (nextPcc r) z ∧
          (∀ j < n, (regsK r k).getLsbD j = false → elemOf w j x = elemOf w j (regsV r v)) ∧
          (∀ g, segs = [g] → EasyMiss q g → Fills q u g) ∧
          (AllHit q segs → (∀ j < n, (regsK r k).getLsbD j = true → Seen q (addr r j) (w / 8) (elemOf w j x)) ∧
            SeesSame s z ∧ ∃ j, Hits q u j ∧ readChunk q segs (mySlot q).cur j)
    let stores (i : Instr) (w n : Nat) (addr : Regs → Nat → Nat) : Prop :=
      let r := myRegs s
      let l := (on r n).map fun j => (j, addr r j)
      let segs := l.flatMap fun e => laneSegs s e.2 (w / 8)
      laneCheck s (regsG r ra) l (w / 8) Perm.store false = none → ∀ p, StoresIn s segs true p →
        ∃ u z, exec i s = .next z ∧ Retires u (mySlot u) m r (nextPcc r) z ∧
          (∀ g, segs = [g] → EasyMiss p g → Fills p u g) ∧
          (AllHit s segs →
            SeesStored s z (l.flatMap fun e => splitValue (elemOf w e.1 (regsV r v)) (laneSegs s e.2 (w / 8))) false ∧
            ∃ j, Hits p u j ∧ writtenChunk p segs (mySlot p).cur j)
    let at4 (r : Regs) (j : Nat) : Nat := ((capAddr (regsG r ra)).toNat + 4 * j) % 2 ^ 64
    let atStride (r : Regs) (j : Nat) : Nat := ((capAddr (regsG r ra)).toNat + j * (capAddr (regsG r rb)).toNat) % 2 ^ 64
    let atOffset (r : Regs) (j : Nat) : Nat :=
      (capAddr (regsG r ra) + (BitVec.ofNat (iWidth t) (elemOf (iWidth t) j (regsV r rb))).signExtend 64).toNat
    loads (.vld m v ra k) 32 16 at4 ∧ loads (.vlds m v ra rb t k) (iWidth t) (512 / iWidth t) atStride ∧
    loads (.vgath m v ra rb t k) (iWidth t) (512 / iWidth t) atOffset ∧
    stores (.vst m v ra k) 32 16 at4 ∧ stores (.vsts m v ra rb t k) (iWidth t) (512 / iWidth t) atStride ∧
    stores (.vscat m v ra rb t k) (iWidth t) (512 / iWidth t) atOffset
/-! ### Instructions whose effect takes place at their commit -/

/-- R141, R216: a chunk-ending instruction of a thread that stands alone makes the core's checks at issue; its effect takes place at its commit;
while its condition does not hold the chunk stays ENDED and its request waits (R147); a check that fails before the commit discards the chunk, and
the core freezes with pcc addressing the instruction. R143, R147, R179: what the effect touches is in the chunk's signatures as it asks. -/
def Obligations.ChunkEndingProtocol : Prop :=
  ∀ (s : State) (i : Instr) (m : Bool) (d : Option Reg) (issue : State → Issue), Alone s → exec i s = chunkEnding s i m d issue →
    let c := meCore s
    let l := meSlot s
    (∀ code info, issue s = .fault code info → exec i s = .next (raise (issueWalked s i code) i code info)) ∧
    (∀ w, issue s = .wait w → exec i s = .next w) ∧
    (∀ w, issue s = .go w → Asks s w →
      let t := issueEffect w i m d
      let o := effectChunk (mySlot w).cur (myRegs w) i
      (mySlot t).older = some o ∧ (mySlot t).cur = Chunk.start (mySlot t).regs ∧ (mySlot t).regs.pcc = nextPcc (myRegs w) ∧
      ((arbiterFree t c l (askingChunk w i m d) = false ∨ atomicHeld t c l o = true ∨ effectHeld t c l o (askingChunk w i m d) = true) →
        exec i s = .next (enqueueRequest t c l)) ∧
      (Unheld w i m d →
        (commitEffect (inEffect w i m d) c l o i = .wait → exec i s = .next (enqueueRequest t c l)) ∧
        (∀ code info, commitEffect (inEffect w i m d) c l o i = .fault code info → ∃ q, exec i s = .next q ∧
          (coreAt q c).frozen = true ∧ (coreAt q c).report = some (packetOf t c l 0 code (capAddr (myRegs w).pcc) (wordOf i) info) ∧
          (slotAt q c l).older = none ∧ (slotAt q c l).regs = myRegs w ∧ (slotAt q c l).commitStamp = (mySlot w).commitStamp) ∧
        (∀ u v, commitEffect (inEffect w i m d) c l o i = .done u v → ∃ q, exec i s = .next q ∧ Granted w i m d u v q)))

/-- R211, R218: ARRIVE at its commit and ARRIVE.NC at once record an arrival on a channel that a valid register names; WAIT commits when no
register names the channel or its arrival has been released, and its request waits until then. -/
def Obligations.BarrierInstructions : Prop :=
  ∀ (s : State) (m : Bool) (ch : BitVec 6),
    let named : Prop := ∃ n < 4, (memberAt (myCore s) n).getLsbD 63 = true ∧ ((memberAt (myCore s) n).extractLsb' 26 6).toNat = ch.toNat
    let recorded (k : Core) : Core := { k with arrived := k.arrived ||| (1#40 <<< ch.toNat) }
    (Alone s → ∃ t u, exec (.arrive m ch) s = .next t ∧ Commits s u m none none t ∧
      (named → u = updCore (inEffect s (.arrive m ch) m none) (meCore s) recorded) ∧ (¬named → u = inEffect s (.arrive m ch) m none)) ∧
    (∃ t, exec (.arriveNc m ch) s = .next t ∧ (named → Passes (updCore s (meCore s) recorded) m t) ∧ (¬named → Passes s m t)) ∧
    (Alone s → (¬named ∨ (myCore s).arrived.getLsbD ch.toNat = false) →
      ∃ t, exec (.wait m ch) s = .next t ∧ Commits s (inEffect s (.wait m ch) m none) m none none t) ∧
    (Alone s → named → (myCore s).arrived.getLsbD ch.toNat = true →
      ∃ t, exec (.wait m ch) s = .next t ∧ Waits s (.wait m ch) m none t)

/-- R178, R182, R183: what the operations of a deque do: a push goes to BOTTOM, or into the die's injection ring when the deque is full; a pop
takes the newest entry and a steal the oldest; an empty deque gives null.
R175, R176, R181, R195, R219 to R221: the queue instructions at their commits, once nothing holds what they touch (R179). -/
def Obligations.DequeInstructions : Prop :=
  (∀ (s : State) (c : Nat) (k : Cap) (flags : W32),
    let x := coreAt s c
    let count := (x.bottom - x.top).toNat
    (ringSize x.dqring ≠ 0 → count < ringSize x.dqring → ∀ t, agentWriteCap s x.owner (ringEntry x.dqring x.bottom.toNat) k = .ok t →
      dequePush s c k flags = .ok (updCore t c fun y => { y with bottom := y.bottom + 1 })) ∧
    ((ringSize x.dqring = 0 ∨ ringSize x.dqring ≤ count) →
      dequePush s c k flags = injectPush s x.owner (dieOf c) (max (recClass flags).toNat (kernelClass s x.owner (recKernel flags))) k) ∧
    ((ringSize x.dqring = 0 ∨ count = 0) → popBottom s c = .ok (s, Cap.null) ∧ stealTop s c = .ok (s, Cap.null)) ∧
    (ringSize x.dqring ≠ 0 → count ≠ 0 →
      (∀ y, agentReadCap s x.owner (ringEntry x.dqring (x.bottom - 1).toNat) = .ok y →
        popBottom s c = .ok (updCore s c fun z => { z with bottom := z.bottom - 1 }, y)) ∧
      (∀ y, agentReadCap s x.owner (ringEntry x.dqring x.top.toNat) = .ok y →
        stealTop s c = .ok (updCore s c fun z => { z with top := z.top + 1 }, y)))) ∧
  (∀ (s : State) (m : Bool) (d ra rb : Reg) (victim : Coord), Alone s →
    let c := meCore s
    let l := meSlot s
    let ctx := myCtx s
    let done (i : Instr) (d : Option Reg) (u : State) (v : Option Cap) : Prop := Unheld s i m d → ∃ t, exec i s = .next t ∧ Takes s i m d u v t
    let ended (i : Instr) (u : State) : Prop := Unheld s i m none → ∃ t, exec i s = .next t ∧ Ends s i m u t
    let k := readG s ra
    let a := (capAddr k).toNat
    let kernel := (mySlot s).kernel
    let counter (j : Cap) : Prop := checkPerms j (capAddr j).toNat 32 true [Perm.load, Perm.store, Perm.loadCap, Perm.storeCap] = none ∧
      ∃ g, peekSegs s c (capAddr j).toNat 32 true = .ok g
    -- DQPUSH of a continuation, and of a record that is sealed first and makes its kernel's LIVE one more
    (let e := inEffect s (.dqpush m ra) m none
     k.tag = true → capOtype k = 3 → ∀ r u, checkRecord e ctx k = .ok r → kernelRuns s ctx (recKernel r.flags).toNat = true →
       dequePush e c k r.flags = .ok u → done (.dqpush m ra) none u none) ∧
    (let e := inEffect s (.dqpush m ra) m none
     checkPerms k a 64 true [Perm.load, Perm.loadCap] = none → ∀ r u, checkRecord e ctx (sealRecord k) = .ok r →
       recKernel r.flags = kernel → kernelRuns s ctx kernel.toNat = true → dequePush e c (sealRecord k) r.flags = .ok u →
       done (.dqpush m ra) none (liveChange u ctx kernel.toNat true) none) ∧
    -- DQPOP and DQSTEAL
    (∀ u v, popBottom (inEffect s (.dqpop m d) m (some d)) c = .ok (u, v) → done (.dqpop m d) (some d) u (some v)) ∧
    ((coreAt s victim.toNat).owner ≠ ctx →
      ∃ t, exec (.dqsteal m d victim) s = .next t ∧
        Commits s (inEffect s (.dqsteal m d victim) m (some d)) m (some d) (some Cap.null) t) ∧
    ((coreAt s victim.toNat).owner = ctx → ∀ u v, stealTop (inEffect s (.dqsteal m d victim) m (some d)) victim.toNat = .ok (u, v) →
      done (.dqsteal m d victim) (some d) u (some v)) ∧
    -- JOIN
    (counter k →
      let e := inEffect s (.join m ra) m none
      ∀ n guard, agentRead e ctx a 8 = .ok n → agentReadCap e ctx (a + 16) = .ok guard →
        ((BitVec.ofNat 64 n).toInt ≤ 0 → done (.join m ra) none e none) ∧
        (0 < (BitVec.ofNat 64 n).toInt → ∀ u, agentWrite e ctx a 8 (n - 1) = .ok u →
          ((BitVec.ofNat 64 n).toInt ≠ 1 ∨ guard.tag = false → done (.join m ra) none u none) ∧
          ((BitVec.ofNat 64 n).toInt = 1 → guard.tag = true → ∀ r v w, checkRecord e ctx guard = .ok r →
            kernelRuns s ctx (recKernel r.flags).toNat = true → dequePush u c guard r.flags = .ok v →
            agentWriteCap v ctx (a + 16) Cap.null = .ok w → done (.join m ra) none w none))) ∧
    -- SUSPEND: the record, then the counter, the push or the guard, and the slot is free; a push needs a RUNNING kernel
    (checkPerms k a 64 true [Perm.load, Perm.store, Perm.loadCap, Perm.storeCap] = none →
      (capHas k Perm.storeLocal = true ∨ recordLocal (myRegs s) = false) → (∃ g, peekSegs s c a 64 false = .ok g) →
      let e := inEffect s (.suspend m ra rb) m none
      let flags := recFlags (mySlot e).kernel (mySlot e).prio
      ∀ u, writeRecord e c l (myRegs s) a = .ok u →
        (kernelRuns s ctx kernel.toNat = true → ∀ v, dequePush u c (sealRecord k) flags = .ok v →
          (rb = 0 ∨ (counter (readG s rb) ∧ ∃ n guard, agentRead u ctx (capAddr (readG s rb)).toNat 8 = .ok n ∧
            agentReadCap u ctx ((capAddr (readG s rb)).toNat + 16) = .ok guard ∧ (BitVec.ofNat 64 n).toInt ≤ 0)) →
          ended (.suspend m ra rb) (freeSlot v c l)) ∧
        (rb ≠ 0 → counter (readG s rb) → ∀ n guard v, agentRead u ctx (capAddr (readG s rb)).toNat 8 = .ok n →
          agentReadCap u ctx ((capAddr (readG s rb)).toNat + 16) = .ok guard → 0 < (BitVec.ofNat 64 n).toInt → guard.tag = false →
          agentWriteCap u ctx ((capAddr (readG s rb)).toNat + 16) (sealRecord k) = .ok v → ended (.suspend m ra rb) (freeSlot v c l))) ∧
    -- END
    ended (.endThread m) (liveChange (freeSlot (inEffect s (.endThread m) m none) c l) ctx kernel.toNat false) ∧
    -- KLAUNCH: DONE is checked as the thread sees the record at issue
    (∀ g, checkAligned k a 96 32 [Perm.load, Perm.loadCap] = none → peekSegs s c a 96 true = .ok g → accessWaits s g = false →
      let w := (readSegs s g).1
      Asks s w → doneCheck (doneSeen s a) = none → Unheld w (.klaunch m ra) m none →
        let e := inEffect w (.klaunch m ra) m none
        ∀ r, readLaunch e ctx a = .ok r → doneCheck r.doneCap = none →
          ∃ t, exec (.klaunch m ra) s = .next t ∧ Takes w (.klaunch m ra) m none (launch e ctx r) none t))

/-- R222 to R227: the engine instructions: an entry joins its sequencer's queue at the commit, without the painted capabilities of a
revocation pass (R107); RNDZ and MLEASE wait as ENDED chunks; CMDQ queues the word that it read at issue, and a matrix word is charged. -/
def Obligations.EngineInstructions : Prop :=
  ∀ (s : State) (m : Bool) (d ra rb : Reg) (n : EReg),
    let c := meCore s
    let l := meSlot s
    let cl := myCluster s
    let done (i : Instr) (d : Option Reg) (u : State) (v : Option Cap) : Prop := ∃ t, exec i s = .next t ∧ Commits s u m d v t
    let program (x : Reg) : Prop := x = 0 ∨ (checkPerms (readG s x) (capAddr (readG s x)).toNat 32 false [Perm.load, Perm.engine] = none ∧
      (capAddr (readG s x)).toNat % 32 = 0 ∧ ∃ g, peekSegs s c (capAddr (readG s x)).toNat 32 true = .ok g)
    let held (w : State) : Prop := (clusterAt w cl).lease = .held ∧ (clusterAt w cl).holder.toNat = c % 8
    (∃ t, exec (.ecset m n ra) s = .next t ∧
      Retires s { mySlot s with cur := { (mySlot s).cur with ecset := Tbl.set (mySlot s).cur.ecset n.toNat (readG s ra) } } m
        (myRegs s) (nextPcc (myRegs s)) t) ∧
    (Alone s →
      (program ra → program rb → (ra ≠ 0 → held s) → (ra ≠ 0 → (clusterAt s cl).matrix.queue.length < 16) →
        (rb ≠ 0 → (clusterAt s cl).copy.queue.length < 16) →
        let e := inEffect s (.fork m d ra rb) m (some d)
        let u := if ra ≠ 0 then placeEntry e c l false (some (readG s ra)) 0 0 none else e
        let v := if rb ≠ 0 then placeEntry u c l true (some (readG s rb)) 0 0 none else u
        done (.fork m d ra rb) (some d) v (some (capInt s.stamp))) ∧
      ((mySlot s).outstanding = [] → done (.rndz m) none (inEffect s (.rndz m) m none) none) ∧
      ((mySlot s).outstanding ≠ [] → ∃ t, exec (.rndz m) s = .next t ∧ Waits s (.rndz m) m none t) ∧
      (held s → done (.mlease m) none (inEffect s (.mlease m) m none) none) ∧
      (¬held s → ∃ t, exec (.mlease m) s = .next t ∧ Waits s (.mlease m) m none t) ∧
      (held s → done (.mfree m) none (leaseRelease (inEffect s (.mfree m) m none) cl) none) ∧
      (¬held s → done (.mfree m) none (inEffect s (.mfree m) m none) none) ∧
      (∀ segs v x, dataCheck s (readG s ra) (capAddr (readG s ra)).toNat 32 [Perm.load] true .never true = .ok segs → accessWaits s segs = false →
        Seen s (capAddr (readG s ra)).toNat 32 v → decodeCommand none (BitVec.ofNat 256 v) = .ok x →
        let w := updMyChunk (readSegs s segs).1 fun q => { q with word := BitVec.ofNat 256 v }
        let copy := (BitVec.ofNat 256 v).extractLsb' 240 4 == (1 : BitVec 4)
        Asks s w → Unheld w (.cmdq m ra) m none → (copy = false → held w) → (seqOf (clusterAt w cl) copy).queue.length < 16 →
          let u := placeEntry (inEffect w (.cmdq m ra) m none) c l copy none (BitVec.ofNat 256 v) (capAddr (readG s ra)) none
          ∃ t y, exec (.cmdq m ra) s = .next t ∧ Takes w (.cmdq m ra) m none (if copy then u else leaseCharge u cl c) none t ∧
            (seqOf (clusterAt t cl) copy).queue = (seqOf (clusterAt w cl) copy).queue ++ [y] ∧
            y.program = none ∧ y.word = BitVec.ofNat 256 v ∧ y.addr = capAddr (readG s ra) ∧
            y.table = Tbl.mapVal (myCore w).engine (fun _ k => scrubCap w (myCtx w) k) ∧
            y.core.toNat = c ∧ y.slot.toNat = l ∧ y.ctx = myCtx w ∧ y.stamp = w.stamp))

/-- R228, R229: EPSEND puts the 64 bytes that the thread reads, with the tags that LOAD_CAP lets through, at the end of its
destination's queue; EPRECV takes the oldest message of the core's queue, or gives null. A destination on another module
accepts when that module answers so: a free value (log entry 17). -/
def Obligations.MessageInstructions : Prop :=
  ∀ (s : State) (m : Bool) (d ra rb : Reg), Alone s →
    let c := meCore s
    let done (i : Instr) (d : Option Reg) (u : State) (v : Option Cap) : Prop := ∃ t, exec i s = .next t ∧ Commits s u m d v t
    (let h := readG s ra
     let k := readG s rb
     let a := (capAddr k).toNat
     let e := inEffect s (.epsend m ra rb) m none
     h.tag = true → capOtype h = 2 → checkPerms k a 64 true [Perm.load] = none → (∃ g, peekSegs s c a 64 true = .ok g) →
       Unheld s (.epsend m ra rb) m none →
       (handleValid e (myCtx s) h = true → canReserve e h = false →
         ∃ t, exec (.epsend m ra rb) s = .next t ∧ Waits s (.epsend m ra rb) m none t) ∧
       (handleValid e (myCtx s) h = false → ∃ t, exec (.epsend m ra rb) s = .next t ∧ tookFault t c ∧
         (coreAt t c).report.map (·.code) = some Code.endpoint) ∧
       (handleValid e (myCtx s) h = true → canReserve e h = true → (∃ g, peekSegs e c a 64 true = .ok g) →
         ∃ v tags, Seen e a 64 v ∧
           (∀ j < 4, BitVec.getLsbD (w := 4) tags j = true ↔ capHas k Perm.loadCap = true ∧ seenTag e (a + 16 * j) = some true ∧
             (scrubCap e (myCtx s) ⟨true, BitVec.ofNat 128 (v / 2 ^ (128 * j))⟩).tag = true) ∧
           ∃ t, exec (.epsend m ra rb) s = .next t ∧ Takes s (.epsend m ra rb) m none (sendMessage e c h (BitVec.ofNat 512 v) tags) none t)) ∧
    (let k := readG s ra
     let a := (capAddr k).toNat
     let e := inEffect s (.eprecv m d ra) m (some d)
     checkPerms k a 64 true [Perm.store] = none → (∃ g, peekSegs s c a 64 false = .ok g) →
       ((myCore s).mail = [] → done (.eprecv m d ra) (some d) e (some Cap.null)) ∧
       (∀ x r g, (myCore s).mail = x :: r → peekSegs e c a 64 false = .ok g → Unheld s (.eprecv m d ra) m (some d) →
         ∃ tags t, exec (.eprecv m d ra) s = .next t ∧
           Takes s (.eprecv m d ra) m (some d) (takeMessage (pokeUnits e c x.payload.toNat tags g) c) (some (capInt x.sender)) t ∧
           ∀ j < 4, tags / 2 ^ j % 2 = 1 ↔ x.tags.getLsbD j = true ∧
             mayStoreCap k ⟨true, x.payload.extractLsb' (128 * j) 128⟩ = true ∧
             (scrubCap e (myCtx s) ⟨true, x.payload.extractLsb' (128 * j) 128⟩).tag = true))
/-! ### System, supervisor and fences -/

/-- R130, R131, R136, R137, R234 to R238: TRAP freezes the core at its commit, SNAP arms a request for TIME + 4,096, TSREAD defers
TIME, PINV drops the selected translations, or waits for a pinned chunk that has read through one, the fences wait for what they order, BKPT
freezes the core before itself, CBRK and CHOLD place chunk boundaries. A TRAP that commits on a core already frozen is held (log entry 46);
which pages PINV covers where their OWNER is 0xfff, and its wait, are the model's choice (log entry 56). -/
def Obligations.SystemInstructions : Prop :=
  ∀ (s : State) (m : Bool) (d ra : Reg) (code : BitVec 5) (n : BitVec 15),
    let c := meCore s
    let l := meSlot s
    let done (i : Instr) (u : State) : Prop := ∃ t, exec i s = .next t ∧ Commits s u m none none t
    let waits (i : Instr) : Prop := ∃ t, exec i s = .next t ∧ Waits s i m none t
    let system : Prop := capHas (myRegs s).pcc Perm.system = true
    let addr := capAddr (myRegs s).pcc
    (Alone s → ∃ u p, done (.trap m code) u ∧ (coreAt u c).frozen = true ∧ (coreAt u c).report = some p ∧ p.code = Code.trap ∧ p.pcc = addr ∧
      p.info = code.setWidth 64 ∧ p.ctx = myCtx s ∧ p.coord.toNat = c ∧ p.slot.toNat = l ∧ (∀ k, k ≠ c → coreAt u k = coreAt s k)) ∧
    (Alone s → system → ∃ u, done (.snap m) u ∧
      (s.armed = true → u = inEffect s (.snap m) m none) ∧
      (s.armed = false → u = { inEffect s (.snap m) m none with
        armed := true, latchAt := s.time + 4096, snapSource := 0, snapctl := s.time + 4096 })) ∧
    (CanDefer s → ∃ t, exec (.tsread m d) s = .next t ∧ DefersX s m d s.time t) ∧
    (Alone s → system →
      let e := inEffect s (.pinv m ra) m none
      let pages := pinvPages e (myCtx s) (readX s ra)
      let u := pinvState e pages
      (pinvWaits e c l pages = true → waits (.pinv m ra)) ∧
      (pinvWaits e c l pages = false → done (.pinv m ra) u) ∧
      (∀ x ∈ u.tlb, x ∈ s.tlb ∧ pages x.1 = false) ∧
      ∀ p leaf q, Tbl.find u.tlb p = some (leaf, q) → ((readX s ra).getLsbD 0 = true → leafOwner leaf ≠ myCtx s) ∧
        ((readX s ra).getLsbD 0 = false → p ≠ ((readX s ra).extractLsb' 16 32).toNat)) ∧
    (Alone s → ((myCore s).cmos = [] → ∃ u, done (.fenceXp m) u ∧ ∀ x ∈ (coreAt u c).l1, x.nonCoherent = false) ∧
      ((myCore s).cmos ≠ [] → waits (.fenceXp m)) ∧
      ((myCore s).cmos = [] → (∀ x ∈ (myCore s).ioStores, x.slot ≠ l) → done (.fenceIo m) (inEffect s (.fenceIo m) m none)) ∧
      (((myCore s).cmos ≠ [] ∨ ∃ x ∈ (myCore s).ioStores, x.slot = l) → waits (.fenceIo m))) ∧
    ((mySlot s).cur.hold = 0 → (myCore s).frozen = false → ∃ t p, exec (.bkpt m) s = .next t ∧ (myCore t).frozen = true ∧
      (myCore t).report = some p ∧ p.code = Code.bkpt ∧ p.pcc = addr ∧ p.info = 0 ∧ myRegs t = myRegs s ∧
      ((mySlot t).cur.count = 0 ∨ (mySlot t).cur.status ≠ .executing)) ∧
    ((mySlot s).cur.hold = 0 → (mySlot s).cur.status = .executing → ∃ t w, exec (.cbrk m) s = .next t ∧ Passes s m w ∧
      t = endChunk w c l ∧ ((mySlot t).cur.status = .ended ∨ (mySlot t).cur = Chunk.start (myRegs t))) ∧
    (Alone s → 1 ≤ n.toNat → n.toNat ≤ 64 → ∃ t q, exec (.chold m n) s = .next t ∧
      Retires s { mySlot s with prio := q, cur := { Chunk.start (myRegs s) with hold := n.toNat + 1, span := wordOf (.chold m n) } } m
        (myRegs s) (nextPcc (myRegs s)) t ∧ (mySlot t).cur.hold = n.toNat)

/-- R136: a chunk-ending instruction, CBRK, CHOLD and BKPT inside a CHOLD span are not executed: the chunk is squashed, and the core freezes with
ILLEGAL, 1 in the information word, and pcc addressing the CHOLD; the squash counts (R151).
R58, R70, R236, R238: an allocated SYS word (a SYSR after the park of a full list), a SNAP and a PINV raise CAPPERM while pcc lacks SYSTEM. -/
def Obligations.SystemChecks : Prop :=
  (∀ (s : State) (i : Instr) (m : Bool) (d : Option Reg) (n : BitVec 15) (issue : State → Issue),
    (exec i s = chunkEnding s i m d issue ∨ i = .cbrk m ∨ i = .chold m n ∨ i = .bkpt m) →
      (mySlot s).cur.hold ≠ 0 → (myCore s).frozen = false →
        ∃ t p, exec i s = .next t ∧ (myCore t).frozen = true ∧ (myCore t).report = some p ∧ p.code = Code.illegal ∧ p.info = 1 ∧
          p.pcc = capAddr (mySlot s).cur.check.pcc ∧ myRegs t = (mySlot s).cur.check ∧
          (mySlot t).cur = { Chunk.start (mySlot s).cur.check with
            squashes := if (mySlot s).cur.squashes = 3 then 3 else (mySlot s).cur.squashes + 1 }) ∧
  (∀ (s : State) (m : Bool) (d ra : Reg) (x : BitVec 12), capHas (myRegs s).pcc Perm.system = false →
    (CanDefer s → exec (.sysr m d x) s = .next (raise (setMySlot s (deferSlot s)) (.sysr m d x) Code.capPerm 0)) ∧
    (¬CanDefer s → exec (.sysr m d x) s = .next (setMySlot s (deferSlot s))) ∧
    (Alone s → ∀ i ∈ [.sysw m x ra, .syss m x ra, .sysc m x ra, .snap m, .pinv m ra], exec i s = .next (raise s i Code.capPerm 0)))

/-! ### System registers -/

/-- R105 to R107: a SYSW that writes START starts a pass when its chunk commits, if REVMAP is usable and no pass is active; COUNT
goes up by one, and the painted capabilities of the context's registers lose their tags on every core of the context: g0 to g31, pcc, the
pending list, e0 to e7, and DQRING (R177). R58, R231: SYSR defers the register
as it stands; SYSW, SYSS and SYSC write it at their commit: ga, the old value or ga, the old value and not ga. Writing START
(0x018) is the first part; writing KCANCEL (0x021) is here too. That the scrub of every core falls in the step of the start is
the model's choice (log entry 23). -/
def Obligations.SystemRegisterInstructions : Prop :=
  (∀ (s : State) (m : Bool) (ra : Reg), Alone s → capHas (myRegs s).pcc Perm.system = true →
    let x := ctxOf s (myCtx s)
    (((readX s ra).getLsbD 62 = false ∨ revMayStart x = false) →
      ∃ t, exec (.sysw m 0x018 ra) s = .next t ∧ Commits s (inEffect s (.sysw m 0x018 ra) m none) m none none t) ∧
    ((readX s ra).getLsbD 62 = true → revMayStart x = true →
      ∃ t, exec (.sysw m 0x018 ra) s = .next t ∧
        Granted s (.sysw m 0x018 ra) m none (revStart (inEffect s (.sysw m 0x018 ra) m none) (myCtx s)) none t ∧
        (ctxOf t (myCtx s)).revBusy = true ∧ (ctxOf t (myCtx s)).revCount = x.revCount + 1) ∧
    (revMayStart x = true ↔ x.revBusy = false ∧ x.revmap.tag = true ∧ capOtype x.revmap = 0 ∧ capHas x.revmap Perm.load = true)) ∧
  (∀ (s : State) (ctx : BitVec 12) (c l : Nat) (k : Core) (x : Slot),
    let q := squashContext s ctx
    let u := updCtx q ctx.toNat fun y => { y with revBusy := true, revCount := y.revCount + 1, sweep := sweepList q ctx }
    let t := revStart s ctx
    let clean (y : Cap) : Cap := if y.tag = true ∧ painted u ctx y = true then ⟨false, y.img⟩ else y
    revMayStart (ctxOf s ctx) = true → (ctxOf s ctx).savedCores = [] → (ctxOf s ctx).savedClusters = [] → (ctxOf s ctx).parkedMsgs = [] →
      Tbl.find q.cores c = some k → (k.owner ≠ ctx → coreAt t c = k) ∧
        (k.owner = ctx → coreAt t c = scrubCore u ctx k ∧ (coreAt t c).dqring = clean k.dqring ∧
          (∀ n, Tbl.get Cap.null (coreAt t c).engine n = clean (Tbl.get Cap.null k.engine n)) ∧
          (Tbl.find k.slots l = some x → ∃ y, Tbl.find (coreAt t c).slots l = some y ∧ y.regs.pcc = clean x.regs.pcc ∧
            (∀ n, regsG y.regs n = clean (regsG x.regs n)) ∧
            y.regs.pending = x.regs.pending.map fun p => match p with | .g d (some v) => .g d (some (clean v)) | p => p))) ∧
  (∀ (s : State) (m : Bool) (d ra : Reg) (x : BitVec 12), capHas (myRegs s).pcc Perm.system = true →
    let c := meCore s
    let l := meSlot s
    let a := readG s ra
    let done (i : Instr) (v : Cap) : Prop :=
      ∃ t, exec i s = .next t ∧ Commits s (sysWrite (inEffect s i m none) c l x v) m none none t
    (CanDefer s → ∃ t, exec (.sysr m d x) s = .next t ∧ Defers s m (.g d (some (scrubCap s (myCtx s) (sysRead s c l x)))) t) ∧
    (Alone s → x ≠ 0x018 → x ≠ 0x021 → sysWaits s c x = false →
      done (.sysw m x ra) a ∧ done (.syss m x ra) ⟨false, (sysRead s c l x).img ||| a.img⟩ ∧
      done (.sysc m x ra) ⟨false, (sysRead s c l x).img &&& ~~~a.img⟩) ∧
    (Alone s → sysWaits s c x = true → ∃ t, exec (.sysw m x ra) s = .next t ∧ Waits s (.sysw m x ra) m none t) ∧
    (Alone s → ∀ k, let id := (capAddr a).toNat % 2 ^ 16
      kernelAt s (myCtx s) id = some k →
        (k.state = .running → Unheld s (.sysw m 0x021 ra) m none → ∃ t, exec (.sysw m 0x021 ra) s = .next t ∧
          kernelAt t (myCtx s) id = some { k with state := .cancelled }) ∧
        (k.state ≠ .running → ∃ t, exec (.sysw m 0x021 ra) s = .next t ∧ Commits s (inEffect s (.sysw m 0x021 ra) m none) m none none t)))

/-- R142, R177, R183, R200, R201, R210, R231 to R233: what SYSR reads, field by field: the thread's identity and chunk, the clocks and
budgets, the groups and barriers, the deque, the injection rings of the core's die and where each begins and ends, the pass, the lease, and the
windows. -/
def Obligations.SystemRegisterReads : Prop :=
  ∀ (s : State) (c l : Nat), c < 1024 → l < 4 →
    let k := coreAt s c
    let x := slotAt s c l
    let ctx := ctxOf s k.owner
    let v (i : BitVec 12) : W64 := capAddr (sysRead s c l i)
    ((v 0x000).extractLsb' 0 10).toNat = c ∧ ((v 0x000).extractLsb' 10 2).toNat = l ∧ (v 0x000).extractLsb' 12 16 = x.kernel ∧
      (v 0x000).extractLsb' 28 36 = 0 ∧
    (v 0x001).extractLsb' 0 13 = x.limit ∧ (v 0x001).extractLsb' 29 2 = x.cur.squashes ∧ (v 0x001).getLsbD 31 = x.pin ∧
      (v 0x001).extractLsb' 13 16 = 0 ∧ (v 0x001).extractLsb' 32 32 = 0 ∧
    v 0x002 = x.commitStamp ∧ v 0x003 = s.time ∧ v 0x004 = x.prio.setWidth 64 ∧ v 0x006 = k.switchAt ∧
    (∀ n < 4, v (BitVec.ofNat 12 (0x008 + n)) = memberAt k n) ∧
    (v 0x00c).extractLsb' 4 4 = k.phase ∧
      ((v 0x00c).extractLsb' 0 3).toNat = ((List.range 4).filter fun n => (memberAt k n).getLsbD 63).length ∧ (v 0x00c).extractLsb' 8 56 = 0 ∧
    (∀ q, Tbl.find ctx.kernels x.kernel.toNat = some q → v 0x005 = q.left) ∧
    (let d := Tbl.get CtxDie.reset ctx.dies (dieOf c)
     ∀ n < 4, sysRead s c l (BitVec.ofNat 12 (0x014 + n)) = Tbl.get Cap.null d.injring n ∧
       v (BitVec.ofNat 12 (0x024 + n)) = Tbl.get 0 d.injTail n ++ Tbl.get 0 d.injHead n) ∧
    v 0x00d = k.arrived.setWidth 64 ∧ sysRead s c l 0x010 = k.dqring ∧ v 0x011 = k.bottom ++ k.top ∧
    (k.mail.length ≤ 8 → (v 0x012).toNat = k.mail.length) ∧
    (v 0x018).extractLsb' 0 32 = ctx.revCount ∧ (v 0x018).getLsbD 63 = ctx.revBusy ∧ (v 0x018).extractLsb' 32 31 = 0 ∧
    sysRead s c l 0x019 = ctx.revmap ∧ v 0x01a = ctx.revbase ∧
    v 0x020 = (clusterAt s (clusterOf c)).leaseMax.setWidth 64 ∧ sysRead s c l 0x021 = Cap.null ∧ v 0x030 = s.snapTime ∧
    (∀ n < 8, sysRead s c l (BitVec.ofNat 12 (0x040 + n)) = ⟨false, Tbl.get 0 ctx.iaw n⟩) ∧
    (∀ n < 16, sysRead s c l (BitVec.ofNat 12 (0x050 + n)) = ⟨false, Tbl.get 0 ctx.ncw n⟩)

/-- R105, R142, R177, R183, R204, R210, R232, R254, R281: what a committed write leaves in its register; a value that its rule refuses
leaves it as it was, and a register that SYSR alone reaches takes no write. What a MEMBER register keeps with V 0 is the
model's choice (log entry 24), and so is which members' phase bits a join sets, one barrier standing for a channel of one number and GID (log entry 53). -/
def Obligations.SystemRegisterWrites : Prop :=
  ∀ (s : State) (c l : Nat) (v : Cap),
    let k := coreAt s c
    let w := capAddr v
    let t (i : BitVec 12) : State := sysWrite s c l i v
    let ctx (u : State) : Context := ctxOf u k.owner
    let limit := w.toNat % 2 ^ 13
    (∀ i ∈ [0x000, 0x002, 0x003, 0x004, 0x005, 0x00c, 0x00d, 0x011, 0x012, 0x024, 0x025, 0x026, 0x027, 0x030], t i = s) ∧
    (1 ≤ limit → limit ≤ 4096 → (slotAt (t 0x001) c l) = { slotAt s c l with limit := BitVec.ofNat 13 limit }) ∧
    ((limit = 0 ∨ 4096 < limit) → t 0x001 = s) ∧
    coreAt (t 0x006) c = { k with switchAt := w } ∧
    ((ringSize k.dqring = 0 ∨ k.bottom = k.top) → coreAt (t 0x010) c = { k with dqring := scrubCap s k.owner v, bottom := 0, top := 0 }) ∧
    (ringSize k.dqring ≠ 0 → k.bottom ≠ k.top → t 0x010 = s) ∧
    (∀ n < 4,
      let m := memberAt k n
      let depth := ((List.range 4).filter fun j => (memberAt k j).getLsbD 63).length
      let join : Prop := w.getLsbD 63 = true ∧ n = depth ∧ 2 ^ 30 ≤ (w.extractLsb' 32 31).toNat ∧ (w.extractLsb' 26 6).toNat ≤ 39 ∧
        (∀ j < 4, (memberAt k j).getLsbD 63 = true → (memberAt k j).extractLsb' 26 6 ≠ w.extractLsb' 26 6) ∧
        1 ≤ (w.extractLsb' 0 11).toNat ∧ (w.extractLsb' 0 11).toNat ≤ 1024 ∧ (w.extractLsb' 16 10).toNat < (w.extractLsb' 0 11).toNat ∧
        w.extractLsb' 11 5 = 0
      let leave : Prop := w.getLsbD 63 = false ∧ n + 1 = depth ∧ 2 ^ 30 ≤ (m.extractLsb' 32 31).toNat ∧
        k.arrived.getLsbD (m.extractLsb' 26 6).toNat = false
      (join → memberAt (coreAt (t (BitVec.ofNat 12 (8 + n))) c) n = w ∧ (coreAt (t (BitVec.ofNat 12 (8 + n))) c).phase.getLsbD n = false ∧
        ∀ q ∈ barrierMembers s k.owner (w.extractLsb' 32 31) (w.extractLsb' 26 6).toNat, q.1 ≠ c →
          (coreAt (t (BitVec.ofNat 12 (8 + n))) q.1).phase.getLsbD q.2 = false) ∧
      (leave → memberAt (coreAt (t (BitVec.ofNat 12 (8 + n))) c) n = w &&& ~~~0xf800#64 ∧
        (coreAt (t (BitVec.ofNat 12 (8 + n))) c).phase.getLsbD n = false) ∧
      (¬join → ¬leave → t (BitVec.ofNat 12 (8 + n)) = s)) ∧
    ((ctx s).revBusy = false → (ctx (t 0x019)).revmap = v ∧ (ctx (t 0x01a)).revbase = w &&& ~~~0xffff#64) ∧
    ((ctx s).revBusy = true → ctx (t 0x019) = ctx s ∧ ctx (t 0x01a) = ctx s) ∧
    (1 ≤ w.toNat % 2 ^ 9 → w.toNat % 2 ^ 9 ≤ 256 → (clusterAt (t 0x020) (clusterOf c)).leaseMax.toNat = w.toNat % 2 ^ 9) ∧
    ((w.toNat % 2 ^ 9 = 0 ∨ 256 < w.toNat % 2 ^ 9) → t 0x020 = s) ∧
    (∀ n < 8, let x := Tbl.get 0 (ctx (t (BitVec.ofNat 12 (0x040 + n)))).iaw n
      x.getLsbD 127 = v.img.getLsbD 127 ∧ x.extractLsb' 118 9 = 0 ∧ x.extractLsb' 112 6 = v.img.extractLsb' 112 6 ∧
      x.extractLsb' 80 32 = v.img.extractLsb' 80 32 ∧ x.extractLsb' 64 16 = 0 ∧ x.extractLsb' 16 48 = v.img.extractLsb' 16 48 ∧
      x.extractLsb' 0 16 = 0) ∧
    (∀ n < 16, let x := Tbl.get 0 (ctx (t (BitVec.ofNat 12 (0x050 + n)))).ncw n
      x.getLsbD 127 = v.img.getLsbD 127 ∧ x.extractLsb' 105 22 = 0 ∧ x.extractLsb' 64 41 = v.img.extractLsb' 64 41 ∧
      x.extractLsb' 41 23 = 0 ∧ x.extractLsb' 0 41 = v.img.extractLsb' 0 41)

/-! ### Uncached accesses, RAMO and the virtual caches -/

/-- R126, R131, R282: a scalar access to an uncached target is a chunk of its own. A device register answers a load at the commit
and takes a store; the host's I/O memory answers a load by UNCACHED_ANSWER, and a store to it waits for its acknowledgement.
R60, R135: RAMO faults with cause 7 unless its bytes lie in the memory of a cluster of the context that it names; else its old
value is what lies at the address, sign-extended, and it stands in gd once the chunk is committed, when the result is at its home. R284: an
uncached access sets its page's A and D bits. A narrow store's other
bytes (18), which cluster a RAMO may name (33) and the acknowledgement of I/O stores (45) are the model's choice. -/
def Obligations.UncachedAndRemote : Prop :=
  (∀ (s : State) (m : Bool) (d ra : Reg) (off : BitVec 15), Alone s →
    let c := meCore s
    let l := meSlot s
    let k := readG s ra
    let a := effAddr k off
    let loads (i : Instr) (n : Nat) (ext : Nat → W64) : Prop :=
      ∀ g, dataCheck s k a n [Perm.load] false .scalar true = .ok [g] → g.p.uncached = true →
        (isHost g.p.loc = false → ∃ t, exec i s = .next t ∧
          let e := inEffect s i m (some d)
          Commits s (markPage (tlbFill e g.p) (g.p.ia / 2 ^ 16) false) m (some d) (some (capInt (ext (apertureRead e (g.p.loc - 0xf00000000000) n)))) t) ∧
        (isHost g.p.loc = true → ∃ t o, exec i s = .next t ∧ (slotAt t c l).older = some o ∧ o.status = .committing ∧ o.acks = [targetAck] ∧
          ∀ value : W64, ∃ w, exec (.uncachedAnswer (BitVec.ofNat 10 c) (BitVec.ofNat 2 l) value) t = .next w ∧ (slotAt w c l).older = none ∧
            (slotAt w c l).regs = afterMarker m { myRegs s with
              pcc := nextPcc (myRegs s), pending := if d = 0 then [] else [.g d (some (capInt (ext value.toNat)))] })
    let stores (i : Instr) (n : Nat) : Prop :=
      ∀ g, dataCheck s k a n [Perm.store] false .scalar false = .ok [g] → g.p.uncached = true →
        let e := markPage (tlbFill (inEffect s i m none) g.p) (g.p.ia / 2 ^ 16) true
        (isHost g.p.loc = false → ∃ t, exec i s = .next t ∧
          Commits s (apertureWrite e (g.p.loc - 0xf00000000000) n (readX s d).toNat) m none none t) ∧
        (isHost g.p.loc = true → ∃ t, exec i s = .next t ∧
          Commits s (updCore e c fun x => { x with ioStores := x.ioStores ++ [⟨l, g.p.loc, n, readX s d⟩] }) m none none t)
    loads (.lb m d ra off) 1 (fun v => (BitVec.ofNat 8 v).signExtend 64) ∧ loads (.lbu m d ra off) 1 (fun v => (BitVec.ofNat 8 v).setWidth 64) ∧
    loads (.lh m d ra off) 2 (fun v => (BitVec.ofNat 16 v).signExtend 64) ∧ loads (.lhu m d ra off) 2 (fun v => (BitVec.ofNat 16 v).setWidth 64) ∧
    loads (.lw m d ra off) 4 (fun v => (BitVec.ofNat 32 v).signExtend 64) ∧ loads (.lwu m d ra off) 4 (fun v => (BitVec.ofNat 32 v).setWidth 64) ∧
    loads (.ld m d ra off) 8 (fun v => BitVec.ofNat 64 v) ∧
    stores (.sb m d ra off) 1 ∧ stores (.sh m d ra off) 2 ∧ stores (.sw m d ra off) 4 ∧ stores (.sd m d ra off) 8) ∧
  (∀ (s : State) (m : Bool) (d ra : Reg) (cl : BitVec 7) (op : AmoOp) (dbl : Bool), Alone s →
    let k := readG s ra
    let n := if dbl then 8 else 4
    let a := (capAddr k).toNat
    checkAccess k a n Perm.load false = none → capHas k Perm.store = true → a % n = 0 →
      ∀ g, dataCheck s k a n [] false .never false = .ok [g] →
        (¬(ownsCluster s (myCtx s) cl.toNat = true ∧ isClusterMem g.p.loc = true ∧ clusterOfKey g.p.loc = cl.toNat) →
          exec (.ramo m d ra cl op dbl) s =
            .next (raise (issueWalked s (.ramo m d ra cl op dbl) Code.mapFault) (.ramo m d ra cl op dbl) Code.mapFault (BitVec.ofNat 64 (7 * 2 ^ 60 + g.p.ia)))) ∧
        (ownsCluster s (myCtx s) cl.toNat = true → isClusterMem g.p.loc = true → clusterOfKey g.p.loc = cl.toNat →
          segPoisoned s (mySlot s) false g = false → peekSegs s (meCore s) a n true = .ok [g] →
          let i : Instr := .ramo m d ra cl op dbl
          let w := enterLine (enterLine s (g.p.ia / 128) false) (g.p.ia / 128) true
          Asks s w → Unheld w i m (some d) →
          let old := agentBytes s [g]
          let put := ramoPut (inEffect w i m (some d)) (meCore s) (amoResult op n old (readX s d).toNat) g
          let u := put.cores.foldl (fun x k => if k.1 == meCore s then x else testCore x k.1 [g.p.ia / 128]) put
          ∃ t, exec i s = .next t ∧
            Takes w i m (some d) u (some (capInt (if dbl then BitVec.ofNat 64 old else (BitVec.ofNat 32 old).signExtend 64))) t))

/-- R308 to R312: the virtual cache instructions evaluate their conditions at the commit and defer the word; VCQUERY reads at
issue; PFRANGE places its entry in the copy sequencer's queue, without the painted capabilities of a pass (R107). The status words of log entry 28 are the model's choice. -/
def Obligations.VirtualCacheInstructions : Prop :=
  ∀ (s : State) (m : Bool) (d ra rb : Reg),
    let c := meCore s
    let l := meSlot s
    let ctx := myCtx s
    let a := readG s ra
    let b := readG s rb
    let gives (i : Instr) (f : State → State × W64) : Prop :=
      let r := f (inEffect s i m (some d))
      ∃ t, exec i s = .next t ∧ Commits s r.1 m (some d) (some (capInt r.2)) t
    let reads (i : Instr) (f : State → State × W64) : Prop :=
      let r := f (inEffect s i m (some d))
      Unheld s i m (some d) → ∃ t, exec i s = .next t ∧ Takes s i m (some d) r.1 (some (capInt r.2)) t
    let mask (i : Instr) (v : Nat) : Prop := checkAligned b (capAddr b).toNat 192 64 [Perm.load] = none ∧
      (∃ g, peekSegs s c (capAddr b).toNat 192 true = .ok g) ∧
        let e := inEffect s i m (some d)
        ∃ g, peekSegs e c (capAddr b).toNat 192 true = .ok g ∧ peekBytes e c l g = v
    let authority : Prop := checkAccess a (capDecode a).1 ((capDecode a).2 - (capDecode a).1) Perm.vcbind false = none
    (Alone s →
      (∀ v, mask (.vcdef m d ra rb) v → reads (.vcdef m d ra rb) (fun e => vcdefEffect e ctx (capAddr a) v)) ∧
      (∀ v, mask (.vcreshape m d ra rb) v → reads (.vcreshape m d ra rb) (fun e => vcreshapeEffect e ctx (capAddr a) v)) ∧
      (authority → gives (.vcbind m d ra rb) (fun e => vcbindEffect e ctx a (capAddr b)) ∧
        gives (.vcreparent m d ra rb) (fun e => vcreparentEffect e ctx a (capAddr b))) ∧
      gives (.vcfree m d ra) (fun e => vcfreeEffect e ctx (capAddr a)) ∧
      (checkPerms a (capAddr a).toNat ((capAddr b).toNat % 2 ^ 32) false [Perm.load, Perm.vcbind] = none →
        (clusterAt s (myCluster s)).copy.queue.length < 16 →
          ∃ t u x, exec (.pfrange m d ra rb) s = .next t ∧ Commits s u m (some d) (some (capInt s.stamp)) t ∧
            (clusterAt t (myCluster s)).copy.queue = (clusterAt s (myCluster s)).copy.queue ++ [x] ∧ x.range = some (scrubCap s ctx a) ∧ x.program = none ∧
            x.table = Tbl.mapVal (myCore s).engine (fun _ k => scrubCap s ctx k) ∧ x.stamp = s.stamp ∧ (mySlot u).outstanding = (mySlot s).outstanding ++ [x.id])) ∧
    (CanDefer s → ∃ t w, exec (.vcquery m d ra) s = .next t ∧ DefersX s m d w t ∧
      let x := ctxOf s ctx
      let id := (capAddr (regsG (deferSlot s).regs ra)).toNat % 32
      let v := vcAt x id
      (id = 0 → w = 0x1f02#64) ∧ ((16 < id ∨ (1 ≤ id ∧ v.state = .undefined)) → w = 0#64) ∧
      (1 ≤ id → id ≤ 16 → v.state ≠ .undefined → v.parent < 32 → v.geo.ways < 32 → v.geo.banks.length < 2048 → x.binds.length ≤ 32 →
        (childrenOf x id).length < 32 → vcDepth x id < 8 →
        (w.extractLsb' 0 3).toNat = vcCode v.state ∧ (w.extractLsb' 8 5).toNat = v.parent ∧ (w.extractLsb' 13 3).toNat = vcDepth x id ∧
        (w.extractLsb' 16 5).toNat = v.geo.ways ∧ (w.extractLsb' 21 11).toNat = v.geo.banks.length ∧
        (w.extractLsb' 32 6).toNat = (x.binds.filter fun y => y.leaf == id).length ∧ (w.extractLsb' 38 5).toNat = (childrenOf x id).length ∧
        w.extractLsb' 43 21 = 0))

/-- R302, R309, R310: what the instructions that shape a virtual cache do, and the lowest code of what refuses them, which changes
nothing. R304: a reshape claims a new geometry, at once in DEFINED and beside the old one in BOUND. R306: a binding flushes its region from
the path it had and joins or replaces the binding with its range. R305: a new parent is taken at once in DEFINED and as the one to come in
BOUND. Which caches count as a parent is the model's choice where a re-parenting is under way (log entry 28). -/
def Obligations.VirtualCacheShapes : Prop :=
  ∀ (s : State) (ctx : BitVec 12) (d : W64) (mask : Nat) (auth : Cap) (id : Nat),
    let c := ctxOf s ctx
    let banks := (List.range 1536).filter fun n => mask / 2 ^ n % 2 == 1
    let ways := (d.extractLsb' 0 5).toNat
    let parent := (d.extractLsb' 8 5).toNat
    let word (id status : Nat) : W64 := BitVec.ofNat 64 (id * 256 + status)
    (∀ n ∈ [1, 2, 3, 4, 5, 6, 7, 8, 9], ∀ t,
      (vcdefEffect s ctx d mask = (t, word 0 n) → t = s) ∧ (∀ i < 32, vcreshapeEffect s ctx d mask = (t, word i n) → t = s) ∧
      (∀ i < 32, vcbindEffect s ctx auth d = (t, word i n) → t = s) ∧ (∀ i < 32, vcreparentEffect s ctx auth d = (t, word i n) → t = s) ∧
      (∀ i < 32, vcfreeEffect s ctx d = (t, word i n) → t = s)) ∧
    ((∀ i, 1 ≤ i → i ≤ 16 → vcState c i ≠ .undefined) → vcdefEffect s ctx d mask = (s, word 0 1)) ∧
    (1 ≤ id → id ≤ 16 → vcState c id = .undefined → (∀ i, 1 ≤ i → i < id → vcState c i ≠ .undefined) →
      ((ways = 0 ∨ 16 < ways ∨ banks = [] ∨ d.extractLsb' 16 48 ≠ 0 ∨ (16 < parent ∧ parent ≠ 31)) → vcdefEffect s ctx d mask = (s, word 0 2)) ∧
      (d.extractLsb' 13 51 = 0 → d.extractLsb' 5 3 = 0 → 1 ≤ ways → ways ≤ 16 → (∃ n, banks.length = 2 ^ n) → (parent = 0 ∨ parent = 31) →
        (claimable s banks ways = none → vcdefEffect s ctx d mask = (s, word 0 3)) ∧
        (∀ g, claimable s banks ways = some g →
          (c.quota.toNat < slicesHeld c + banks.length * ways → vcdefEffect s ctx d mask = (s, word 0 4)) ∧
          (slicesHeld c + banks.length * ways ≤ c.quota.toNat → ∃ t, vcdefEffect s ctx d mask = (t, word id 0) ∧
            vcAt (ctxOf t ctx) id = ⟨.defined, g, none, parent, 0⟩ ∧ g.ways = ways ∧ g.banks = banks ∧
            g.slices = banks.flatMap fun b => ((freeWays s b).take ways).map fun w => b * 16 + w)))) ∧
    (let i := (d.extractLsb' 16 5).toNat
     let v := vcAt c i
     let n := banks.length * ways
     d.extractLsb' 21 43 = 0 → d.extractLsb' 5 11 = 0 → 1 ≤ ways → ways ≤ 16 → (∃ n, banks.length = 2 ^ n) →
      (claimable s banks ways = none → vcreshapeEffect s ctx d mask = (s, word i 3)) ∧
      (∀ g, claimable s banks ways = some g →
        let taken (t : State) : Prop := ∀ x ∈ g.slices, x ∉ v.geo.slices → Tbl.find t.slices x = some (ctx.toNat * 32 + i)
        (v.state ≠ .defined → c.quota.toNat < slicesHeld c + n → vcreshapeEffect s ctx d mask = (s, word i 4)) ∧
        ((i = 0 ∨ 16 < i ∨ (v.state ≠ .defined ∧ v.state ≠ .bound)) → v.state ≠ .defined → slicesHeld c + n ≤ c.quota.toNat →
          vcreshapeEffect s ctx d mask = (s, word i 6)) ∧
        (1 ≤ i → i ≤ 16 → v.state = .defined →
          (c.quota.toNat < slicesHeld c - v.geo.slices.length + n → vcreshapeEffect s ctx d mask = (s, word i 4)) ∧
          (slicesHeld c - v.geo.slices.length + n ≤ c.quota.toNat → ∃ t, vcreshapeEffect s ctx d mask = (t, word i 0) ∧
            vcAt (ctxOf t ctx) i = { v with geo := g } ∧ taken t)) ∧
        (1 ≤ i → i ≤ 16 → v.state = .bound → slicesHeld c + n ≤ c.quota.toNat → ∃ t, vcreshapeEffect s ctx d mask = (t, word i 0) ∧
          vcAt (ctxOf t ctx) i = { v with state := .reshaping, geo := g, old := some v.geo } ∧ taken t))) ∧
    (let i := (d.extractLsb' 0 5).toNat
     let st := vcState c i
     let leaf : Prop := 1 ≤ i ∧ i ≤ 16 ∧ (st = .defined ∨ st = .bound)
     let bound (t : State) : Prop := ∀ j, vcState (ctxOf t ctx) j = if j = i ∧ 1 ≤ i then .bound else vcState c j
     d.extractLsb' 5 59 = 0 →
      (i ≠ 0 → ¬leaf → vcbindEffect s ctx auth d = (s, word i 6)) ∧
      (leaf → c.binds.length < 32 → (authorityImage s ctx auth = none ∨ isParent c i = true) → vcbindEffect s ctx auth d = (s, word i 8)) ∧
      (∀ b n, authorityImage s ctx auth = some (b, n) →
        let old := c.binds.find? fun x => x.base == b && x.len == n
        let aligned : Prop := b % 65536 = 0 ∧ n % 65536 = 0
        (leaf → c.binds.length < 32 → ¬aligned → vcbindEffect s ctx auth d = (s, word i 8)) ∧
        (i = 0 → old = none → vcbindEffect s ctx auth d = (s, word i 8)) ∧
        (leaf → old = none → 32 ≤ c.binds.length → vcbindEffect s ctx auth d = (s, word i 7)) ∧
        (leaf → old = none → c.binds.length < 32 → (∃ x ∈ c.binds, x.base < b + n ∧ b < x.base + x.len) →
          vcbindEffect s ctx auth d = (s, word i 8)) ∧
        (leaf → aligned → isParent c i = false → old = none → c.binds.length < 32 → (∀ x ∈ c.binds, ¬(x.base < b + n ∧ b < x.base + x.len)) →
          ∃ t, vcbindEffect s ctx auth d = (t, word i 0) ∧ (ctxOf t ctx).binds = (c.binds.filter fun x => !(x.base == b && x.len == n)) ++ [⟨b, n, i⟩] ∧
            bound t ∧ t.mem = (flushMove s ctx b n 0 i).mem ∧ t.banks = (flushMove s ctx b n 0 i).banks) ∧
        ((i = 0 ∨ (leaf ∧ isParent c i = false)) → aligned → ∀ y, old = some y → ∃ t, vcbindEffect s ctx auth d = (t, word i 0) ∧
          (ctxOf t ctx).binds = (c.binds.filter fun x => !(x.base == b && x.len == n)) ++ (if i = 0 then [] else [⟨b, n, i⟩]) ∧
          bound t ∧ t.mem = (flushMove s ctx b n y.leaf i).mem ∧ t.banks = (flushMove s ctx b n y.leaf i).banks))) ∧
    (let i := (d.extractLsb' 0 5).toNat
     let v := vcAt c i
     let p := (d.extractLsb' 8 5).toNat
     let child : Prop := 1 ≤ i ∧ i ≤ 16 ∧ (v.state = .defined ∨ v.state = .bound)
     let covers : Prop := ∃ b n, authorityImage s ctx auth = some (b, n) ∧
       ∀ x ∈ c.binds, (chainOf c x.leaf).contains i = true → b ≤ x.base ∧ x.base + x.len ≤ b + n
     d.extractLsb' 13 51 = 0 → d.extractLsb' 5 3 = 0 →
      (16 < p → p ≠ 31 → vcreparentEffect s ctx auth d = (s, word i 2)) ∧
      ((1 ≤ p ∧ p ≤ 16 ∧ (vcState c p = .undefined ∨ vcState c p = .draining ∨ (∃ x ∈ c.binds, x.leaf = p) ∨ (chainOf c p).contains i = true)) →
        vcreparentEffect s ctx auth d = (s, word i 5)) ∧
      (reparentBad c i p = false → (p ≤ 16 ∨ p = 31) →
        ((¬child ∨ (1 ≤ p ∧ p ≤ 16 ∧ (vcState c p = .reshaping ∨ vcState c p = .reparenting))) → vcreparentEffect s ctx auth d = (s, word i 6)) ∧
        (child → ¬(1 ≤ p ∧ p ≤ 16 ∧ (vcState c p = .reshaping ∨ vcState c p = .reparenting)) →
          (¬covers → vcreparentEffect s ctx auth d = (s, word i 8)) ∧
          (covers → ∃ t, vcreparentEffect s ctx auth d = (t, word i 0) ∧ (1 ≤ p → p ≤ 16 → vcState (ctxOf t ctx) p = .bound) ∧
            vcAt (ctxOf t ctx) i = if v.state = .defined then { v with parent := p } else { v with state := .reparenting, newParent := p })))) ∧
    (let i := (d.extractLsb' 0 5).toNat
     let st := vcState c i
     d.extractLsb' 5 59 = 0 →
      ((i = 0 ∨ 16 < i ∨ (st ≠ .defined ∧ st ≠ .bound)) → vcfreeEffect s ctx d = (s, word i 6)) ∧
      (1 ≤ i → i ≤ 16 → (st = .defined ∨ st = .bound) → isParent c i = true → vcfreeEffect s ctx d = (s, word i 9)) ∧
      (1 ≤ i → i ≤ 16 → isParent c i = false → (st = .defined → ∃ t, vcfreeEffect s ctx d = (t, word i 0) ∧ vcState (ctxOf t ctx) i = .undefined) ∧
        (st = .bound → ∃ t, vcfreeEffect s ctx d = (t, word i 0) ∧ vcState (ctxOf t ctx) i = .draining ∧
          ∀ b ∈ (ctxOf t ctx).binds, b.leaf ≠ i)))
/-! ### The matrix array and the copy engine -/

/-- R240 to R250, R253, R255: the commands of the matrix sequencer. MSWAP exchanges the planes, MZERO clears accumulator rows,
MLDW puts its scales and then its weights into the shadow plane, MSTRM waits for a token, then for what is registered before it (R152), and
then accumulates row by row,
MSTORE writes converted rows, MEND completes its entry. A field outside its range, and a plane that is not READY, stop the
program with the causes of R243. The small readings of log entry 26 and the array cycles of MLDW (log entry 15) are the
model's. R31 to R35: the second part gives the arithmetic of one output column as the row enters it, course by course, and the output formats. -/
def Obligations.MatrixCommands : Prop :=
  (∀ (s : State) (e : Entry) (fmt : MFmt) (went sent : EReg) (woff soff : W32) (stride : BitVec 16) (acc : Coord)
      (rows rowoff : BitVec 11) (ofmt : OFmt) (nosat clear : Bool) (c7 : BitVec 7),
    let cl := turnCluster s
    let k := clusterAt s cl
    s.Inv → matrixEntry s cl = some e →
      let stops (i : Instr) (cause : Nat) : Prop := exec i s = .next (stopCommand s cl false i Code.engine (BitVec.ofNat 64 cause))
      let inRange : Prop := 1 ≤ rows.toNat ∧ acc.toNat + rows.toNat ≤ 1024
      let mldw : Instr := .mldw fmt went sent woff soff
      let mstrm (from_ : BitVec 11) : Instr := .mstrm fmt went sent woff soff stride acc rows from_
      let w := areaOf e went woff.toNat 65536
      let sc := areaOf e sent soff.toNat 1024
      let m : Stream := ⟨fmt, went, sent, woff, soff, stride, acc, rows, rowoff⟩
      (k.loading = none → k.shadow.state = .ready → ∃ t, exec .mswap s = .next t ∧ CommandDone s cl false e t ∧ ArrayOnly s cl e t ∧
        (clusterAt t cl).active = k.shadow ∧ (clusterAt t cl).shadow = k.active ∧ (clusterAt t cl).acc = k.acc) ∧
      (k.loading = none → k.shadow.state ≠ .ready → stops .mswap 17) ∧
      (inRange → ∃ t, exec (.mzero acc rows) s = .next t ∧ CommandDone s cl false e t ∧ ArrayOnly s cl e t ∧
        (clusterAt t cl).active = k.active ∧ (clusterAt t cl).shadow = k.shadow ∧
        ∀ r, Tbl.get 0 (clusterAt t cl).acc r = if acc.toNat ≤ r ∧ r < acc.toNat + rows.toNat then 0 else Tbl.get 0 k.acc r) ∧
      (¬inRange → stops (.mzero acc rows) 16 ∧ stops (.mstore ofmt nosat clear went woff stride acc rows) 16) ∧
      (k.loading = none → ∃ t, exec .mend s = .next t ∧ ArrayOnly s cl e t ∧ (clusterAt t cl).active = k.active ∧
        (clusterAt t cl).shadow = k.shadow ∧ (clusterAt t cl).acc = k.acc ∧ (clusterAt t cl).matrix.command = none ∧
        (seqEntries (clusterAt t cl).matrix).map (·.id) = (seqEntries k.matrix).tail.map (·.id) ∧
        e.id ∉ (slotAt t e.core.toNat e.slot.toNat).outstanding) ∧
      (k.loading = none → k.matrix.position ≠ 1 → (woff.toNat % 128 ≠ 0 ∨ soff.toNat % 64 ≠ 0) → stops mldw 16) ∧
      (k.loading = none → k.matrix.position ≠ 1 → woff.toNat % 128 = 0 → soff.toNat % 64 = 0 →
        ∀ segs, matrixAreas s cl e [Perm.load, Perm.engine] (if fmt == .bf16 then [[w]] else [[w], [sc]]) = .ok segs →
          let loads (scales : BitVec 8192) : Prop := ∃ t, exec mldw s = .next t ∧
            (clusterAt t cl).loading = some ⟨e, mldw, entryAt e, BitVec.ofNat 64 w.addr, fmt⟩ ∧
            (clusterAt t cl).shadow = { k.shadow with state := .loading, scales := scales } ∧
            (clusterAt t cl).active = k.active ∧ (clusterAt t cl).acc = k.acc
          (fmt = .bf16 → loads k.shadow.scales) ∧
          (fmt ≠ .bf16 → ∀ g, areasSegs s cl e.ctx false [sc] = .ok g → engineWaits s (.matrix cl) (linesOf g) [] = false →
            badScale s g sc.addr (agentBytes s g) 256 = none → loads (BitVec.ofNat 8192 (agentBytes s g)))) ∧
      (∀ l g, (clusterAt s c7.toNat).loading = some l → loadReady s c7.toNat = true →
        agentSegsFrom s (.cluster c7.toNat) l.entry.ctx l.addr.toNat 65536 true = .ok g → ∃ t, exec (.mldwWeightsComplete c7) s = .next t ∧
          (clusterAt t c7.toNat).loading = none ∧ t.stamp = s.stamp + 1 ∧
          (clusterAt t c7.toNat).shadow = { (clusterAt s c7.toNat).shadow with
            state := .ready, mode := l.mode, weights := BitVec.ofNat 524288 (agentBytes s g) } ∧
          (clusterAt t c7.toNat).active = (clusterAt s c7.toNat).active ∧ (clusterAt t c7.toNat).acc = (clusterAt s c7.toNat).acc) ∧
      (k.token = false → k.waiting = none → ∀ n, streamFields k m = some n → stops (mstrm rowoff) n) ∧
      (k.token = false → streamFields k m = none → rows ≠ rowoff → k.waiting = none →
        ∀ g, matrixAreas s cl e [Perm.load, Perm.engine] (if fmt == .bf16 then [(streamRows m).map (actRow e m)]
            else [(streamRows m).map (actRow e m), (streamRows m).map (scaleRow e m)]) = .ok g → ∃ t, exec (mstrm rowoff) s = .next t ∧
            (clusterAt t cl).waiting = some s.cycle ∧ (clusterAt t cl).matrix.command = some (mstrm rowoff) ∧
            (clusterAt t cl).acc = k.acc ∧ t.mem = s.mem ∧ ∀ c, coreAt t c = coreAt s c) ∧
      (k.token = true → rowoff.toNat < rows.toNat →
        (streaming s cl = true ∨ ∀ g, streamSegs s cl e m = .ok g → engineWaits s (.matrix cl) (linesOf g) [] = false) →
        ∀ ga v, agentSegsFrom s (.cluster cl) e.ctx (actRow e m rowoff.toNat).addr (rowSize fmt) true = .ok ga →
          (if fmt == .bf16 then v = 0 else ∃ gs, agentSegsFrom s (.cluster cl) e.ctx (scaleRow e m rowoff.toNat).addr 64 false = .ok gs ∧
            v = agentBytes s gs ∧ badScale s gs (scaleRow e m rowoff.toNat).addr v 16 = none) →
          let row (r : Nat) : BitVec 8192 := if r = acc.toNat + rowoff.toNat then accumulate fmt k.active (agentBytes s ga) v (Tbl.get 0 k.acc r)
            else Tbl.get 0 k.acc r
          ((s.eager = false ∨ rows.toNat = rowoff.toNat + 1) → ∃ t, exec (mstrm rowoff) s = .next t ∧
            (∀ r, Tbl.get 0 (clusterAt t cl).acc r = row r) ∧ (clusterAt t cl).active = k.active ∧ (clusterAt t cl).shadow = k.shadow ∧
            (s.eager = false → (clusterAt t cl).token = true ∧
              (clusterAt t cl).matrix.command = some (mstrm (BitVec.ofNat 11 (rowoff.toNat + 1)))) ∧
            (s.eager = true → (clusterAt t cl).token = false ∧ CommandDone s cl false e t))) ∧
      (inRange → woff.toNat % 64 = 0 → stride.toNat % 64 = 0 → 256 * outSize ofmt ≤ stride.toNat →
        let area (r : Nat) : Area := areaOf e went (woff.toNat + r * stride.toNat) (256 * outSize ofmt)
        ∀ g, matrixAreas s cl e [Perm.store, Perm.engine] [(List.range rows.toNat).map area] = .ok g →
          engineWaits s (.matrix cl) [] (linesOf g) = false →
          ∃ t, exec (.mstore ofmt nosat clear went woff stride acc rows) s = .next t ∧ t.stamp = s.stamp + 1 ∧ CommandDone s cl false e t ∧
            (∀ r, Tbl.get 0 (clusterAt t cl).acc r =
              if clear = true ∧ acc.toNat ≤ r ∧ r < acc.toNat + rows.toNat then 0 else Tbl.get 0 k.acc r) ∧
            ∃ (T : Nat → State) (z : Tbl (BitVec 8192)), T 0 = s ∧
              (∀ r < rows.toNat, T (r + 1) = (match agentSegsFrom (T r) (.cluster cl) e.ctx (area r).addr (256 * outSize ofmt) false with
                | .error _ => T r
                | .ok h => agentTouch (agentPut (T r) (storeRow ofmt nosat (Tbl.get 0 k.acc (acc.toNat + r))) h) true h)) ∧
              .next t = commandDone (if clear then updCluster (T rows.toNat) cl fun q => { q with acc := z } else T rows.toNat) cl e (linesOf g))) ∧
  (∀ (amode : MFmt) (p : Plane) (row scales j : Nat) (acc : BitVec 8192), j < 256 →
    let old := (acc.extractLsb' (32 * j) 32).toNat
    let new := (accumulate amode p row scales acc).extractLsb' (32 * j) 32
    let value (m : MFmt) (x : Nat) : FVal := match m with
      | .int8 => floatOfInt (signedOf 8 x)
      | .e5m2 => floatValue .e5m2 x
      | _ => floatValue .e4m3 x
    let units (v : FVal) : Int := match v with
      | .fin neg m e => if neg then -(m * 2 ^ (e + 32).toNat : Nat) else (m * 2 ^ (e + 32).toNat : Nat)
      | _ => 0
    (amode ≠ .bf16 → p.mode ≠ .bf16 → ∃ T : Nat → Nat, T 0 = old ∧ new = BitVec.ofNat 32 (T 16) ∧
      ∀ c < 16, ∃ G : FVal,
        let q := fMul .f32 .rne (scales / 2 ^ (32 * c) % 2 ^ 32) (p.scales.extractLsb' (512 * c + 32 * (j / 16)) 32).toNat
        let P (i : Nat) : FVal := floatMul (value amode (row / 2 ^ (8 * (16 * c + i)) % 256))
          (value p.mode (p.weights.extractLsb' (2048 * (16 * c + i) + 8 * j) 8).toNat)
        let S : Int := ((List.range 16).map fun i => units (P i)).sum
        T (c + 1) = fAdd .f32 .rne (T c) (f32Of (floatMul G (floatValue .f32 q))) ∧
        (((∃ i < 16, P i = .nan) ∨ (∃ i < 16, P i = .inf false) ∧ ∃ i < 16, P i = .inf true) → G = .nan) ∧
        (∀ neg, (∀ i < 16, P i ≠ .nan ∧ P i ≠ .inf !neg) → (∃ i < 16, P i = .inf neg) → G = .inf neg) ∧
        ((∀ i < 16, P i ≠ .nan ∧ ∀ neg, P i ≠ .inf neg) → G = if S = 0 then .zero false else .fin (S < 0) S.natAbs (-32))) ∧
    (amode = .bf16 → 128 ≤ j → new.toNat = old) ∧
    (amode = .bf16 → j < 128 → ∃ T : Nat → Nat, T 0 = old ∧ new = BitVec.ofNat 32 (T 256) ∧
      ∀ k < 256, T (k + 1) = f32Of (floatAdd .rne (floatValue .f32 (T k))
        (floatMul (floatValue .bf16 (row / 2 ^ (16 * k) % 65536)) (floatValue .bf16 (p.weights.extractLsb' (2048 * k + 16 * j) 16).toNat)))) ∧
    (∀ (f : OFmt) (nosat : Bool),
      let w := 8 * outSize f
      let out := storeRow f nosat acc / 2 ^ (w * j) % 2 ^ w
      (f = .fp32 → out = old) ∧ (f = .bf16 → out = floatRound .bf16 .rne false (floatValue .f32 old) % 2 ^ 16) ∧
      (f = .e4m3 → out = floatRound .e4m3 .rne (!nosat) (floatValue .f32 old) % 2 ^ 8) ∧
      (f = .e5m2 → out = floatRound .e5m2 .rne (!nosat) (floatValue .f32 old) % 2 ^ 8)))

/-- R264 to R273: the commands of the copy sequencer. A command whose checks pass starts at its first chunk; one with a field
outside its range stops with cause 32. A chunk reads the ranges and writes the ranges named here, ends at the next multiple of
2,048 bytes of its destination, and goes on or completes the command; CEND completes its entry. `runChunk` is one engine chunk
over such ranges. CPYU reads its length and its key once, in its first chunk (R271). The small readings of log entry 26 are the model's.
R267, R274, R360: the second part says what a chunk of one range leaves: its destination's parts are written at their home with the tags that the
rule keeps, and units that the chunk covers lose their poison; what a line is under such a write; and how a sync word counts. -/
def Obligations.CopyCommands : Prop :=
  (∀ (s : State) (e : Entry) (tags bar : Bool) (dst src ient yent : EReg) (doff soff len ioff yoff val target ss ds : W32)
      (rows : BitVec 12) (rowlen : BitVec 20) (count : BitVec 17) (esize : BitVec 2) (slot : Byte) (ch : BitVec 6) (y : SyncRef),
    let cl := turnCluster s
    let q := (clusterAt s cl).copy
    (seqEntries q).head? = some e →
      let p := q.position
      let d := areaOf e dst doff.toNat len.toNat
      let sr := areaOf e src soff.toNat len.toNat
      let sy := syncArea e y
      let upTo2048 (a n : Nat) : Nat := min n (2048 - a % 2048)
      let starts (i : Instr) (l : List W32) : Prop := q.command ≠ some i → exec i s = exec i (copyStart s cl i l)
      let refuses (i : Instr) : Prop := q.command ≠ some i → exec i s = .next (stopCopy s cl i Code.engine 32)
      let goesOn (i : Instr) (last : Bool) (w : State) : Prop := q.command = some i → (last = true ∨ s.eager = false) →
        (last = true → (clusterAt w cl).copy.command ≠ some i) →
          exec i s = .next w ∧ exec (.copyEngineChunk (BitVec.ofNat 7 cl)) s = .next w
      let chunk (i : Instr) (a b : List (Nat × Nat)) (n : Nat) (sync : List Area) (rule : TagRule) (f : List Nat → List Nat)
          (pos moved : Nat) (last : Bool) : Prop := ∀ u, runChunk s cl e ⟨a, b, n⟩ sync rule f = .done u → u.stamp = s.stamp + 1 ∧
        goesOn i last (if last then finishCommand (advance u cl pos moved) cl true else advance u cl pos moved)
      let cpy : Instr := .cpy tags dst src doff soff len y
      let cpy2d : Instr := .cpy2d tags dst src doff soff rows rowlen ss ds y
      let cpyg : Instr := .cpyg tags dst src ient doff soff count ioff esize y
      let cfill : Instr := .cfill dst doff len val y
      let cpyu : Instr := .cpyu dst src doff soff len slot y
      let cpfr : Instr := .cpfr src soff len bar ch y
      let csync : Instr := .csync yent target yoff
      let n := upTo2048 (d.addr + p) (len.toNat - p)
      (len ≠ 0 → (tags = true → d.addr % 16 = 0 ∧ sr.addr % 16 = 0 ∧ len.toNat % 16 = 0) → copyAreas s e [sr] [d] y = none → starts cpy []) ∧
      (len = 0 → refuses cpy ∧ refuses cfill ∧ refuses cpyu ∧ refuses cpfr) ∧
      (p < len.toNat → chunk cpy [(sr.addr + p, n)] [(d.addr + p, n)] n sy (if tags then some (sr.cap, d.cap) else none) id
        (p + n) n (len.toNat ≤ p + n)) ∧
      ((rows = 0 ∨ rowlen = 0) → refuses cpy2d) ∧
      (let r := p / rowlen.toNat
       let off := p % rowlen.toNat
       let da := areaOf e dst (doff.toNat + r * ds.toNat + off) 0
       let sa := areaOf e src (soff.toNat + r * ss.toNat + off) 0
       let n := upTo2048 da.addr (rowlen.toNat - off)
       rowlen ≠ 0 → chunk cpy2d [(sa.addr, n)] [(da.addr, n)] n sy (if tags then some (sa.cap, da.cap) else none) id
         (p + n) n (rows.toNat * rowlen.toNat ≤ p + n)) ∧
      (rows ≠ 0 → rowlen ≠ 0 → tags = false →
        copyAreas s e ((List.range rows.toNat).map fun k => areaOf e src (soff.toNat + k * ss.toNat) rowlen.toNat)
          ((List.range rows.toNat).map fun k => areaOf e dst (doff.toNat + k * ds.toNat) rowlen.toNat) y = none → starts cpy2d []) ∧
      ((count = 0 ∨ 65536 < count.toNat) → refuses cpyg) ∧
      (let es := if esize = 3 then 64 else 4 * 2 ^ esize.toNat
       let d := areaOf e dst doff.toNat (count.toNat * es)
       let m := gatherRun d.addr es p count.toNat
       (count ≠ 0 → count.toNat ≤ 65536 → tags = false → ∀ l, cpygCheck s e dst src ient doff soff count.toNat ioff es y = .ok l → starts cpyg l) ∧
       chunk cpyg ((List.range m).map fun j => ((areaOf e src (soff.toNat + (q.offsets.getD (p + j) 0).toNat) es).addr, es))
         ((List.range m).map fun j => (d.addr + es * (p + j), es)) (es * m) sy (if tags then some (entryCap e src, d.cap) else none) id
         (p + m) (es * m) (count.toNat ≤ p + m)) ∧
      (len ≠ 0 → copyAreas s e [] [d] y = none → starts cfill []) ∧
      (p < len.toNat → chunk cfill [] [(d.addr + p, n)] n sy none (fun _ => [fillBytes val p n]) (p + n) n (len.toNat ≤ p + n)) ∧
      (∀ key, modelKey s e.ctx slot = some key →
        (len ≠ 0 → copyAreas s e [areaOf e src soff.toNat (len.toNat + 32)] [d] y = none → inClusters s e (some cl) d = none → starts cpyu []) ∧
        (p = 0 → len ≠ 0 → ∀ h, rangesSegs s e true [(sr.addr, 16)] = .ok h → engineWaits s (.copy cl) (linesOf h.flatten) [] = false →
          let head := agentBytes s h.flatten
          let k := unsealStart key head
          (head / 2 ^ 96 = len.toNat → ∀ g u, rangesSegs s e true [(sr.addr + 16, n)] = .ok g →
            let text := agentBytes s g.flatten
            runChunk s cl e ⟨[(sr.addr, 16), (sr.addr + 16, n)], [(d.addr, n)], n⟩ [] none
              (fun _ => [unsealText (unsealKey k) k 0 n text]) = .done u →
              goesOn cpyu false (updSeq (advance u cl n n) cl true fun x =>
                { x with gcm := unsealFeed (gcmSubkey (unsealKey k)) k (bytesOf text n) })) ∧
          (head / 2 ^ 96 ≠ len.toNat → q.command = some cpyu → s.eager = false →
            exec cpyu s = .next (stopCopy s cl cpyu Code.engine (copyInfo 0 35))))) ∧
      (let k := q.gcm
       let key := unsealKey k
       (0 < p → p < len.toNat → ∀ g u, rangesSegs s e true [(sr.addr + 16 + p, n)] = .ok g →
          let text := agentBytes s g.flatten
          runChunk s cl e ⟨[(sr.addr + 16 + p, n)], [(d.addr + p, n)], n⟩ [] none (fun _ => [unsealText key k p n text]) = .done u →
            goesOn cpyu false (updSeq (advance u cl (p + n) n) cl true fun x => { x with gcm := unsealFeed (gcmSubkey key) k (bytesOf text n) })) ∧
        (p = len.toNat → len ≠ 0 → ∀ g, rangesSegs s e true [(sr.addr + 16 + len.toNat, 16)] = .ok g →
          (unsealTag key k len.toNat = agentBytes s g.flatten →
            chunk cpyu [(sr.addr + 16 + len.toNat, 16)] [] len.toNat sy none id (p + 1) 0 true) ∧
          (unsealTag key k len.toNat ≠ agentBytes s g.flatten → engineWaits s (.copy cl) (linesOf g.flatten) [] = false →
            goesOn cpyu false (advance (unregister s (.copy cl)) cl (len.toNat + 1) 0))) ∧
        (len.toNat < p → p ≤ 2 * len.toNat →
          let off := p - len.toNat - 1
          let n := upTo2048 (d.addr + off) (len.toNat - off)
          chunk cpyu [] [(d.addr + off, n)] n [] none (fun _ => [0]) (p + n) n false) ∧
        (len ≠ 0 → 2 * len.toNat < p → q.command = some cpyu → s.eager = false →
          exec cpyu s = .next (stopCopy s cl cpyu Code.engine (copyInfo q.done 36)))) ∧
      (modelKey s e.ctx slot = none → len ≠ 0 → copyAreas s e [areaOf e src soff.toNat (len.toNat + 32)] [d] y = none →
        inClusters s e (some cl) d = none → q.command ≠ some cpyu → exec cpyu s = .next (stopCopy s cl cpyu Code.engine 34)) ∧
      (let a := cpfrSource e src soff.toNat len.toNat
       let n := upTo2048 (a.addr + p) (len.toNat - p)
       let last := decide (len.toNat ≤ p + n)
       (39 < ch.toNat → refuses cpfr) ∧
       (e.range = none → len ≠ 0 → ch.toNat ≤ 39 → areasCheck 1 [Perm.load, Perm.engine] [a] = none →
         areasCheck 16 [Perm.load, Perm.store, Perm.engine] sy = none → (∀ b ∈ sy, inClusters s e none b = none) → starts cpfr []) ∧
       (p < len.toNat → warmHeld s e (a.addr + p) n = false → ∀ u, runChunk s cl e ⟨[], [], n⟩ sy none id = .done u →
         let t := chargeKernel (warmRange u e (a.addr + p) n) cl e.ctx e.kernel (400 * ((n + 63) / 64))
         let t := advance (if bar && last then arriveAt t e.core.toNat ch.toNat else t) cl (p + n) n
         goesOn cpfr last (if last then finishCommand t cl true else t))) ∧
      (let a := areaOf e yent yoff.toNat 16
       (areasCheck 16 [Perm.load, Perm.store, Perm.engine] [a] = none → inClusters s e none a = none → starts csync []) ∧
       chunk csync [] [(a.addr, 8)] 0 [] none (fun _ => [target.toNat]) 1 0 true) ∧
      (NothingOwed s cl → ∃ t, exec .cend s = .next t ∧ t.stamp = s.stamp ∧ t.mem = (wordRead s e).mem ∧ (clusterAt t cl).copy.command = none ∧
        (seqEntries (clusterAt t cl).copy).map (·.id) = (seqEntries q).tail.map (·.id) ∧
        e.id ∉ (slotAt t e.core.toNat e.slot.toNat).outstanding)) ∧
  (∀ (s : State) (cl : Nat) (e : Entry) (a d n : Nat) (rule : TagRule) (g h : List Seg),
    agentSegsFrom s (entryOrigin e) e.ctx (a % 2 ^ 64) n true = .ok g → agentSegsFrom s (entryOrigin e) e.ctx (d % 2 ^ 64) n false = .ok h →
      engineWaits s (.copy cl) (linesOf g) (linesOf h) = false → (∀ x ∈ h, reductionOf x.p.loc = none) →
        let v := agentBytes s g
        let kept := match rule with
          | some (x, y) => keptTags s e.ctx x y v (agentTags s g) (n / 16)
          | none => 0
        let t := copyPut (agentTouch (unregister s (.copy cl)) false g) (cpyRuns s cl) e.ctx none v kept h
        let t := chargeKernel (agentTouch (cureTogether t h) true h) cl e.ctx e.kernel (400 * ((n + 63) / 64))
        ∃ u, runChunk s cl e ⟨[(a, n)], [(d, n)], n⟩ [] rule id = .done u ∧ u = engineCommit (bump t cl 4 n) (linesOf h)) ∧
  (∀ (s : State) (p : Place) (b : LineBuf), s.mem.wf = true → Tbl.wf s.banks = true → OnePool s (p.ia / 128) → isHost p.loc = false →
    locLost s p.ia p.loc = false → AtHome s (writeHome s p b) p (lineOver (cohLine s p.key p.ia p.loc) b)) ∧
  (∀ (w : LineVal) (off n v tags i : Nat), 1 ≤ n → off + n ≤ 128 → i < 128 →
    let unit := i / 16
    let z := lineOver w { bufWrite off n v false with tags := BitVec.ofNat 8 (tags * 2 ^ (off / 16)) }
    (off ≤ i → i < off + n → lineBytes z i 1 = v / 2 ^ (8 * (i - off)) % 256) ∧
    ((i < off ∨ off + n ≤ i) → lineBytes z i 1 = lineBytes w i 1) ∧
    (off / 16 ≤ unit → unit ≤ (off + n - 1) / 16 → z.tags.getLsbD unit = tags.testBit (unit - off / 16)) ∧
    ((unit < off / 16 ∨ (off + n - 1) / 16 < unit) → z.tags.getLsbD unit = w.tags.getLsbD unit)) ∧
  (∀ (s : State) (ctx : BitVec 12) (src dst : Cap) (v tags n i : Nat), i < n →
    let c : Cap := ⟨true, BitVec.ofNat 128 (v / 2 ^ (128 * i))⟩
    ((keptTags s ctx src dst v tags n).testBit i = true ↔
      tags.testBit i = true ∧ capHas src Perm.loadCap = true ∧ capHas dst Perm.storeCap = true ∧
        (capHas c Perm.global = true ∨ capHas dst Perm.storeLocal = true) ∧ ((ctxOf s ctx).revBusy = false ∨ painted s ctx c = false))) ∧
  (∀ w n : Nat,
    let target := w % 2 ^ 32
    let total := w / 2 ^ 32 % 2 ^ 32 + n
    let z := syncCount w n
    (target = 0 → z = w) ∧
    (target ≠ 0 → z % 2 ^ 32 = target ∧ z / 2 ^ 32 % 2 ^ 32 = total % target ∧
      z / 2 ^ 64 % 2 ^ 32 = (w / 2 ^ 64 + total / target) % 2 ^ 32 ∧ z / 2 ^ 96 = w / 2 ^ 96))
/-! ### What happens beside the instructions -/

/-- R69, R128, R131, R140, R147 to R151, R318: the events of a core's chunks. PARK writes a full list, CHUNK_LIMIT ends the chunk
that has reached its limit, COMMIT gives a chunk the next stamp and publishes it, INVALIDATION acknowledges a commit,
COMMIT_COMPLETE retires the chunk, PINNED_START pins the first in arrival order, CMO_COMPLETE performs the oldest CLEAN or
FLUSH, UNCACHED_ANSWER acknowledges an I/O store, and EVICTION_NOTICE reaches the directory. R125, R148, R154, R317: what
publishing one written line of a chunk leaves: its core's copy is dirty and holds the stored bytes over the line as it was, no other copy is
dirty, and unless the page is the core's own, the directory names that core alone. R147, R343: a request that cannot be answered, or that one
before it could be, waits in its place, and the host is asked for the written lines that it caches. The commit of a chunk publishes its lines in turn.
The order in which agents move is the state's (log entry 2), the host grants a host line at once (log entry 45), and a thread starts pinned
only when no older chunk of it waits (log entry 29). -/
def Obligations.ChunkEvents : Prop :=
  (∀ (s : State) (c from_ : Coord) (sl fromSlot : BitVec 2) (line : Line) (value : W64),
    let n := c.toNat
    let l := sl.toNat
    let k := coreAt s n
    let x := slotAt s n l
    let y := slotAt s from_.toNat fromSlot.toNat
    (x.parked = true → x.regs.pending.all pendReady = true →
      exec (.park c sl) s = .next (setSlot s n l { x with regs := regsPark x.regs, parked := false })) ∧
    (x.parked = false → exec (.park c sl) s = .next s) ∧
    (x.busy = true → x.cur.status = .executing → x.cur.hold = 0 → x.cur.count ≠ 0 → x.limit.toNat ≤ x.cur.count →
      exec (.chunkLimit c sl) s = .next (setSlot s n l (match x.older with
        | none => { x with older := some (endedChunk x.cur), cur := Chunk.start x.regs }
        | some _ => { x with cur := endedChunk x.cur }))) ∧
    ((x.busy = false ∨ x.cur.status ≠ .executing ∨ x.cur.hold ≠ 0 ∨ x.cur.count < x.limit.toNat) → exec (.chunkLimit c sl) s = .next s) ∧
    (∀ o, x.older = some o → o.status = .ended → o.effect = none → x.busy = true → k.stopped = false → ctxRuns s k.owner = true →
      let held : Prop := arbiterFree s n l o = false ∨ atomicHeld s n l o = true
      let hosts (w : Nat) : Prop := w ∈ o.writes ∧ Tbl.get 0 s.hostHolds w ≠ 0
      ((held ∨ earlierGrantable s n l = true) → exec (.commit c sl) s = .next (enqueueRequest s n l)) ∧
      (¬held → earlierGrantable s n l = false → (∃ w, hosts w) → ∃ t, exec (.commit c sl) s = .next t ∧ t.stamp = s.stamp ∧
        (slotAt t n l).older = some o ∧ 4 * n + l ∈ t.requests ∧ ∀ w, hosts w → w ∈ t.bisnpInv) ∧
      (¬held → earlierGrantable s n l = false → (∀ w, ¬hosts w) → ∃ t, exec (.commit c sl) s = .next t ∧ t.stamp = s.stamp + 1 ∧
        (s.eager = false → (slotAt t n l).older = some { o with status := .committing, stamp := s.stamp, acks := commitAcks s n o } ∧
          t = ([0, 1, 2, 3].filter (· != l)).foldl (fun u j => squashIf (testSlot u n j o.writes) n j (atomicsMeet (ncWrites s n l o)))
            (plazaInvalidate (publish (setSlot (takeStamp s n l o) n l
              { x with older := some { o with status := .committing, stamp := s.stamp, acks := commitAcks s n o } }) n o)
              ((commitAcks s n o).map (· / 4)))) ∧
        (s.eager = true → (slotAt t n l).commitStamp = s.stamp ∧ (slotAt t n l).pin = false))) ∧
    (x.older = none → exec (.commit c sl) s = .next s ∧ exec (.commitComplete c sl) s = .next s) ∧
    (∀ o, y.older = some o → o.status = .committing → 4 * n ∈ o.acks → ∃ t, exec (.invalidation c from_ fromSlot) s = .next t ∧
      (slotAt t from_.toNat fromSlot.toNat).older = some { o with acks := o.acks.filter (· != 4 * n) } ∧
      ∀ z ∈ (coreAt t n).l1, z.nonCoherent = true ∨ z.dirty = true ∨ z.line ∉ o.writes) ∧
    ((∀ o, y.older = some o → o.status ≠ .committing ∨ 4 * n ∉ o.acks) → exec (.invalidation c from_ fromSlot) s = .next s) ∧
    (∀ o, x.older = some o → o.status = .committing → x.busy = true →
      (o.acks ≠ [] → exec (.commitComplete c sl) s = .next s) ∧
      (o.acks = [] → ∃ t, exec (.commitComplete c sl) s = .next t ∧ (slotAt t n l).commitStamp = o.stamp ∧ (slotAt t n l).older ≠ some o ∧
        (slotAt t n l).pin = false ∧ (x.parked = false → (slotAt t n l).regs = x.regs) ∧
        (x.parked = true → x.regs.pending.all pendReady = true → (slotAt t n l).regs = regsPark x.regs))) ∧
    (∀ m, x.pinWait = some m → s.pinned = none → x.busy = true → x.older = none → k.stopped = false → k.frozen = false → ctxRuns s k.owner = true →
      (∀ a ∈ s.cores, a.2.stopped = false → a.2.frozen = false → ctxRuns s a.2.owner = true → ∀ b ∈ a.2.slots, ∀ j, b.2.pinWait = some j → b.2.busy = true → m ≤ j) →
        exec (.pinnedStart c sl) s = .next { setSlot s n l { x with pin := true, pinWait := none } with
          pinned := some (4 * n + l), registered := s.registered ++ [⟨.pinned n l, k.owner, [], [], true⟩] }) ∧
    ((x.pinWait = none ∨ s.pinned ≠ none ∨ x.busy = false ∨ x.older ≠ none ∨ k.stopped = true ∨ k.frozen = true ∨ ctxRuns s k.owner = false) →
      exec (.pinnedStart c sl) s = .next s) ∧
    (k.cmos = [] → exec (.cmoComplete c) s = .next s) ∧
    (∀ m r, k.cmos = m :: r → ∃ t, exec (.cmoComplete c) s = .next t ∧ (coreAt t n).cmos = r ∧
      t = performCmo (updCore s n fun z => { z with cmos := r }) n m ∧
      (m.flush = true → (m.nonCoherent = true ∨ ∃ p, transIa s (BitVec.ofNat 12 m.ctx) (.core n) (m.line * 128) = .ok p ∧ p.uncached = false) →
        l1Find (coreAt t n) m.line m.nonCoherent = none)) ∧
    ((∀ o, x.older = some o → o.status ≠ .committing ∨ targetAck ∉ o.acks) →
      ((∀ z ∈ k.ioStores, z.slot ≠ l) → exec (.uncachedAnswer c sl value) s = .next s) ∧
      ∀ z, k.ioStores.find? (fun q => q.slot == l) = some z → exec (.uncachedAnswer c sl value) s =
        .next (updCore { s with mem := memPut s.mem z.key z.data.toNat z.size } n fun q => { q with ioStores := q.ioStores.erase z })) ∧
    (let u := updCore s n fun z => { z with notices := NatSet.erase z.notices line.toNat }
     (line.toNat ∈ k.notices → line.toNat ∉ activeLines k →
       ((l1Find k line.toNat false).isSome = true → exec (.evictionNotice c line) s = .next u) ∧
       (l1Find k line.toNat false = none → exec (.evictionNotice c line) s = .next (dirLeave u line.toNat n))) ∧
     ((line.toNat ∉ k.notices ∨ line.toNat ∈ activeLines k) → exec (.evictionNotice c line) s = .next s))) ∧
  (∀ (s : State) (c line : Nat) (o : Chunk) (x : L1Line),
    l1Find (coreAt s c) line false = some x → (dirFind s line).isSome = true →
      let t := publishLine s c line o
      let b := Tbl.get LineBuf.empty o.ws line
      let v := cohLine s x.key (line * 128) x.loc
      let w := lineOver v b
      (∃ y, l1Find (coreAt t c) line false = some y ∧ y.dirty = true ∧ y.sole = true ∧ y.data = w.data ∧
        y.tags = (if isHost x.loc then 0 else w.tags)) ∧
      (∀ j i, (b.mask.getLsbD i = true → w.data.extractLsb' (8 * i) 8 = b.data.extractLsb' (8 * i) 8) ∧
        (i < 128 → b.mask.getLsbD i = false → w.data.extractLsb' (8 * i) 8 = v.data.extractLsb' (8 * i) 8) ∧
        (j < 8 → b.tagMask.getLsbD j = true → w.tags.getLsbD j = b.tags.getLsbD j) ∧
        (j < 8 → b.tagMask.getLsbD j = false → w.tags.getLsbD j = v.tags.getLsbD j)) ∧
      (∀ k, k ≠ c → coreAt t k = mapLine (coreAt s k) line fun y => { y with dirty := false, sole := false }) ∧
      (∀ leaf q, Tbl.find s.tlb (line / 512) = some (leaf, q) → leafCls leaf ≠ 1 →
        ∃ e, dirFind t line = some e ∧ e.coarse = false ∧ e.modified = true ∧ e.slots = [some c, none, none, none]) ∧
      (isHost x.loc = true → Tbl.get 0 t.hostLines line = 2))

/-- R184 to R187, R191 to R198, R204, R206, R212, R233: ACQUISITION starts the thread whose record it takes; the launch ring,
launches, KCANCEL and ENERGY_REPORT move kernels through their states; GROUP_JOIN and GROUP_LEAVE write their register by its
rules; RELEASE clears the arrivals and flips the phase of every member, once every holder of the GID is one. An acquisition and a launch from the
ring wait as engine chunks do (R152), and so does the block that a KCANCEL writes; before READY neither the launch ring nor its tail moves (R366).
That a poisoned entry of the launch ring is dropped is the model's choice (log entry 25), and so are who counts as a member of a barrier whose
registers disagree and that a KCANCEL reaches a switched-out context (log entry 53); energy follows log entry 15. -/
def Obligations.KernelEvents : Prop :=
  ∀ (s : State) (c : Coord) (sl n : BitVec 2) (ctx : BitVec 12) (cl : BitVec 7) (gid : BitVec 31) (ch : BitVec 6) (value : W64),
    let core := c.toNat
    let l := sl.toNat
    let k := coreAt s core
    let xs := acquireExtents s core
    let start := engineCommit s []
    let free : Prop := k.owner ≠ 0 ∧ (slotAt s core l).busy = false ∧ (slotAt s core l).older = none ∧ k.frozen = false ∧ k.stopped = false ∧ k.stepping = none ∧
      ctxRuns s k.owner = true
    (free → extentsWait s k.owner xs = true → exec (.acquisition c sl) s = .next (extentsAsk s k.owner xs)) ∧
    (free → extentsWait s k.owner xs = false → ∀ u, acquire start core (sourcesOf s core) = (u, none) → exec (.acquisition c sl) s = .next u) ∧
    (¬free → exec (.acquisition c sl) s = .next s) ∧
    (free → extentsWait s k.owner xs = false → ∀ u r, acquire start core (sourcesOf s core) = (u, some r) → ∃ t, exec (.acquisition c sl) s = .next t ∧
      let y := slotAt t core l
      y.busy = true ∧ y.kernel = recKernel r.flags ∧ y.prio = recClass r.flags ∧ y.cur = Chunk.start y.regs ∧ y.older = none ∧
      y.regs.pending = [] ∧ regsG y.regs 3 = capInt r.arg ∧ regsG y.regs 4 = r.join ∧ regsG y.regs 8 = r.frame ∧
      (∀ i, i ≠ 3 → i ≠ 4 → i ≠ 8 → regsG y.regs i = Cap.null) ∧ (∀ i, regsV y.regs i = 0) ∧ (∀ i, i ≠ 0 → regsK y.regs i = 0) ∧
      y.limit = 0x400 ∧ y.cur.squashes = 0 ∧ y.pin = false ∧ y.pinWait = none ∧ y.commitStamp = 0 ∧ y.outstanding = [] ∧ y.parked = false ∧
      y.regs.pcc = (if r.code.tag = true ∧ capOtype r.code = 1 then capSetOtype r.code 0 else r.code) ∧
      (clusterAt t (clusterOf core)).gated = false ∧ ∀ j, j ≠ core → coreAt t j = coreAt u j) ∧
    exec (.lrtail value) s = .next (if s.ready then { s with lrtail := value.setWidth 32 } else s) ∧
    ((s.ready = false ∨ s.lrhead = s.lrtail ∨ lrEntries s < (s.lrtail - s.lrhead).toNat) → exec .launchRingEntry s = .next s) ∧
    (s.ready = true → s.lrhead ≠ s.lrtail → (s.lrtail - s.lrhead).toNat ≤ lrEntries s →
      let dropped : Prop := exec .launchRingEntry s = .next { s with lrhead := s.lrhead + 1, lrdropped := s.lrdropped + 1 }
      let a := (s.lrcfg.extractLsb' 16 48).toNat * 2 ^ 16 + 128 * (s.lrhead.toNat % lrEntries s)
      let e := physGet s a 128 8
      let named := BitVec.ofNat 12 (field e 96 2)
      ((field e 98 30 ≠ 0 ∨ 4095 < field e 96 2 ∨ named = 0 ∨
          ((ctxOf s named).life ≠ .created ∧ (ctxOf s named).life ≠ .running) ∨ (ctxOf s named).hostLaunch = false ∨ anyPoison s.mem a 128 = true) →
        dropped) ∧
      (launchEntry s = none → dropped) ∧
      (∀ x r, launchEntry s = some (x, r) → x = named ∧ doneCheck r.doneCap = none ∧
        let xs := launchExtents s x r
        (extentsWait s x xs = true → exec .launchRingEntry s = .next (extentsAsk s x xs)) ∧
        (extentsWait s x xs = false → ∃ t, exec .launchRingEntry s = .next t ∧ t.lrhead = s.lrhead + 1 ∧
          t = launch (engineCommit { extentsMark s x xs with lrhead := s.lrhead + 1 } []) x r))) ∧
    (∀ (r : Launch) (code : Nat), acceptLaunch s ctx r = .error code →
      launch s ctx r = writeBlock s ctx r.doneCap 4 0 code 0 ∧ kernelAt (launch s ctx r) ctx = kernelAt s ctx) ∧
    (∀ (r : Launch) (clusters : List Nat) (id : Nat) (u : State), acceptLaunch s ctx r = .ok (clusters, id) →
      let heads := groupHeads (coresOf clusters) (shapeGroup r)
      launchRecords s ctx r id heads = .ok u → ∃ q, kernelAt (launch s ctx r) ctx id = some q ∧ q.state = .running ∧
        q.live = heads.length ∧ q.budget = r.budget ∧ q.left = r.budget * 1000 ∧ q.cls = shapeClass r ∧ q.demotions = 0 ∧ q.charged = 0 ∧
        q.doneCap = r.doneCap ∧ q.region = (coresOf clusters).map (BitVec.ofNat 10) ∧
        (∀ j, j ≠ id → kernelAt (launch s ctx r) ctx j = kernelAt s ctx j) ∧
        ∀ i < (coresOf clusters).length,
          let size := shapeGroup r
          let at_ (j : Nat) : Nat := (coresOf clusters).getD j 0
          let z := coreAt (launch s ctx r) (at_ i)
          z.phase = 0 ∧ (∀ n < 4, n ≠ 0 → memberAt z n = 0) ∧ (heads.length ≤ i / size → memberAt z 0 = 0) ∧
          (i / size < heads.length →
            let m := memberAt z 0
            memValid m = true ∧ (memGid m).toNat = id * 1024 + i / size ∧ memRank m = i % size ∧ memSize m = size ∧
            ((∀ j < size, dieOf (at_ (i / size * size + j)) = dieOf (at_ i)) → memChannel m = 31) ∧
            ((∃ j < size, dieOf (at_ (i / size * size + j)) ≠ dieOf (at_ i)) → memChannel m = 39))) ∧
    (let id := value.toNat % 2 ^ 16
     (kernelRuns s ctx id = false → exec (.kcancel ctx value) s = .next s) ∧
     (kernelRuns s ctx id = true → extentsWait s ctx (kcancelExtents s ctx value) = true →
       exec (.kcancel ctx value) s = .next (extentsAsk s ctx (kcancelExtents s ctx value))) ∧
     (∀ q, kernelAt s ctx id = some q → q.state = .running → extentsWait s ctx (kcancelExtents s ctx value) = false →
       ∃ t, exec (.kcancel ctx value) s = .next t ∧ t.stamp = s.stamp + 1 ∧ kernelAt t ctx id = some { q with state := .cancelled } ∧
       ∀ j i, (coreAt s j).owner = ctx → i < 4 → (slotAt t j i).busy = true → (slotAt t j i).kernel.toNat ≠ id)) ∧
    (∀ (id : BitVec 16) (pj : Nat) (q : Kernel), (clusterAt s cl.toNat).energy = [(ctx.toNat * 65536 + id.toNat, pj)] →
      kernelAt s ctx id.toNat = some q → ∃ t, exec (.energyReport cl) s = .next t ∧ (clusterAt t cl.toNat).energy = [] ∧
        (q.state ≠ .running → kernelAt t ctx id.toNat = some q) ∧
        (q.state = .running →
          let uj := (q.fraction + pj) / 1000000
          let charged := { q with fraction := (q.fraction + pj) % 1000000, charged := q.charged + BitVec.ofNat 64 uj }
          (0 < q.left.toInt - uj → kernelAt t ctx id.toNat = some { charged with left := BitVec.ofInt 64 (q.left.toInt - uj) }) ∧
          (q.left.toInt - uj ≤ 0 → kernelAt t ctx id.toNat = some { charged with
            left := q.budget * 1000, cls := BitVec.ofNat 2 (min 3 (q.cls.toNat + 1)), demotions := q.demotions + 1 }))) ∧
    (value.getLsbD 63 = true →
      exec (.groupJoin c n value) s = .next (sysWrite s core 0 (BitVec.ofNat 12 (8 + n.toNat)) (capInt value)) ∧
      exec (.groupLeave c n value) s = .next s) ∧
    (value.getLsbD 63 = false →
      exec (.groupLeave c n value) s = .next (sysWrite s core 0 (BitVec.ofNat 12 (8 + n.toNat)) (capInt value)) ∧
      exec (.groupJoin c n value) s = .next s) ∧
    (let members := barrierMembers s ctx gid ch.toNat
     let m (p : Nat × Nat) : W64 := memberAt (coreAt s p.1) p.2
     (canRelease s ctx gid ch.toNat = true ↔ members ≠ [] ∧ groupHolders s ctx gid = members.map (·.1) ∧
       (∀ p ∈ members, members.length = memSize (m p) ∧ (coreAt s p.1).arrived.getLsbD ch.toNat = true) ∧
       (∀ r < members.length, ∃ p ∈ members, memRank (m p) = r) ∧
       (ch.toNat < 32 → ∀ p ∈ members, ∀ q ∈ members, dieOf p.1 = dieOf q.1)) ∧
     (canRelease s ctx gid ch.toNat = false → exec (.release ctx gid ch) s = .next s) ∧
     (s.Inv → canRelease s ctx gid ch.toNat = true → ∃ t, exec (.release ctx gid ch) s = .next t ∧
       (∀ p ∈ members, coreAt t p.1 = { coreAt s p.1 with
         arrived := (coreAt s p.1).arrived &&& ~~~(1#40 <<< ch.toNat), phase := (coreAt s p.1).phase ^^^ (1#4 <<< p.2) }) ∧
       ∀ j, (∀ p ∈ members, p.1 ≠ j) → coreAt t j = coreAt s j))
/-- R142, R177, R183, R231, R281, R282, R285, R314, R335, R371: a register written from outside an instruction follows the same rules: a system
register as SYSW writes it, an aperture register by its own fields. R366: before READY a write from the host does nothing. An injection ring that
is not usable counts as empty (log entry 52). The supervisor's decoder ranges (R341) and queue pairs (R350) are set by a write too, in the form of
log entries 61 and 36. -/
def Obligations.RegisterWriteEvents : Prop :=
  ∀ (s : State) (c : Coord) (sl cls : BitVec 2) (value : W64) (v : Cap) (ctx : BitVec 12) (die iaw : BitVec 3) (ncw : BitVec 4)
      (img : BitVec 128) (i : BitVec 12) (off : BitVec 20),
    let core := c.toNat
    let written (i : BitVec 12) (v : Cap) : State := sysWrite s core sl.toNat i v
    let ring := ctxDie s ctx die.toNat
    let word := capAddr v
    exec (.chunkcfgWrite c sl value) s = .next (written 0x001 (capInt value)) ∧
    exec (.dqringWrite c v) s = .next (written 0x010 v) ∧
    exec (.switchatWrite c value) s = .next (written 0x006 (capInt value)) ∧
    (ctx = (coreAt s core).owner → die.toNat = dieOf core →
      exec (.injringWrite ctx die cls v) s = .next (written (BitVec.ofNat 12 (0x014 + cls.toNat)) v)) ∧
    (injCount ring cls.toNat ≠ 0 → exec (.injringWrite ctx die cls v) s = .next s) ∧
    (injCount ring cls.toNat = 0 → ∃ t, exec (.injringWrite ctx die cls v) s = .next t ∧
      let r := ctxDie t ctx die.toNat
      Tbl.get Cap.null r.injring cls.toNat = scrubCap s ctx v ∧ Tbl.get 0 r.injHead cls.toNat = 0 ∧ Tbl.get 0 r.injTail cls.toNat = 0 ∧
      (∀ j, j ≠ cls.toNat → Tbl.get Cap.null r.injring j = Tbl.get Cap.null ring.injring j)) ∧
    (sysWaits s core (BitVec.ofNat 12 (0x040 + iaw.toNat)) = false →
      exec (.iawWrite c iaw img) s = .next (written (BitVec.ofNat 12 (0x040 + iaw.toNat)) ⟨false, img⟩)) ∧
    (sysWaits s core (BitVec.ofNat 12 (0x040 + iaw.toNat)) = true → exec (.iawWrite c iaw img) s = .next s) ∧
    (sysWaits s core (BitVec.ofNat 12 (0x050 + ncw.toNat)) = false →
      exec (.ncwWrite c ncw img) s = .next (written (BitVec.ofNat 12 (0x050 + ncw.toNat)) ⟨false, img⟩)) ∧
    (sysWaits s core (BitVec.ofNat 12 (0x050 + ncw.toNat)) = true → exec (.ncwWrite c ncw img) s = .next s) ∧
    (∀ r, s.ready = false → exec (.registerWrite r v) s = .next s) ∧
    (s.ready = true → exec (.registerWrite (.system c sl i) v) s = .next (written i v)) ∧
    (s.ready = true → ∀ n : BitVec 3, ∃ t, exec (.registerWrite (.decoder n) v) s = .next t ∧ t = { s with exposed := t.exposed } ∧
      t.exposed.getD n.toNat (0, 0) = ((v.img.extractLsb' 0 64).toNat, (v.img.extractLsb' 64 64).toNat) ∧
      ∀ j, j ≠ n.toNat → t.exposed.getD j (0, 0) = s.exposed.getD j (0, 0)) ∧
    (s.ready = true → ∀ n : BitVec 12, ∃ t, exec (.registerWrite (.queuePair n) v) s = .next t ∧ t = { s with queuePairs := t.queuePairs } ∧
      (n.toNat ∈ t.queuePairs ↔ v.img.getLsbD 0 = true) ∧ ∀ j, j ≠ n.toNat → (j ∈ t.queuePairs ↔ j ∈ s.queuePairs)) ∧
    (∃ t, exec (.ptrootWrite value) s = .next t ∧ t = { s with ptroot := t.ptroot } ∧
      t.ptroot.getLsbD 0 = value.getLsbD 0 ∧ t.ptroot.extractLsb' 1 17 = 0 ∧ t.ptroot.extractLsb' 18 46 = value.extractLsb' 18 46) ∧
    (let at_ := off.toNat / 8 * 8
     let t := apertureRegWrite s at_ word
     let reg (n : Nat) : Prop := at_ = n
     (s.ready = true → exec (.registerWrite (.aperture off) v) s = .next t) ∧
     (reg 0x80000 → exec (.ptrootWrite word) s = .next t) ∧
     (reg 0x80008 → t = { s with countbase := word &&& ~~~0xffff#64 }) ∧
     (reg 0x80040 → (s.ready = false ∨ 64 ≤ s.doors.length) → t = s) ∧
     (reg 0x80040 → s.ready = true → s.doors.length < 64 → t = { s with doors := s.doors ++ [word &&& ~~~0x3f#64] }) ∧
     (reg 0x80188 → exec (.snapctl word) s = .next t) ∧
     (reg 0x801a0 → (s.lrhead ≠ s.lrtail ∨ 12 < word.toNat % 16) → t = s) ∧
     (reg 0x801a0 → s.lrhead = s.lrtail → word.toNat % 16 ≤ 12 → t = { s with lrcfg := word &&& ~~~0xfff0#64 }) ∧
     (reg 0x801a8 → s.ready = true → exec (.lrtail word) s = .next t) ∧
     (reg (0x80010 + die.toNat * 0x1000) → t = updDie s die.toNat fun d => { d with pgdest := word &&& ~~~0xfffc#64 }) ∧
     (reg (0x80018 + die.toNat * 0x1000) → t = pageCommand s die.toNat (word.toNat % 4) (word.toNat / 2 ^ 16 % 2 ^ 32)) ∧
     (reg (0x801c0 + die.toNat * 0x1000) → exec (.powertokWrite die word) s = .next t) ∧
     (∀ cl : BitVec 7, reg (cl.toNat * 0x1000 + 8) → word.getLsbD 63 = true → exec (.mxleaseForce cl) s = .next t) ∧
     ((0x88000 ≤ at_ ∨ ∃ cl : BitVec 7, reg (cl.toNat * 0x1000) ∨ reg (cl.toNat * 0x1000 + 0x10) ∨ reg (cl.toNat * 0x1000 + 0x18)) → t = s)) ∧
    (s.armed = true → exec (.snapctl value) s = .next s ∧ exec .snapin s = .next s) ∧
    (s.armed = false →
      exec (.snapctl value) s = .next { s with armed := true, latchAt := value, snapSource := 2, snapctl := value } ∧
      exec .snapin s = .next { s with armed := true, latchAt := s.time + 4096, snapSource := 1, snapctl := s.time + 4096 }) ∧
    (s.armed = true → s.latchAt ≤ s.time → ∃ t, exec .snapshotLatch s = .next t ∧ t.armed = false ∧ t.snapTime = s.latchAt ∧
      (∀ cl k, Tbl.find s.clusters cl = some k → clusterAt t cl = { k with latched := clusterWords s k }) ∧
      ∀ n < 8, (dieAt t n).latched = dieWords s n) ∧
    ((s.armed = false ∨ s.time < s.latchAt) → exec .snapshotLatch s = .next s)

/-- R105 to R107, R252 to R256: LEASE_GRANT gives a FREE lease to the first waiting core of the order, with the array as it was
for the context that held it last and cleared for another, and the core's MLEASE chunks commit with it (R227); MXLEASE_FORCE ends a lease;
POWERTOK sets a die's count and TOKEN_TAKE moves a token to the cluster it stands at; DRAIN stops a stream at its next row, and the drained
chunk is charged (R253); a revocation pass starts, sweeps granule by granule, each once nothing registered stands in its way (R152), and
ends, when what has come to its cores and to REVMAP since its start loses its painted tags too (R108). The scrub of the cores' registers at the
start is stated with the instruction that starts a pass. The moment of the scrub (log entry 23) is the model's choice, and so is that weights
which load after their program has stopped keep the lease (log entry 71). The second part says what the sweep of a line leaves: a line with
painted tags stands at its home with its data and its other tags, any other line is untouched; and which tags are painted. -/
def Obligations.EngineEvents : Prop :=
  (∀ (s : State) (cl : BitVec 7) (die : BitVec 3) (value : W64) (ctx : BitVec 12),
    let n := cl.toNat
    let k := clusterAt s n
    let d := dieAt s die.toNat
    let here := dieOfCluster n
    let x := ctxOf s ctx
    (∀ i, k.lease = .free → leaseOwed s n = none → (k.order.find? fun i => (leaseWaiters s n).contains i) = some i →
      ∃ t, exec (.leaseGrant cl) s = .next (leaseCommits t (8 * n + i)) ∧ t = { s with clusters := t.clusters } ∧ (∀ j, j ≠ n → clusterAt t j = clusterAt s j) ∧
        let owner := (coreAt s (8 * n + i)).owner
        let kept := if owner = k.lastCtx then k else { k with active := Plane.reset, shadow := Plane.reset, acc := [] }
        clusterAt t n = { kept with
          lease := .held, holder := BitVec.ofNat 3 i, used := 0, bound := k.leaseMax, lastCtx := owner, order := (clusterAt t n).order } ∧ (clusterAt t n).order.getLast? = some i) ∧
    ((k.lease ≠ .free ∨ leaseWaiters s n = [] ∨ leaseOwed s n ≠ none) → exec (.leaseGrant cl) s = .next s) ∧
    (k.lease ≠ .held → exec (.mxleaseForce cl) s = .next s) ∧
    (k.lease = .held →
      let busy : Prop := k.loading ≠ none ∨ ∃ e ∈ seqEntries k.matrix, e.core.toNat % 8 = k.holder.toNat
      ∃ t, exec (.mxleaseForce cl) s = .next t ∧ (∀ j, j ≠ n → clusterAt t j = clusterAt s j) ∧
        (busy → clusterAt t n = { k with lease := .releasing }) ∧
        (¬busy → clusterAt t n = { k with lease := .free, holder := 0, used := 0 })) ∧
    (let count := value.toNat % 32
     (16 < count → exec (.powertokWrite die value) s = .next s) ∧
     (count ≤ 16 → ∃ t, exec (.powertokWrite die value) s = .next t ∧ (dieAt t die.toNat).tokenCount.toNat = count ∧
       (dieAt t die.toNat).tokens = d.tokens ++ List.replicate (count - (d.tokens.length + heldTokens s die.toNat)) (tokenFor s 0) ∧
       ∀ j, j ≠ die.toNat → dieAt t j = dieAt s j)) ∧
    (∀ p since, tokenAt s here (ringPlace n) = some p → k.waiting = some since → ∃ t, exec (.tokenTake cl) s = .next t ∧
      clusterAt t n = { k with token := true, waiting := none, stall := k.stall + BitVec.ofNat 32 (s.cycle - since) } ∧
      (dieAt t here).tokens = (dieAt s here).tokens.erase p) ∧
    ((tokenAt s here (ringPlace n) = none ∨ k.waiting = none) → exec (.tokenTake cl) s = .next s) ∧
    (∀ af ae se ao so st ac rows off e, k.matrix.command = some (.mstrm af ae se ao so st ac rows off) →
      (seqEntries k.matrix).head? = some e →
        (streaming s n = true → ∃ t, exec (.drain cl) s = .next t ∧ (clusterAt t n).token = false ∧ (clusterAt t n).consumed = off ∧
          (clusterAt t n).draining = false ∧ (clusterAt t n).matrix = { k.matrix with done := 0 } ∧ (clusterAt t n).acc = k.acc ∧
          t.stamp = s.stamp + 1 ∧ streaming t n = false ∧
          (k.token = true → (dieAt t here).tokens = (dieAt s here).tokens ++ [tokenFor s (ringPlace n)]) ∧
          (e.program ≠ none → k.lease = .held → k.holder.toNat = e.core.toNat % 8 → k.used + 1 < k.bound → (clusterAt t n).used = k.used + 1)) ∧
        (streaming s n = false → (k.token = true ∨ k.waiting ≠ none) → ∃ t, exec (.drain cl) s = .next t ∧ (clusterAt t n).token = false ∧
          (clusterAt t n).waiting = none ∧ (clusterAt t n).consumed = off ∧ (clusterAt t n).matrix = k.matrix ∧ t.stamp = s.stamp ∧
          (clusterAt t n).stall = (match k.waiting with | some since => k.stall + BitVec.ofNat 32 (s.cycle - since) | none => k.stall) ∧
          (k.token = true → (dieAt t here).tokens = (dieAt s here).tokens ++ [tokenFor s (ringPlace n)])) ∧
        (streaming s n = false → k.token = false → k.waiting = none → exec (.drain cl) s = .next s)) ∧
    (k.matrix.command = none → exec (.drain cl) s = .next s) ∧
    (revMayStart x = false → exec (.revpassStart ctx) s = .next s) ∧
    (revMayStart x = true → ∃ t, exec (.revpassStart ctx) s = .next t ∧ (ctxOf t ctx).revBusy = true ∧
      (ctxOf t ctx).revCount = x.revCount + 1 ∧ (ctxOf t ctx).kernels = x.kernels ∧
      let q := squashContext s ctx
      let u := updCtx q ctx.toNat fun y => { y with revBusy := true, revCount := y.revCount + 1, sweep := sweepList q ctx }
      (ctxOf t ctx).sweep = sweepList q ctx ∧ (ctxOf t ctx).revmap =
        scrubCap { u with cores := Tbl.mapVal u.cores fun _ k => if k.owner == ctx then scrubCore u ctx k else k } ctx x.revmap) ∧
    (x.sweep = [] → exec (.revocationSweep ctx) s = .next s) ∧
    (∀ g r, x.sweep = g :: r →
      let reads := sweepReads s ctx g
      let writes := sweepWrites s ctx g
      (engineWaits s (.sweep ctx.toNat) reads writes = true →
        exec (.revocationSweep ctx) s = .next (registerWait s (.sweep ctx.toNat) ctx reads writes)) ∧
      (engineWaits s (.sweep ctx.toNat) reads writes = false → ∃ t, exec (.revocationSweep ctx) s = .next t ∧ (ctxOf t ctx).sweep = r ∧
        t.stamp = s.stamp + 1 ∧ (ctxOf t ctx).revBusy = x.revBusy ∧
        let q := sweepNc (updCtx (unregister s (.sweep ctx.toNat)) ctx.toNat fun c => { c with sweep := r }) ctx g
        let u := engineCommit ((sweepLines s ctx g).foldl (fun v line => sweepLine v ctx line) q) writes
        t = { u with mem := { u.mem with summary := t.mem.summary } } ∧
        (∀ j y, Tbl.find s.cores j = some y → y.owner = ctx → ∀ z ∈ (coreAt q j).l1, z.nonCoherent = true → z.line / 16 = g →
          paintedUnits (updCtx (unregister s (.sweep ctx.toNat)) ctx.toNat fun c => { c with sweep := r }) ctx ⟨z.data, z.tags⟩ = 0))) ∧
    (let settled : Prop := ∀ k ∈ s.clusters, ∀ copy, (seqOf k.2 copy).check = true → ∀ e ∈ seqEntries (seqOf k.2 copy), e.ctx ≠ ctx
     (x.revBusy = true → x.sweep = [] → settled → ∃ t, exec (.revocationPassComplete ctx) s = .next t ∧ (ctxOf t ctx).revBusy = false ∧
       (x.savedCores = [] → x.savedClusters = [] → x.parkedMsgs = [] → ∀ j y, Tbl.find s.cores j = some y →
         (y.owner ≠ ctx → coreAt t j = y) ∧
         (y.owner = ctx → coreAt t j = { y with l1 := (coreAt t j).l1, mail := y.mail.map (scrubMessage s ctx) } ∧
           (coreAt t j).l1 = y.l1.map (scrubLine s ctx) ∧
           ∀ z ∈ (coreAt t j).l1, z.nonCoherent = true → paintedUnits s ctx ⟨z.data, z.tags⟩ = 0)) ∧
       (ctxOf t ctx).revmap =
         scrubCap { s with cores := Tbl.mapVal s.cores fun _ k => if k.owner == ctx then scrubRest s ctx k else k } ctx x.revmap) ∧
     ((x.revBusy = false ∨ x.sweep ≠ [] ∨ ¬settled) → exec (.revocationPassComplete ctx) s = .next s))) ∧
  (∀ (s : State) (ctx : BitVec 12) (line : Nat),
    let q := quietLine s line
    let t := sweepLine s ctx line
    (sweepPlace q ctx line = none → t = q) ∧
    (∀ p, sweepPlace q ctx line = some p →
      let v := cohLine q p.key p.ia p.loc
      (paintedUnits q ctx v = 0 → t = q) ∧
      (paintedUnits q ctx v ≠ 0 → q.mem.wf = true → Tbl.wf q.banks = true → OnePool q (p.ia / 128) → isHost p.loc = false →
        locLost q p.ia p.loc = false → AtHome q t p ⟨v.data, v.tags &&& ~~~ paintedUnits q ctx v⟩))) ∧
  (∀ (s : State) (ctx : BitVec 12) (v : LineVal), ∀ u < 8, ((paintedUnits s ctx v).getLsbD u = true ↔
    v.tags.getLsbD u = true ∧ painted s ctx ⟨true, v.data.extractLsb' (128 * u) 128⟩ = true))
/-- R257, R258, R278, R327, R335 to R338: a core stops at SWITCHAT, a cluster's part of the context is saved, and then its cores;
a resumed context's cores restart at RESUMEAT, its lease and its array return, messages to it park meanwhile, and a terminated
context is FREE at last. Cores whose times have come stop together, a context is saved only after its pending releases (R215). R336, R338: a
saved core's record holds the core as it stopped, without its L1, its capabilities under the check of a pass (R107), and its g registers stand
in the save area; the places inside a record are the model's choice (log entry 14), and so is that clusters where only returned cores have left
entries stop and save with the others. -/
def Obligations.SwitchEvents : Prop :=
  ∀ (s : State) (c : Coord) (cl : BitVec 7) (ctx : BitVec 12),
    let n := c.toNat
    let x := ctxOf s ctx
    let q := (clusterAt s cl.toNat).copy
    let cores := coresOwned s ctx
    let time (j : Nat) : Prop :=
      let k := coreAt s j
      k.switchAt ≠ BitVec.allOnes 64 ∧ k.switchAt ≤ s.time ∧ k.stopped = false ∧ ctxRuns s k.owner = true
    (time n → ∃ t, exec (.gangSwitchStop c) s = .next t ∧ t.mem = s.mem ∧
      (∀ j, time j → (coreAt t j).stopped = true ∧ (coreAt t j).switchAt = BitVec.allOnes 64 ∧
        (coreAt t j).owner = (coreAt s j).owner ∧ (ctxOf t (coreAt s j).owner).life = .switching ∧
        ∀ l < 4, (slotAt s j l).busy = true → ∀ o, (slotAt t j l).older = some o → o.status = .committing) ∧
      (∀ j, ¬time j → (coreAt t j).stopped = (coreAt s j).stopped ∧ (coreAt t j).switchAt = (coreAt s j).switchAt) ∧
      (ctx.toNat ∈ (clusterAt t cl.toNat).copy.saving ↔ ctx.toNat ∈ q.saving ∨
        ∃ j, time j ∧ (coreAt s j).owner = ctx ∧ (clusterOf j = cl.toNat ∨ coresIn s ctx cl.toNat = []) ∧ ∃ e ∈ seqEntries q, e.ctx = ctx)) ∧
    (¬time n → exec (.gangSwitchStop c) s = .next s) ∧
    (saveDue s cl.toNat = none → exec (.sequencerSave cl) s = .next s) ∧
    (s.Inv → saveDue s cl.toNat = some ctx → x.life = .switching → ∃ t v, exec (.sequencerSave cl) s = .next t ∧
      Tbl.find (ctxOf t ctx).savedClusters cl.toNat = some v ∧ v.now = true ∧
      (∀ e ∈ seqEntries (clusterAt t cl.toNat).matrix, e.ctx ≠ ctx) ∧
      let d := clusterAt s cl.toNat
      let drained := if ((seqEntries d.matrix).head?.map (·.ctx)) = some ctx then drainStream s cl.toNat else s
      let k := clusterAt drained cl.toNat
      (Tbl.find x.savedClusters cl.toNat = none → v.lease = leaseOf drained cl.toNat ctx ∧
        v.cluster.acc = k.acc ∧ v.cluster.active = k.active ∧ v.cluster.shadow = k.shadow ∧ v.cluster.used = k.used ∧
        (seqEntries v.cluster.matrix).map (·.id) = ((seqEntries d.matrix).filter (·.ctx == ctx)).map (·.id)) ∧
      (leaseOf drained cl.toNat ctx = true → (clusterAt t cl.toNat).lease = .free ∧ (clusterAt t cl.toNat).acc = [])) ∧
    (savedReady s ctx = false → exec (.contextSaved ctx) s = .next s) ∧
    (savedReady s ctx = true → ∃ t, exec (.contextSaved ctx) s = .next t ∧ (ctxOf t ctx).life = .saved ∧
      (∀ j ∈ cores, coreAt t j = { Core.reset with sent := (coreAt s j).sent } ∧ Tbl.has (ctxOf t ctx).savedCores j = true) ∧
      (s.Inv → ∀ j ∈ cores,
        let kept := { coreAt s j with l1 := [], notices := [] }
        (∃ u : State, (ctxOf u ctx).revBusy = x.revBusy ∧ (ctxOf u ctx).revmap = x.revmap ∧
          Tbl.find (ctxOf t ctx).savedCores j = some (scrubCore u ctx kept)) ∧
        (x.revBusy = false → Tbl.find (ctxOf t ctx).savedCores j = some kept)) ∧
      (s.Inv → x.savedCores = [] → x.revBusy = false → x.conf = false → x.saveBase.toNat % 16 = 0 → cores.length ≤ 1024 →
        ∀ i j, cores[i]? = some j → ∀ l < 4, ∀ r < 32,
          let at_ := x.saveBase.toNat + (65536 + 16384 * i) + 3840 * l + 16 * r
          let y := Tbl.get Cap.null (slotAt s j l).regs.g r
          memBytes t.mem at_ 16 = y.img.toNat ∧ memTag t.mem at_ = y.tag)) ∧
    (savedReady s ctx = true ↔ x.life = .switching ∧ releasePending s ctx = false ∧ (∀ k ∈ s.clusters, usesCluster s k.1 ctx = false) ∧
      ∀ j ∈ cores, (coreAt s j).stopped = true ∧ (coreAt s j).cmos = [] ∧ (coreAt s j).ioStores = [] ∧ (∀ y ∈ (coreAt s j).slots, y.2.older = none) ∧ savedNow x (clusterOf j) = true) ∧
    (x.transit = [] → exec (.parkEntry ctx) s = .next s) ∧
    (∀ p r, x.transit = p :: r → ∃ t m, exec (.parkEntry ctx) s = .next t ∧ (ctxOf t ctx).transit = r ∧ m.sender = p.msg.sender ∧
      m.payload = messageSeal s true (p.msg.sender.toNat % 1024) p.dest p.count p.msg.payload ∧ (x.revBusy = false → m.tags = p.msg.tags) ∧
      (x.conf = false → s.mem.wf = true → memBytes t.mem (x.saveBase.toNat + (188480 * 1024 + 128 * freePark x)) 64 = m.payload.toNat) ∧
      let parked := x.parkedMsgs ++ [{ p with msg := m, entry := freePark x }]
      let room : Prop := isOut x.life = false ∧ (coreAt s p.dest).mail.length < 8
      (¬room → t.cores = s.cores ∧ (ctxOf t ctx).parkedMsgs = parked) ∧
      (room → ∃ z, parked.find? (fun y => y.dest == p.dest) = some z ∧ (ctxOf t ctx).parkedMsgs = parked.erase z ∧
        coreAt t p.dest = { coreAt s p.dest with mail := (coreAt s p.dest).mail ++ [z.msg] } ∧ ∀ j, j ≠ p.dest → coreAt t j = coreAt s j)) ∧
    ((x.life ≠ .resuming ∨ s.time < x.resumeAt) → exec (.restart ctx) s = .next s) ∧
    (x.life = .resuming → x.resumeAt ≤ s.time → ∃ t, exec (.restart ctx) s = .next t ∧ (ctxOf t ctx).life = .running ∧
      (∀ j ∈ cores, coreAt t j = { coreAt s j with stopped := false }) ∧ (∀ j, j ∉ cores → coreAt t j = coreAt s j) ∧ t.mem = s.mem) ∧
    ((clusterAt s cl.toNat).lease ≠ .free → exec (.leaseRestore cl) s = .next s) ∧
    (∀ v, (clusterAt s cl.toNat).lease = .free → leaseOwed s cl.toNat = some ctx → Tbl.find x.savedClusters cl.toNat = some v →
      ∃ t, exec (.leaseRestore cl) s = .next t ∧
        let y := clusterAt t cl.toNat
        y.active = v.cluster.active ∧ y.shadow = v.cluster.shadow ∧ y.acc = v.cluster.acc ∧ y.bound = v.cluster.bound ∧ y.lastCtx = ctx ∧
        (v.cluster.lease = .held → y.lease = .held ∧ y.holder = v.cluster.holder ∧ y.used = v.cluster.used) ∧
        (seqEntries y.matrix).map (·.id) = (v.cluster.matrix.queue ++ (clusterAt s cl.toNat).matrix.queue).map (·.id)) ∧
    (freedReady s ctx = false → exec (.contextFreed ctx) s = .next s) ∧
    (freedReady s ctx = true → ∃ t, exec (.contextFreed ctx) s = .next t ∧ ctxOf t ctx = Context.reset ∧
      (∀ j ∈ cores, coreAt t j = { Core.reset with sent := (coreAt s j).sent }) ∧ (ctx ≠ 0 → (clusterAt t cl.toNat).lastCtx ≠ ctx)) ∧
    (freedReady s ctx = true ↔ x.life = .terminating ∧ (∀ v ∈ x.vcs, v.2.state = .undefined) ∧ ∀ j ∈ cores, (coreAt s j).report = none ∧ (coreAt s j).held = [])

/-- R326 to R334, R338: Cornerstone's operations. Each acts when the block is the head of the queue and names its OP,
and answers that request block: status 1 where a
reserved byte is set, 4 where the context is in no state that the operation acts on, and else what its own conditions give.
CSDONE counts the answer. The order of two refusals that apply together and the formats of a wrapped key are the model's
choice (log entry 31), the ciphers are log entry 8's; that a core which leaves gives up its lease is log entry 59's, that GRANT powers a gated
cluster log entry 37's, which registers a GRANT resets beside a core's own log entry 67's, and that any poison in a save area refuses RESUME
log entry 14's. R338: RESUME gives every saved core its registers back and fills its queue with what is parked for it. -/
def Obligations.CornerstoneOperations : Prop :=
  ∀ (s : State) (blk : W64),
    let b := readRequest s blk
    let ctx := BitVec.ofNat 12 (reqCtx b)
    let x := ctxOf s ctx
    let valid : Prop := 1 ≤ reqCtx b ∧ reqCtx b ≤ 4094
    let asked (op : Nat) : Prop := s.doors.head? = some blk ∧ reqOp b = op
    let answers (op : Nat) (i : Instr) (a : Answer) : Prop := asked op → exec i s = .next (complete328 s blk a)
    let idle (op : Nat) (i : Instr) : Prop := ¬asked op → exec i s = .next s
    let zero (named : List (Nat × Nat)) : Prop := reservedZero b named = true
    let masked := [(32, 16), (48, 1)]
    let live : Prop := valid ∧ x.life ∈ liveStates
    let clusters := markedClusters (field b 32 16)
    let cores := maskedCores (field b 32 16) (field b 48 1)
    (∀ a, ∃ t, complete328 s blk a = t ∧ t.csDone = (match a with | .refused _ => s.csDone | .done u _ _ => u.csDone) + 1) ∧
    (idle 1 (.create blk) ∧ idle 2 (.grant blk) ∧ idle 3 (.returnCores blk) ∧ idle 4 (.mint blk) ∧ idle 5 (.revoke blk) ∧
      idle 6 (.sealkey blk) ∧ idle 7 (.modelkey blk) ∧ idle 8 (.freeslot blk) ∧ idle 9 (.roster blk) ∧ idle 10 (.resume blk) ∧
      idle 11 (.destroy blk)) ∧
    (∀ named, reservedZero b named = false →
      (named = [(32, 1), (36, 4), (40, 8), (48, 8)] → answers 1 (.create blk) (.refused 1)) ∧
      (named = masked → answers 2 (.grant blk) (.refused 1) ∧ answers 3 (.returnCores blk) (.refused 1)) ∧
      (named = [(32, 2), (34, 2), (36, 2)] → answers 4 (.mint blk) (.refused 1)) ∧
      (named = [] → answers 5 (.revoke blk) (.refused 1) ∧ answers 6 (.sealkey blk) (.refused 1) ∧ answers 11 (.destroy blk) (.refused 1)) ∧
      (named = [(32, 4), (40, 8)] → answers 7 (.modelkey blk) (.refused 1)) ∧ (named = [(32, 1)] → answers 8 (.freeslot blk) (.refused 1)) ∧
      (named = [(40, 8), (48, 4)] → answers 9 (.roster blk) (.refused 1)) ∧ (named = [(40, 8)] → answers 10 (.resume blk) (.refused 1))) ∧
    (zero [(32, 1), (36, 4), (40, 8), (48, 8)] →
      let flags := field b 32 1
      let base := field b 40 8
      let size := field b 48 8
      let placed : Prop := base % 2 ^ 16 = 0 ∧ 188488 * 1024 ≤ size ∧ inHbm base = true ∧ inHbm (base + size - 1) = true ∧
        base / 2 ^ 36 = (base + size - 1) / 2 ^ 36
      (8 ≤ flags → answers 1 (.create blk) (.refused 1)) ∧ (flags < 8 → freeId s = none → answers 1 (.create blk) (.refused 2)) ∧
      (flags < 8 → ∀ id, freeId s = some id → (¬placed → answers 1 (.create blk) (.refused 6)) ∧
        (placed → ∃ u y, answers 1 (.create blk) (.done u id (some y.authority)) ∧ u = { setCtx s id y with gens := Tbl.set s.gens id y.gen } ∧
          y.life = .created ∧ y.conf = decide (flags % 2 = 1) ∧ y.sys = decide (flags / 2 % 2 = 1) ∧ y.hostLaunch = decide (flags / 4 % 2 = 1) ∧
          y.quota = BitVec.ofNat 32 (field b 36 4) ∧ y.gen = Tbl.get 0 s.gens id + 1 ∧ y.kernels = [] ∧ y.binds = [] ∧ y.vcs = [] ∧
          y.authority.tag = true ∧ capDecode y.authority = (0, 2 ^ 64) ∧
          capPerms y.authority = (if y.sys then 0xfff else 0xffb)))) ∧
    (zero masked → (¬valid ∨ (x.life ≠ .created ∧ x.life ≠ .running)) → answers 2 (.grant blk) (.refused 4) ∧ answers 3 (.returnCores blk) (.refused 4)) ∧
    (zero masked → valid → (x.life = .created ∨ x.life = .running) →
      let taken : Prop := (∃ c ∈ cores, (coreAt s c).owner ≠ 0) ∨ (∃ k ∈ clusters, k ∈ s.unavailable) ∨
        (x.conf = true ∧ field b 48 1 ≠ 0xff) ∨ ∃ k ∈ clusters, 16 < gasketLoad s k ctx
      (taken → answers 2 (.grant blk) (.refused 3)) ∧
      (¬taken → ∃ u, answers 2 (.grant blk) (.done u 0 none) ∧ (ctxOf u ctx).life = .running ∧
        (∀ c ∈ cores, coreAt u c = { Core.reset with owner := ctx, sent := (coreAt s c).sent } ∧
          (clusterAt u (clusterOf c)).leaseMax = Cluster.reset.leaseMax ∧
          ctxDie u ctx (dieOf c) = { CtxDie.reset with passes := (ctxDie s ctx (dieOf c)).passes }) ∧
        ∀ k ∈ clusters, (clusterAt u k).gated = false) ∧
      ((∃ c ∈ cores, (coreAt s c).owner ≠ ctx ∨ ∃ y ∈ (coreAt s c).slots, y.2.busy = true) → answers 3 (.returnCores blk) (.refused 3)) ∧
      ((∀ c ∈ cores, (coreAt s c).owner = ctx ∧ ∀ y ∈ (coreAt s c).slots, y.2.busy = false) →
        ∃ u, answers 3 (.returnCores blk) (.done u 0 none) ∧ ∀ c ∈ cores, coreAt u c = { Core.reset with sent := (coreAt s c).sent } ∧
          (holdsLease s c = true → (clusterAt u (clusterOf c)).lease ≠ .held))) ∧
    (zero [(32, 2), (34, 2), (36, 2)] → live →
      let core := field b 32 2
      let good : Prop := core < 1024 ∧ ((coreAt s core).owner = ctx ∨ Tbl.has x.savedCores core = true) ∧ field b 36 2 = Config.moduleIndex.toNat
      (¬good → answers 4 (.mint blk) (.refused 3)) ∧
      (good → ∃ h, answers 4 (.mint blk) (.done s 0 (some h)) ∧ h.tag = true ∧ capOtype h = 2 ∧ handleModule h = Config.moduleIndex ∧
        handleCore h = core ∧ handleDest h = ctx ∧ handleHolder h = BitVec.ofNat 12 (field b 34 2) ∧ handleGen h = x.gen)) ∧
    (zero [] → live → (x.gen.toNat = 2 ^ 18 - 1 → answers 5 (.revoke blk) (.refused 3)) ∧
      (x.gen.toNat ≠ 2 ^ 18 - 1 → answers 5 (.revoke blk)
        (.done { updCtx s ctx.toNat fun c => { c with gen := x.gen + 1 } with gens := Tbl.set s.gens ctx.toNat (x.gen + 1) } 0 none)) ∧
      (freeKeySlot s = none → answers 6 (.sealkey blk) (.refused 2)) ∧
      (∀ n, freeKeySlot s = some n → ((∃ c ∈ coresOwned s ctx, 16 ≤ gasketLoad s (clusterOf c) ctx) → answers 6 (.sealkey blk) (.refused 3)) ∧
        ((∀ c ∈ coresOwned s ctx, gasketLoad s (clusterOf c) ctx < 16) → answers 6 (.sealkey blk)
          (.done { s with keys := Tbl.set s.keys n (.seal ctx (Config.randomKey s.fresh)), fresh := s.fresh + 1 } n none)))) ∧
    (zero [(32, 4), (40, 8)] → live → ∀ n y k, freeKeySlot s = some n →
      (s.sessions.find? fun z => z.id.toNat == field b 32 4 && z.attested) = some y →
        (unwrapKey y.secret y.id ctx (physGet s (field b 40 8) 60 4) = none → answers 7 (.modelkey blk) (.refused 5)) ∧
        (unwrapKey y.secret y.id ctx (physGet s (field b 40 8) 60 4) = some k →
          answers 7 (.modelkey blk) (.done { s with keys := Tbl.set s.keys n (.model ctx k) } n none))) ∧
    (zero [(32, 1)] →
      let n := field b 32 1
      let mine : Prop := n ≠ 0 ∧ ctx ≠ 0 ∧ reqCtx b < 4096 ∧ ((∃ k, Tbl.get .empty s.keys n = .seal ctx k) ∨ ∃ k, Tbl.get .empty s.keys n = .model ctx k)
      (¬mine → answers 8 (.freeslot blk) (.refused 3)) ∧ (mine → ∃ u, answers 8 (.freeslot blk) (.done u 0 none) ∧ u.keys = Tbl.erase s.keys n ∧
        ∀ c, ∀ y ∈ (coreAt u c).l1, y.dirty = true → y.nonCoherent = false → y.key.toNat ≠ n)) ∧
    (zero [(40, 8), (48, 4)] →
      let len := field b 48 4
      let bytes := bytesOf (physGet s (field b 40 8) len (len / 64 + 2)) len
      let count := bytes.getD 8 0 + 256 * bytes.getD 9 0
      let mods := rosterModules bytes count
      let serial := bytesVal (bytes.take 8)
      let good : Prop := 114 ≤ len ∧ len ≤ 4720 ∧ 1 ≤ count ∧ count ≤ 2304 ∧ len = 112 + 2 * count ∧ Config.moduleIndex.toNat ∈ mods ∧
        rosterSigned s bytes = true ∧ (∀ m ∈ mods, m < 4096) ∧ ∀ y ∈ (bytes.drop 10).take 6, y = 0
      (¬good → answers 9 (.roster blk) (.refused 5)) ∧
      (good → s.roster ≠ [] → serial ≤ s.rosterSerial.toNat → answers 9 (.roster blk) (.refused 7)) ∧
      (good → (s.roster = [] ∨ s.rosterSerial.toNat < serial) →
        answers 9 (.roster blk) (.done { s with roster := mods.foldl NatSet.insert [], rosterSerial := BitVec.ofNat 64 serial } 0 none))) ∧
    (zero [(40, 8)] → ((¬valid ∨ x.life ≠ .saved) → answers 10 (.resume blk) (.refused 4)) ∧
      (valid → x.life = .saved →
        ((∃ k ∈ x.savedCores, (coreAt s k.1).owner ≠ 0) → answers 10 (.resume blk) (.refused 3)) ∧
        ((∀ k ∈ x.savedCores, (coreAt s k.1).owner = 0) → anyPoison s.mem x.saveBase.toNat x.saveSize.toNat = true →
          answers 10 (.resume blk) (.refused 6)) ∧
        ((∀ k ∈ x.savedCores, (coreAt s k.1).owner = 0) → anyPoison s.mem x.saveBase.toNat x.saveSize.toNat = false →
          ∃ u, answers 10 (.resume blk) (.done u 0 none) ∧ (ctxOf u ctx).life = .resuming ∧
            (ctxOf u ctx).resumeAt = BitVec.ofNat 64 (field b 40 8) ∧ (ctxOf u ctx).savedCores = [] ∧
            (x.revBusy = false → Tbl.wf x.savedCores = true → ∀ c k, Tbl.find x.savedCores c = some k → k.mail.length ≤ 8 →
              coreAt u c = { k with sent := (coreAt s c).sent, l1 := (coreAt u c).l1, mail :=
                k.mail ++ (((x.parkedMsgs.filter fun p => p.dest == c).take (8 - k.mail.length)).map (·.msg)) })))) ∧
    (zero [] → ((¬valid ∨ x.life = .free) → answers 11 (.destroy blk) (.refused 4)) ∧
      (valid → x.life = .terminating → answers 11 (.destroy blk) (.done s 0 none)) ∧
      (live → ∃ u, answers 11 (.destroy blk) (.done u 0 none) ∧ (ctxOf u ctx).life = .terminating ∧
        (∀ c ∈ coresOwned s ctx, (coreAt u c).slots = [] ∧ (coreAt u c).mail = []) ∧ (∀ k ∈ u.keys, keyOwnedBy ctx k.2 = false) ∧
        ∀ id q, kernelAt u ctx id = some q → q.state ≠ .running))

/-- R292 to R295, R303 to R307: a page command is refused with its code or starts; a migration moves a granule a chunk and ends
with the entry's update, and each of its chunks waits as an engine chunk does (R152); a bias flip registers and ends when nothing
holds it back and the copies are gone; no leaf comes to name a retired frame (R295); the walks of a virtual cache move, flush and drain it. The
model's choices here: which base page names a large page, that a page which is not exposed flips too, and what a poisoned migration leaves (27),
and which parent counts as in use (28). The parts after the first say what a granule's chunk leaves at its new location, the final update of the
entry, where a line stands that has gone home (R294), and where the dirty pieces of an evicted granule go, by which caches flush and drain
(R301, R303, R307). -/
def Obligations.CacheAndPageEvents : Prop :=
  (∀ (s : State) (die : BitVec 3) (page : W32) (ctx : BitVec 12) (id : BitVec 5),
    let d := die.toNat
    let p := page.toNat
    let run (op : Nat) (t : Outcome) : Prop :=
      (op = 1 → exec (.migrate die page) s = t) ∧ (op = 2 → exec (.flipBiasToHost die page) s = t) ∧ (op = 3 → exec (.flipBiasToDevice die page) s = t)
    let free : Prop := (dieAt s d).page = none
    let dest := (dieAt s d).pgdest
    let x := ctxOf s ctx
    let v := vcAt x id.toNat
    (¬free → ∀ op, run op (.next s)) ∧
    (free → p % 8 ≠ d → ∀ op, run op (.next (pageDone s d 1))) ∧
    (free → p % 8 = d → tableLeaf s (p * 2 ^ 16) = none → ∀ op, run op (.next (pageDone s d 2))) ∧
    (free → p % 8 = d → ∀ l e large, tableLeaf s (p * 2 ^ 16) = some (l, e, large) →
      (large = true → p % 512 ≠ 0 → ∀ op, run op (.next (pageDone s d 2))) ∧
      ((large = true → p % 512 = 0) →
        let new := leafMove l (dest.extractLsb' 16 48) (dest.extractLsb' 0 2)
        let ia := p * 2 ^ 16
        let gone : Prop := ∃ f ∈ framesFrom (leafPlace new large ia) large, f ∈ s.retired
        ((1 < (dest.extractLsb' 0 2).toNat ∨ leafUsable new large = false ∨ gone) → exec (.migrate die page) s = .next (pageDone s d 3)) ∧
        ((dest.extractLsb' 0 2).toNat ≤ 1 → leafUsable new large = true → ¬gone → ∃ t, exec (.migrate die page) s = .next t ∧ t.stamp = s.stamp + 1 ∧
          (dieAt t d).pgerr = 0 ∧ (dieAt t d).page = some { op := 1, page := ia, granules := if large then 16384 else 32, next := 0,
                                                            old := leafPlace l large ia, new := leafPlace new large ia, waits := [] }) ∧
        (2 ≤ (leafLoc l).toNat → run 2 (.next (pageDone s d 4)) ∧ run 3 (.next (pageDone s d 4))) ∧
        ((leafLoc l).toNat < 2 → ∃ t, exec (.flipBiasToDevice die page) s = .next t ∧ (dieAt t d).pgerr = 0 ∧ ∃ c, (dieAt t d).page = some c ∧
          c.op = 3 ∧ c.page = ia ∧ t.mem = s.mem ∧ (∀ w ∈ c.waits, w ∈ t.bisnp) ∧
          ∀ h ∈ s.hostHolds, ia ≤ h.1 * 128 → h.1 * 128 < ia + (if large then 2 ^ 25 else 2 ^ 16) → h.2 ≠ 0 → h.1 ∈ c.waits) ∧
        ((leafLoc l).toNat < 2 → ∃ t, exec (.flipBiasToHost die page) s = .next t ∧ (dieAt t d).pgerr = 0 ∧ t.mem = s.mem ∧
          (∃ c, (dieAt t d).page = some c ∧ c.op = 2 ∧ c.page = ia) ∧
          ∃ r ∈ t.registered, r.owner = .migrate d ∧ r.writes = deviceLines s ia (if large then 2 ^ 25 else 2 ^ 16)))) ∧
    ((∀ c, (dieAt s d).page = some c → c.op ≠ 1) → exec (.migrationChunk die) s = .next s) ∧
    (∀ c, (dieAt s d).page = some c → c.op = 1 →
      let lines := granuleLines ((c.page + 2048 * c.next) / 2048)
      (c.next < c.granules → anyPoison s.mem (c.old + 2048 * c.next) 2048 = false → engineWaits s (.migrate d) lines lines = true →
        exec (.migrationChunk die) s = .next (registerWait s (.migrate d) 0 lines lines)) ∧
      (c.next < c.granules → anyPoison s.mem (c.old + 2048 * c.next) 2048 = false → engineWaits s (.migrate d) lines lines = false →
        ∃ t, exec (.migrationChunk die) s = .next t ∧ (∀ r ∈ t.registered, r.owner ≠ .migrate d) ∧ t.stamp = s.stamp + 1 ∧
          (dieAt t d).page = some { c with next := c.next + 1 } ∧
          let q := lines.foldl quietLine (unregister s (.migrate d))
          let from_ := c.old + 2048 * c.next
          let into_ := c.new + 2048 * c.next
          let ia := c.page + 2048 * c.next
          t.mem = (copyGranule q (pageKey q ia) ia from_ into_).mem ∧
          (∀ j, ∀ z ∈ (coreAt t j).l1, z.line / 16 = ia / 2048 → z.loc = into_ + z.line % 16 * 128) ∧
          ∀ j g, Tbl.find t.banks j = some g → g.addr = ia / 2048 → g.loc = into_) ∧
      (c.next < c.granules → anyPoison s.mem (c.old + 2048 * c.next) 2048 = true → ∃ t, exec (.migrationChunk die) s = .next t ∧
        (dieAt t d).page = none ∧ (dieAt t d).pgerr = 5) ∧
      (∀ l e large, c.granules ≤ c.next → leafAt s c.page = some (l, e, large) → ∃ t, exec (.migrationChunk die) s = .next t ∧ (dieAt t d).page = none ∧
        (dieAt t d).pgerr = 0 ∧ t.stamp = s.stamp + 1 ∧
        let moved (l : BitVec 128) : BitVec 128 := leafPut (leafMove l (BitVec.ofNat 48 (c.new / 2 ^ 16)) (if inTier2 c.new then 1 else 0)) 8 false
        let u := editLeaf (pageDone s d 0) e moved
        t = engineCommit (if leafAci l == 0 then u else physPut u (s.countbase.toNat / 2 ^ 16 * 2 ^ 16 + 8 * (leafAci l).toNat) 8 0) [])) ∧
    (∀ c l e large, (dieAt s d).page = some c → c.op = 3 → c.waits = [] → leafAt s c.page = some (l, e, large) →
      exec (.biasFlipComplete die) s = .next (pageDone (engineCommit (editLeaf s e fun l => leafPut l 5 false) []) d 0)) ∧
    (∀ c, (dieAt s d).page = some c → c.op = 2 → flipWaits s d c = false → ∃ t, exec (.biasFlipComplete die) s = .next t ∧
      (dieAt t d).page = none ∧
      (let lines := deviceLines s c.page (c.granules * 2048)
       let u := lines.foldl lineHome (unregister s (.migrate d))
       (∀ l e large, leafAt u c.page = some (l, e, large) → (dieAt t d).pgerr = 0 ∧ t.stamp = s.stamp + 1 ∧
         t = pageDone (engineCommit (editLeaf u e fun l => leafPut l 5 true) lines) d 0) ∧
       (leafAt u c.page = none → (dieAt t d).pgerr = 2)) ∧
      ∀ r ∈ t.registered, r.owner ≠ .migrate d) ∧
    ((∀ c, (dieAt s d).page = some c → (c.op = 2 → flipWaits s d c = true) ∧ (c.op = 3 → c.waits ≠ [])) →
      exec (.biasFlipComplete die) s = .next s) ∧
    (v.state ≠ .reshaping → exec (.reshapeWalk ctx id) s = .next s) ∧
    (v.state = .reshaping → oldGranule s x id.toNat = none → ∃ t, exec (.reshapeWalk ctx id) s = .next t ∧
      vcAt (ctxOf t ctx) id.toNat = { v with state := .bound, old := none } ∧
      t.slices = ((v.old.map (·.slices)).getD []).foldl Tbl.erase s.slices) ∧
    (∀ j g, v.state = .reshaping → oldGranule s x id.toNat = some j → Tbl.find s.banks j = some g →
      ∃ t, exec (.reshapeWalk ctx id) s = .next t ∧ ((vcAt (ctxOf t ctx) id.toNat).state = .reshaping ∨ (vcAt (ctxOf t ctx) id.toNat).state = .bound) ∧
        (vcAt (ctxOf t ctx) id.toNat).geo = v.geo ∧
        (∀ w, ((geometryWays s v.geo (g.addr * 2048)).find? fun w => !Tbl.has s.banks w) = some w →
          (vcAt (ctxOf t ctx) id.toNat).state = .reshaping → t.banks = Tbl.set (Tbl.erase s.banks j) w { g with used := s.order })) ∧
    (v.state ≠ .reparenting → exec (.flushThrough ctx id) s = .next s) ∧
    (v.state = .reparenting → ∃ t, exec (.flushThrough ctx id) s = .next t ∧
      vcAt (ctxOf t ctx) id.toNat = { v with state := .bound, parent := v.newParent, newParent := 0 } ∧ t.slices = s.slices ∧
      (let u := (subtreeBinds x id.toNat).foldl (fun u b => flushMove u ctx b.base b.len v.parent v.newParent) s
       t.banks = u.banks ∧ t.mem = u.mem) ∧
      ∀ c, coreAt t c = coreAt s c) ∧
    (v.state ≠ .draining → exec (.vcDrain ctx id) s = .next s) ∧
    (v.state = .draining → ∃ t, exec (.vcDrain ctx id) s = .next t ∧ vcAt (ctxOf t ctx) id.toNat = VCache.reset ∧
      let slices := v.geo.slices ++ (v.old.map (·.slices)).getD []
      let u := returnSlices ((granulesIn s slices).foldl (evictInto x (evictPath x id.toNat)) s) slices
      t.slices = slices.foldl Tbl.erase s.slices ∧ t.banks = u.banks ∧ t.mem = u.mem)) ∧
  (∀ (s : State) (key : Byte) (ia src dst : Nat), s.mem.wf = true → src % 2048 = 0 → dst % 2048 = 0 → src ≠ dst →
    let t := copyGranule s key ia src dst
    (∀ a < 2048, isClusterMem src = false → isClusterMem dst = false → memByte t.mem (dst + a) = memByte s.mem (src + a)) ∧
    (∀ a < 2048, memTag t.mem (dst + a) = memTag s.mem (src + a) ∧ memPoisoned t.mem (dst + a) = false) ∧
    ∀ a, a / 2048 ≠ dst / 2048 → memByte t.mem a = memByte s.mem a ∧ memTag t.mem a = memTag s.mem a) ∧
  (∀ (l : BitVec 128) (target : BitVec 48) (loc : BitVec 2),
    let m := leafPut (leafMove l target loc) 8 false
    leafLoc m = loc ∧ m.extractLsb' 16 48 = target ∧ m.getLsbD 8 = false ∧
      ∀ i < 128, i < 3 ∨ (5 ≤ i ∧ i < 16 ∧ i ≠ 8) ∨ 64 ≤ i → m.getLsbD i = l.getLsbD i) ∧
  (∀ (s : State) (e : Nat) (f : BitVec 128 → BitVec 128) (p : Nat) (l : BitVec 128) (a : Nat × Bool), Tbl.find s.tlb p = some (l, a) →
    Tbl.find (editLeaf s e f).tlb p = some (if a.1 = e then f l else l, a)) ∧
  (∀ (s : State) (p : Place), s.mem.wf = true → Tbl.wf s.banks = true → OnePool s (p.ia / 128) → isHost p.loc = false →
    locLost s p.ia p.loc = false → AtHome s (homeward s (p.ia / 128) (p.loc / 128 * 128) p.key) p (cohLine s p.key p.ia p.loc)) ∧
  (∀ (s : State) (c : Context) (path : List Nat) (k : Nat) (g : Granule), Tbl.find s.banks k = some g → Tbl.wf s.banks = true → s.mem.wf = true →
    let u := { s with banks := Tbl.erase s.banks k }
    let t := evictInto c path s k
    (g.dirty = 0 → t = u) ∧
    (g.dirty ≠ 0 → path = [] → t = { u with mem := t.mem } ∧ ∀ i < 32,
      let at_ := g.loc + 64 * i
      g.loc % 2048 = 0 → (g.dirty.getLsbD i = false → memBytes t.mem at_ 64 = memBytes s.mem at_ 64) ∧
      (g.dirty.getLsbD i = true → locLost s (g.addr * 2048 + 64 * i) at_ = false →
        memBytes t.mem at_ 64 = (pieceIn s at_ g.key (g.addr * 2048 + 64 * i) (granulePiece g i)).toNat ∧
        ∀ j < 4, memTag t.mem (at_ + 16 * j) = g.tags.getLsbD (4 * i + j))) ∧
    (∀ v rest w old, g.dirty ≠ 0 → path = v :: rest → (vcAt c v).state ≠ .reshaping → findWay u (waysOf u c v (g.addr * 2048)) (g.addr * 2048) = some w →
      Tbl.find u.banks w = some old → t.mem = s.mem ∧ (∀ j, j ≠ w → Tbl.find t.banks j = Tbl.find u.banks j) ∧ ∃ m, Tbl.find t.banks w = some m ∧
        ∀ i < 32, (g.dirty.getLsbD i = true → m.present.getLsbD i = true ∧ m.dirty.getLsbD i = true ∧ granulePiece m i = granulePiece g i ∧
            m.tags.extractLsb' (4 * i) 4 = g.tags.extractLsb' (4 * i) 4) ∧
          (g.dirty.getLsbD i = false → m.present.getLsbD i = old.present.getLsbD i ∧ m.dirty.getLsbD i = old.dirty.getLsbD i ∧
            granulePiece m i = granulePiece old i ∧ m.tags.extractLsb' (4 * i) 4 = old.tags.extractLsb' (4 * i) 4)))
/-- R339, R340, R346, R347, R366: a port moves through its states, and a version is agreed item by item; a hot reset or link-down
of a CXL port destroys every confidential context, key, session and lock, and no other context, and a hot reset draws a new message key (R263);
an interface is locked once, a second request to lock it gets its error, the manager's key is written once, a report has the five blocks in their
order, and its session can set up the IDE key of a port (R341). When viral ends (34), what a lost host's
lines become (38), that a hot reset restarts a failed start-up (44) and which interfaces exist (62) are the model's choice. -/
def Obligations.PortEvents : Prop :=
  ∀ (s : State) (port : BitVec 5) (link cmd rec pkt : BitVec 16) (tdi : BitVec 12) (session : W32) (secret : BitVec 256) (key : BitVec 768)
      (ide : Option (BitVec 1 × BitVec 256)),
    let n := port.toNat
    let p := portAt s n
    let only (t : State) (q : Port) : Prop := portAt t n = q ∧ ∀ m, m ≠ n → portAt t m = portAt s m
    let agreed : Option Nat :=
      if n < 2 then (if link.getLsbD 1 && cmd.getLsbD 1 && pkt.getLsbD 1 then some 1 else none)
      else if n < 20 then
        (if (link.getLsbD 1 || link.getLsbD 2) && cmd.getLsbD 1 && rec.getLsbD 1 then some (if link.getLsbD 2 then 2 else 1) else none)
      else some 0
    let destroyed (t : State) : Prop := t.keys = [] ∧ t.sessions = [] ∧ t.locks = [] ∧ t.ideKeys = [] ∧ t.time = s.time ∧ t.roster = s.roster ∧ t.fmKey = s.fmKey ∧
      (s.Inv → (∀ x ∈ s.contexts, x.1 < 4096) → ∀ c : BitVec 12, c ≠ 0 →
        ((ctxOf s c).conf = true → (ctxOf s c).life ≠ .free → (ctxOf t c).life = .terminating) ∧
        (((ctxOf s c).conf = false ∨ (ctxOf s c).life = .free) → (ctxOf t c).life = (ctxOf s c).life)) ∧
      ∀ l, l % 2 = n → Tbl.get 0 t.hostHolds l = 0
    (n < 24 → p.state = .down → exec (.portTrainingStart port) s = .next (setPort s n ⟨.training, 0, true⟩)) ∧
    ((24 ≤ n ∨ p.state ≠ .down) → exec (.portTrainingStart port) s = .next s) ∧
    (p.state = .training → isJvx n = false → exec (.trainingComplete port) s = .next (setPort s n { p with state := .negotiating })) ∧
    (p.state = .training → isJvx n = true → ∃ t, exec (.trainingComplete port) s = .next t ∧ only t { p with state := .negotiating } ∧
      s.time ≤ t.time ∧ t = { s with ports := t.ports, time := t.time, fresh := t.fresh }) ∧
    (p.state ≠ .training → exec (.trainingComplete port) s = .next s) ∧
    (n < 24 → p.state = .negotiating →
      (agreed = none → exec (.negotiation port link cmd rec pkt) s = .next (setPort s n { p with state := .down, version := 0 })) ∧
      (∀ v, agreed = some v → ∃ t, exec (.negotiation port link cmd rec pkt) s = .next t ∧
        only t { p with state := .active, version := BitVec.ofNat 8 v } ∧
        t = { s with ports := t.ports, viral := t.viral, lost := t.lost, lostLines := t.lostLines } ∧ (2 ≤ n → n < 20 → ∀ m ∈ t.lost, m = 4095) ∧
        (let u := setPort s n { p with state := .active, version := BitVec.ofNat 8 v }
         ∀ l, l ∈ t.lostLines ↔ l ∈ s.lostLines ∧ (n < 2 → l % 2 ≠ n ∨ hostsLine u l = false) ∧ (2 ≤ n → n < 20 → hostsLine u l = true)) ∧ (∀ m, m ∈ t.viral ↔ m ∈ s.viral ∧ ¬(m = n ∧ n < 2)) ∧
        (n < 2 → 4095 ∉ t.lost))) ∧
    (p.state ≠ .negotiating → exec (.negotiation port link cmd rec pkt) s = .next s) ∧
    (n < 2 → s.bootErr ≠ 0 → s.ready = false → exec (.hotReset port) s = .next { s with phase := 0, bootErr := 0 }) ∧
    ((2 ≤ n ∨ ((s.bootErr = 0 ∨ s.ready = true) ∧ p.state ≠ .active)) → exec (.hotReset port) s = .next s) ∧
    (n < 2 → (s.bootErr = 0 ∨ s.ready = true) → p.state = .active → ∃ t, exec (.hotReset port) s = .next t ∧
      only t { p with state := .resetting, version := 0 } ∧ destroyed t ∧ t.messageKey = Config.randomKey s.fresh) ∧
    (let settled : Prop := ∀ x ∈ s.contexts, x.2.conf = true → x.2.life ≠ .terminating
     (p.state = .resetting → settled → exec (.hotResetComplete port) s = .next (setPort s n { p with state := .training })) ∧
     ((p.state ≠ .resetting ∨ ¬settled) → exec (.hotResetComplete port) s = .next s)) ∧
    (p.state ≠ .active → exec (.linkDown port) s = .next s) ∧
    (2 ≤ n → p.state = .active → exec (.linkDown port) s = .next (setPort s n ⟨.down, 0, false⟩)) ∧
    (n < 2 → p.state = .active → ∃ t, exec (.linkDown port) s = .next t ∧ only t ⟨.down, 0, false⟩ ∧ destroyed t ∧ t.messageKey = s.messageKey ∧
      (∀ m, m ∈ t.viral ↔ m = n ∨ m ∈ s.viral) ∧ t.hostLines = []) ∧
    (tdi.toNat ∈ s.locks → exec (.lockInterface tdi) s = .next { s with lockErrors := s.lockErrors ++ [tdi.toNat] }) ∧
    (tdi.toNat ∉ s.locks → (tdi = 0 ∨ (ctxOf s tdi).life = .free ∨ 64 ≤ s.locks.length) → exec (.lockInterface tdi) s = .next s) ∧
    (tdi ≠ 0 → (ctxOf s tdi).life ≠ .free → tdi.toNat ∉ s.locks → s.locks.length < 64 → exec (.lockInterface tdi) s = .next { s with locks := s.locks ++ [tdi.toNat] }) ∧
    (∃ t r, exec (.attestation session ⟨secret, ide⟩) s = .next t ∧
      t.ideKeys = (match ide with | some k => Tbl.set s.ideKeys k.1.toNat k.2 | none => s.ideKeys) ∧ t.reports = s.reports ++ [r] ∧ r.session = session ∧ r.blocks.length = 5 ∧
      (∀ i < 3, r.blocks.getD i 0 = s.measured.getD i 0) ∧ r.blocks.getD 3 0 = s.rosterSerial.setWidth 384 ∧
      (t.sessions.find? fun y => y.id == session) = some ⟨session, secret, true⟩ ∧
      (∀ i, i ≠ session → (t.sessions.find? fun y => y.id == i) = s.sessions.find? fun y => y.id == i)) ∧
    (s.fmKey = none → exec (.fmPublicKeyWrite key) s = .next { s with fmKey := some key }) ∧
    (s.fmKey ≠ none → exec (.fmPublicKeyWrite key) s = .next s)

/-- R342 to R344, R348 to R350: what the host, another module, the switches and a RoCE partner do to lines here. A snoop or a
request for ownership squashes every chunk that holds the line and leaves no copy, the host's snoop or request to read squashes the
writers alone, and another module's read none (R148); a line that the island answers for leaves the banks with its answer (R345); the host reaches
exposed pages only (R341); a full snoop filter gives up another line (R343); a lost request is remembered by its line, or by its partner when it
answers nothing more, and a lost writeback poisons its line; a module owns what it has asked for to write until it writes it back; a reduction adds
every member's piece over links of version 2 (R340), and only members of the roster contribute (R333); a region is registered and written by its
key through a queue pair, and a write that is done leaves its completion entry. The model's choices here: when a partner counts as lost (34), a reduction's
buffer and tree (35, 6), the fields of a remote key (36), the poison of what the host can no longer return (38), that a
request from outside is a FOREIGN access (39), which line a full filter gives up (64), and what the host may reach (61). -/
def Obligations.CoherenceEvents : Prop :=
  ∀ (s : State) (line : Line) (p : Place) (op : PeerOp) (from_ : BitVec 12) (data : BitVec 1024) (tags : BitVec 8)
      (group : Byte) (piece : BitVec 10) (elem : ElemType) (buffer : BitVec 48) (region : Cap) (qp : BitVec 12) (rkey : BitVec 24) (off : W32),
    let l := line.toNat
    let m := from_.toNat
    let here : Prop := p.loc < 2 ^ 64
    let waitsIn (v : State) (w : Bool) : Prop := (∃ r ∈ v.registered, (r.started = true ∨ l ∉ v.bisnp) ∧
      (intersects [l] r.writes = true ∨ (w = true ∧ intersects [l] r.reads = true))) ∨ lineHeld v v.registered l = true
    let waits (w : Bool) : Prop := waitsIn s w
    let mine : State := if Tbl.find s.remoteOwns l = some m then { s with remoteOwns := Tbl.erase s.remoteOwns l } else s
    let served : Prop := here ∧ exposes s p.loc = true ∧ p.uncached = false ∧ portActive s (l % 2) = true ∧ ¬waits (decide (op ≠ .read))
    let asked : Prop := m ∈ s.roster ∧ p.uncached = false ∧ isHost p.loc = false ∧ ¬waitsIn mine (decide (op ≠ .read))
    let u := { s with lost := s.lost.filter (· != m) }
    let contains (k : Chunk) : Prop := l ∈ k.reads ∨ l ∈ k.writes
    let stores (k : Chunk) : Prop := l ∈ k.writes
    let clear (t : State) (hit : Chunk → Prop) : Prop := ∀ c < 1024, ∀ i < 4, (slotAt t c i).busy = true → (slotAt t c i).pin = false →
      ((slotAt t c i).cur.count ≠ 0 → ¬hit (slotAt t c i).cur) ∧ ∀ o, (slotAt t c i).older = some o → o.status = .ended → ¬hit o
    let home (t : State) (v : BitVec 1024) : Prop := (p.key = 0 ∨ isClusterMem p.loc = false → (memLine t.mem (p.loc / 128 * 128)).data = v) ∧
      ∀ i < 8, memPoisoned t.mem (p.loc / 128 * 128 + 16 * i) = false
    (clear (lineHome s l) contains ∧
      ((linePlace s l).isSome = true → ∀ c, ∀ x ∈ (coreAt (lineHome s l) c).l1, x.line = l → x.nonCoherent = true)) ∧
    (s.Inv → clear (peerRead s l p) stores ∧ ∀ c y, dirtyLine s l = some (c, y) → ∀ x ∈ (coreAt (peerRead s l p) c).l1, x.line = l →
      x.nonCoherent = true ∨ x.dirty = false) ∧
    (s.Inv → home (peerWrite s l p ⟨data, tags⟩) data ∧ clear (peerWrite s l p ⟨data, tags⟩) contains) ∧
    (linePlace s l = none → exec (.hostSnpinv line) s = .next s ∧ exec (.hostSnpdata line) s = .next s ∧
      exec (.hostRequest line op) s = .next s ∧ exec (.remoteRequest from_ line op) s = .next s) ∧
    (linePlace s l = some p →
      ((isHost p.loc = false ∨ p.uncached = true ∨ waits true) → exec (.hostSnpinv line) s = .next s) ∧
      (isHost p.loc = true → p.uncached = false → ¬waits true →
        exec (.hostSnpinv line) s = .next { lineHome s l with
          hostLines := Tbl.erase (lineHome s l).hostLines l, island := NatSet.erase (lineHome s l).island l }) ∧
      (isHost p.loc = true → p.uncached = false → ¬waits false → l ∈ (peerRead s l p).island →
        exec (.hostSnpdata line) s = .next (hostForget (lineHome (peerRead s l p) l) l)) ∧
      (isHost p.loc = true → p.uncached = false → ¬waits false → l ∉ (peerRead s l p).island → ∃ t, exec (.hostSnpdata line) s = .next t ∧
        t = { peerRead s l p with hostLines := t.hostLines } ∧ (Tbl.get 0 s.hostLines l ≠ 0 → Tbl.get 0 t.hostLines l = 1)) ∧
      (¬served → exec (.hostRequest line op) s = .next s) ∧
      (served → op = .read → ∃ t, exec (.hostRequest line op) s = .next t ∧
        (∃ v, v = { peerRead (foreignTouch s p false) l p with hostHolds := v.hostHolds } ∧ t = filterEvict v l) ∧ Tbl.get 0 t.hostHolds l ≠ 0) ∧
      (served → op = .own → ∃ t, exec (.hostRequest line op) s = .next t ∧ Tbl.get 0 t.hostHolds l = 2 ∧
        ∃ v, v = { lineHome (foreignTouch s p false) l with hostHolds := v.hostHolds, remoteHolds := v.remoteHolds } ∧ t = filterEvict v l) ∧
      (served → ∀ g, op = .write data g → ∃ t, exec (.hostRequest line op) s = .next t ∧
        t = { peerWrite (foreignTouch s p true) l p ⟨data, 0⟩ with hostHolds := t.hostHolds, remoteHolds := t.remoteHolds }) ∧
      (¬asked → exec (.remoteRequest from_ line op) s = .next s) ∧
      (asked → op = .read → ∃ t, exec (.remoteRequest from_ line op) s = .next t ∧ m ∈ Tbl.get [] t.remoteHolds l ∧
        t = { peerShare (foreignTouch u p false) l p with remoteHolds := t.remoteHolds }) ∧
      (asked → op = .own → ∃ t, exec (.remoteRequest from_ line op) s = .next t ∧ Tbl.get [] t.remoteHolds l = [m] ∧
        Tbl.find t.remoteOwns l = some m ∧ t = { lineHome (foreignTouch u p false) l with remoteHolds := t.remoteHolds, remoteOwns := t.remoteOwns }) ∧
      (asked → op = .write data tags → ∃ t, exec (.remoteRequest from_ line op) s = .next t ∧
        (Tbl.wf s.remoteOwns = true → Tbl.find t.remoteOwns l = none) ∧
        t = { peerWrite (foreignTouch u p true) l p ⟨data, tags⟩ with remoteHolds := t.remoteHolds, remoteOwns := t.remoteOwns }) ∧
      (exec (.requestLost from_ (.writeback line)) s = .next (if here then s else
        { s with mem := (upTo 8).foldl (fun m i => memSetPoison m (p.loc / 128 * 128 + 16 * i)) s.mem }))) ∧
    (∀ v : State,
      let open_ := v.hostHolds.filter fun h => h.1 != l && h.2 != 0 && dirDie h.1 == dirDie l && !v.bisnpInv.contains h.1
      (open_.length < v.filterLines → filterEvict v l = v) ∧
      (v.filterLines ≤ open_.length → filterEvict v l = { v with bisnp := (filterEvict v l).bisnp, bisnpInv := (filterEvict v l).bisnpInv } ∧
        ∀ h, open_.head? = some h → h.1 ∈ (filterEvict v l).bisnp ∧ h.1 ∈ (filterEvict v l).bisnpInv)) ∧
    (m ≠ 4095 → ∃ t, exec (.requestLost from_ (.access none)) s = .next t ∧ m ∈ t.lost ∧ (∀ k, Tbl.find t.remoteOwns k ≠ some m) ∧
      (ownedBy s m = [] → t = { s with lost := NatSet.insert s.lost m })) ∧
    (m = 4095 → ∃ t, exec (.requestLost from_ (.access none)) s = .next t ∧ 4095 ∈ t.lost ∧ t.bisnp = []) ∧
    (let hosts : Prop := m = 4095 ∧ (Tbl.get 0 s.hostHolds l = 2 ∨ l ∈ s.bisnp)
     let owns : Prop := Tbl.find s.remoteOwns l = some m
     (¬hosts → ¬owns → exec (.requestLost from_ (.access (some line))) s = .next { s with lostLines := NatSet.insert s.lostLines l }) ∧
     ((hosts ∨ owns) → ∃ t, exec (.requestLost from_ (.access (some line))) s = .next t ∧ t.lostLines = s.lostLines ∧
       (hosts → Tbl.get 0 t.hostHolds l = 0 ∧ l ∉ t.bisnp) ∧ (¬hosts → Tbl.find t.remoteOwns l = none) ∧
       ((¬hosts ∨ Tbl.get 0 s.hostHolds l = 2) → linePlace s l = some p → ∀ i < 8, memPoisoned t.mem (p.loc / 128 * 128 + 16 * i) = true))) ∧
    (∀ d, l ∉ s.bisnp → exec (.bisnpResponse line d) s = .next s) ∧
    (∀ d, l ∈ s.bisnp → s.Inv → ∃ t, exec (.bisnpResponse line d) s = .next t ∧ l ∉ t.bisnp ∧ l ∉ t.bisnpInv ∧ l ∈ t.answered ∧
      Tbl.get 0 t.hostHolds l = (if l ∉ s.bisnpInv ∧ Tbl.get 0 s.hostHolds l ≠ 0 then 1 else 0) ∧
      (∀ x ∈ t.dies, ∀ c, x.2.page = some c → l ∉ c.waits) ∧ (d = some data → linePlace s l = some p → home t data)) ∧
    (∀ others : List (Nat × BitVec 512), (Tbl.find s.reductions group.toNat = none ∨ reductionLink s = false ∨ ∀ r, Tbl.find s.reductions group.toNat = some r →
        oldMember s r.members = true ∨ ∀ c, Tbl.find r.contrib piece.toNat = some c → allContributions s r c.data others = none) →
      exec (.reductionResult group piece others) s = .next s) ∧
    (∀ (others : List (Nat × BitVec 512)) r c v, Tbl.find s.reductions group.toNat = some r → Tbl.find r.contrib piece.toNat = some c →
      reductionLink s = true → oldMember s r.members = false → allContributions s r c.data others = some v → ∃ t, exec (.reductionResult group piece others) s = .next t ∧
        t = resultPut { s with reductions := Tbl.set s.reductions group.toNat { r with contrib := Tbl.erase r.contrib piece.toNat } } c
          (r.buffer.toNat + 64 * piece.toNat) (treeAdd r.elem 0 v (v.length + 1))) ∧
    (reductionLink s = true ↔ ∃ n, 2 ≤ n ∧ n < 20 ∧ (portAt s n).state = .active ∧ (portAt s n).version = 2) ∧
    (∀ (others : List (Nat × BitVec 512)) r v mine, allContributions s r mine others = some v → ∀ m ∈ r.members, m = Config.moduleIndex.toNat ∨ m ∈ s.roster) ∧
    (∀ a b, treeAdd elem 0 [a, b] 3 = pieceAdd elem a b ∧ ∀ i, i < 64 / elemBytes elem →
      (elem = .i32 → pieceAdd elem a b / 2 ^ (32 * i) % 2 ^ 32 = (a / 2 ^ (32 * i) + b / 2 ^ (32 * i)) % 2 ^ 32) ∧
      (elem = .i64 → pieceAdd elem a b / 2 ^ (64 * i) % 2 ^ 64 = (a / 2 ^ (64 * i) + b / 2 ^ (64 * i)) % 2 ^ 64)) ∧
    (∀ members,
      let refused : Prop := (∃ n, 2 ≤ n ∧ n < 20 ∧ (portAt s n).state = .active ∧ (portAt s n).version = 1 ∧ Config.jvxPartner n ∈ members) ∨
        Config.moduleIndex.toNat ∉ members
      (refused → exec (.reductionGroupConfig group members elem buffer) s = .next s) ∧
      (¬refused → ∃ t r, exec (.reductionGroupConfig group members elem buffer) s = .next t ∧ Tbl.find t.reductions group.toNat = some r ∧
        (∀ k, k ∈ r.members ↔ k ∈ members) ∧ r.elem = elem ∧ r.buffer = buffer ∧ r.contrib = [] ∧ t = { s with reductions := t.reductions })) ∧
    ((region.tag = false ∨ from_ = 0 ∨ regionOk s from_ region = false) → exec (.memoryRegionRegistration from_ region) s = .next s) ∧
    (∀ i, region.tag = true → from_ ≠ 0 → regionOk s from_ region = true →
      (upTo 65536).find? (fun i => ((Tbl.find s.regions i).map (·.ctx)).getD 0 == 0) = some i → ∃ t, ∃ r : Region,
        exec (.memoryRegionRegistration from_ region) s = .next t ∧ t = { s with regions := t.regions } ∧ Tbl.find t.regions i = some r ∧
        r.ctx = from_ ∧ r.cap = region ∧ ∀ q, Tbl.find s.regions i = some q → r.gen = q.gen + 1) ∧
    (∀ (bytes : List Byte) (r : Region), Tbl.find s.regions (rkey.toNat / 256) = some r →
      let a := (capDecode r.cap).1 + off.toNat
      let good : Prop := r.ctx ≠ 0 ∧ r.gen.toNat = rkey.toNat % 256 ∧ capHas r.cap Perm.store = true ∧ a + bytes.length ≤ (capDecode r.cap).2 ∧
        qp.toNat ∈ s.queuePairs ∧ ∃ n, 20 ≤ n ∧ n < 24 ∧ portActive s n = true
      let put := rdmaPut s r.ctx a bytes (bytes.length + 1)
      (¬good → exec (.rdmaWrite ⟨qp, rkey⟩ off bytes) s = .next s) ∧
      (good → put.2 = false → exec (.rdmaWrite ⟨qp, rkey⟩ off bytes) s = .next put.1) ∧
      (good → put.2 = true → exec (.rdmaWrite ⟨qp, rkey⟩ off bytes) s =
        .next { put.1 with completions := put.1.completions ++ [(qp.toNat, put.1.stamp - 1)] })) ∧
    (∀ a bytes g, bytes ≠ [] → bytes.length ≤ 2048 - a % 2048 → agentSegs s from_ (a % 2 ^ 64) bytes.length false = .ok g →
      rdmaPut s from_ a bytes (bytes.length + 1) =
        (engineCommit (agentTouch (agentPut s (bytesVal (bytes.map (·.toNat))) g) true g) (segLines g), true)) ∧
    (Tbl.find s.regions (rkey.toNat / 256) = none → ∀ bytes, exec (.rdmaWrite ⟨qp, rkey⟩ off bytes) s = .next s)
/-- R352, R353: a fault freezes the core it is found on and only that one; its slots end their chunks at the next boundary, but for one inside a CHOLD span; the
packet has every field of its format. A decode fault has code 1, a fetch fault SOURCE 1 and WORD 0 with one of the codes that a fetch can
raise (R99, R351), a halt code 16 and information word 1; in a CHOLD span the packet's word is that of the CHOLD (log entry 19), or 0 for a
fetch fault, and the span's squash counts (R136, R151). A pinned slot with nothing to commit gives the pin up, for a frozen core holds up no
other core (R151, R354). Of a halt, the rules give CODE and the information word; that PCC is where slot 0 stands and WORD 0 is log entry 30. -/
def Obligations.FaultFreezes : Prop :=
  ∀ (s : State) (c : Coord) (word : W32) (code : Byte) (info : W64) (p : Packet),
    let ended (x : Slot) : Slot :=
      if x.cur.hold = 0 ∧ x.cur.status = .executing ∧ x.cur.count ≠ 0 then
        (match x.older with
         | none => { x with older := some (endedChunk x.cur), cur := Chunk.start x.regs }
         | some _ => { x with cur := endedChunk x.cur })
      else x
    let yields (x : Slot) : Prop := x.pin = true ∧ x.older = none ∧ x.cur.status = .executing ∧ x.cur.count = 0
    let stands (x y : Slot) : Prop :=
      (¬yields (ended x) → y = ended x) ∧ (yields (ended x) → ∃ o, y = { ended x with pin := false, pinWait := some o })
    let pins (n : Nat) (t : State) : Prop :=
      ((∃ i < 4, yields (ended (slotAt s n i))) → t.pinned = none) ∧ ((∀ i < 4, ¬yields (ended (slotAt s n i))) → t.pinned = s.pinned)
    let stops (n : Nat) (t : State) (p : Packet) : Prop :=
      coreAt t n = { coreAt s n with frozen := true, stepping := none, report := some p, slots := (coreAt t n).slots } ∧
        (∀ m, m ≠ n → coreAt t m = coreAt s m) ∧ t.mem = s.mem ∧ t.dies = s.dies ∧ t.contexts = s.contexts
    let spanStops (n : Nat) (t : State) (p : Packet) : Prop :=
      coreAt t n = { coreAt s n with
          frozen := true, stepping := none, report := some p, slots := (coreAt t n).slots, held := (coreAt t n).held } ∧
        ((coreAt s n).held = [] → (coreAt t n).held = []) ∧
        (∀ m, m ≠ n → coreAt t m = coreAt s m) ∧ t.mem = s.mem ∧ t.dies = s.dies ∧ t.contexts = s.contexts
    let packet (n l : Nat) (source : BitVec 2) (code : Byte) (pcc : W64) (word : W32) (info : W64) : Packet :=
      { ctx := (coreAt s n).owner, code := code, slot := BitVec.ofNat 2 l, source := source, unit := false, coord := BitVec.ofNat 10 n,
        pcc := pcc, word := word, info := info, stamp := 0, time := s.time, kernel := (slotAt s n l).kernel,
        modIdx := Config.moduleIndex.setWidth 16 }
    let me := meCore s
    let l := meSlot s
    let x := mySlot s
    let again : Chunk := { Chunk.start x.cur.check with squashes := if x.cur.squashes = 3 then 3 else x.cur.squashes + 1 }
    let offset := (capAddr x.regs.pcc - capAddr x.cur.check.pcc).sshiftRight 2
    let fetchCodes : List Nat := [2, 3, 4, 5, 7, 8, 13]
    (x.cur.hold = 0 → (myCore s).frozen = false →
      (∃ t, exec (.illegal word) s = .next t ∧ stops me t (packet me l 0 1 (capAddr x.regs.pcc) word 0) ∧ pins me t ∧
        ∀ i < 4, stands (slotAt s me i) (slotAt t me i)) ∧
      (code.toNat ∈ fetchCodes → ∃ t, exec (.fetchFault code info) s = .next t ∧
        stops me t (packet me l 1 code (capAddr x.regs.pcc) 0 info) ∧ pins me t ∧ ∀ i < 4, stands (slotAt s me i) (slotAt t me i))) ∧
    (code.toNat ∉ fetchCodes → exec (.fetchFault code info) s = .next s) ∧
    (x.cur.hold ≠ 0 → (myCore s).frozen = false →
      (∃ t, exec (.illegal word) s = .next t ∧ spanStops me t (packet me l 0 1 (capAddr x.cur.check.pcc) x.cur.span offset) ∧
        (mySlot t).regs = x.cur.check ∧ (mySlot t).cur = again ∧ ((mySlot t).pin = true → x.pin = true ∧ x.older ≠ none) ∧
        ∀ i < 4, i ≠ l → stands (slotAt s me i) (slotAt t me i)) ∧
      (code.toNat ∈ fetchCodes → ∃ t, exec (.fetchFault code info) s = .next t ∧ spanStops me t (packet me l 1 code (capAddr x.cur.check.pcc) 0 offset) ∧
        (mySlot t).regs = x.cur.check ∧ (mySlot t).cur = again ∧ ((mySlot t).pin = true → x.pin = true ∧ x.older ≠ none) ∧
        ∀ i < 4, i ≠ l → stands (slotAt s me i) (slotAt t me i))) ∧
    ((coreAt s c.toNat).frozen = false → ∃ t, exec (.halt c) s = .next t ∧
      stops c.toNat t (packet c.toNat 0 0 16 (capAddr (slotAt s c.toNat 0).regs.pcc) 0 1) ∧ pins c.toNat t ∧
      ∀ i < 4, stands (slotAt s c.toNat i) (slotAt t c.toNat i)) ∧
    ((coreAt s c.toNat).frozen = true → exec (.halt c) s = .next s) ∧
    (let b := packetBits p
     b.extractLsb' 60 4 = 1 ∧ b.extractLsb' 48 12 = p.ctx ∧ b.extractLsb' 40 8 = p.code ∧ b.extractLsb' 38 2 = p.slot ∧
     b.extractLsb' 36 2 = p.source ∧ b.getLsbD 35 = p.unit ∧ b.extractLsb' 10 25 = 0 ∧ b.extractLsb' 0 10 = p.coord ∧
     b.extractLsb' 64 64 = p.pcc ∧ b.extractLsb' 128 32 = p.word ∧ b.extractLsb' 160 32 = 0 ∧ b.extractLsb' 192 64 = p.info ∧
     b.extractLsb' 256 64 = p.stamp ∧ b.extractLsb' 320 64 = p.time ∧ b.extractLsb' 384 16 = p.kernel ∧ b.extractLsb' 400 16 = p.modIdx ∧
     b.extractLsb' 416 96 = 0)

/-- R353 to R362, R364: a packet leaves its core once every slot has stopped and the inbox has room; RESUME and STEP act on a
frozen core (log entries 30 and 73: what the supervisor has taken by then, and a report that has not left yet), and the debug window writes any
bytes of a frozen core's registers, which clears an image's tag, and no tag that CBUILD would refuse; an uncorrectable error poisons, drops,
quarantines or ends one context, by where it lies. What a fatal error's packets carry and where a unit report goes is log entry 41's; the
window's refusals, and that its bytes are put in order of their offsets, are log entry 40's; the counts of REPAIRSTAT (R367) are log entry
44's. The window reads the pending list of the slot that SEL shows (R71, R356), and of a running core DBGCTL, DBGSTAT and the packet alone. -/
def Obligations.SupervisorEvents : Prop :=
  ∀ (s : State) (c : Coord) (sl : BitVec 2) (off : BitVec 12) (value : BitVec 512) (img : BitVec 128) (die : BitVec 3) (line : Line)
      (bank : BitVec 11) (set : BitVec 5) (way : BitVec 4) (piece : BitVec 5) (key at_ m : Nat) (cl : BitVec 7) (rst : Bool),
    let n := c.toNat
    let k := coreAt s n
    let d := dieAt s (dieOf n)
    let l := sl.toNat
    let stopped : Prop := k.frozen = true ∧ k.report = none
    let room : Prop := (if d.supReset then d.inbox1 else d.inbox0).length < 256
    let stops : Prop := ∀ i < 4, slotStopped s n i = true
    let shown := slotAt s n k.selSlot.toNat
    let v := value.extractLsb' 0 64
    let write (size : Nat) : Outcome := exec (.debugWindowWrite c off ⟨BitVec.ofNat 7 size, value⟩) s
    let core (t : State) (j : Core) : Prop := coreAt t n = j ∧ ∀ m, m ≠ n → coreAt t m = coreAt s m
    let regs (t : State) : Regs := (slotAt t n k.selSlot.toNat).regs
    let receives (x : Die) (b0 b1 us : List Packet) : Die :=
      let r := 256 - (if x.supReset then b1 else b0).length
      if x.supReset then { x with inbox0 := b0, inbox1 := b1 ++ us.take r, units := us.drop r }
      else { x with inbox0 := b0 ++ us.take r, inbox1 := b1, units := us.drop r }
    let left (b : List Packet) : List Packet := b.filter fun p => !p.unit && p.coord.toNat != n
    let taken (t : State) : Prop := dieAt t (dieOf n) = receives d (left d.inbox0) (left d.inbox1) d.units
    (∀ p, k.frozen = true → k.report = some p → room → stops → ∃ t q, exec (.faultPacket c) s = .next t ∧
      q = (if p.source.toNat < 2 then { p with stamp := (slotAt s n p.slot.toNat).commitStamp } else p) ∧
      ((ctxOf s k.owner).life ≠ .terminating → core t { k with report := none, packet := packetBits q }) ∧
      ((ctxOf s k.owner).life = .terminating → k.held = [] → core t { k with report := none, packet := packetBits q }) ∧
      (∀ h r, (ctxOf s k.owner).life = .terminating → k.held = h :: r →
        core t { k with report := some { h with time := s.time }, held := r, packet := packetBits q }) ∧
      dieAt t (dieOf n) = (if d.supReset then { d with inbox1 := d.inbox1 ++ [q] } else { d with inbox0 := d.inbox0 ++ [q] })) ∧
    ((k.frozen = false ∨ k.report = none ∨ ¬room ∨ ¬stops) → exec (.faultPacket c) s = .next s) ∧
    (∀ i, ((slotAt s n i).busy = false → slotStopped s n i = true) ∧
      ((slotAt s n i).busy = true → (slotAt s n i).cur.count ≠ 0 → slotStopped s n i = false) ∧
      (∀ o, (slotAt s n i).busy = true → (slotAt s n i).older = some o → o.status = .committing → slotStopped s n i = false)) ∧
    (let x := { dieAt s die.toNat with supReset := rst }
     exec (.supervisorReset die rst) s = .next (updDie s die.toNat fun _ => receives x x.inbox0 x.inbox1 x.units)) ∧
    (k.frozen = false → exec (.dbgResume c) s = .next s ∧ exec (.step c sl) s = .next s) ∧
    ((ctxOf s k.owner).life ≠ .terminating → ∀ u, exec (.faultPacket c) s = .next u →
      exec (.dbgResume c) s = exec (.dbgResume c) u ∧ exec (.step c sl) s = exec (.step c sl) u) ∧
    (stopped → k.endSlot = 0 →
      (k.held = [] → ∃ t, exec (.dbgResume c) s = .next t ∧ core t { k with frozen := false } ∧ taken t ∧ t.lostLines = []) ∧
      (∀ p r, k.held = p :: r → ∃ t, exec (.dbgResume c) s = .next t ∧ core t { k with report := some { p with time := s.time }, held := r } ∧
        taken t)) ∧
    (stopped → ∃ t, exec (.dbgResume c) s = .next t ∧ (coreAt t n).endSlot = 0 ∧
      ∀ i < 4, k.endSlot.getLsbD i = true → (slotAt t n i).busy = false) ∧
    (stopped → (slotAt s n l).busy = false → ∃ t p, exec (.step c sl) s = .next t ∧ core t { k with report := some p } ∧ taken t ∧
      p.code = 15 ∧ p.info = 1 ∧ p.slot = sl ∧ p.coord = c) ∧
    (let x := slotAt s n l
     let before (o : Chunk) : Chunk := { o with beforeStep := true }
     let begins (t : State) (held : List Packet) : Prop :=
       coreAt t n = { k with frozen := false, stepping := some sl, report := none, held := held, slots := (coreAt t n).slots } ∧ taken t ∧
         t.lostLines = [] ∧
         slotAt t n l = { x with older := x.older.map before, cur := if x.cur.status = .executing then x.cur else before x.cur } ∧
         ∀ i, i ≠ l → slotAt t n i = slotAt s n i
     (stopped → x.busy = true → ∃ t, exec (.step c sl) s = .next t ∧ begins t k.held) ∧
     (∀ p, k.frozen = true → k.report = some p → (¬room ∨ ¬stops) →
       (k.endSlot = 0 → ∃ t, exec (.dbgResume c) s = .next t ∧ core t k ∧ taken t) ∧
       (x.busy = true → ∃ t, exec (.step c sl) s = .next t ∧
         begins t (if (atInstruction p = true ∧ p.slot = sl) ∨ (p.code = 16 ∧ p.info = 1) then k.held else p :: k.held)))) ∧
    (let u := updCore s n fun x => { x with endSlot := v.extractLsb' 8 4 }
     (off = 0 → v.getLsbD 0 = false → (k.frozen = false ∨ v.getLsbD 1 = v.getLsbD 2) → write 8 = .next u) ∧
     (off = 0 → v.getLsbD 0 = true → (k.frozen = false ∨ v.getLsbD 1 = v.getLsbD 2) → write 8 = exec (.halt c) u) ∧
     (off = 0 → k.frozen = true → v.getLsbD 1 = true → v.getLsbD 2 = false → write 8 = exec (.dbgResume c) u) ∧
     (off = 0 → k.frozen = true → v.getLsbD 1 = false → v.getLsbD 2 = true → write 8 = exec (.step c (v.extractLsb' 6 2)) u)) ∧
    (8 ≤ off.toNat → k.frozen = false → m ≤ 64 → write m = .next s) ∧
    (at_ + m ≤ 64 → off.toNat + at_ < 4096 → (∀ b size, windowReg (off.toNat + at_) = some (b, size) → b = off.toNat + at_) →
      ∀ u, write at_ = .next u → write (at_ + m) =
        exec (.debugWindowWrite c (off + BitVec.ofNat 12 at_) ⟨BitVec.ofNat 7 m, value >>> (8 * at_)⟩) u) ∧
    (∀ o, (windowReg o = none → windowRead s n o = 0) ∧
      ∀ b size, windowReg o = some (b, size) → b ≤ o ∧ o < b + size ∧ windowRead s n o = windowRead s n b >>> (8 * (o - b))) ∧
    (let r := shown.regs
     let shows (o : Nat) (w : BitVec 512) : Prop := windowRead s n o = w
     let image (o : Nat) (w : BitVec 128) : Prop := (windowRead s n o).extractLsb' 0 128 = w
     shows 0x000 (BitVec.ofNat 512 (256 * k.endSlot.toNat)) ∧
     shows 0x008 (BitVec.ofNat 512 ((if k.frozen = true then 1 else 0) + k.held.length * 4 + if k.tagRef = true then 256 else 0)) ∧
     shows 0x040 k.packet ∧ (k.frozen = false → ∀ o, 0x010 ≤ o → (o < 0x040 ∨ 0x080 ≤ o) → shows o 0) ∧
     (k.frozen = true → shows 0x500 (BitVec.ofNat 512 r.pending.length) ∧
       (∀ e ∈ r.pending[k.selPend.toNat]?, (∀ d x, e = .g d x → shows 0x508 (BitVec.ofNat 512 d.toNat)) ∧
         (∀ d x, e = .g d (some x) → image 0x540 x.img ∧ (windowRead s n 0x540).getLsbD 128 = x.tag) ∧
         (∀ d x, e = .v d x → shows 0x508 (BitVec.ofNat 512 (64 + d.toNat)) ∧ shows 0x540 x) ∧
         ∀ d x, e = .k d x → shows 0x508 (BitVec.ofNat 512 (128 + d.toNat)) ∧ shows 0x540 (x.setWidth 512)) ∧
       (∀ g : Reg, image (0x100 + 16 * g.toNat) (regsG r g).img ∧ (windowRead s n 0x300).getLsbD g.toNat = (regsG r g).tag) ∧
       (∀ j : KReg, (windowRead s n 0x0c0).extractLsb' (16 * j.toNat) 16 = regsK r j) ∧
       image 0x310 r.pcc.img ∧ (windowRead s n 0x320).getLsbD 0 = r.pcc.tag ∧ shows 0x080 (regsV r k.selVreg) ∧
       (∀ i < 8, image (0x400 + 16 * i) (Tbl.get Cap.null k.engine i).img ∧ (windowRead s n 0x480).getLsbD i = (Tbl.get Cap.null k.engine i).tag) ∧
       shows 0x0d0 (k.srIndex.setWidth 512) ∧ image 0x0e0 (sysRead s n k.selSlot.toNat k.srIndex).img ∧
       image 0x600 (ctxOf s k.owner).authority.img)) ∧
    (k.frozen = true →
      let inside (b size : Nat) : Prop := off.toNat = b + at_ ∧ 1 ≤ m ∧ at_ + m ≤ size
      let byte {w : Nat} (x : BitVec w) (i : Nat) : Byte := x.extractLsb' (8 * i) 8
      let merged {w : Nat} (old new : BitVec w) : Prop :=
        ∀ i < w / 8, byte new i = if at_ ≤ i ∧ i < at_ + m then byte value (i - at_) else byte old i
      let old := shown.regs
      (off = 0x010 → ∃ t, write 8 = .next t ∧
        core t { k with selPend := v.extractLsb' 16 5, selVreg := v.extractLsb' 8 5, selSlot := v.extractLsb' 0 2 }) ∧
      (inside 0x080 64 → ∃ t, write m = .next t ∧ merged (regsV old k.selVreg) (regsV (regs t) k.selVreg) ∧
        (regs t).pending = old.pending.filter (fun p => !pendIsV k.selVreg p) ∧ (regs t).g = old.g ∧ (regs t).k = old.k ∧ (regs t).pcc = old.pcc ∧
        ∀ j, j ≠ k.selVreg → regsV (regs t) j = regsV old j) ∧
      (inside 0x0c0 16 → ∃ t, write m = .next t ∧ (regs t).g = old.g ∧ (regs t).v = old.v ∧ (regs t).pcc = old.pcc ∧
        (∀ j : KReg, j ≠ 0 → ∀ i < 2, byte (regsK (regs t) j) i =
          (if at_ ≤ 2 * j.toNat + i ∧ 2 * j.toNat + i < at_ + m then byte value (2 * j.toNat + i - at_) else byte (regsK old j) i)) ∧
        ∀ q, q ∈ (regs t).pending ↔ q ∈ old.pending ∧
          ∀ j : KReg, j ≠ 0 → at_ / 2 ≤ j.toNat → j.toNat ≤ (at_ + m - 1) / 2 → pendIsK j q = false) ∧
      (off = 0x0d0 → ∃ t, write 8 = .next t ∧ core t { k with srIndex := v.extractLsb' 0 12 }) ∧
      (∀ r : Reg, inside (0x100 + 16 * r.toNat) 16 → ∃ t, write m = .next t ∧
        (r ≠ 0 → (regsG (regs t) r).tag = false ∧ merged (regsG old r).img (regsG (regs t) r).img) ∧ (∀ j, j ≠ r → regsG (regs t) j = regsG old j) ∧
        (regs t).pending = old.pending.filter (fun p => !pendIsG r p) ∧ (regs t).v = old.v ∧ (regs t).k = old.k ∧ (regs t).pcc = old.pcc) ∧
      (off = 0x300 → ∃ t, write 8 = .next t ∧
        (∀ r : Reg, let x := regsG old r
          regsG (regs t) r = ⟨v.getLsbD r.toNat && (x.tag || (tagAllowed s n x.img && r != 0)), x.img⟩) ∧
        ((coreAt t n).tagRef = true ↔ ∃ r : Reg, v.getLsbD r.toNat = true ∧ (regsG old r).tag = false ∧ tagAllowed s n (regsG old r).img = false)) ∧
      (inside 0x310 16 → ∃ t i, write m = .next t ∧ regs t = { old with pcc := ⟨false, i⟩ } ∧ merged old.pcc.img i) ∧
      (off = 0x320 → ∃ t, write 8 = .next t ∧
        regs t = { old with pcc := ⟨v.getLsbD 0 && (old.pcc.tag || tagAllowed s n old.pcc.img), old.pcc.img⟩ } ∧
        ((coreAt t n).tagRef = true ↔ v.getLsbD 0 = true ∧ old.pcc.tag = false ∧ tagAllowed s n old.pcc.img = false)) ∧
      (∀ i < 8, let x := Tbl.get Cap.null k.engine i
        (inside (0x400 + 16 * i) 16 → ∃ t, write m = .next t ∧
          (Tbl.get Cap.null (coreAt t n).engine i).tag = false ∧ merged x.img (Tbl.get Cap.null (coreAt t n).engine i).img ∧
          ∀ j, j ≠ i → Tbl.get Cap.null (coreAt t n).engine j = Tbl.get Cap.null k.engine j) ∧
        (off = 0x480 → ∃ t, write 8 = .next t ∧
          Tbl.get Cap.null (coreAt t n).engine i = ⟨v.getLsbD i && (x.tag || tagAllowed s n x.img), x.img⟩)) ∧
      (off = 0x0e0 → write 16 = exec (.debugSysregWrite c false (value.extractLsb' 0 128)) s) ∧
      (off = 0x0f0 → write 8 = exec (.debugSysregWrite c true (value.extractLsb' 0 128)) s) ∧
      (∀ x ∈ [(0x008, 8), (0x040, 64), (0x500, 8), (0x508, 8), (0x540, 64), (0x600, 16)], inside x.1 x.2 → write m = .next s) ∧
      (windowReg off.toNat = none → write 1 = .next s)) ∧
    (tagAllowed s n img = true ↔ buildCheck (ctxOf s k.owner).authority img = none ∧ (scrubCap s k.owner ⟨true, img⟩).tag = true) ∧
    (∀ tagWrite, k.frozen = false → exec (.debugSysregWrite c tagWrite img) s = .next s) ∧
    (k.frozen = true →
      let x := k.srIndex
      let asked (u : State) : State := if x.toNat ≤ 0x012 ∨ (sysAllows .r x = false ∧ sysAllows .w x = false) then u else engineCommit u []
      let put (u : State) (w : Cap) : State := if sysAllows .w x = true then sysWrite (asked u) n k.selSlot.toNat x w else asked u
      let refused (y : Bool) : State := updCore s n fun k => { k with tagRef := y }
      let old := sysRead s n k.selSlot.toNat x
      let isCap : Prop := x.toNat ∈ [0x010, 0x014, 0x015, 0x016, 0x017, 0x019]
      exec (.debugSysregWrite c false img) s = .next (put s ⟨false, img⟩) ∧
      (¬isCap → exec (.debugSysregWrite c true img) s = .next s) ∧
      (isCap → img.getLsbD 0 = false → exec (.debugSysregWrite c true img) s = .next (put (refused false) ⟨false, old.img⟩)) ∧
      (isCap → img.getLsbD 0 = true → tagAllowed s n old.img = true →
        exec (.debugSysregWrite c true img) s = .next (put (refused false) ⟨true, old.img⟩)) ∧
      (isCap → img.getLsbD 0 = true → tagAllowed s n old.img = false → exec (.debugSysregWrite c true img) s = .next (refused true))) ∧
    exec (.eccCorrectable die) s = .next (updDie s die.toNat fun x => { x with eccCount := x.eccCount + 1 }) ∧
    ((k.l1.find? fun x => x.line == line.toNat) = none → exec (.eccUncorrectable (.l1 c line)) s = .next s) ∧
    (∀ x, (k.l1.find? fun x => x.line == line.toNat) = some x → ∃ t u, exec (.eccUncorrectable (.l1 c line)) s = .next t ∧
      u.mem = s.mem ∧ l1Find (coreAt u n) line.toNat x.nonCoherent = none ∧ (coreAt u n).owner = k.owner ∧
      t = (if x.dirty then fatalAt u k.owner (line.toNat * 128) else u)) ∧
    (key < 2 ^ 48 → ∃ u, memPoisoned u.mem key = true ∧ u = { s with mem := u.mem } ∧
      (∀ a, memByte u.mem a = memByte s.mem a ∧ memTag u.mem a = memTag s.mem a ∧ (a / 16 ≠ key / 16 → memPoisoned u.mem a = memPoisoned s.mem a)) ∧
      exec (.eccUncorrectable (.memory key)) s = .next ((if isClusterMem key then [] else pagesAt s key).foldl retirePage u)) ∧
    (2 ^ 48 ≤ key → exec (.eccUncorrectable (.memory key)) s = .next s) ∧
    (k.owner = 0 → exec (.eccUncorrectable (.registers c)) s = .next s) ∧
    (k.owner ≠ 0 → exec (.eccUncorrectable (.registers c)) s = .next (fatal s k.owner 0)) ∧
    (let a := clusterAt s cl.toNat
     let owner := (coreAt s (8 * cl.toNat + a.holder.toNat)).owner
     ((a.lease = .free ∨ owner = 0) → exec (.eccUncorrectable (.array cl)) s = .next s) ∧
     (a.lease ≠ .free → owner ≠ 0 → exec (.eccUncorrectable (.array cl)) s = .next (fatal s owner 0))) ∧
    (∀ (ctx : BitVec 12) (ia : Nat), s.Inv → ctx ≠ 0 → (ctxOf s ctx).life ≠ .free → (ctxOf s ctx).life ≠ .terminating →
      let t := fatal s ctx ia
      let isReport (p : Packet) : Prop := p.code = 13 ∧ p.ctx = ctx ∧ p.source = 0 ∧ p.unit = false ∧ p.info = BitVec.ofNat 64 (2 ^ 63 + ia)
      (ctxOf t ctx).life = .terminating ∧ (∀ id q, kernelAt t ctx id = some q → q.state ≠ .running) ∧
        ∀ j, (coreAt s j).owner = ctx → (coreAt t j).frozen = true ∧
          ((coreAt s j).frozen = false ∨ (coreAt s j).report = none → ∃ p, (coreAt t j).report = some p ∧ isReport p) ∧
          ∃ p, isReport p ∧ ((coreAt t j).report = some p ∨ p ∈ (coreAt t j).held)) ∧
    (let place := (bank.toNat * 32 + set.toNat) * 16 + way.toNat
     let report : Packet :=
       { ctx := 0, code := 13, slot := 0, source := 0, unit := true, coord := 0, pcc := 0, word := 0,
         info := BitVec.ofNat 64 (bank.toNat * 2 ^ 32 + set.toNat), stamp := 0, time := s.time, kernel := 0, modIdx := Config.moduleIndex.setWidth 16 }
     let sup := dieAt s (bank.toNat / 192)
     let fails : Outcome := exec (.eccUncorrectable (.bank bank set way piece)) s
     (1536 ≤ bank.toNat → fails = .next s) ∧
     (bank.toNat < 1536 → ∃ t u, fails = .next t ∧ u.repairs = s.repairs ++ [3 * 2 ^ 32 + place] ∧
       (bank.toNat * 32 + set.toNat ∈ s.spares → place ∈ u.lostWays ∧ u.spares = s.spares) ∧
       (bank.toNat * 32 + set.toNat ∉ s.spares → bank.toNat * 32 + set.toNat ∈ u.spares ∧ u.lostWays = s.lostWays ∧
         u.repairstat = s.repairstat + 0x10000) ∧
       (bank.toNat * 32 + set.toNat ∈ s.spares → u.repairstat = s.repairstat + (if place ∈ s.lostWays then 0 else 1)) ∧
       (let x := receives sup sup.inbox0 sup.inbox1 (sup.units ++ [report])
        let y := dieAt u (bank.toNat / 192)
        y.inbox0 = x.inbox0 ∧ y.inbox1 = x.inbox1 ∧ y.units = x.units ∧ y.supReset = sup.supReset) ∧
       (Tbl.find s.banks place = none → t = u ∧ u.mem = s.mem ∧ u.banks = Tbl.erase s.banks place) ∧
       ∀ g, Tbl.find s.banks place = some g →
         (let up := aboveWay s bank.toNat way.toNat
          let w := evictInto up.1 up.2 { s with banks := Tbl.set s.banks place { g with dirty := g.dirty &&& ~~~ (1#32 <<< piece.toNat) } } place
          u.mem = w.mem ∧ u.banks = Tbl.erase w.banks place) ∧
         t = (if g.dirty.getLsbD piece.toNat then fatalAt u g.owner (g.addr * 2048 + 64 * piece.toNat) else u)))

/-- R345, R366 to R369: start-up goes through its phases in order and stops at the first failure; repair applies the union of the fuse map
and the log, and takes from use what has no spare; INIT leaves the machine zeroed, with the units in which it met an error retired; firmware
lowers and restores the token counts by the power; a cluster with nothing to run is gated once its coherent lines are written out, and
non-coherent ones stay (R325); a forced reset leaves the machine at reset, and the host's lines that the device held M or O poisoned. The model's
choices here: how units are numbered, what a bank group's port takes with it, and an error without a unit (44), firmware's restoring of tokens
(43), when a cluster is gated (37), and the poison of lost lines (38). -/
def Obligations.BootEvents : Prop :=
  ∀ (s : State) (ok : Bool) (map : FuseMap) (err : Byte) (failed : FailedUnit) (errors : List FailedUnit) (watts : BitVec 16) (cl : BitVec 7),
    let phase (n : Nat) : Prop := s.ready = false ∧ s.bootErr = 0 ∧ s.phase.toNat = n
    let again : Prop := s.bootErr ≠ 0 ∧ s.ready = false
    let unitOf (code : Nat) : FailedUnit → Nat
      | .core n => n.toNat
      | .bank n => 2 ^ 32 + n.toNat
      | .lane n => 2 * 2 ^ 32 + n.toNat
      | .way bank set way => 3 * 2 ^ 32 + (bank.toNat * 32 + set.toNat) * 16 + way.toNat
      | .frame n => 5 * 2 ^ 32 + n.toNat
      | .other => 4 * 2 ^ 32 + code
    (¬phase 0 → ¬again → exec (.powerOn ok) s = .next s) ∧ (¬phase 1 → exec (.fuse map) s = .next s) ∧
    (¬phase 2 → exec (.calib ⟨err, failed⟩) s = .next s) ∧ (¬phase 3 → exec (.init ⟨ok, errors⟩) s = .next s) ∧
    (phase 0 ∨ again → exec (.powerOn false) s = .next { s with phase := 0, bootErr := 7 } ∧ ∃ t, exec (.powerOn true) s = .next t ∧
      t.measured.length = 2 ∧ t = { s with phase := 1, bootErr := 0, measured := t.measured, fresh := t.fresh }) ∧
    (phase 1 → map.ok = false → exec (.fuse map) s = .next { s with bootErr := 1 }) ∧
    (phase 1 → map.ok = true → ∃ t b, exec (.fuse map) s = .next t ∧
      t = { repair { s with fuses := map } with phase := 2, measured := s.measured.take 2 ++ [b], fresh := s.fresh + 1 }) ∧
    (let t := repair s
     let logged (kind : Nat) : List Nat := (s.repairs.filter fun r => r / 2 ^ 32 == kind).map (· % 2 ^ 32)
     let among (units : List Nat) (width k lo hi : Nat) : Nat :=
       ((List.range width).filter fun v => decide (lo ≤ v) && decide (v < hi) && units.contains (width * k + v)).length
     let total (n : Nat) (f : Nat → Nat) : Nat := ((List.range n).map f).sum
     let cores := s.fuses.cores ++ logged 0
     let banks := s.fuses.banks ++ logged 1
     let lanes := s.fuses.lanes ++ logged 2
     let noCore (k : Nat) : Nat := among cores 16 k 0 8 - (1 - among cores 16 k 8 9)
     let noBank (d : Nat) : Nat := among banks 256 d 0 192 - (8 - among banks 256 d 192 200)
     let failedLanes (p : Nat) : Nat := among lanes 16 p 0 16
     (∀ x, x ∈ t.unavailable ↔ x < 128 ∧ (0 < noCore x ∨ 2 < failedLanes x)) ∧
     (∀ b, b ∈ t.badBanks ↔ (∃ d < 8, ∃ i < noBank d, b = 192 * d + 191 - i) ∨ ∃ g < 192, 2 < failedLanes (128 + g) ∧ 8 * g ≤ b ∧ b < 8 * g + 8) ∧
     (∀ x, x ∈ t.spares ↔ ∃ w ∈ logged 3, w / 16 = x) ∧
     (∀ w, w ∈ t.lostWays ↔ ∃ (i j x : Nat), i < j ∧ (logged 3)[i]? = some x ∧ (logged 3)[j]? = some w ∧ x / 16 = w / 16) ∧
     t.repairstat = BitVec.ofNat 64 (t.lostWays.length + t.spares.length * 2 ^ 16 +
       total 320 (fun p => min (failedLanes p) 2) * 2 ^ 32 +
       total 8 (fun d => min (among banks 256 d 0 192) (8 - among banks 256 d 192 200)) * 2 ^ 40 +
       total 128 (fun k => min (among cores 16 k 0 8) (1 - among cores 16 k 8 9)) * 2 ^ 48 + t.unavailable.length * 2 ^ 56) ∧
     t = { s with unavailable := t.unavailable, badBanks := t.badBanks, spares := t.spares, lostWays := t.lostWays, repairstat := t.repairstat }) ∧
    (phase 2 → ∃ t, exec (.calib ⟨0, failed⟩) s = .next t ∧ t.phase = 3 ∧ t.time = 0 ∧ (∀ n < 20, (portAt t n).state = .training) ∧
      ∀ n, 20 ≤ n → portAt t n = portAt s n) ∧
    (phase 2 → 2 ≤ err.toNat → err.toNat ≤ 5 → unitOf err.toNat failed ∈ s.repairs → exec (.calib ⟨err, failed⟩) s = .next { s with bootErr := err }) ∧
    (phase 2 → 2 ≤ err.toNat → err.toNat ≤ 5 → unitOf err.toNat failed ∉ s.repairs →
      exec (.calib ⟨err, failed⟩) s = .next { s with phase := 0, repairs := s.repairs ++ [unitOf err.toNat failed] }) ∧
    (phase 2 → (err.toNat = 1 ∨ 5 < err.toNat) → exec (.calib ⟨err, failed⟩) s = .next s) ∧
    (phase 3 → exec (.init ⟨false, errors⟩) s = .next { s with bootErr := 6 } ∧
      (.other ∈ errors → exec (.init ⟨true, errors⟩) s = .next { s with bootErr := 6 }) ∧
      (.other ∉ errors → ∃ t, exec (.init ⟨true, errors⟩) s = .next t ∧
        t.phase = 4 ∧ t.ready = true ∧ t.stamp = 1 ∧ t.ptroot.getLsbD 0 = false ∧ (∀ ctx, ctxOf t ctx = Context.reset) ∧ t.keys = [] ∧
        (∀ c, coreAt t c = Core.reset) ∧ (∀ k, clusterAt t k = Cluster.reset) ∧ t.banks = [] ∧ t.slices = [] ∧ (∀ d, (dieAt t d).directory = []) ∧
        t.repairs = s.repairs ++ errors.map (unitOf 6) ∧
        (let u := if errors = [] then s else repair { s with repairs := t.repairs }
         t.unavailable = u.unavailable ∧ t.badBanks = u.badBanks ∧ t.spares = u.spares ∧ t.lostWays = u.lostWays ∧ t.repairstat = u.repairstat) ∧
        (∀ f < 2 ^ 32, f ∈ t.retired ↔ 5 * 2 ^ 32 + f ∈ t.repairs) ∧
        ∀ a, (a < 2 ^ 64 → memByte t.mem a = 0 ∧ memTag t.mem a = false ∧ memPoisoned t.mem a = false) ∧
          (2 ^ 64 ≤ a → s.mem.wf = true → memByte t.mem a = memByte s.mem a))) ∧
    (3000 < watts.toNat → ∃ t, exec (.powerInterval watts) s = .next t ∧ t.calm = 0 ∧ ∀ d < 8, (dieAt s d).tokenCount.toNat ≤ 16 →
      (dieAt t d).tokenCount.toNat = max ((dieAt s d).tokenCount.toNat - 1) (min (dieAt s d).tokenCount.toNat 1)) ∧
    (2700 ≤ watts.toNat → watts.toNat ≤ 3000 → exec (.powerInterval watts) s = .next { s with calm := 0 }) ∧
    (watts.toNat < 2700 → s.calm < 99 → exec (.powerInterval watts) s = .next { s with calm := s.calm + 1 }) ∧
    (watts.toNat < 2700 → 99 ≤ s.calm → ∃ t, exec (.powerInterval watts) s = .next t ∧ t.calm = s.calm + 1 ∧
      ∀ d < 8, (dieAt s d).tokenCount.toNat < 16 →
        (dieAt t d).tokenCount.toNat = (dieAt s d).tokenCount.toNat + (if (dieAt s d).lowered = 0 then 0 else 1)) ∧
    (let k := cl.toNat
     let idle : Prop := (∀ i < 8, ∀ x ∈ (coreAt s (8 * k + i)).slots, x.2.busy = false) ∧ ∀ copy, seqEntries (seqOf (clusterAt s k) copy) = []
     (¬idle → exec (.clusterPowerGate cl) s = .next s) ∧
     (idle → ∃ t, exec (.clusterPowerGate cl) s = .next t ∧ (clusterAt t k).gated = true ∧
       ∀ i < 8, (∀ x ∈ (coreAt t (8 * k + i)).l1, x.nonCoherent = true) ∧
         (∀ x ∈ (coreAt s (8 * k + i)).l1, x.nonCoherent = true → x ∈ (coreAt t (8 * k + i)).l1) ∧
         (∀ x ∈ (coreAt s (8 * k + i)).l1, x.nonCoherent = false → x.dirty = true → isHost x.loc = true → x.line ∈ t.island) ∧
         (coreAt t (8 * k + i)).owner = (coreAt s (8 * k + i)).owner)) ∧
    (∃ t, exec .forcedReset s = .next t ∧ t.ready = false ∧ t.phase = 0 ∧ t.bootErr = 0 ∧ t.viral = [0, 1] ∧ t.cores = [] ∧ t.clusters = [] ∧
      t.dies = [] ∧ t.contexts = [] ∧ t.keys = [] ∧ t.sessions = [] ∧ t.hostLines = [] ∧ t.repairs = s.repairs ∧ t.fmKey = s.fmKey ∧
      (∀ a < 2 ^ 64, memByte t.mem a = 0 ∧ memTag t.mem a = false ∧ memPoisoned t.mem a = false) ∧
      ∀ l a x, s.hostLines = [(l, x)] → deviceDirty s l = true → hostPlace s l = some a → isHost a = true →
        ∀ i < 8, memPoisoned t.mem (a / 128 * 128 + 16 * i) = true)
/-! ### The machine as a whole -/

/-- R41, R99, R138, R224: a step takes the event that comes from outside, else the event that is due, else runs the agent whose
turn it is (log entry 2): a thread executes the instruction whose word stands at its pcc, decoded; a sequencer the command
word it stands at; and then a cycle of time passes (how far TIME moves in it is log entry 1), in which the chunks that have ended stand in
line for their grants (R147) and what the host sees of its lines follows what the device holds (R342). A word that is no instruction is the
event ILLEGAL, a word that cannot be fetched FETCH_FAULT. A fetch enters no signature and reads committed memory (log entry 42); its line
stands in the instruction L1 afterwards; it waits, as a sequencer's read of its next word does, for what its line must wait for (R148, R151,
R152, R294, R343). A machine whose start-up has failed, with nothing from outside, stops (log entry 44). -/
def Obligations.StepRuns : Prop :=
  ∀ (s t : State) (a : Agent) (w : W32) (i : Instr) (p : Place),
    let quiet : Prop := nextInput s = none
    let s' := askForInput s
    let u := withTurn s' a
    let acts : Prop := quiet ∧ due s' = none ∧ nextAgent s' = some a
    let cl := clusterOf a.core.toNat
    let x := takeClassNow u
    let c := (myRegs x).pcc
    let v := fetchReach x p
    (∀ r, nextInput s = some (i, r) → exec i { s with inputs := r } = .next t → step s = .next (passTime t)) ∧
    (s.inputs = [] → quiet ∧ s' = s) ∧ (∀ r, s.inputs = i :: r → inputReady s i = true → nextInput s = some (i, r)) ∧
    (∀ r, s.inputs = i :: r → inputReady s i = false → (timeDue s = true ∨ ∀ j ∈ r, isAnswer j = false) → quiet) ∧
    (∀ d, quiet → due s' = some d → runDue d s' = .next t → step s = .next (passTime t)) ∧
    (acts → a.part = .slot → fetchWord x = .ok (p, w) → fetchHeld x = none → decodeWord w = .ok i → exec i v = .next t →
      (let y := chargeInstr v t i
       step s = .next (passTime (passTurn u (if executed v y then noteFetch v y p else y)))) ∧
      p.ia / 128 ∈ (myCore (noteFetch v t p)).code) ∧
    (∀ q, acts → a.part = .slot → fetchWord x = .ok (p, w) → fetchHeld x = some q → step s = .next (passTime (passTurn u (fetchAsk x q)))) ∧
    (∀ e, acts → a.part = .slot → fetchWord x = .ok (p, w) → fetchHeld x = none → decodeWord w = .error e → exec (.illegal w) v = .next t →
      step s = .next (passTime (passTurn u t))) ∧
    (∀ code info, acts → a.part = .slot → fetchWord x = .error (code, info) →
      exec (.fetchFault code info) (fetchWalked x code) = .next t →
      step s = .next (passTime (passTurn u t))) ∧
    (∀ copy ctx e, acts → a.part = (if copy then .copy else .matrix) → seqHeld u cl copy = some (ctx, e) →
      step s = .next (passTime (passTurn u (extentsAsk u ctx [e])))) ∧
    (∀ copy, acts → a.part = (if copy then .copy else .matrix) → seqHeld u cl copy = none →
      (seqFetch u cl copy = .command i → exec i u = .next t → step s = .next (passTime (passTurn u t))) ∧
      (∀ word code info, seqFetch u cl copy = .fault word code info →
        step s = .next (passTime (passTurn u (stopAt u cl copy word code info))))) ∧
    (quiet → due s' = none → nextAgent s' = none →
      ((s.bootErr = 0 ∨ s.ready = true) → step s = .next (passTime s')) ∧
      (s.bootErr ≠ 0 → s.ready = false → step s = .fault .startUpFailed)) ∧
    (∃ d k h e r, passTime s = { s with
        cycle := s.cycle + 1, time := if 3 ≤ s.phase.toNat then s.time + s.pace else s.time, dies := d, clusters := k, hostLines := h, island := e,
        requests := r } ∧
      (∀ y ∈ h, deviceHolds s y.1 = true ∧ (y.2 = 2 → deviceDirty s y.1 = true)) ∧
      (∀ n, n ∈ r ↔ n ∈ askingSlots s) ∧ (∃ q, r = s.requests.filter (askingSlots s).contains ++ q) ∧
      ∀ n, (clusterAt s n).waiting = none → Tbl.get Cluster.reset k n = clusterAt s n) ∧
    (c.tag = true → capOtype c = 0 → capHas c Perm.exec = true → (capDecode c).1 ≤ (capAddr c).toNat → (capAddr c).toNat + 4 ≤ (capDecode c).2 →
      (capAddr c).toNat % 4 = 0 → transFetch x (capAddr c).toNat = .ok p → p.uncached = false → memPoisoned x.mem p.loc = false →
        locLost x p.ia p.loc = false → nonCoherentLine (ctxOf x (myCtx x)) (p.ia / 128) = false → fetchWord x =
          .ok (p, BitVec.ofNat 32 ((cohLine x p.key p.ia p.loc).data.toNat / 2 ^ (8 * (p.ia % 128)) % 2 ^ 32))) ∧
    (fetchMisses x p = false ∨ privateOwner x p = none → v = { x with dies := v.dies, tlb := v.tlb }) ∧
    ((c.tag = false → fetchWord x = .error (2, 0)) ∧
      (c.tag = true → capOtype c = 0 → capHas c Perm.exec = false → fetchWord x = .error (4, 0)) ∧
      (∀ cause ia, checkPerms c (capAddr c).toNat 4 true [Perm.exec] = none → transFetch x (capAddr c).toNat = .fault cause ia →
        fetchWord x = .error (8, BitVec.ofNat 64 (cause * 2 ^ 60 + ia))) ∧
      (checkPerms c (capAddr c).toNat 4 true [Perm.exec] = none → transFetch x (capAddr c).toNat = .ok p →
        (p.uncached = true → fetchWord x = .error (8, BitVec.ofNat 64 (6 * 2 ^ 60 + p.ia))) ∧
        (p.uncached = false → memPoisoned x.mem p.loc = true → fetchWord x = .error (13, 0))))

/-- R2, R146, R177, R232, R254, R255, R326, R335, R339, R366, R371: the state at reset: start-up stands at PHASE 0, no context exists, every context is FREE
and every port DOWN, the next stamp is 1, and the registers that have a reset value hold it; the others hold 0 (log entry 9). It meets the
invariant that every step keeps. -/
def Obligations.ResetState : Prop :=
  let s := State.reset
  s.Inv ∧ s.phase = 0 ∧ s.bootErr = 0 ∧ s.ready = false ∧ s.time = 0 ∧ s.stamp = 1 ∧ s.ptroot = 0 ∧ s.countbase = 0 ∧
    s.snapctl = BitVec.allOnes 64 ∧ s.armed = false ∧ s.lrcfg = 0 ∧ s.lrtail = 0 ∧ s.lrhead = 0 ∧ s.csDone = 0 ∧ s.roster = [] ∧
    (∀ a, memByte s.mem a = 0 ∧ memTag s.mem a = false ∧ memPoisoned s.mem a = false) ∧
    (∀ ctx, (ctxOf s ctx).life = .free) ∧ (∀ n, (portAt s n).state = .down) ∧
    (∀ n, clusterAt s n = Cluster.reset ∧ (clusterAt s n).lease = .free ∧ (clusterAt s n).leaseMax = 32 ∧ (clusterAt s n).acc = []) ∧
    (∀ d, (dieAt s d).tokenCount = 16 ∧ (dieAt s d).pgerr = 0 ∧ (dieAt s d).eccCount = 0) ∧
    ∀ n, (coreAt s n).owner = 0 ∧ (coreAt s n).switchAt = BitVec.allOnes 64 ∧ (coreAt s n).frozen = false ∧ (coreAt s n).member = [] ∧
      ∀ l, (slotAt s n l).busy = false ∧ (slotAt s n l).limit = 1024 ∧ (slotAt s n l).regs.pending = [] ∧
        ∀ r k, regsG (slotAt s n l).regs r = Cap.null ∧ regsV (slotAt s n l).regs r = 0 ∧ (k ≠ 0 → regsK (slotAt s n l).regs k = 0)

/-- R42 to R63, R244, R264: a few control words and command words, written out from the encoding maps, and what they are; and command words
that the checks of R63 refuse. -/
def Obligations.DecodeWords : Prop :=
  decodeWord 0x02321400 = .ok (.add false 3 4 5) ∧
  decodeWord 0x16312345 = .ok (.lui false 3 0x12345) ∧
  decodeWord 0x1a321564 = .ok (.fmadd false 3 4 5 true .rtz) ∧
  decodeWord 0x20460ffe = .ok (.bCond false .ne 3 0 (-2)) ∧
  decodeWord 0x2aa483e8 = .ok (.cincaddri false 10 9 1000) ∧
  decodeWord 0xbed40040 = .ok (.lc true 13 8 64) ∧
  decodeWord 0x50531c08 = .ok (.amo false 5 6 7 .add true) ∧
  decodeWord 0x60708823 = .ok (.vfma false 7 1 2 .f32 1) ∧
  decodeWord 0x72700162 = .ok (.dqsteal false 7 11) ∧
  decodeWord 0x70200021 = .ok (.wait false 33) ∧
  decodeWord 0x76029001 = .ok (.sysw false 1 5) ∧
  decodeWord 0x78321400 = .ok (.vcdef false 3 4 5) ∧
  decodeCommand none 0x1110000200000000000000000000000000000000000000400000010000000053 = .ok (.mldw .int8 3 5 0x100 0x40) ∧
  decodeCommand (some 0) 0x1410000000000000000000000010000300000000000000000000000000000000 = .ok (.mzero 3 16) ∧
  decodeCommand (some 1) 0x2f11000000000000000000000000000000000000000000000000000000000000 = .ok .cend ∧
  decodeCommand none 0x1120000200000000000000000000000000000000000000400000010000000053 = .error .version ∧
  decodeCommand (some 1) 0x1110000200000000000000000000000000000000000000400000010000000053 = .error .engine ∧
  decodeCommand none 0x1110000200000001000000000000000000000000000000400000010000000053 = .error .engine

/-- R38 to R62, R63 to R65, R244, R264: decoding what the encoder gives for a well-formed instruction gives the instruction back, with every operand at every
value that the encoding admits; and a control word that decodes is what the encoder gives for its instruction, which is well formed. -/
def Obligations.DecodeEncode : Prop :=
  (∀ (i : Instr) (w : W32), i.wf = true → encodeWord i = some w → decodeWord w = .ok i) ∧
  (∀ (i : Instr) (w : BitVec 256), i.wf = true → encodeCommand i = some w →
    decodeCommand none w = .ok i ∧ decodeCommand (some (w.extractLsb' 240 4).toNat) w = .ok i) ∧
  (∀ (i : Instr) (w : W32), decodeWord w = .ok i → i.wf = true ∧ encodeWord i = some w)

/-- Every step keeps memory and the machine's tables in their canonical form, so that equal machines are equal data. State.Inv is the model's own
way of writing State down (sorted tables without doubles, memory without entries that read as unlisted): the spec has no rule of such a form; that
reset memory reads as zero, which the form rests on, is R368's. -/
def Obligations.StepKeepsInv : Prop := ∀ s t : State, s.Inv → step s = .next t → t.Inv
end

