-- ==== Sys2Proof/Laws/Tbl.lean ====
section
/-! SUPPORT. Reading a table after a change of it, and the members of a set of numbers. -/

namespace Sys2Proof

variable {α : Type}

@[simp] theorem Tbl.find_nil (k : Nat) : Tbl.find ([] : Tbl α) k = none := rfl

@[simp] theorem Tbl.find_set_same (t : Tbl α) (k : Nat) (x : α) : Tbl.find (Tbl.set t k x) k = some x := by
  induction t with
  | nil => simp [Tbl.set, Tbl.find]
  | cons p r ih =>
    obtain ⟨j, y⟩ := p
    simp only [Tbl.set]
    split
    · simp [Tbl.find]
    · split
      · simp [Tbl.find]
      · simp [Tbl.find, *]

theorem Tbl.find_set_other (t : Tbl α) (k j : Nat) (x : α) (h : j ≠ k) : Tbl.find (Tbl.set t k x) j = Tbl.find t j := by
  induction t with
  | nil => simp [Tbl.set, Tbl.find, Ne.symm h]
  | cons p r ih =>
    obtain ⟨i, y⟩ := p
    simp only [Tbl.set]
    split
    · simp [Tbl.find, Ne.symm h]
    · split
      · rename_i hi
        subst hi
        simp [Tbl.find, Ne.symm h]
      · simp [Tbl.find, ih]

@[simp] theorem Tbl.get_nil (d : α) (k : Nat) : Tbl.get d [] k = d := rfl

@[simp] theorem Tbl.get_set_same (d : α) (t : Tbl α) (k : Nat) (x : α) : Tbl.get d (Tbl.set t k x) k = x := by
  simp [Tbl.get]

theorem Tbl.get_set_other (d : α) (t : Tbl α) (k j : Nat) (x : α) (h : j ≠ k) : Tbl.get d (Tbl.set t k x) j = Tbl.get d t j := by
  simp [Tbl.get, Tbl.find_set_other t k j x h]

theorem Tbl.get_set (d : α) (t : Tbl α) (k j : Nat) (x : α) : Tbl.get d (Tbl.set t k x) j = if j = k then x else Tbl.get d t j := by
  split
  · next h => subst h; simp
  · next h => exact Tbl.get_set_other d t k j x h

@[simp] theorem Tbl.set_set (t : Tbl α) (k : Nat) (x y : α) : Tbl.set (Tbl.set t k x) k y = Tbl.set t k y := by
  induction t with
  | nil => simp [Tbl.set]
  | cons p r ih =>
    obtain ⟨j, z⟩ := p
    simp only [Tbl.set]
    split
    · simp [Tbl.set]
    · split
      · simp [Tbl.set]
      · next h1 h2 => simp [Tbl.set, h1, h2, ih]

theorem Tbl.find_erase_other (t : Tbl α) (k j : Nat) (h : j ≠ k) : Tbl.find (Tbl.erase t k) j = Tbl.find t j := by
  induction t with
  | nil => rfl
  | cons p r ih =>
    obtain ⟨i, y⟩ := p
    simp only [Tbl.erase]
    split
    · next hi => subst hi; simp [Tbl.find, Ne.symm h]
    · simp [Tbl.find, ih]

theorem Tbl.find_mapVal (t : Tbl α) (f : Nat → α → α) (k : Nat) : Tbl.find (Tbl.mapVal t f) k = (Tbl.find t k).map (f k) := by
  induction t with
  | nil => rfl
  | cons p r ih =>
    obtain ⟨j, y⟩ := p
    simp only [Tbl.mapVal, List.map_cons, Tbl.find]
    split
    · next h => subst h; rfl
    · exact ih

/-! ### The canonical order -/

theorem Tbl.above_mono {lo hi : Nat} (h : lo ≤ hi) (t : Tbl α) (ht : Tbl.above hi t = true) : Tbl.above lo t = true := by
  cases t with
  | nil => rfl
  | cons p r =>
    obtain ⟨j, y⟩ := p
    simp only [Tbl.above, Bool.and_eq_true, decide_eq_true_eq] at ht ⊢
    exact ⟨Nat.le_trans h ht.1, ht.2⟩

theorem Tbl.above_set {lo : Nat} (t : Tbl α) (k : Nat) (x : α) (hk : lo ≤ k) (ht : Tbl.above lo t = true) :
    Tbl.above lo (Tbl.set t k x) = true := by
  induction t generalizing lo with
  | nil => simp [Tbl.set, Tbl.above, hk]
  | cons p r ih =>
    obtain ⟨j, y⟩ := p
    simp only [Tbl.above, Bool.and_eq_true, decide_eq_true_eq] at ht
    simp only [Tbl.set]
    split
    · next h => simp [Tbl.above, hk, ht.2, Nat.succ_le_of_lt h]
    · split
      · next h => subst h; simp [Tbl.above, hk, ht.2]
      · next h1 h2 =>
        simp only [Tbl.above, Bool.and_eq_true, decide_eq_true_eq]
        exact ⟨ht.1, ih (by omega) ht.2⟩

theorem Tbl.above_erase {lo : Nat} (t : Tbl α) (k : Nat) (ht : Tbl.above lo t = true) : Tbl.above lo (Tbl.erase t k) = true := by
  induction t generalizing lo with
  | nil => rfl
  | cons p r ih =>
    obtain ⟨j, y⟩ := p
    simp only [Tbl.above, Bool.and_eq_true, decide_eq_true_eq] at ht
    simp only [Tbl.erase]
    split
    · exact Tbl.above_mono (by omega) r ht.2
    · simp only [Tbl.above, Bool.and_eq_true, decide_eq_true_eq]
      exact ⟨ht.1, ih ht.2⟩

theorem Tbl.above_filter {lo : Nat} (t : Tbl α) (f : Nat × α → Bool) (ht : Tbl.above lo t = true) :
    Tbl.above lo (t.filter f) = true := by
  induction t generalizing lo with
  | nil => rfl
  | cons p r ih =>
    obtain ⟨j, y⟩ := p
    simp only [Tbl.above, Bool.and_eq_true, decide_eq_true_eq] at ht
    rw [List.filter_cons]
    split
    · simp only [Tbl.above, Bool.and_eq_true, decide_eq_true_eq]
      exact ⟨ht.1, ih ht.2⟩
    · exact Tbl.above_mono (by omega) _ (ih ht.2)

theorem Tbl.above_mapVal {lo : Nat} (t : Tbl α) (f : Nat → α → α) (ht : Tbl.above lo t = true) :
    Tbl.above lo (Tbl.mapVal t f) = true := by
  induction t generalizing lo with
  | nil => rfl
  | cons p r ih =>
    obtain ⟨j, y⟩ := p
    simp only [Tbl.above, Bool.and_eq_true, decide_eq_true_eq] at ht
    simp only [Tbl.mapVal, List.map_cons, Tbl.above, Bool.and_eq_true, decide_eq_true_eq]
    exact ⟨ht.1, ih ht.2⟩

@[simp] theorem Tbl.wf_nil : Tbl.wf ([] : Tbl α) = true := rfl

theorem Tbl.wf_set (t : Tbl α) (k : Nat) (x : α) (h : Tbl.wf t = true) : Tbl.wf (Tbl.set t k x) = true :=
  Tbl.above_set t k x (Nat.zero_le k) h

theorem Tbl.wf_update (d : α) (t : Tbl α) (k : Nat) (f : α → α) (h : Tbl.wf t = true) : Tbl.wf (Tbl.update d t k f) = true :=
  Tbl.wf_set t k _ h

theorem Tbl.wf_erase (t : Tbl α) (k : Nat) (h : Tbl.wf t = true) : Tbl.wf (Tbl.erase t k) = true := Tbl.above_erase t k h

theorem Tbl.wf_filter (t : Tbl α) (f : Nat × α → Bool) (h : Tbl.wf t = true) : Tbl.wf (t.filter f) = true := Tbl.above_filter t f h

theorem Tbl.wf_mapVal (t : Tbl α) (f : Nat → α → α) (h : Tbl.wf t = true) : Tbl.wf (Tbl.mapVal t f) = true :=
  Tbl.above_mapVal t f h

/-- Keys below the bound of an ordered table are not in it. -/
theorem Tbl.find_above {lo k : Nat} (t : Tbl α) (ht : Tbl.above lo t = true) (hk : k < lo) : Tbl.find t k = none := by
  induction t generalizing lo with
  | nil => rfl
  | cons p r ih =>
    obtain ⟨j, y⟩ := p
    simp only [Tbl.above, Bool.and_eq_true, decide_eq_true_eq] at ht
    rw [Tbl.find, if_neg (by omega)]
    exact ih ht.2 (by omega)

/-- A search that does not tell the new value of a key from its old one, or skips it where it is new, is not changed by a set. -/
theorem Tbl.findSome_set {β : Type} (f : Nat × α → Option β) (t : Tbl α) (k : Nat) (x : α) {lo : Nat} (ht : Tbl.above lo t = true)
    (h1 : ∀ y, Tbl.find t k = some y → f (k, y) = f (k, x)) (h0 : Tbl.find t k = none → f (k, x) = none) :
    (Tbl.set t k x).findSome? f = t.findSome? f := by
  induction t generalizing lo with
  | nil => simp [Tbl.set, h0 rfl]
  | cons p r ih =>
    obtain ⟨j, y⟩ := p
    simp only [Tbl.above, Bool.and_eq_true, decide_eq_true_eq] at ht
    simp only [Tbl.set]
    split
    · next h =>
      have hn : Tbl.find ((j, y) :: r) k = none := by
        rw [Tbl.find, if_neg (by omega)]
        exact Tbl.find_above r ht.2 (by omega)
      rw [List.findSome?_cons, h0 hn]
    · split
      · next h1' h2 =>
        subst h2
        have := h1 y (by simp [Tbl.find])
        rw [List.findSome?_cons, List.findSome?_cons, this]
      · next h1' h2 =>
        rw [List.findSome?_cons, List.findSome?_cons]
        have hf : Tbl.find ((j, y) :: r) k = Tbl.find r k := by rw [Tbl.find, if_neg h2]
        rw [hf] at h1 h0
        rw [ih ht.2 h1 h0]

/-! ### Sets of numbers -/

theorem NatSet.mem_insert (l : List Nat) (k j : Nat) : j ∈ NatSet.insert l k ↔ j = k ∨ j ∈ l := by
  induction l with
  | nil => simp [NatSet.insert]
  | cons i r ih =>
    simp only [NatSet.insert]
    split
    · simp
    · split
      · next h => subst h; simp
      · simp only [List.mem_cons, ih]
        constructor
        · rintro (h | h | h) <;> simp [h]
        · rintro (h | h | h) <;> simp [h]

end Sys2Proof
end

