-- ==== Sys2Proof/Laws/State.lean ====
section
/-! SUPPORT. One lemma per field for each of the updates of State: what an update leaves, it leaves by rfl; and what it sets
is read back. -/

namespace Sys2Proof.Machine

variable (s : State)


/-! ### setCore -/

@[simp] theorem setCore_clusters (c : Nat) (x : Core) : (setCore s c x).clusters = s.clusters := rfl
@[simp] theorem setCore_dies (c : Nat) (x : Core) : (setCore s c x).dies = s.dies := rfl
@[simp] theorem setCore_contexts (c : Nat) (x : Core) : (setCore s c x).contexts = s.contexts := rfl
@[simp] theorem setCore_mem (c : Nat) (x : Core) : (setCore s c x).mem = s.mem := rfl
@[simp] theorem setCore_time (c : Nat) (x : Core) : (setCore s c x).time = s.time := rfl
@[simp] theorem setCore_stamp (c : Nat) (x : Core) : (setCore s c x).stamp = s.stamp := rfl
@[simp] theorem setCore_ptroot (c : Nat) (x : Core) : (setCore s c x).ptroot = s.ptroot := rfl
@[simp] theorem setCore_countbase (c : Nat) (x : Core) : (setCore s c x).countbase = s.countbase := rfl
@[simp] theorem setCore_tlb (c : Nat) (x : Core) : (setCore s c x).tlb = s.tlb := rfl
@[simp] theorem setCore_shared (c : Nat) (x : Core) : (setCore s c x).shared = s.shared := rfl
@[simp] theorem setCore_retired (c : Nat) (x : Core) : (setCore s c x).retired = s.retired := rfl
@[simp] theorem setCore_banks (c : Nat) (x : Core) : (setCore s c x).banks = s.banks := rfl
@[simp] theorem setCore_slices (c : Nat) (x : Core) : (setCore s c x).slices = s.slices := rfl
@[simp] theorem setCore_lostWays (c : Nat) (x : Core) : (setCore s c x).lostWays = s.lostWays := rfl
@[simp] theorem setCore_spares (c : Nat) (x : Core) : (setCore s c x).spares = s.spares := rfl
@[simp] theorem setCore_lrcfg (c : Nat) (x : Core) : (setCore s c x).lrcfg = s.lrcfg := rfl
@[simp] theorem setCore_lrtail (c : Nat) (x : Core) : (setCore s c x).lrtail = s.lrtail := rfl
@[simp] theorem setCore_lrhead (c : Nat) (x : Core) : (setCore s c x).lrhead = s.lrhead := rfl
@[simp] theorem setCore_lrdropped (c : Nat) (x : Core) : (setCore s c x).lrdropped = s.lrdropped := rfl
@[simp] theorem setCore_doors (c : Nat) (x : Core) : (setCore s c x).doors = s.doors := rfl
@[simp] theorem setCore_csDone (c : Nat) (x : Core) : (setCore s c x).csDone = s.csDone := rfl
@[simp] theorem setCore_gens (c : Nat) (x : Core) : (setCore s c x).gens = s.gens := rfl
@[simp] theorem setCore_keys (c : Nat) (x : Core) : (setCore s c x).keys = s.keys := rfl
@[simp] theorem setCore_messageKey (c : Nat) (x : Core) : (setCore s c x).messageKey = s.messageKey := rfl
@[simp] theorem setCore_rosterSerial (c : Nat) (x : Core) : (setCore s c x).rosterSerial = s.rosterSerial := rfl
@[simp] theorem setCore_roster (c : Nat) (x : Core) : (setCore s c x).roster = s.roster := rfl
@[simp] theorem setCore_sessions (c : Nat) (x : Core) : (setCore s c x).sessions = s.sessions := rfl
@[simp] theorem setCore_locks (c : Nat) (x : Core) : (setCore s c x).locks = s.locks := rfl
@[simp] theorem setCore_ideKeys (c : Nat) (x : Core) : (setCore s c x).ideKeys = s.ideKeys := rfl
@[simp] theorem setCore_exposed (c : Nat) (x : Core) : (setCore s c x).exposed = s.exposed := rfl
@[simp] theorem setCore_fmKey (c : Nat) (x : Core) : (setCore s c x).fmKey = s.fmKey := rfl
@[simp] theorem setCore_reports (c : Nat) (x : Core) : (setCore s c x).reports = s.reports := rfl
@[simp] theorem setCore_ports (c : Nat) (x : Core) : (setCore s c x).ports = s.ports := rfl
@[simp] theorem setCore_viral (c : Nat) (x : Core) : (setCore s c x).viral = s.viral := rfl
@[simp] theorem setCore_hostHolds (c : Nat) (x : Core) : (setCore s c x).hostHolds = s.hostHolds := rfl
@[simp] theorem setCore_hostLines (c : Nat) (x : Core) : (setCore s c x).hostLines = s.hostLines := rfl
@[simp] theorem setCore_bisnp (c : Nat) (x : Core) : (setCore s c x).bisnp = s.bisnp := rfl
@[simp] theorem setCore_answered (c : Nat) (x : Core) : (setCore s c x).answered = s.answered := rfl
@[simp] theorem setCore_remoteSends (c : Nat) (x : Core) : (setCore s c x).remoteSends = s.remoteSends := rfl
@[simp] theorem setCore_remoteAnswers (c : Nat) (x : Core) : (setCore s c x).remoteAnswers = s.remoteAnswers := rfl
@[simp] theorem setCore_reductions (c : Nat) (x : Core) : (setCore s c x).reductions = s.reductions := rfl
@[simp] theorem setCore_regions (c : Nat) (x : Core) : (setCore s c x).regions = s.regions := rfl
@[simp] theorem setCore_lost (c : Nat) (x : Core) : (setCore s c x).lost = s.lost := rfl
@[simp] theorem setCore_island (c : Nat) (x : Core) : (setCore s c x).island = s.island := rfl
@[simp] theorem setCore_bisnpInv (c : Nat) (x : Core) : (setCore s c x).bisnpInv = s.bisnpInv := rfl
@[simp] theorem setCore_queuePairs (c : Nat) (x : Core) : (setCore s c x).queuePairs = s.queuePairs := rfl
@[simp] theorem setCore_completions (c : Nat) (x : Core) : (setCore s c x).completions = s.completions := rfl
@[simp] theorem setCore_lostLines (c : Nat) (x : Core) : (setCore s c x).lostLines = s.lostLines := rfl
@[simp] theorem setCore_lockErrors (c : Nat) (x : Core) : (setCore s c x).lockErrors = s.lockErrors := rfl
@[simp] theorem setCore_fuses (c : Nat) (x : Core) : (setCore s c x).fuses = s.fuses := rfl
@[simp] theorem setCore_filterLines (c : Nat) (x : Core) : (setCore s c x).filterLines = s.filterLines := rfl
@[simp] theorem setCore_phase (c : Nat) (x : Core) : (setCore s c x).phase = s.phase := rfl
@[simp] theorem setCore_bootErr (c : Nat) (x : Core) : (setCore s c x).bootErr = s.bootErr := rfl
@[simp] theorem setCore_ready (c : Nat) (x : Core) : (setCore s c x).ready = s.ready := rfl
@[simp] theorem setCore_repairs (c : Nat) (x : Core) : (setCore s c x).repairs = s.repairs := rfl
@[simp] theorem setCore_unavailable (c : Nat) (x : Core) : (setCore s c x).unavailable = s.unavailable := rfl
@[simp] theorem setCore_badBanks (c : Nat) (x : Core) : (setCore s c x).badBanks = s.badBanks := rfl
@[simp] theorem setCore_repairstat (c : Nat) (x : Core) : (setCore s c x).repairstat = s.repairstat := rfl
@[simp] theorem setCore_measured (c : Nat) (x : Core) : (setCore s c x).measured = s.measured := rfl
@[simp] theorem setCore_snapctl (c : Nat) (x : Core) : (setCore s c x).snapctl = s.snapctl := rfl
@[simp] theorem setCore_armed (c : Nat) (x : Core) : (setCore s c x).armed = s.armed := rfl
@[simp] theorem setCore_snapSource (c : Nat) (x : Core) : (setCore s c x).snapSource = s.snapSource := rfl
@[simp] theorem setCore_snapTime (c : Nat) (x : Core) : (setCore s c x).snapTime = s.snapTime := rfl
@[simp] theorem setCore_latchAt (c : Nat) (x : Core) : (setCore s c x).latchAt = s.latchAt := rfl
@[simp] theorem setCore_calm (c : Nat) (x : Core) : (setCore s c x).calm = s.calm := rfl
@[simp] theorem setCore_pinned (c : Nat) (x : Core) : (setCore s c x).pinned = s.pinned := rfl
@[simp] theorem setCore_requests (c : Nat) (x : Core) : (setCore s c x).requests = s.requests := rfl
@[simp] theorem setCore_registered (c : Nat) (x : Core) : (setCore s c x).registered = s.registered := rfl
@[simp] theorem setCore_remoteHolds (c : Nat) (x : Core) : (setCore s c x).remoteHolds = s.remoteHolds := rfl
@[simp] theorem setCore_remoteOwns (c : Nat) (x : Core) : (setCore s c x).remoteOwns = s.remoteOwns := rfl
@[simp] theorem setCore_turn (c : Nat) (x : Core) : (setCore s c x).turn = s.turn := rfl
@[simp] theorem setCore_sched (c : Nat) (x : Core) : (setCore s c x).sched = s.sched := rfl
@[simp] theorem setCore_inputs (c : Nat) (x : Core) : (setCore s c x).inputs = s.inputs := rfl
@[simp] theorem setCore_eager (c : Nat) (x : Core) : (setCore s c x).eager = s.eager := rfl
@[simp] theorem setCore_pace (c : Nat) (x : Core) : (setCore s c x).pace = s.pace := rfl
@[simp] theorem setCore_fresh (c : Nat) (x : Core) : (setCore s c x).fresh = s.fresh := rfl
@[simp] theorem setCore_cycle (c : Nat) (x : Core) : (setCore s c x).cycle = s.cycle := rfl
@[simp] theorem setCore_order (c : Nat) (x : Core) : (setCore s c x).order = s.order := rfl

/-! ### setSlot -/

@[simp] theorem setSlot_clusters (c l : Nat) (x : Slot) : (setSlot s c l x).clusters = s.clusters := rfl
@[simp] theorem setSlot_dies (c l : Nat) (x : Slot) : (setSlot s c l x).dies = s.dies := rfl
@[simp] theorem setSlot_contexts (c l : Nat) (x : Slot) : (setSlot s c l x).contexts = s.contexts := rfl
@[simp] theorem setSlot_mem (c l : Nat) (x : Slot) : (setSlot s c l x).mem = s.mem := rfl
@[simp] theorem setSlot_time (c l : Nat) (x : Slot) : (setSlot s c l x).time = s.time := rfl
@[simp] theorem setSlot_stamp (c l : Nat) (x : Slot) : (setSlot s c l x).stamp = s.stamp := rfl
@[simp] theorem setSlot_ptroot (c l : Nat) (x : Slot) : (setSlot s c l x).ptroot = s.ptroot := rfl
@[simp] theorem setSlot_countbase (c l : Nat) (x : Slot) : (setSlot s c l x).countbase = s.countbase := rfl
@[simp] theorem setSlot_tlb (c l : Nat) (x : Slot) : (setSlot s c l x).tlb = s.tlb := rfl
@[simp] theorem setSlot_shared (c l : Nat) (x : Slot) : (setSlot s c l x).shared = s.shared := rfl
@[simp] theorem setSlot_retired (c l : Nat) (x : Slot) : (setSlot s c l x).retired = s.retired := rfl
@[simp] theorem setSlot_banks (c l : Nat) (x : Slot) : (setSlot s c l x).banks = s.banks := rfl
@[simp] theorem setSlot_slices (c l : Nat) (x : Slot) : (setSlot s c l x).slices = s.slices := rfl
@[simp] theorem setSlot_lostWays (c l : Nat) (x : Slot) : (setSlot s c l x).lostWays = s.lostWays := rfl
@[simp] theorem setSlot_spares (c l : Nat) (x : Slot) : (setSlot s c l x).spares = s.spares := rfl
@[simp] theorem setSlot_lrcfg (c l : Nat) (x : Slot) : (setSlot s c l x).lrcfg = s.lrcfg := rfl
@[simp] theorem setSlot_lrtail (c l : Nat) (x : Slot) : (setSlot s c l x).lrtail = s.lrtail := rfl
@[simp] theorem setSlot_lrhead (c l : Nat) (x : Slot) : (setSlot s c l x).lrhead = s.lrhead := rfl
@[simp] theorem setSlot_lrdropped (c l : Nat) (x : Slot) : (setSlot s c l x).lrdropped = s.lrdropped := rfl
@[simp] theorem setSlot_doors (c l : Nat) (x : Slot) : (setSlot s c l x).doors = s.doors := rfl
@[simp] theorem setSlot_csDone (c l : Nat) (x : Slot) : (setSlot s c l x).csDone = s.csDone := rfl
@[simp] theorem setSlot_gens (c l : Nat) (x : Slot) : (setSlot s c l x).gens = s.gens := rfl
@[simp] theorem setSlot_keys (c l : Nat) (x : Slot) : (setSlot s c l x).keys = s.keys := rfl
@[simp] theorem setSlot_messageKey (c l : Nat) (x : Slot) : (setSlot s c l x).messageKey = s.messageKey := rfl
@[simp] theorem setSlot_rosterSerial (c l : Nat) (x : Slot) : (setSlot s c l x).rosterSerial = s.rosterSerial := rfl
@[simp] theorem setSlot_roster (c l : Nat) (x : Slot) : (setSlot s c l x).roster = s.roster := rfl
@[simp] theorem setSlot_sessions (c l : Nat) (x : Slot) : (setSlot s c l x).sessions = s.sessions := rfl
@[simp] theorem setSlot_locks (c l : Nat) (x : Slot) : (setSlot s c l x).locks = s.locks := rfl
@[simp] theorem setSlot_ideKeys (c l : Nat) (x : Slot) : (setSlot s c l x).ideKeys = s.ideKeys := rfl
@[simp] theorem setSlot_exposed (c l : Nat) (x : Slot) : (setSlot s c l x).exposed = s.exposed := rfl
@[simp] theorem setSlot_fmKey (c l : Nat) (x : Slot) : (setSlot s c l x).fmKey = s.fmKey := rfl
@[simp] theorem setSlot_reports (c l : Nat) (x : Slot) : (setSlot s c l x).reports = s.reports := rfl
@[simp] theorem setSlot_ports (c l : Nat) (x : Slot) : (setSlot s c l x).ports = s.ports := rfl
@[simp] theorem setSlot_viral (c l : Nat) (x : Slot) : (setSlot s c l x).viral = s.viral := rfl
@[simp] theorem setSlot_hostHolds (c l : Nat) (x : Slot) : (setSlot s c l x).hostHolds = s.hostHolds := rfl
@[simp] theorem setSlot_hostLines (c l : Nat) (x : Slot) : (setSlot s c l x).hostLines = s.hostLines := rfl
@[simp] theorem setSlot_bisnp (c l : Nat) (x : Slot) : (setSlot s c l x).bisnp = s.bisnp := rfl
@[simp] theorem setSlot_answered (c l : Nat) (x : Slot) : (setSlot s c l x).answered = s.answered := rfl
@[simp] theorem setSlot_remoteSends (c l : Nat) (x : Slot) : (setSlot s c l x).remoteSends = s.remoteSends := rfl
@[simp] theorem setSlot_remoteAnswers (c l : Nat) (x : Slot) : (setSlot s c l x).remoteAnswers = s.remoteAnswers := rfl
@[simp] theorem setSlot_reductions (c l : Nat) (x : Slot) : (setSlot s c l x).reductions = s.reductions := rfl
@[simp] theorem setSlot_regions (c l : Nat) (x : Slot) : (setSlot s c l x).regions = s.regions := rfl
@[simp] theorem setSlot_lost (c l : Nat) (x : Slot) : (setSlot s c l x).lost = s.lost := rfl
@[simp] theorem setSlot_island (c l : Nat) (x : Slot) : (setSlot s c l x).island = s.island := rfl
@[simp] theorem setSlot_bisnpInv (c l : Nat) (x : Slot) : (setSlot s c l x).bisnpInv = s.bisnpInv := rfl
@[simp] theorem setSlot_queuePairs (c l : Nat) (x : Slot) : (setSlot s c l x).queuePairs = s.queuePairs := rfl
@[simp] theorem setSlot_completions (c l : Nat) (x : Slot) : (setSlot s c l x).completions = s.completions := rfl
@[simp] theorem setSlot_lostLines (c l : Nat) (x : Slot) : (setSlot s c l x).lostLines = s.lostLines := rfl
@[simp] theorem setSlot_lockErrors (c l : Nat) (x : Slot) : (setSlot s c l x).lockErrors = s.lockErrors := rfl
@[simp] theorem setSlot_fuses (c l : Nat) (x : Slot) : (setSlot s c l x).fuses = s.fuses := rfl
@[simp] theorem setSlot_filterLines (c l : Nat) (x : Slot) : (setSlot s c l x).filterLines = s.filterLines := rfl
@[simp] theorem setSlot_phase (c l : Nat) (x : Slot) : (setSlot s c l x).phase = s.phase := rfl
@[simp] theorem setSlot_bootErr (c l : Nat) (x : Slot) : (setSlot s c l x).bootErr = s.bootErr := rfl
@[simp] theorem setSlot_ready (c l : Nat) (x : Slot) : (setSlot s c l x).ready = s.ready := rfl
@[simp] theorem setSlot_repairs (c l : Nat) (x : Slot) : (setSlot s c l x).repairs = s.repairs := rfl
@[simp] theorem setSlot_unavailable (c l : Nat) (x : Slot) : (setSlot s c l x).unavailable = s.unavailable := rfl
@[simp] theorem setSlot_badBanks (c l : Nat) (x : Slot) : (setSlot s c l x).badBanks = s.badBanks := rfl
@[simp] theorem setSlot_repairstat (c l : Nat) (x : Slot) : (setSlot s c l x).repairstat = s.repairstat := rfl
@[simp] theorem setSlot_measured (c l : Nat) (x : Slot) : (setSlot s c l x).measured = s.measured := rfl
@[simp] theorem setSlot_snapctl (c l : Nat) (x : Slot) : (setSlot s c l x).snapctl = s.snapctl := rfl
@[simp] theorem setSlot_armed (c l : Nat) (x : Slot) : (setSlot s c l x).armed = s.armed := rfl
@[simp] theorem setSlot_snapSource (c l : Nat) (x : Slot) : (setSlot s c l x).snapSource = s.snapSource := rfl
@[simp] theorem setSlot_snapTime (c l : Nat) (x : Slot) : (setSlot s c l x).snapTime = s.snapTime := rfl
@[simp] theorem setSlot_latchAt (c l : Nat) (x : Slot) : (setSlot s c l x).latchAt = s.latchAt := rfl
@[simp] theorem setSlot_calm (c l : Nat) (x : Slot) : (setSlot s c l x).calm = s.calm := rfl
@[simp] theorem setSlot_pinned (c l : Nat) (x : Slot) : (setSlot s c l x).pinned = s.pinned := rfl
@[simp] theorem setSlot_requests (c l : Nat) (x : Slot) : (setSlot s c l x).requests = s.requests := rfl
@[simp] theorem setSlot_registered (c l : Nat) (x : Slot) : (setSlot s c l x).registered = s.registered := rfl
@[simp] theorem setSlot_remoteHolds (c l : Nat) (x : Slot) : (setSlot s c l x).remoteHolds = s.remoteHolds := rfl
@[simp] theorem setSlot_remoteOwns (c l : Nat) (x : Slot) : (setSlot s c l x).remoteOwns = s.remoteOwns := rfl
@[simp] theorem setSlot_turn (c l : Nat) (x : Slot) : (setSlot s c l x).turn = s.turn := rfl
@[simp] theorem setSlot_sched (c l : Nat) (x : Slot) : (setSlot s c l x).sched = s.sched := rfl
@[simp] theorem setSlot_inputs (c l : Nat) (x : Slot) : (setSlot s c l x).inputs = s.inputs := rfl
@[simp] theorem setSlot_eager (c l : Nat) (x : Slot) : (setSlot s c l x).eager = s.eager := rfl
@[simp] theorem setSlot_pace (c l : Nat) (x : Slot) : (setSlot s c l x).pace = s.pace := rfl
@[simp] theorem setSlot_fresh (c l : Nat) (x : Slot) : (setSlot s c l x).fresh = s.fresh := rfl
@[simp] theorem setSlot_cycle (c l : Nat) (x : Slot) : (setSlot s c l x).cycle = s.cycle := rfl
@[simp] theorem setSlot_order (c l : Nat) (x : Slot) : (setSlot s c l x).order = s.order := rfl

/-! ### setMySlot -/

@[simp] theorem setMySlot_clusters (x : Slot) : (setMySlot s x).clusters = s.clusters := rfl
@[simp] theorem setMySlot_dies (x : Slot) : (setMySlot s x).dies = s.dies := rfl
@[simp] theorem setMySlot_contexts (x : Slot) : (setMySlot s x).contexts = s.contexts := rfl
@[simp] theorem setMySlot_mem (x : Slot) : (setMySlot s x).mem = s.mem := rfl
@[simp] theorem setMySlot_time (x : Slot) : (setMySlot s x).time = s.time := rfl
@[simp] theorem setMySlot_stamp (x : Slot) : (setMySlot s x).stamp = s.stamp := rfl
@[simp] theorem setMySlot_ptroot (x : Slot) : (setMySlot s x).ptroot = s.ptroot := rfl
@[simp] theorem setMySlot_countbase (x : Slot) : (setMySlot s x).countbase = s.countbase := rfl
@[simp] theorem setMySlot_tlb (x : Slot) : (setMySlot s x).tlb = s.tlb := rfl
@[simp] theorem setMySlot_shared (x : Slot) : (setMySlot s x).shared = s.shared := rfl
@[simp] theorem setMySlot_retired (x : Slot) : (setMySlot s x).retired = s.retired := rfl
@[simp] theorem setMySlot_banks (x : Slot) : (setMySlot s x).banks = s.banks := rfl
@[simp] theorem setMySlot_slices (x : Slot) : (setMySlot s x).slices = s.slices := rfl
@[simp] theorem setMySlot_lostWays (x : Slot) : (setMySlot s x).lostWays = s.lostWays := rfl
@[simp] theorem setMySlot_spares (x : Slot) : (setMySlot s x).spares = s.spares := rfl
@[simp] theorem setMySlot_lrcfg (x : Slot) : (setMySlot s x).lrcfg = s.lrcfg := rfl
@[simp] theorem setMySlot_lrtail (x : Slot) : (setMySlot s x).lrtail = s.lrtail := rfl
@[simp] theorem setMySlot_lrhead (x : Slot) : (setMySlot s x).lrhead = s.lrhead := rfl
@[simp] theorem setMySlot_lrdropped (x : Slot) : (setMySlot s x).lrdropped = s.lrdropped := rfl
@[simp] theorem setMySlot_doors (x : Slot) : (setMySlot s x).doors = s.doors := rfl
@[simp] theorem setMySlot_csDone (x : Slot) : (setMySlot s x).csDone = s.csDone := rfl
@[simp] theorem setMySlot_gens (x : Slot) : (setMySlot s x).gens = s.gens := rfl
@[simp] theorem setMySlot_keys (x : Slot) : (setMySlot s x).keys = s.keys := rfl
@[simp] theorem setMySlot_messageKey (x : Slot) : (setMySlot s x).messageKey = s.messageKey := rfl
@[simp] theorem setMySlot_rosterSerial (x : Slot) : (setMySlot s x).rosterSerial = s.rosterSerial := rfl
@[simp] theorem setMySlot_roster (x : Slot) : (setMySlot s x).roster = s.roster := rfl
@[simp] theorem setMySlot_sessions (x : Slot) : (setMySlot s x).sessions = s.sessions := rfl
@[simp] theorem setMySlot_locks (x : Slot) : (setMySlot s x).locks = s.locks := rfl
@[simp] theorem setMySlot_ideKeys (x : Slot) : (setMySlot s x).ideKeys = s.ideKeys := rfl
@[simp] theorem setMySlot_exposed (x : Slot) : (setMySlot s x).exposed = s.exposed := rfl
@[simp] theorem setMySlot_fmKey (x : Slot) : (setMySlot s x).fmKey = s.fmKey := rfl
@[simp] theorem setMySlot_reports (x : Slot) : (setMySlot s x).reports = s.reports := rfl
@[simp] theorem setMySlot_ports (x : Slot) : (setMySlot s x).ports = s.ports := rfl
@[simp] theorem setMySlot_viral (x : Slot) : (setMySlot s x).viral = s.viral := rfl
@[simp] theorem setMySlot_hostHolds (x : Slot) : (setMySlot s x).hostHolds = s.hostHolds := rfl
@[simp] theorem setMySlot_hostLines (x : Slot) : (setMySlot s x).hostLines = s.hostLines := rfl
@[simp] theorem setMySlot_bisnp (x : Slot) : (setMySlot s x).bisnp = s.bisnp := rfl
@[simp] theorem setMySlot_answered (x : Slot) : (setMySlot s x).answered = s.answered := rfl
@[simp] theorem setMySlot_remoteSends (x : Slot) : (setMySlot s x).remoteSends = s.remoteSends := rfl
@[simp] theorem setMySlot_remoteAnswers (x : Slot) : (setMySlot s x).remoteAnswers = s.remoteAnswers := rfl
@[simp] theorem setMySlot_reductions (x : Slot) : (setMySlot s x).reductions = s.reductions := rfl
@[simp] theorem setMySlot_regions (x : Slot) : (setMySlot s x).regions = s.regions := rfl
@[simp] theorem setMySlot_lost (x : Slot) : (setMySlot s x).lost = s.lost := rfl
@[simp] theorem setMySlot_island (x : Slot) : (setMySlot s x).island = s.island := rfl
@[simp] theorem setMySlot_bisnpInv (x : Slot) : (setMySlot s x).bisnpInv = s.bisnpInv := rfl
@[simp] theorem setMySlot_queuePairs (x : Slot) : (setMySlot s x).queuePairs = s.queuePairs := rfl
@[simp] theorem setMySlot_completions (x : Slot) : (setMySlot s x).completions = s.completions := rfl
@[simp] theorem setMySlot_lostLines (x : Slot) : (setMySlot s x).lostLines = s.lostLines := rfl
@[simp] theorem setMySlot_lockErrors (x : Slot) : (setMySlot s x).lockErrors = s.lockErrors := rfl
@[simp] theorem setMySlot_fuses (x : Slot) : (setMySlot s x).fuses = s.fuses := rfl
@[simp] theorem setMySlot_filterLines (x : Slot) : (setMySlot s x).filterLines = s.filterLines := rfl
@[simp] theorem setMySlot_phase (x : Slot) : (setMySlot s x).phase = s.phase := rfl
@[simp] theorem setMySlot_bootErr (x : Slot) : (setMySlot s x).bootErr = s.bootErr := rfl
@[simp] theorem setMySlot_ready (x : Slot) : (setMySlot s x).ready = s.ready := rfl
@[simp] theorem setMySlot_repairs (x : Slot) : (setMySlot s x).repairs = s.repairs := rfl
@[simp] theorem setMySlot_unavailable (x : Slot) : (setMySlot s x).unavailable = s.unavailable := rfl
@[simp] theorem setMySlot_badBanks (x : Slot) : (setMySlot s x).badBanks = s.badBanks := rfl
@[simp] theorem setMySlot_repairstat (x : Slot) : (setMySlot s x).repairstat = s.repairstat := rfl
@[simp] theorem setMySlot_measured (x : Slot) : (setMySlot s x).measured = s.measured := rfl
@[simp] theorem setMySlot_snapctl (x : Slot) : (setMySlot s x).snapctl = s.snapctl := rfl
@[simp] theorem setMySlot_armed (x : Slot) : (setMySlot s x).armed = s.armed := rfl
@[simp] theorem setMySlot_snapSource (x : Slot) : (setMySlot s x).snapSource = s.snapSource := rfl
@[simp] theorem setMySlot_snapTime (x : Slot) : (setMySlot s x).snapTime = s.snapTime := rfl
@[simp] theorem setMySlot_latchAt (x : Slot) : (setMySlot s x).latchAt = s.latchAt := rfl
@[simp] theorem setMySlot_calm (x : Slot) : (setMySlot s x).calm = s.calm := rfl
@[simp] theorem setMySlot_pinned (x : Slot) : (setMySlot s x).pinned = s.pinned := rfl
@[simp] theorem setMySlot_requests (x : Slot) : (setMySlot s x).requests = s.requests := rfl
@[simp] theorem setMySlot_registered (x : Slot) : (setMySlot s x).registered = s.registered := rfl
@[simp] theorem setMySlot_remoteHolds (x : Slot) : (setMySlot s x).remoteHolds = s.remoteHolds := rfl
@[simp] theorem setMySlot_remoteOwns (x : Slot) : (setMySlot s x).remoteOwns = s.remoteOwns := rfl
@[simp] theorem setMySlot_turn (x : Slot) : (setMySlot s x).turn = s.turn := rfl
@[simp] theorem setMySlot_sched (x : Slot) : (setMySlot s x).sched = s.sched := rfl
@[simp] theorem setMySlot_inputs (x : Slot) : (setMySlot s x).inputs = s.inputs := rfl
@[simp] theorem setMySlot_eager (x : Slot) : (setMySlot s x).eager = s.eager := rfl
@[simp] theorem setMySlot_pace (x : Slot) : (setMySlot s x).pace = s.pace := rfl
@[simp] theorem setMySlot_fresh (x : Slot) : (setMySlot s x).fresh = s.fresh := rfl
@[simp] theorem setMySlot_cycle (x : Slot) : (setMySlot s x).cycle = s.cycle := rfl
@[simp] theorem setMySlot_order (x : Slot) : (setMySlot s x).order = s.order := rfl

/-! ### setCluster -/

@[simp] theorem setCluster_cores (k : Nat) (x : Cluster) : (setCluster s k x).cores = s.cores := rfl
@[simp] theorem setCluster_dies (k : Nat) (x : Cluster) : (setCluster s k x).dies = s.dies := rfl
@[simp] theorem setCluster_contexts (k : Nat) (x : Cluster) : (setCluster s k x).contexts = s.contexts := rfl
@[simp] theorem setCluster_mem (k : Nat) (x : Cluster) : (setCluster s k x).mem = s.mem := rfl
@[simp] theorem setCluster_time (k : Nat) (x : Cluster) : (setCluster s k x).time = s.time := rfl
@[simp] theorem setCluster_stamp (k : Nat) (x : Cluster) : (setCluster s k x).stamp = s.stamp := rfl
@[simp] theorem setCluster_ptroot (k : Nat) (x : Cluster) : (setCluster s k x).ptroot = s.ptroot := rfl
@[simp] theorem setCluster_countbase (k : Nat) (x : Cluster) : (setCluster s k x).countbase = s.countbase := rfl
@[simp] theorem setCluster_tlb (k : Nat) (x : Cluster) : (setCluster s k x).tlb = s.tlb := rfl
@[simp] theorem setCluster_shared (k : Nat) (x : Cluster) : (setCluster s k x).shared = s.shared := rfl
@[simp] theorem setCluster_retired (k : Nat) (x : Cluster) : (setCluster s k x).retired = s.retired := rfl
@[simp] theorem setCluster_banks (k : Nat) (x : Cluster) : (setCluster s k x).banks = s.banks := rfl
@[simp] theorem setCluster_slices (k : Nat) (x : Cluster) : (setCluster s k x).slices = s.slices := rfl
@[simp] theorem setCluster_lostWays (k : Nat) (x : Cluster) : (setCluster s k x).lostWays = s.lostWays := rfl
@[simp] theorem setCluster_spares (k : Nat) (x : Cluster) : (setCluster s k x).spares = s.spares := rfl
@[simp] theorem setCluster_lrcfg (k : Nat) (x : Cluster) : (setCluster s k x).lrcfg = s.lrcfg := rfl
@[simp] theorem setCluster_lrtail (k : Nat) (x : Cluster) : (setCluster s k x).lrtail = s.lrtail := rfl
@[simp] theorem setCluster_lrhead (k : Nat) (x : Cluster) : (setCluster s k x).lrhead = s.lrhead := rfl
@[simp] theorem setCluster_lrdropped (k : Nat) (x : Cluster) : (setCluster s k x).lrdropped = s.lrdropped := rfl
@[simp] theorem setCluster_doors (k : Nat) (x : Cluster) : (setCluster s k x).doors = s.doors := rfl
@[simp] theorem setCluster_csDone (k : Nat) (x : Cluster) : (setCluster s k x).csDone = s.csDone := rfl
@[simp] theorem setCluster_gens (k : Nat) (x : Cluster) : (setCluster s k x).gens = s.gens := rfl
@[simp] theorem setCluster_keys (k : Nat) (x : Cluster) : (setCluster s k x).keys = s.keys := rfl
@[simp] theorem setCluster_messageKey (k : Nat) (x : Cluster) : (setCluster s k x).messageKey = s.messageKey := rfl
@[simp] theorem setCluster_rosterSerial (k : Nat) (x : Cluster) : (setCluster s k x).rosterSerial = s.rosterSerial := rfl
@[simp] theorem setCluster_roster (k : Nat) (x : Cluster) : (setCluster s k x).roster = s.roster := rfl
@[simp] theorem setCluster_sessions (k : Nat) (x : Cluster) : (setCluster s k x).sessions = s.sessions := rfl
@[simp] theorem setCluster_locks (k : Nat) (x : Cluster) : (setCluster s k x).locks = s.locks := rfl
@[simp] theorem setCluster_ideKeys (k : Nat) (x : Cluster) : (setCluster s k x).ideKeys = s.ideKeys := rfl
@[simp] theorem setCluster_exposed (k : Nat) (x : Cluster) : (setCluster s k x).exposed = s.exposed := rfl
@[simp] theorem setCluster_fmKey (k : Nat) (x : Cluster) : (setCluster s k x).fmKey = s.fmKey := rfl
@[simp] theorem setCluster_reports (k : Nat) (x : Cluster) : (setCluster s k x).reports = s.reports := rfl
@[simp] theorem setCluster_ports (k : Nat) (x : Cluster) : (setCluster s k x).ports = s.ports := rfl
@[simp] theorem setCluster_viral (k : Nat) (x : Cluster) : (setCluster s k x).viral = s.viral := rfl
@[simp] theorem setCluster_hostHolds (k : Nat) (x : Cluster) : (setCluster s k x).hostHolds = s.hostHolds := rfl
@[simp] theorem setCluster_hostLines (k : Nat) (x : Cluster) : (setCluster s k x).hostLines = s.hostLines := rfl
@[simp] theorem setCluster_bisnp (k : Nat) (x : Cluster) : (setCluster s k x).bisnp = s.bisnp := rfl
@[simp] theorem setCluster_answered (k : Nat) (x : Cluster) : (setCluster s k x).answered = s.answered := rfl
@[simp] theorem setCluster_remoteSends (k : Nat) (x : Cluster) : (setCluster s k x).remoteSends = s.remoteSends := rfl
@[simp] theorem setCluster_remoteAnswers (k : Nat) (x : Cluster) : (setCluster s k x).remoteAnswers = s.remoteAnswers := rfl
@[simp] theorem setCluster_reductions (k : Nat) (x : Cluster) : (setCluster s k x).reductions = s.reductions := rfl
@[simp] theorem setCluster_regions (k : Nat) (x : Cluster) : (setCluster s k x).regions = s.regions := rfl
@[simp] theorem setCluster_lost (k : Nat) (x : Cluster) : (setCluster s k x).lost = s.lost := rfl
@[simp] theorem setCluster_island (k : Nat) (x : Cluster) : (setCluster s k x).island = s.island := rfl
@[simp] theorem setCluster_bisnpInv (k : Nat) (x : Cluster) : (setCluster s k x).bisnpInv = s.bisnpInv := rfl
@[simp] theorem setCluster_queuePairs (k : Nat) (x : Cluster) : (setCluster s k x).queuePairs = s.queuePairs := rfl
@[simp] theorem setCluster_completions (k : Nat) (x : Cluster) : (setCluster s k x).completions = s.completions := rfl
@[simp] theorem setCluster_lostLines (k : Nat) (x : Cluster) : (setCluster s k x).lostLines = s.lostLines := rfl
@[simp] theorem setCluster_lockErrors (k : Nat) (x : Cluster) : (setCluster s k x).lockErrors = s.lockErrors := rfl
@[simp] theorem setCluster_fuses (k : Nat) (x : Cluster) : (setCluster s k x).fuses = s.fuses := rfl
@[simp] theorem setCluster_filterLines (k : Nat) (x : Cluster) : (setCluster s k x).filterLines = s.filterLines := rfl
@[simp] theorem setCluster_phase (k : Nat) (x : Cluster) : (setCluster s k x).phase = s.phase := rfl
@[simp] theorem setCluster_bootErr (k : Nat) (x : Cluster) : (setCluster s k x).bootErr = s.bootErr := rfl
@[simp] theorem setCluster_ready (k : Nat) (x : Cluster) : (setCluster s k x).ready = s.ready := rfl
@[simp] theorem setCluster_repairs (k : Nat) (x : Cluster) : (setCluster s k x).repairs = s.repairs := rfl
@[simp] theorem setCluster_unavailable (k : Nat) (x : Cluster) : (setCluster s k x).unavailable = s.unavailable := rfl
@[simp] theorem setCluster_badBanks (k : Nat) (x : Cluster) : (setCluster s k x).badBanks = s.badBanks := rfl
@[simp] theorem setCluster_repairstat (k : Nat) (x : Cluster) : (setCluster s k x).repairstat = s.repairstat := rfl
@[simp] theorem setCluster_measured (k : Nat) (x : Cluster) : (setCluster s k x).measured = s.measured := rfl
@[simp] theorem setCluster_snapctl (k : Nat) (x : Cluster) : (setCluster s k x).snapctl = s.snapctl := rfl
@[simp] theorem setCluster_armed (k : Nat) (x : Cluster) : (setCluster s k x).armed = s.armed := rfl
@[simp] theorem setCluster_snapSource (k : Nat) (x : Cluster) : (setCluster s k x).snapSource = s.snapSource := rfl
@[simp] theorem setCluster_snapTime (k : Nat) (x : Cluster) : (setCluster s k x).snapTime = s.snapTime := rfl
@[simp] theorem setCluster_latchAt (k : Nat) (x : Cluster) : (setCluster s k x).latchAt = s.latchAt := rfl
@[simp] theorem setCluster_calm (k : Nat) (x : Cluster) : (setCluster s k x).calm = s.calm := rfl
@[simp] theorem setCluster_pinned (k : Nat) (x : Cluster) : (setCluster s k x).pinned = s.pinned := rfl
@[simp] theorem setCluster_requests (k : Nat) (x : Cluster) : (setCluster s k x).requests = s.requests := rfl
@[simp] theorem setCluster_registered (k : Nat) (x : Cluster) : (setCluster s k x).registered = s.registered := rfl
@[simp] theorem setCluster_remoteHolds (k : Nat) (x : Cluster) : (setCluster s k x).remoteHolds = s.remoteHolds := rfl
@[simp] theorem setCluster_remoteOwns (k : Nat) (x : Cluster) : (setCluster s k x).remoteOwns = s.remoteOwns := rfl
@[simp] theorem setCluster_turn (k : Nat) (x : Cluster) : (setCluster s k x).turn = s.turn := rfl
@[simp] theorem setCluster_sched (k : Nat) (x : Cluster) : (setCluster s k x).sched = s.sched := rfl
@[simp] theorem setCluster_inputs (k : Nat) (x : Cluster) : (setCluster s k x).inputs = s.inputs := rfl
@[simp] theorem setCluster_eager (k : Nat) (x : Cluster) : (setCluster s k x).eager = s.eager := rfl
@[simp] theorem setCluster_pace (k : Nat) (x : Cluster) : (setCluster s k x).pace = s.pace := rfl
@[simp] theorem setCluster_fresh (k : Nat) (x : Cluster) : (setCluster s k x).fresh = s.fresh := rfl
@[simp] theorem setCluster_cycle (k : Nat) (x : Cluster) : (setCluster s k x).cycle = s.cycle := rfl
@[simp] theorem setCluster_order (k : Nat) (x : Cluster) : (setCluster s k x).order = s.order := rfl

/-! ### setDie -/

@[simp] theorem setDie_cores (d : Nat) (x : Die) : (setDie s d x).cores = s.cores := rfl
@[simp] theorem setDie_clusters (d : Nat) (x : Die) : (setDie s d x).clusters = s.clusters := rfl
@[simp] theorem setDie_contexts (d : Nat) (x : Die) : (setDie s d x).contexts = s.contexts := rfl
@[simp] theorem setDie_mem (d : Nat) (x : Die) : (setDie s d x).mem = s.mem := rfl
@[simp] theorem setDie_time (d : Nat) (x : Die) : (setDie s d x).time = s.time := rfl
@[simp] theorem setDie_stamp (d : Nat) (x : Die) : (setDie s d x).stamp = s.stamp := rfl
@[simp] theorem setDie_ptroot (d : Nat) (x : Die) : (setDie s d x).ptroot = s.ptroot := rfl
@[simp] theorem setDie_countbase (d : Nat) (x : Die) : (setDie s d x).countbase = s.countbase := rfl
@[simp] theorem setDie_tlb (d : Nat) (x : Die) : (setDie s d x).tlb = s.tlb := rfl
@[simp] theorem setDie_shared (d : Nat) (x : Die) : (setDie s d x).shared = s.shared := rfl
@[simp] theorem setDie_retired (d : Nat) (x : Die) : (setDie s d x).retired = s.retired := rfl
@[simp] theorem setDie_banks (d : Nat) (x : Die) : (setDie s d x).banks = s.banks := rfl
@[simp] theorem setDie_slices (d : Nat) (x : Die) : (setDie s d x).slices = s.slices := rfl
@[simp] theorem setDie_lostWays (d : Nat) (x : Die) : (setDie s d x).lostWays = s.lostWays := rfl
@[simp] theorem setDie_spares (d : Nat) (x : Die) : (setDie s d x).spares = s.spares := rfl
@[simp] theorem setDie_lrcfg (d : Nat) (x : Die) : (setDie s d x).lrcfg = s.lrcfg := rfl
@[simp] theorem setDie_lrtail (d : Nat) (x : Die) : (setDie s d x).lrtail = s.lrtail := rfl
@[simp] theorem setDie_lrhead (d : Nat) (x : Die) : (setDie s d x).lrhead = s.lrhead := rfl
@[simp] theorem setDie_lrdropped (d : Nat) (x : Die) : (setDie s d x).lrdropped = s.lrdropped := rfl
@[simp] theorem setDie_doors (d : Nat) (x : Die) : (setDie s d x).doors = s.doors := rfl
@[simp] theorem setDie_csDone (d : Nat) (x : Die) : (setDie s d x).csDone = s.csDone := rfl
@[simp] theorem setDie_gens (d : Nat) (x : Die) : (setDie s d x).gens = s.gens := rfl
@[simp] theorem setDie_keys (d : Nat) (x : Die) : (setDie s d x).keys = s.keys := rfl
@[simp] theorem setDie_messageKey (d : Nat) (x : Die) : (setDie s d x).messageKey = s.messageKey := rfl
@[simp] theorem setDie_rosterSerial (d : Nat) (x : Die) : (setDie s d x).rosterSerial = s.rosterSerial := rfl
@[simp] theorem setDie_roster (d : Nat) (x : Die) : (setDie s d x).roster = s.roster := rfl
@[simp] theorem setDie_sessions (d : Nat) (x : Die) : (setDie s d x).sessions = s.sessions := rfl
@[simp] theorem setDie_locks (d : Nat) (x : Die) : (setDie s d x).locks = s.locks := rfl
@[simp] theorem setDie_ideKeys (d : Nat) (x : Die) : (setDie s d x).ideKeys = s.ideKeys := rfl
@[simp] theorem setDie_exposed (d : Nat) (x : Die) : (setDie s d x).exposed = s.exposed := rfl
@[simp] theorem setDie_fmKey (d : Nat) (x : Die) : (setDie s d x).fmKey = s.fmKey := rfl
@[simp] theorem setDie_reports (d : Nat) (x : Die) : (setDie s d x).reports = s.reports := rfl
@[simp] theorem setDie_ports (d : Nat) (x : Die) : (setDie s d x).ports = s.ports := rfl
@[simp] theorem setDie_viral (d : Nat) (x : Die) : (setDie s d x).viral = s.viral := rfl
@[simp] theorem setDie_hostHolds (d : Nat) (x : Die) : (setDie s d x).hostHolds = s.hostHolds := rfl
@[simp] theorem setDie_hostLines (d : Nat) (x : Die) : (setDie s d x).hostLines = s.hostLines := rfl
@[simp] theorem setDie_bisnp (d : Nat) (x : Die) : (setDie s d x).bisnp = s.bisnp := rfl
@[simp] theorem setDie_answered (d : Nat) (x : Die) : (setDie s d x).answered = s.answered := rfl
@[simp] theorem setDie_remoteSends (d : Nat) (x : Die) : (setDie s d x).remoteSends = s.remoteSends := rfl
@[simp] theorem setDie_remoteAnswers (d : Nat) (x : Die) : (setDie s d x).remoteAnswers = s.remoteAnswers := rfl
@[simp] theorem setDie_reductions (d : Nat) (x : Die) : (setDie s d x).reductions = s.reductions := rfl
@[simp] theorem setDie_regions (d : Nat) (x : Die) : (setDie s d x).regions = s.regions := rfl
@[simp] theorem setDie_lost (d : Nat) (x : Die) : (setDie s d x).lost = s.lost := rfl
@[simp] theorem setDie_island (d : Nat) (x : Die) : (setDie s d x).island = s.island := rfl
@[simp] theorem setDie_bisnpInv (d : Nat) (x : Die) : (setDie s d x).bisnpInv = s.bisnpInv := rfl
@[simp] theorem setDie_queuePairs (d : Nat) (x : Die) : (setDie s d x).queuePairs = s.queuePairs := rfl
@[simp] theorem setDie_completions (d : Nat) (x : Die) : (setDie s d x).completions = s.completions := rfl
@[simp] theorem setDie_lostLines (d : Nat) (x : Die) : (setDie s d x).lostLines = s.lostLines := rfl
@[simp] theorem setDie_lockErrors (d : Nat) (x : Die) : (setDie s d x).lockErrors = s.lockErrors := rfl
@[simp] theorem setDie_fuses (d : Nat) (x : Die) : (setDie s d x).fuses = s.fuses := rfl
@[simp] theorem setDie_filterLines (d : Nat) (x : Die) : (setDie s d x).filterLines = s.filterLines := rfl
@[simp] theorem setDie_phase (d : Nat) (x : Die) : (setDie s d x).phase = s.phase := rfl
@[simp] theorem setDie_bootErr (d : Nat) (x : Die) : (setDie s d x).bootErr = s.bootErr := rfl
@[simp] theorem setDie_ready (d : Nat) (x : Die) : (setDie s d x).ready = s.ready := rfl
@[simp] theorem setDie_repairs (d : Nat) (x : Die) : (setDie s d x).repairs = s.repairs := rfl
@[simp] theorem setDie_unavailable (d : Nat) (x : Die) : (setDie s d x).unavailable = s.unavailable := rfl
@[simp] theorem setDie_badBanks (d : Nat) (x : Die) : (setDie s d x).badBanks = s.badBanks := rfl
@[simp] theorem setDie_repairstat (d : Nat) (x : Die) : (setDie s d x).repairstat = s.repairstat := rfl
@[simp] theorem setDie_measured (d : Nat) (x : Die) : (setDie s d x).measured = s.measured := rfl
@[simp] theorem setDie_snapctl (d : Nat) (x : Die) : (setDie s d x).snapctl = s.snapctl := rfl
@[simp] theorem setDie_armed (d : Nat) (x : Die) : (setDie s d x).armed = s.armed := rfl
@[simp] theorem setDie_snapSource (d : Nat) (x : Die) : (setDie s d x).snapSource = s.snapSource := rfl
@[simp] theorem setDie_snapTime (d : Nat) (x : Die) : (setDie s d x).snapTime = s.snapTime := rfl
@[simp] theorem setDie_latchAt (d : Nat) (x : Die) : (setDie s d x).latchAt = s.latchAt := rfl
@[simp] theorem setDie_calm (d : Nat) (x : Die) : (setDie s d x).calm = s.calm := rfl
@[simp] theorem setDie_pinned (d : Nat) (x : Die) : (setDie s d x).pinned = s.pinned := rfl
@[simp] theorem setDie_requests (d : Nat) (x : Die) : (setDie s d x).requests = s.requests := rfl
@[simp] theorem setDie_registered (d : Nat) (x : Die) : (setDie s d x).registered = s.registered := rfl
@[simp] theorem setDie_remoteHolds (d : Nat) (x : Die) : (setDie s d x).remoteHolds = s.remoteHolds := rfl
@[simp] theorem setDie_remoteOwns (d : Nat) (x : Die) : (setDie s d x).remoteOwns = s.remoteOwns := rfl
@[simp] theorem setDie_turn (d : Nat) (x : Die) : (setDie s d x).turn = s.turn := rfl
@[simp] theorem setDie_sched (d : Nat) (x : Die) : (setDie s d x).sched = s.sched := rfl
@[simp] theorem setDie_inputs (d : Nat) (x : Die) : (setDie s d x).inputs = s.inputs := rfl
@[simp] theorem setDie_eager (d : Nat) (x : Die) : (setDie s d x).eager = s.eager := rfl
@[simp] theorem setDie_pace (d : Nat) (x : Die) : (setDie s d x).pace = s.pace := rfl
@[simp] theorem setDie_fresh (d : Nat) (x : Die) : (setDie s d x).fresh = s.fresh := rfl
@[simp] theorem setDie_cycle (d : Nat) (x : Die) : (setDie s d x).cycle = s.cycle := rfl
@[simp] theorem setDie_order (d : Nat) (x : Die) : (setDie s d x).order = s.order := rfl

/-! ### setCtx -/

@[simp] theorem setCtx_cores (c : Nat) (x : Context) : (setCtx s c x).cores = s.cores := rfl
@[simp] theorem setCtx_clusters (c : Nat) (x : Context) : (setCtx s c x).clusters = s.clusters := rfl
@[simp] theorem setCtx_dies (c : Nat) (x : Context) : (setCtx s c x).dies = s.dies := rfl
@[simp] theorem setCtx_mem (c : Nat) (x : Context) : (setCtx s c x).mem = s.mem := rfl
@[simp] theorem setCtx_time (c : Nat) (x : Context) : (setCtx s c x).time = s.time := rfl
@[simp] theorem setCtx_stamp (c : Nat) (x : Context) : (setCtx s c x).stamp = s.stamp := rfl
@[simp] theorem setCtx_ptroot (c : Nat) (x : Context) : (setCtx s c x).ptroot = s.ptroot := rfl
@[simp] theorem setCtx_countbase (c : Nat) (x : Context) : (setCtx s c x).countbase = s.countbase := rfl
@[simp] theorem setCtx_tlb (c : Nat) (x : Context) : (setCtx s c x).tlb = s.tlb := rfl
@[simp] theorem setCtx_shared (c : Nat) (x : Context) : (setCtx s c x).shared = s.shared := rfl
@[simp] theorem setCtx_retired (c : Nat) (x : Context) : (setCtx s c x).retired = s.retired := rfl
@[simp] theorem setCtx_banks (c : Nat) (x : Context) : (setCtx s c x).banks = s.banks := rfl
@[simp] theorem setCtx_slices (c : Nat) (x : Context) : (setCtx s c x).slices = s.slices := rfl
@[simp] theorem setCtx_lostWays (c : Nat) (x : Context) : (setCtx s c x).lostWays = s.lostWays := rfl
@[simp] theorem setCtx_spares (c : Nat) (x : Context) : (setCtx s c x).spares = s.spares := rfl
@[simp] theorem setCtx_lrcfg (c : Nat) (x : Context) : (setCtx s c x).lrcfg = s.lrcfg := rfl
@[simp] theorem setCtx_lrtail (c : Nat) (x : Context) : (setCtx s c x).lrtail = s.lrtail := rfl
@[simp] theorem setCtx_lrhead (c : Nat) (x : Context) : (setCtx s c x).lrhead = s.lrhead := rfl
@[simp] theorem setCtx_lrdropped (c : Nat) (x : Context) : (setCtx s c x).lrdropped = s.lrdropped := rfl
@[simp] theorem setCtx_doors (c : Nat) (x : Context) : (setCtx s c x).doors = s.doors := rfl
@[simp] theorem setCtx_csDone (c : Nat) (x : Context) : (setCtx s c x).csDone = s.csDone := rfl
@[simp] theorem setCtx_gens (c : Nat) (x : Context) : (setCtx s c x).gens = s.gens := rfl
@[simp] theorem setCtx_keys (c : Nat) (x : Context) : (setCtx s c x).keys = s.keys := rfl
@[simp] theorem setCtx_messageKey (c : Nat) (x : Context) : (setCtx s c x).messageKey = s.messageKey := rfl
@[simp] theorem setCtx_rosterSerial (c : Nat) (x : Context) : (setCtx s c x).rosterSerial = s.rosterSerial := rfl
@[simp] theorem setCtx_roster (c : Nat) (x : Context) : (setCtx s c x).roster = s.roster := rfl
@[simp] theorem setCtx_sessions (c : Nat) (x : Context) : (setCtx s c x).sessions = s.sessions := rfl
@[simp] theorem setCtx_locks (c : Nat) (x : Context) : (setCtx s c x).locks = s.locks := rfl
@[simp] theorem setCtx_ideKeys (c : Nat) (x : Context) : (setCtx s c x).ideKeys = s.ideKeys := rfl
@[simp] theorem setCtx_exposed (c : Nat) (x : Context) : (setCtx s c x).exposed = s.exposed := rfl
@[simp] theorem setCtx_fmKey (c : Nat) (x : Context) : (setCtx s c x).fmKey = s.fmKey := rfl
@[simp] theorem setCtx_reports (c : Nat) (x : Context) : (setCtx s c x).reports = s.reports := rfl
@[simp] theorem setCtx_ports (c : Nat) (x : Context) : (setCtx s c x).ports = s.ports := rfl
@[simp] theorem setCtx_viral (c : Nat) (x : Context) : (setCtx s c x).viral = s.viral := rfl
@[simp] theorem setCtx_hostHolds (c : Nat) (x : Context) : (setCtx s c x).hostHolds = s.hostHolds := rfl
@[simp] theorem setCtx_hostLines (c : Nat) (x : Context) : (setCtx s c x).hostLines = s.hostLines := rfl
@[simp] theorem setCtx_bisnp (c : Nat) (x : Context) : (setCtx s c x).bisnp = s.bisnp := rfl
@[simp] theorem setCtx_answered (c : Nat) (x : Context) : (setCtx s c x).answered = s.answered := rfl
@[simp] theorem setCtx_remoteSends (c : Nat) (x : Context) : (setCtx s c x).remoteSends = s.remoteSends := rfl
@[simp] theorem setCtx_remoteAnswers (c : Nat) (x : Context) : (setCtx s c x).remoteAnswers = s.remoteAnswers := rfl
@[simp] theorem setCtx_reductions (c : Nat) (x : Context) : (setCtx s c x).reductions = s.reductions := rfl
@[simp] theorem setCtx_regions (c : Nat) (x : Context) : (setCtx s c x).regions = s.regions := rfl
@[simp] theorem setCtx_lost (c : Nat) (x : Context) : (setCtx s c x).lost = s.lost := rfl
@[simp] theorem setCtx_island (c : Nat) (x : Context) : (setCtx s c x).island = s.island := rfl
@[simp] theorem setCtx_bisnpInv (c : Nat) (x : Context) : (setCtx s c x).bisnpInv = s.bisnpInv := rfl
@[simp] theorem setCtx_queuePairs (c : Nat) (x : Context) : (setCtx s c x).queuePairs = s.queuePairs := rfl
@[simp] theorem setCtx_completions (c : Nat) (x : Context) : (setCtx s c x).completions = s.completions := rfl
@[simp] theorem setCtx_lostLines (c : Nat) (x : Context) : (setCtx s c x).lostLines = s.lostLines := rfl
@[simp] theorem setCtx_lockErrors (c : Nat) (x : Context) : (setCtx s c x).lockErrors = s.lockErrors := rfl
@[simp] theorem setCtx_fuses (c : Nat) (x : Context) : (setCtx s c x).fuses = s.fuses := rfl
@[simp] theorem setCtx_filterLines (c : Nat) (x : Context) : (setCtx s c x).filterLines = s.filterLines := rfl
@[simp] theorem setCtx_phase (c : Nat) (x : Context) : (setCtx s c x).phase = s.phase := rfl
@[simp] theorem setCtx_bootErr (c : Nat) (x : Context) : (setCtx s c x).bootErr = s.bootErr := rfl
@[simp] theorem setCtx_ready (c : Nat) (x : Context) : (setCtx s c x).ready = s.ready := rfl
@[simp] theorem setCtx_repairs (c : Nat) (x : Context) : (setCtx s c x).repairs = s.repairs := rfl
@[simp] theorem setCtx_unavailable (c : Nat) (x : Context) : (setCtx s c x).unavailable = s.unavailable := rfl
@[simp] theorem setCtx_badBanks (c : Nat) (x : Context) : (setCtx s c x).badBanks = s.badBanks := rfl
@[simp] theorem setCtx_repairstat (c : Nat) (x : Context) : (setCtx s c x).repairstat = s.repairstat := rfl
@[simp] theorem setCtx_measured (c : Nat) (x : Context) : (setCtx s c x).measured = s.measured := rfl
@[simp] theorem setCtx_snapctl (c : Nat) (x : Context) : (setCtx s c x).snapctl = s.snapctl := rfl
@[simp] theorem setCtx_armed (c : Nat) (x : Context) : (setCtx s c x).armed = s.armed := rfl
@[simp] theorem setCtx_snapSource (c : Nat) (x : Context) : (setCtx s c x).snapSource = s.snapSource := rfl
@[simp] theorem setCtx_snapTime (c : Nat) (x : Context) : (setCtx s c x).snapTime = s.snapTime := rfl
@[simp] theorem setCtx_latchAt (c : Nat) (x : Context) : (setCtx s c x).latchAt = s.latchAt := rfl
@[simp] theorem setCtx_calm (c : Nat) (x : Context) : (setCtx s c x).calm = s.calm := rfl
@[simp] theorem setCtx_pinned (c : Nat) (x : Context) : (setCtx s c x).pinned = s.pinned := rfl
@[simp] theorem setCtx_requests (c : Nat) (x : Context) : (setCtx s c x).requests = s.requests := rfl
@[simp] theorem setCtx_registered (c : Nat) (x : Context) : (setCtx s c x).registered = s.registered := rfl
@[simp] theorem setCtx_remoteHolds (c : Nat) (x : Context) : (setCtx s c x).remoteHolds = s.remoteHolds := rfl
@[simp] theorem setCtx_remoteOwns (c : Nat) (x : Context) : (setCtx s c x).remoteOwns = s.remoteOwns := rfl
@[simp] theorem setCtx_turn (c : Nat) (x : Context) : (setCtx s c x).turn = s.turn := rfl
@[simp] theorem setCtx_sched (c : Nat) (x : Context) : (setCtx s c x).sched = s.sched := rfl
@[simp] theorem setCtx_inputs (c : Nat) (x : Context) : (setCtx s c x).inputs = s.inputs := rfl
@[simp] theorem setCtx_eager (c : Nat) (x : Context) : (setCtx s c x).eager = s.eager := rfl
@[simp] theorem setCtx_pace (c : Nat) (x : Context) : (setCtx s c x).pace = s.pace := rfl
@[simp] theorem setCtx_fresh (c : Nat) (x : Context) : (setCtx s c x).fresh = s.fresh := rfl
@[simp] theorem setCtx_cycle (c : Nat) (x : Context) : (setCtx s c x).cycle = s.cycle := rfl
@[simp] theorem setCtx_order (c : Nat) (x : Context) : (setCtx s c x).order = s.order := rfl

/-! ### tick -/

@[simp] theorem tick_cores : (tick s).cores = s.cores := rfl
@[simp] theorem tick_clusters : (tick s).clusters = s.clusters := rfl
@[simp] theorem tick_dies : (tick s).dies = s.dies := rfl
@[simp] theorem tick_contexts : (tick s).contexts = s.contexts := rfl
@[simp] theorem tick_mem : (tick s).mem = s.mem := rfl
@[simp] theorem tick_time : (tick s).time = s.time := rfl
@[simp] theorem tick_stamp : (tick s).stamp = s.stamp := rfl
@[simp] theorem tick_ptroot : (tick s).ptroot = s.ptroot := rfl
@[simp] theorem tick_countbase : (tick s).countbase = s.countbase := rfl
@[simp] theorem tick_tlb : (tick s).tlb = s.tlb := rfl
@[simp] theorem tick_shared : (tick s).shared = s.shared := rfl
@[simp] theorem tick_retired : (tick s).retired = s.retired := rfl
@[simp] theorem tick_banks : (tick s).banks = s.banks := rfl
@[simp] theorem tick_slices : (tick s).slices = s.slices := rfl
@[simp] theorem tick_lostWays : (tick s).lostWays = s.lostWays := rfl
@[simp] theorem tick_spares : (tick s).spares = s.spares := rfl
@[simp] theorem tick_lrcfg : (tick s).lrcfg = s.lrcfg := rfl
@[simp] theorem tick_lrtail : (tick s).lrtail = s.lrtail := rfl
@[simp] theorem tick_lrhead : (tick s).lrhead = s.lrhead := rfl
@[simp] theorem tick_lrdropped : (tick s).lrdropped = s.lrdropped := rfl
@[simp] theorem tick_doors : (tick s).doors = s.doors := rfl
@[simp] theorem tick_csDone : (tick s).csDone = s.csDone := rfl
@[simp] theorem tick_gens : (tick s).gens = s.gens := rfl
@[simp] theorem tick_keys : (tick s).keys = s.keys := rfl
@[simp] theorem tick_messageKey : (tick s).messageKey = s.messageKey := rfl
@[simp] theorem tick_rosterSerial : (tick s).rosterSerial = s.rosterSerial := rfl
@[simp] theorem tick_roster : (tick s).roster = s.roster := rfl
@[simp] theorem tick_sessions : (tick s).sessions = s.sessions := rfl
@[simp] theorem tick_locks : (tick s).locks = s.locks := rfl
@[simp] theorem tick_ideKeys : (tick s).ideKeys = s.ideKeys := rfl
@[simp] theorem tick_exposed : (tick s).exposed = s.exposed := rfl
@[simp] theorem tick_fmKey : (tick s).fmKey = s.fmKey := rfl
@[simp] theorem tick_reports : (tick s).reports = s.reports := rfl
@[simp] theorem tick_ports : (tick s).ports = s.ports := rfl
@[simp] theorem tick_viral : (tick s).viral = s.viral := rfl
@[simp] theorem tick_hostHolds : (tick s).hostHolds = s.hostHolds := rfl
@[simp] theorem tick_hostLines : (tick s).hostLines = s.hostLines := rfl
@[simp] theorem tick_bisnp : (tick s).bisnp = s.bisnp := rfl
@[simp] theorem tick_answered : (tick s).answered = s.answered := rfl
@[simp] theorem tick_remoteSends : (tick s).remoteSends = s.remoteSends := rfl
@[simp] theorem tick_remoteAnswers : (tick s).remoteAnswers = s.remoteAnswers := rfl
@[simp] theorem tick_reductions : (tick s).reductions = s.reductions := rfl
@[simp] theorem tick_regions : (tick s).regions = s.regions := rfl
@[simp] theorem tick_lost : (tick s).lost = s.lost := rfl
@[simp] theorem tick_island : (tick s).island = s.island := rfl
@[simp] theorem tick_bisnpInv : (tick s).bisnpInv = s.bisnpInv := rfl
@[simp] theorem tick_queuePairs : (tick s).queuePairs = s.queuePairs := rfl
@[simp] theorem tick_completions : (tick s).completions = s.completions := rfl
@[simp] theorem tick_lostLines : (tick s).lostLines = s.lostLines := rfl
@[simp] theorem tick_lockErrors : (tick s).lockErrors = s.lockErrors := rfl
@[simp] theorem tick_fuses : (tick s).fuses = s.fuses := rfl
@[simp] theorem tick_filterLines : (tick s).filterLines = s.filterLines := rfl
@[simp] theorem tick_phase : (tick s).phase = s.phase := rfl
@[simp] theorem tick_bootErr : (tick s).bootErr = s.bootErr := rfl
@[simp] theorem tick_ready : (tick s).ready = s.ready := rfl
@[simp] theorem tick_repairs : (tick s).repairs = s.repairs := rfl
@[simp] theorem tick_unavailable : (tick s).unavailable = s.unavailable := rfl
@[simp] theorem tick_badBanks : (tick s).badBanks = s.badBanks := rfl
@[simp] theorem tick_repairstat : (tick s).repairstat = s.repairstat := rfl
@[simp] theorem tick_measured : (tick s).measured = s.measured := rfl
@[simp] theorem tick_snapctl : (tick s).snapctl = s.snapctl := rfl
@[simp] theorem tick_armed : (tick s).armed = s.armed := rfl
@[simp] theorem tick_snapSource : (tick s).snapSource = s.snapSource := rfl
@[simp] theorem tick_snapTime : (tick s).snapTime = s.snapTime := rfl
@[simp] theorem tick_latchAt : (tick s).latchAt = s.latchAt := rfl
@[simp] theorem tick_calm : (tick s).calm = s.calm := rfl
@[simp] theorem tick_pinned : (tick s).pinned = s.pinned := rfl
@[simp] theorem tick_requests : (tick s).requests = s.requests := rfl
@[simp] theorem tick_registered : (tick s).registered = s.registered := rfl
@[simp] theorem tick_remoteHolds : (tick s).remoteHolds = s.remoteHolds := rfl
@[simp] theorem tick_remoteOwns : (tick s).remoteOwns = s.remoteOwns := rfl
@[simp] theorem tick_turn : (tick s).turn = s.turn := rfl
@[simp] theorem tick_sched : (tick s).sched = s.sched := rfl
@[simp] theorem tick_inputs : (tick s).inputs = s.inputs := rfl
@[simp] theorem tick_eager : (tick s).eager = s.eager := rfl
@[simp] theorem tick_pace : (tick s).pace = s.pace := rfl
@[simp] theorem tick_fresh : (tick s).fresh = s.fresh := rfl
@[simp] theorem tick_cycle : (tick s).cycle = s.cycle := rfl

/-! ### bump -/

@[simp] theorem bump_cores (cl i n : Nat) : (bump s cl i n).cores = s.cores := rfl
@[simp] theorem bump_dies (cl i n : Nat) : (bump s cl i n).dies = s.dies := rfl
@[simp] theorem bump_contexts (cl i n : Nat) : (bump s cl i n).contexts = s.contexts := rfl
@[simp] theorem bump_mem (cl i n : Nat) : (bump s cl i n).mem = s.mem := rfl
@[simp] theorem bump_time (cl i n : Nat) : (bump s cl i n).time = s.time := rfl
@[simp] theorem bump_stamp (cl i n : Nat) : (bump s cl i n).stamp = s.stamp := rfl
@[simp] theorem bump_ptroot (cl i n : Nat) : (bump s cl i n).ptroot = s.ptroot := rfl
@[simp] theorem bump_countbase (cl i n : Nat) : (bump s cl i n).countbase = s.countbase := rfl
@[simp] theorem bump_tlb (cl i n : Nat) : (bump s cl i n).tlb = s.tlb := rfl
@[simp] theorem bump_shared (cl i n : Nat) : (bump s cl i n).shared = s.shared := rfl
@[simp] theorem bump_retired (cl i n : Nat) : (bump s cl i n).retired = s.retired := rfl
@[simp] theorem bump_banks (cl i n : Nat) : (bump s cl i n).banks = s.banks := rfl
@[simp] theorem bump_slices (cl i n : Nat) : (bump s cl i n).slices = s.slices := rfl
@[simp] theorem bump_lostWays (cl i n : Nat) : (bump s cl i n).lostWays = s.lostWays := rfl
@[simp] theorem bump_spares (cl i n : Nat) : (bump s cl i n).spares = s.spares := rfl
@[simp] theorem bump_lrcfg (cl i n : Nat) : (bump s cl i n).lrcfg = s.lrcfg := rfl
@[simp] theorem bump_lrtail (cl i n : Nat) : (bump s cl i n).lrtail = s.lrtail := rfl
@[simp] theorem bump_lrhead (cl i n : Nat) : (bump s cl i n).lrhead = s.lrhead := rfl
@[simp] theorem bump_lrdropped (cl i n : Nat) : (bump s cl i n).lrdropped = s.lrdropped := rfl
@[simp] theorem bump_doors (cl i n : Nat) : (bump s cl i n).doors = s.doors := rfl
@[simp] theorem bump_csDone (cl i n : Nat) : (bump s cl i n).csDone = s.csDone := rfl
@[simp] theorem bump_gens (cl i n : Nat) : (bump s cl i n).gens = s.gens := rfl
@[simp] theorem bump_keys (cl i n : Nat) : (bump s cl i n).keys = s.keys := rfl
@[simp] theorem bump_messageKey (cl i n : Nat) : (bump s cl i n).messageKey = s.messageKey := rfl
@[simp] theorem bump_rosterSerial (cl i n : Nat) : (bump s cl i n).rosterSerial = s.rosterSerial := rfl
@[simp] theorem bump_roster (cl i n : Nat) : (bump s cl i n).roster = s.roster := rfl
@[simp] theorem bump_sessions (cl i n : Nat) : (bump s cl i n).sessions = s.sessions := rfl
@[simp] theorem bump_locks (cl i n : Nat) : (bump s cl i n).locks = s.locks := rfl
@[simp] theorem bump_ideKeys (cl i n : Nat) : (bump s cl i n).ideKeys = s.ideKeys := rfl
@[simp] theorem bump_exposed (cl i n : Nat) : (bump s cl i n).exposed = s.exposed := rfl
@[simp] theorem bump_fmKey (cl i n : Nat) : (bump s cl i n).fmKey = s.fmKey := rfl
@[simp] theorem bump_reports (cl i n : Nat) : (bump s cl i n).reports = s.reports := rfl
@[simp] theorem bump_ports (cl i n : Nat) : (bump s cl i n).ports = s.ports := rfl
@[simp] theorem bump_viral (cl i n : Nat) : (bump s cl i n).viral = s.viral := rfl
@[simp] theorem bump_hostHolds (cl i n : Nat) : (bump s cl i n).hostHolds = s.hostHolds := rfl
@[simp] theorem bump_hostLines (cl i n : Nat) : (bump s cl i n).hostLines = s.hostLines := rfl
@[simp] theorem bump_bisnp (cl i n : Nat) : (bump s cl i n).bisnp = s.bisnp := rfl
@[simp] theorem bump_answered (cl i n : Nat) : (bump s cl i n).answered = s.answered := rfl
@[simp] theorem bump_remoteSends (cl i n : Nat) : (bump s cl i n).remoteSends = s.remoteSends := rfl
@[simp] theorem bump_remoteAnswers (cl i n : Nat) : (bump s cl i n).remoteAnswers = s.remoteAnswers := rfl
@[simp] theorem bump_reductions (cl i n : Nat) : (bump s cl i n).reductions = s.reductions := rfl
@[simp] theorem bump_regions (cl i n : Nat) : (bump s cl i n).regions = s.regions := rfl
@[simp] theorem bump_lost (cl i n : Nat) : (bump s cl i n).lost = s.lost := rfl
@[simp] theorem bump_island (cl i n : Nat) : (bump s cl i n).island = s.island := rfl
@[simp] theorem bump_bisnpInv (cl i n : Nat) : (bump s cl i n).bisnpInv = s.bisnpInv := rfl
@[simp] theorem bump_queuePairs (cl i n : Nat) : (bump s cl i n).queuePairs = s.queuePairs := rfl
@[simp] theorem bump_completions (cl i n : Nat) : (bump s cl i n).completions = s.completions := rfl
@[simp] theorem bump_lostLines (cl i n : Nat) : (bump s cl i n).lostLines = s.lostLines := rfl
@[simp] theorem bump_lockErrors (cl i n : Nat) : (bump s cl i n).lockErrors = s.lockErrors := rfl
@[simp] theorem bump_fuses (cl i n : Nat) : (bump s cl i n).fuses = s.fuses := rfl
@[simp] theorem bump_filterLines (cl i n : Nat) : (bump s cl i n).filterLines = s.filterLines := rfl
@[simp] theorem bump_phase (cl i n : Nat) : (bump s cl i n).phase = s.phase := rfl
@[simp] theorem bump_bootErr (cl i n : Nat) : (bump s cl i n).bootErr = s.bootErr := rfl
@[simp] theorem bump_ready (cl i n : Nat) : (bump s cl i n).ready = s.ready := rfl
@[simp] theorem bump_repairs (cl i n : Nat) : (bump s cl i n).repairs = s.repairs := rfl
@[simp] theorem bump_unavailable (cl i n : Nat) : (bump s cl i n).unavailable = s.unavailable := rfl
@[simp] theorem bump_badBanks (cl i n : Nat) : (bump s cl i n).badBanks = s.badBanks := rfl
@[simp] theorem bump_repairstat (cl i n : Nat) : (bump s cl i n).repairstat = s.repairstat := rfl
@[simp] theorem bump_measured (cl i n : Nat) : (bump s cl i n).measured = s.measured := rfl
@[simp] theorem bump_snapctl (cl i n : Nat) : (bump s cl i n).snapctl = s.snapctl := rfl
@[simp] theorem bump_armed (cl i n : Nat) : (bump s cl i n).armed = s.armed := rfl
@[simp] theorem bump_snapSource (cl i n : Nat) : (bump s cl i n).snapSource = s.snapSource := rfl
@[simp] theorem bump_snapTime (cl i n : Nat) : (bump s cl i n).snapTime = s.snapTime := rfl
@[simp] theorem bump_latchAt (cl i n : Nat) : (bump s cl i n).latchAt = s.latchAt := rfl
@[simp] theorem bump_calm (cl i n : Nat) : (bump s cl i n).calm = s.calm := rfl
@[simp] theorem bump_pinned (cl i n : Nat) : (bump s cl i n).pinned = s.pinned := rfl
@[simp] theorem bump_requests (cl i n : Nat) : (bump s cl i n).requests = s.requests := rfl
@[simp] theorem bump_registered (cl i n : Nat) : (bump s cl i n).registered = s.registered := rfl
@[simp] theorem bump_remoteHolds (cl i n : Nat) : (bump s cl i n).remoteHolds = s.remoteHolds := rfl
@[simp] theorem bump_remoteOwns (cl i n : Nat) : (bump s cl i n).remoteOwns = s.remoteOwns := rfl
@[simp] theorem bump_turn (cl i n : Nat) : (bump s cl i n).turn = s.turn := rfl
@[simp] theorem bump_sched (cl i n : Nat) : (bump s cl i n).sched = s.sched := rfl
@[simp] theorem bump_inputs (cl i n : Nat) : (bump s cl i n).inputs = s.inputs := rfl
@[simp] theorem bump_eager (cl i n : Nat) : (bump s cl i n).eager = s.eager := rfl
@[simp] theorem bump_pace (cl i n : Nat) : (bump s cl i n).pace = s.pace := rfl
@[simp] theorem bump_fresh (cl i n : Nat) : (bump s cl i n).fresh = s.fresh := rfl
@[simp] theorem bump_cycle (cl i n : Nat) : (bump s cl i n).cycle = s.cycle := rfl
@[simp] theorem bump_order (cl i n : Nat) : (bump s cl i n).order = s.order := rfl

/-! ### Reading back -/

@[simp] theorem coreAt_setCore (c : Nat) (x : Core) : coreAt (setCore s c x) c = x := by simp [coreAt, setCore]

theorem coreAt_setCore_other (c d : Nat) (x : Core) (h : d ≠ c) : coreAt (setCore s c x) d = coreAt s d :=
  Tbl.get_set_other _ _ _ _ _ h

@[simp] theorem slotAt_setSlot (c l : Nat) (x : Slot) : slotAt (setSlot s c l x) c l = x := by
  simp [slotAt, setSlot, updCore]

theorem slotAt_setSlot_slot (c l m : Nat) (x : Slot) (h : m ≠ l) : slotAt (setSlot s c l x) c m = slotAt s c m := by
  simp [slotAt, setSlot, updCore, Tbl.get_set_other _ _ _ _ _ h]

theorem slotAt_setSlot_core (c d l m : Nat) (x : Slot) (h : d ≠ c) : slotAt (setSlot s c l x) d m = slotAt s d m := by
  simp [slotAt, setSlot, updCore, coreAt_setCore_other s c d _ h]

@[simp] theorem setCore_setCore (c : Nat) (x y : Core) : setCore (setCore s c x) c y = setCore s c y := by simp [setCore]

@[simp] theorem setSlot_setSlot (c l : Nat) (x y : Slot) : setSlot (setSlot s c l x) c l y = setSlot s c l y := by
  simp [setSlot, updCore]

@[simp] theorem clusterAt_setCluster (k : Nat) (x : Cluster) : clusterAt (setCluster s k x) k = x := by simp [clusterAt, setCluster]

theorem clusterAt_setCluster_other (k j : Nat) (x : Cluster) (h : j ≠ k) : clusterAt (setCluster s k x) j = clusterAt s j :=
  Tbl.get_set_other _ _ _ _ _ h

@[simp] theorem dieAt_setDie (d : Nat) (x : Die) : dieAt (setDie s d x) d = x := by simp [dieAt, setDie]

theorem dieAt_setDie_other (d e : Nat) (x : Die) (h : e ≠ d) : dieAt (setDie s d x) e = dieAt s e := Tbl.get_set_other _ _ _ _ _ h

@[simp] theorem ctxOf_setCtx (c : BitVec 12) (x : Context) : ctxOf (setCtx s c.toNat x) c = x := by simp [ctxOf, setCtx]

theorem ctxOf_setCtx_other (c : Nat) (d : BitVec 12) (x : Context) (h : d.toNat ≠ c) : ctxOf (setCtx s c x) d = ctxOf s d :=
  Tbl.get_set_other _ _ _ _ _ h

/-! ### The acting thread's slot -/

@[simp] theorem meCore_setMySlot (x : Slot) : meCore (setMySlot s x) = meCore s := rfl

@[simp] theorem meSlot_setMySlot (x : Slot) : meSlot (setMySlot s x) = meSlot s := rfl

@[simp] theorem mySlot_setMySlot (x : Slot) : mySlot (setMySlot s x) = x := slotAt_setSlot s (meCore s) (meSlot s) x

@[simp] theorem myRegs_setMySlot (x : Slot) : myRegs (setMySlot s x) = x.regs := by simp [myRegs]

@[simp] theorem setMySlot_setMySlot (x y : Slot) : setMySlot (setMySlot s x) y = setMySlot s y :=
  setSlot_setSlot s (meCore s) (meSlot s) x y

theorem myCore_setMySlot (x : Slot) :
    myCore (setMySlot s x) = { myCore s with slots := Tbl.set (myCore s).slots (meSlot s) x } := by
  simp [myCore, setMySlot, setSlot, updCore, meCore]

@[simp] theorem myCtx_setMySlot (x : Slot) : myCtx (setMySlot s x) = myCtx s := by simp [myCtx, myCore_setMySlot]

@[simp] theorem ctxOf_setMySlot (x : Slot) (c : BitVec 12) : ctxOf (setMySlot s x) c = ctxOf s c := rfl

@[simp] theorem clusterAt_setMySlot (x : Slot) (k : Nat) : clusterAt (setMySlot s x) k = clusterAt s k := rfl

@[simp] theorem dieAt_setMySlot (x : Slot) (d : Nat) : dieAt (setMySlot s x) d = dieAt s d := rfl

end Sys2Proof.Machine
end

