-- ==== Sys2Proof/Laws/Ops.lean ====
section
/-! SUPPORT. What each shared operation of a thread can do: retiring, immediate and deferred results, the end of a chunk. -/

namespace Sys2Proof.Machine

/-! ### Chunk boundaries -/

theorem settle_cases (x : Slot) :
    settle x = x ∨ (x.older = none ∧ x.cur.status = .ended ∧ settle x = { x with older := some x.cur, cur := Chunk.start x.regs }) := by
  unfold settle
  split
  · exact .inr ⟨‹_›, ‹_›, rfl⟩
  · exact .inl rfl

@[simp] theorem settle_regs (x : Slot) : (settle x).regs = x.regs := by
  rcases settle_cases x with h | ⟨_, _, h⟩ <;> rw [h]

/-- Ending a slot's chunk leaves it, ends it in its place, or ends it and starts the next. -/
theorem endSlotChunk_cases (x : Slot) :
    endSlotChunk x = x ∨ endSlotChunk x = { x with cur := endedChunk x.cur } ∨
      (x.older = none ∧ endSlotChunk x = { x with older := some (endedChunk x.cur), cur := Chunk.start x.regs }) := by
  unfold endSlotChunk
  split
  · rcases settle_cases { x with cur := { x.cur with status := .ended, hold := 0 } } with h | ⟨h1, _, h2⟩
    · exact .inr (.inl h)
    · exact .inr (.inr ⟨h1, h2⟩)
  · exact .inl rfl

@[simp] theorem endSlotChunk_regs (x : Slot) : (endSlotChunk x).regs = x.regs := by
  rcases endSlotChunk_cases x with h | h | ⟨_, h⟩ <;> rw [h]

@[simp] theorem endSlotChunk_parked (x : Slot) : (endSlotChunk x).parked = x.parked := by
  rcases endSlotChunk_cases x with h | h | ⟨_, h⟩ <;> rw [h]

theorem endSlotChunk_kept (x : Slot) : SlotKept x (endSlotChunk x) := by
  rcases endSlotChunk_cases x with h | h | ⟨_, h⟩ <;> rw [h] <;> simp [SlotKept]

theorem endSlotChunk_joined (x : Slot) : Joined x (endSlotChunk x) x.cur := by
  rcases endSlotChunk_cases x with h | h | ⟨h1, h⟩
  · exact .inl ⟨by rw [h], by rw [h]⟩
  · exact .inr (.inl ⟨by rw [h], by rw [h]⟩)
  · exact .inr (.inr ⟨h1, by rw [h], by rw [h]⟩)

theorem endChunk_me (s : State) : endChunk s (meCore s) (meSlot s) = setMySlot s (endSlotChunk (mySlot s)) := rfl

/-! ### Parks -/

theorem pendWrite_pending (r : Regs) (p : Pend) : (pendWrite r p).pending = r.pending := by
  cases p with
  | g d v => cases v <;> simp [pendWrite, regsSetG]; split <;> rfl
  | v d x => rfl
  | k d x => simp [pendWrite, regsSetK]; split <;> rfl

theorem foldl_pendWrite_pending (l : List Pend) (r : Regs) : (l.foldl pendWrite r).pending = r.pending := by
  induction l generalizing r with
  | nil => rfl
  | cons p l ih => rw [List.foldl_cons, ih, pendWrite_pending]

@[simp] theorem regsPark_pending (r : Regs) : (regsPark r).pending = [] := foldl_pendWrite_pending r.pending _

theorem pendWrite_pcc (r : Regs) (p : Pend) : (pendWrite r p).pcc = r.pcc := by
  cases p with
  | g d v => cases v <;> simp [pendWrite, regsSetG]; split <;> rfl
  | v d x => rfl
  | k d x => simp [pendWrite, regsSetK]; split <;> rfl

@[simp] theorem regsPark_pcc (r : Regs) : (regsPark r).pcc = r.pcc := by
  have h : ∀ (l : List Pend) (q : Regs), (l.foldl pendWrite q).pcc = q.pcc := by
    intro l
    induction l with
    | nil => intro q; rfl
    | cons p l ih => intro q; rw [List.foldl_cons, ih, pendWrite_pcc]
  exact h _ _

@[simp] theorem afterMarker_pcc (m : Bool) (r : Regs) : (afterMarker m r).pcc = r.pcc := by
  unfold afterMarker
  split <;> simp

/-- A slot that parks: written when every value is there, else waiting. -/
theorem parkSlot_eq (x : Slot) :
    parkSlot x = { x with regs := afterMarker true x.regs, parked := !x.regs.pending.all pendReady } := by
  unfold parkSlot afterMarker
  cases h : x.regs.pending.all pendReady <;> simp

theorem parkSlot_empty (x : Slot) (h : x.regs.pending = []) : parkSlot x = { x with parked := false } := by
  have hr : regsPark x.regs = x.regs := by
    unfold regsPark
    rw [h]
    simp only [List.foldl_nil]
    rw [← h]
  simp [parkSlot, h, hr]

/-! ### Retiring -/

theorem retireSlot_eq (x : Slot) (m : Bool) (r : Regs) (pcc : Cap) :
    retireSlot x m r pcc =
      { x with regs := afterMarker m { r with pcc := pcc }, cur := countInstr x.cur,
               parked := if m then !r.pending.all pendReady else x.parked } := by
  cases m with
  | false => rfl
  | true => exact parkSlot_eq { x with regs := { r with pcc := pcc }, cur := countInstr x.cur }

/-- The boundary after an instruction leaves the state, or ends the acting thread's chunk. -/
theorem afterInstr_cases (s : State) : afterInstr s = s ∨ afterInstr s = setMySlot s (endSlotChunk (mySlot s)) := by
  unfold afterInstr
  dsimp only
  split
  · exact .inr rfl
  · exact .inl rfl

/-- Retiring changes the acting thread's slot alone. -/
theorem retire_retires (u : State) (m : Bool) (r : Regs) (pcc : Cap) : Retires u (mySlot u) m r pcc (retire u m r pcc) := by
  have hx := retireSlot_eq (mySlot u) m r pcc
  unfold retire
  rw [hx]
  rcases afterInstr_cases (setMySlot u { mySlot u with
    regs := afterMarker m { r with pcc := pcc }, cur := countInstr (mySlot u).cur,
    parked := if m then !r.pending.all pendReady else (mySlot u).parked }) with h | h
  · rw [h]
    refine ⟨by simp, by simp, by simp, by simp [SlotKept], .inl (by simp)⟩
  · rw [h]
    simp only [setMySlot_setMySlot, mySlot_setMySlot]
    refine ⟨by simp, by simp, by simp, ?_, ?_⟩
    · rw [mySlot_setMySlot]
      exact endSlotChunk_kept _
    · rw [mySlot_setMySlot]
      have := endSlotChunk_joined { mySlot u with
        regs := afterMarker m { r with pcc := pcc }, cur := countInstr (mySlot u).cur,
        parked := if m then !r.pending.all pendReady else (mySlot u).parked }
      exact this

theorem immediate_writes (s : State) (m : Bool) (d : Reg) (c : Cap) : ∃ t, immediate s m d c = .next t ∧ Writes s m d c t :=
  ⟨_, rfl, retire_retires s m _ _⟩

theorem immediateX_writes (s : State) (m : Bool) (d : Reg) (v : W64) : ∃ t, immediateX s m d v = .next t ∧ WritesX s m d v t :=
  immediate_writes s m d (capInt v)

theorem plain_passes (s : State) (m : Bool) : ∃ t, plain s m = .next t ∧ Passes s m t := ⟨_, rfl, retire_retires s m _ _⟩

/-- Retiring from a state with the slot replaced is retiring from that slot. -/
theorem Retires.of_setMySlot {u : State} {x : Slot} {m : Bool} {r : Regs} {pcc : Cap} {t : State}
    (h : Retires (setMySlot u x) x m r pcc t) : Retires u x m r pcc t := by
  obtain ⟨h1, h2⟩ := h
  refine ⟨?_, h2⟩
  rw [setMySlot_setMySlot] at h1
  exact h1

theorem deferredWith_defers (s : State) (m : Bool) (f : Regs → Pend) (h : CanDefer s) :
    ∃ t, deferredWith s m f = .next t ∧ Defers s m (f (deferSlot s).regs) t := by
  unfold deferredWith
  have h' : (roomForDeferred (mySlot s)).parked = false := h
  dsimp only
  rw [h']
  refine ⟨_, rfl, ?_⟩
  have := retire_retires (setMySlot s (roomForDeferred (mySlot s))) m
    (regsDefer (roomForDeferred (mySlot s)).regs (f (roomForDeferred (mySlot s)).regs)) (nextPcc (roomForDeferred (mySlot s)).regs)
  rw [mySlot_setMySlot] at this
  exact this.of_setMySlot

theorem deferredX_defers (s : State) (m : Bool) (d : Reg) (f : Regs → W64) (h : CanDefer s) :
    ∃ t, deferredX s m d f = .next t ∧ DefersX s m d (f (deferSlot s).regs) t :=
  deferredWith_defers s m _ h

/-- A full list whose values are not all there: the thread waits in its park, and nothing else changes. -/
theorem deferredWith_waits (s : State) (m : Bool) (f : Regs → Pend) (h : (deferSlot s).parked = true) :
    deferredWith s m f = .next (waitPark s) := by
  have h' : (roomForDeferred (mySlot s)).parked = true := h
  simp [deferredWith, waitPark, h']

theorem readyDeferred_some (s : State) (h : CanDefer s) : readyDeferred s = some (setMySlot s (deferSlot s)) := by
  have h' : (roomForDeferred (mySlot s)).parked = false := h
  simp [readyDeferred, deferSlot, h']

end Sys2Proof.Machine
end

