-- ==== Sys2Proof/Laws/Regs.lean ====
section
/-! SUPPORT. The register files: what a write of one register leaves readable, and what a park writes. -/

namespace Sys2Proof.Machine

variable (r : Regs)

@[simp] theorem regsG_zero : regsG r 0#5 = Cap.null := rfl

@[simp] theorem regsK_zero : regsK r 0#3 = BitVec.allOnes 16 := rfl

@[simp] theorem regsSetG_zero (c : Cap) : regsSetG r 0#5 c = r := rfl

@[simp] theorem regsSetK_zero (x : Mask) : regsSetK r 0#3 x = r := rfl

theorem regsG_regsSetG (d n : Reg) (c : Cap) : regsG (regsSetG r d c) n = if n = d ∧ d ≠ 0 then c else regsG r n := by
  by_cases hd : d = 0
  · subst hd
    simp
  · have hs : (regsSetG r d c).g = Tbl.set r.g d.toNat c := by unfold regsSetG; rw [if_neg hd]
    unfold regsG
    rw [hs]
    by_cases e : n = d
    · subst e
      rw [if_neg hd, if_pos ⟨rfl, hd⟩]
      exact Tbl.get_set_same _ _ _ _
    · rw [if_neg (fun h : n = d ∧ d ≠ 0 => e h.1), Tbl.get_set_other _ _ _ _ _ (fun h => e (BitVec.eq_of_toNat_eq h))]

theorem regsK_regsSetK (d n : KReg) (x : Mask) : regsK (regsSetK r d x) n = if n = d ∧ d ≠ 0 then x else regsK r n := by
  by_cases hd : d = 0
  · subst hd
    simp
  · have hs : (regsSetK r d x).k = Tbl.set r.k d.toNat x := by unfold regsSetK; rw [if_neg hd]
    unfold regsK
    rw [hs]
    by_cases e : n = d
    · subst e
      rw [if_neg hd, if_pos ⟨rfl, hd⟩]
      exact Tbl.get_set_same _ _ _ _
    · rw [if_neg (fun h : n = d ∧ d ≠ 0 => e h.1), Tbl.get_set_other _ _ _ _ _ (fun h => e (BitVec.eq_of_toNat_eq h))]

theorem regsV_regsSetV (d n : Reg) (x : Vec) : regsV (regsSetV r d x) n = if n = d then x else regsV r n := by
  unfold regsV regsSetV
  by_cases e : n = d
  · subst e
    simp
  · rw [if_neg e, Tbl.get_set_other _ _ _ _ _ (fun h => e (BitVec.eq_of_toNat_eq h))]

/-! What a write of one file leaves of the others. -/

@[simp] theorem regsSetG_k (d : Reg) (c : Cap) : (regsSetG r d c).k = r.k := by unfold regsSetG; split <;> rfl
@[simp] theorem regsSetG_v (d : Reg) (c : Cap) : (regsSetG r d c).v = r.v := by unfold regsSetG; split <;> rfl
@[simp] theorem regsSetG_pcc (d : Reg) (c : Cap) : (regsSetG r d c).pcc = r.pcc := by unfold regsSetG; split <;> rfl
@[simp] theorem regsSetG_pending (d : Reg) (c : Cap) : (regsSetG r d c).pending = r.pending := by unfold regsSetG; split <;> rfl
@[simp] theorem regsSetK_g (d : KReg) (x : Mask) : (regsSetK r d x).g = r.g := by unfold regsSetK; split <;> rfl
@[simp] theorem regsSetK_v (d : KReg) (x : Mask) : (regsSetK r d x).v = r.v := by unfold regsSetK; split <;> rfl
@[simp] theorem regsSetK_pcc (d : KReg) (x : Mask) : (regsSetK r d x).pcc = r.pcc := by unfold regsSetK; split <;> rfl
@[simp] theorem regsSetK_pending (d : KReg) (x : Mask) : (regsSetK r d x).pending = r.pending := by unfold regsSetK; split <;> rfl
@[simp] theorem regsSetV_g (d : Reg) (x : Vec) : (regsSetV r d x).g = r.g := rfl
@[simp] theorem regsSetV_k (d : Reg) (x : Vec) : (regsSetV r d x).k = r.k := rfl
@[simp] theorem regsSetV_pcc (d : Reg) (x : Vec) : (regsSetV r d x).pcc = r.pcc := rfl

theorem regsK_congr {r q : Regs} (h : q.k = r.k) (n : KReg) : regsK q n = regsK r n := by simp [regsK, h]
theorem regsG_congr {r q : Regs} (h : q.g = r.g) (n : Reg) : regsG q n = regsG r n := by simp [regsG, h]
theorem regsV_congr {r q : Regs} (h : q.v = r.v) (n : Reg) : regsV q n = regsV r n := by simp [regsV, h]

/-- A pending entry of another register leaves a g register. -/
theorem regsG_pendWrite (n : Reg) (p : Pend) (h : pendIsG n p = false) : regsG (pendWrite r p) n = regsG r n := by
  cases p with
  | g d v =>
    have hd : n ≠ d := by
      rintro rfl
      simp [pendIsG] at h
    cases v with
    | none => rfl
    | some c => simp [pendWrite, regsG_regsSetG, hd]
  | v d x => exact regsG_congr (by simp [pendWrite]) n
  | k d x => exact regsG_congr (by simp [pendWrite]) n

theorem regsV_pendWrite (n : Reg) (p : Pend) (h : pendIsV n p = false) : regsV (pendWrite r p) n = regsV r n := by
  cases p with
  | g d v => cases v <;> exact regsV_congr (by simp [pendWrite]) n
  | v d x =>
    have hd : n ≠ d := by
      rintro rfl
      simp [pendIsV] at h
    simp [pendWrite, regsV_regsSetV, hd]
  | k d x => exact regsV_congr (by simp [pendWrite]) n

theorem regsK_pendWrite (n : KReg) (p : Pend) (h : pendIsK n p = false) : regsK (pendWrite r p) n = regsK r n := by
  cases p with
  | g d v => cases v <;> exact regsK_congr (by simp [pendWrite]) n
  | v d x => exact regsK_congr (by simp [pendWrite]) n
  | k d x =>
    have hd : n ≠ d := by
      rintro rfl
      simp [pendIsK] at h
    simp [pendWrite, regsK_regsSetK, hd]

/-- Entries of other registers leave a g register. -/
theorem regsG_foldl_pendWrite (n : Reg) (l : List Pend) (h : ∀ p ∈ l, pendIsG n p = false) :
    regsG (l.foldl pendWrite r) n = regsG r n := by
  induction l generalizing r with
  | nil => rfl
  | cons p l ih =>
    rw [List.foldl_cons, ih _ (fun q hq => h q (List.mem_cons_of_mem _ hq)), regsG_pendWrite r n p (h p List.mem_cons_self)]

theorem regsV_foldl_pendWrite (n : Reg) (l : List Pend) (h : ∀ p ∈ l, pendIsV n p = false) :
    regsV (l.foldl pendWrite r) n = regsV r n := by
  induction l generalizing r with
  | nil => rfl
  | cons p l ih =>
    rw [List.foldl_cons, ih _ (fun q hq => h q (List.mem_cons_of_mem _ hq)), regsV_pendWrite r n p (h p List.mem_cons_self)]

theorem regsK_foldl_pendWrite (n : KReg) (l : List Pend) (h : ∀ p ∈ l, pendIsK n p = false) :
    regsK (l.foldl pendWrite r) n = regsK r n := by
  induction l generalizing r with
  | nil => rfl
  | cons p l ih =>
    rw [List.foldl_cons, ih _ (fun q hq => h q (List.mem_cons_of_mem _ hq)), regsK_pendWrite r n p (h p List.mem_cons_self)]

/-- The park of a list splits at any of its entries. -/
theorem regsPark_append (l q : List Pend) (h : r.pending = l ++ q) :
    regsPark r = q.foldl pendWrite (l.foldl pendWrite { r with pending := [] }) := by
  rw [regsPark, h, List.foldl_append]

end Sys2Proof.Machine
end

