-- ==== Sys2Proof/Laws/Frame.lean ====
section
/-! SUPPORT. A change of the acting thread's slot that keeps its chunks' stores changes nothing that the thread reads: the walk of the
page table, translation, the line as the thread sees it, one byte. -/

namespace Sys2Proof.Machine

/-- What the thread's stores and its discards put over a line: those of the two chunks of a slot agree with another slot's. -/
def SameStores (x y : Slot) : Prop :=
  (y.older = x.older ∧ y.cur.ws = x.cur.ws ∧ y.cur.nws = x.cur.nws ∧ y.cur.ncDiscards = x.cur.ncDiscards) ∨
    (x.older = none ∧ ∃ o, y.older = some o ∧ o.ws = x.cur.ws ∧ o.nws = x.cur.nws ∧ o.ncDiscards = x.cur.ncDiscards ∧
      y.cur.ws = [] ∧ y.cur.nws = [] ∧ y.cur.ncDiscards = [])

theorem Joined.sameStores {x y : Slot} (h : Joined x y (countInstr x.cur)) : SameStores x y := by
  rcases h with ⟨h1, h2⟩ | ⟨h1, h2⟩ | ⟨h0, h1, h2⟩
  · exact .inl ⟨h1, by rw [h2]; rfl, by rw [h2]; rfl, by rw [h2]; rfl⟩
  · exact .inl ⟨h1, by rw [h2]; rfl, by rw [h2]; rfl, by rw [h2]; rfl⟩
  · exact .inr ⟨h0, _, h1, rfl, rfl, rfl, by rw [h2]; rfl, by rw [h2]; rfl, by rw [h2]; rfl⟩

variable (s : State) (x : Slot)

/-- A search of the cores that looks only at their data L1s. -/
theorem findSome_cores {β : Type} (f : Nat × List L1Line → Option β) (h : Tbl.wf s.cores = true) (hn : ∀ c, f (c, []) = none) :
    (setMySlot s x).cores.findSome? (fun c => f (c.1, c.2.l1)) = s.cores.findSome? (fun c => f (c.1, c.2.l1)) := by
  refine Tbl.findSome_set (fun c => f (c.1, c.2.l1)) s.cores (meCore s) _ h ?_ ?_
  · intro y hy
    simp [coreAt, Tbl.get, hy]
  · intro hy
    have : (coreAt s (meCore s)).l1 = [] := by simp [coreAt, Tbl.get, hy, Core.reset]
    simp [this, hn]

theorem dirtyAt_setMySlot (h : Tbl.wf s.cores = true) (loc : Nat) : dirtyAt (setMySlot s x) loc = dirtyAt s loc :=
  findSome_cores s x (fun c => c.2.find? fun (l : L1Line) => l.loc == loc && l.dirty && !l.nonCoherent) h (fun _ => rfl)

theorem dirtyLine_setMySlot (h : Tbl.wf s.cores = true) (line : Nat) : dirtyLine (setMySlot s x) line = dirtyLine s line :=
  findSome_cores s x (fun c => (c.2.find? fun (l : L1Line) => l.line == line && l.dirty && !l.nonCoherent).map fun l => (c.1, l)) h (fun _ => rfl)

theorem physPiece_setMySlot (h : Tbl.wf s.cores = true) (p : Nat) : physPiece (setMySlot s x) p = physPiece s p := by
  unfold physPiece
  rw [dirtyAt_setMySlot s x h]
  rfl

theorem physBytes_setMySlot (h : Tbl.wf s.cores = true) (k n : Nat) : physBytes (setMySlot s x) k n = physBytes s k n := by
  unfold physBytes
  rw [dirtyAt_setMySlot s x h, physPiece_setMySlot s x h]
  rfl

theorem readEntry_setMySlot (h : Tbl.wf s.cores = true) (k : Nat) : readEntry (setMySlot s x) k = readEntry s k := by
  unfold readEntry
  rw [physBytes_setMySlot s x h]
  rfl

theorem walk_setMySlot (h : Tbl.wf s.cores = true) (ia : Nat) : walk (setMySlot s x) ia = walk s ia := by
  unfold walk
  simp only [readEntry_setMySlot s x h, setMySlot_ptroot]

theorem l1_setMySlot (c : Nat) : (coreAt (setMySlot s x) c).l1 = (coreAt s c).l1 := by
  by_cases hc : c = meCore s
  · subst hc
    simp [setMySlot, setSlot, updCore]
  · rw [setMySlot, setSlot, updCore, coreAt_setCore_other _ _ _ _ hc]

theorem lineCached_setMySlot (ctx : BitVec 12) (c : Origin) (ia : Nat) : lineCached (setMySlot s x) ctx c ia = lineCached s ctx c ia := by
  unfold lineCached
  simp only [ctxOf_setMySlot]
  cases c with
  | outside => rfl
  | cluster _ => rfl
  | core c =>
    have := l1_setMySlot s x c
    simp only [coreAt] at this
    simp only [this]
    rfl

theorem gasketSlots_setMySlot (cl : Nat) : gasketSlots (setMySlot s x) cl = gasketSlots s cl := by
  have ho : ∀ c, (Tbl.get Core.reset (setMySlot s x).cores c).owner = (Tbl.get Core.reset s.cores c).owner := by
    intro c
    show (coreAt (setMySlot s x) c).owner = (coreAt s c).owner
    by_cases hc : c = meCore s
    · subst hc
      simp [setMySlot, setSlot, updCore]
    · rw [setMySlot, setSlot, updCore, coreAt_setCore_other _ _ _ _ hc]
  unfold gasketSlots
  simp only [ho]
  rfl

theorem keyOk_setMySlot (ctx : BitVec 12) (o : Origin) (k : Byte) : keyOk (setMySlot s x) ctx o k = keyOk s ctx o k := by
  unfold keyOk
  simp only [gasketSlots_setMySlot]
  rfl

theorem leafCheck_setMySlot (ctx : BitVec 12) (o : Origin) (ia : Nat) (l : BitVec 128) (e : Nat) (g : Bool) :
    leafCheck (setMySlot s x) ctx o ia l e g = leafCheck s ctx o ia l e g := by
  unfold leafCheck
  simp only [keyOk_setMySlot]
  rfl

theorem transIa_setMySlot (h : Tbl.wf s.cores = true) (ctx : BitVec 12) (c : Origin) (ia : Nat) :
    transIa (setMySlot s x) ctx c ia = transIa s ctx c ia := by
  unfold transIa
  simp only [lineCached_setMySlot, walk_setMySlot s x h, leafCheck_setMySlot]
  rfl

theorem transVa_setMySlot (h : Tbl.wf s.cores = true) (ctx : BitVec 12) (c : Origin) (va : Nat) :
    transVa (setMySlot s x) ctx c va = transVa s ctx c va := by
  unfold transVa
  simp only [transIa_setMySlot s x h, ctxOf_setMySlot]

theorem cohLine_setMySlot (h : Tbl.wf s.cores = true) (key : Byte) (ia loc : Nat) :
    cohLine (setMySlot s x) key ia loc = cohLine s key ia loc := by
  unfold cohLine
  rw [dirtyLine_setMySlot s x h]
  rfl

theorem homeLine_setMySlot (key : Byte) (ia loc : Nat) : homeLine (setMySlot s x) key ia loc = homeLine s key ia loc := rfl

theorem l1Find_setMySlot (line : Nat) (nc : Bool) : l1Find (myCore (setMySlot s x)) line nc = l1Find (myCore s) line nc := by
  rw [myCore_setMySlot]
  rfl

theorem ownLine_setMySlot (p : Place) : ownLine (setMySlot s x) p = ownLine s p := by
  unfold ownLine
  rw [l1Find_setMySlot]
  rfl

/-- Chunks with the same stores. -/
theorem chunkOver_congr {k j : Chunk} (h1 : j.ws = k.ws) (h2 : j.nws = k.nws) (h3 : j.ncDiscards = k.ncDiscards) (nc : Bool) (line : Nat)
    (home v : LineVal) : chunkOver j nc line home v = chunkOver k nc line home v := by
  unfold chunkOver storesOver
  rw [h1, h2, h3]

/-- A chunk without stores. -/
theorem chunkOver_empty {k : Chunk} (h1 : k.ws = []) (h2 : k.nws = []) (h3 : k.ncDiscards = []) (nc : Bool) (line : Nat)
    (home v : LineVal) : chunkOver k nc line home v = v := by
  unfold chunkOver storesOver
  rw [h1, h2, h3]
  cases nc <;> simp

/-- The line under the two chunks of a slot depends on their stores alone. -/
theorem slotOver_congr {x y : Slot} (hs : SameStores x y) (nc : Bool) (line : Nat) (home v : LineVal) :
    chunkOver y.cur nc line home (match y.older with | some o => chunkOver o nc line home v | none => v) =
      chunkOver x.cur nc line home (match x.older with | some o => chunkOver o nc line home v | none => v) := by
  rcases hs with ⟨h1, h2, h3, h4⟩ | ⟨h0, o, h1, h2, h3, h4, h5, h6, h7⟩
  · rw [h1]
    exact chunkOver_congr h2 h3 h4 _ _ _ _
  · rw [h0, h1, chunkOver_empty h5 h6 h7]
    exact chunkOver_congr h2 h3 h4 _ _ _ _

/-- A line as it stands for the thread, when its slot changes without a change of its stores. -/
theorem heldLine_setMySlot (h : Tbl.wf s.cores = true) (hs : SameStores (mySlot s) x) (p : Place) (nc : Bool) :
    heldLine (setMySlot s x) p nc = heldLine s p nc := by
  unfold heldLine foundLine
  simp only [mySlot_setMySlot, cohLine_setMySlot s x h, homeLine_setMySlot, ownLine_setMySlot]
  exact slotOver_congr hs _ _ _ _

/-- A byte as it stands for the thread, when its slot changes without a change of its stores. -/
theorem heldByte_setMySlot (h : Tbl.wf s.cores = true) (hs : SameStores (mySlot s) x) (va : Nat) :
    heldByte (setMySlot s x) va = heldByte s va := by
  unfold heldByte
  simp only [myCtx_setMySlot, meCore_setMySlot, transVa_setMySlot s x h, ctxOf_setMySlot, heldLine_setMySlot s x h hs]

/-- What an instruction that only retires leaves of memory as it stands for its thread. -/
theorem Retires.heldByte {u : State} {m : Bool} {r : Regs} {pcc : Cap} {t : State} (h : Retires u (mySlot u) m r pcc t) (hi : u.Inv)
    (va : Nat) : heldByte t va = Machine.heldByte u va := by
  obtain ⟨h1, _, _, _, hj⟩ := h
  rw [h1]
  exact heldByte_setMySlot u (mySlot t) hi.cores hj.sameStores va

end Sys2Proof.Machine
end

