-- ==== Sys2Proof/Laws/Access.lean ====
section
/-! SUPPORT. An access that hits the acting core's data L1: what its walk, its recency, its signatures and its store leave of what
the thread reads. -/

namespace Sys2Proof.Machine

/-- What one reads of a state by address, slots apart, is what one reads of another. -/
structure SameReads (s t : State) : Prop where
  trans : ∀ ctx c va, transVa t ctx c va = transVa s ctx c va
  ctx : ∀ c, ctxOf t c = ctxOf s c
  coh : ∀ key ia loc, cohLine t key ia loc = cohLine s key ia loc
  home : ∀ key ia loc, homeLine t key ia loc = homeLine s key ia loc
  me : meCore t = meCore s ∧ meSlot t = meSlot s ∧ myCtx t = myCtx s
  own : ∀ line nc, (l1Find (myCore t) line nc).map (fun l => (l.data, l.tags)) = (l1Find (myCore s) line nc).map fun l => (l.data, l.tags)

theorem SameReads.refl (s : State) : SameReads s s := ⟨fun _ _ _ => rfl, fun _ => rfl, fun _ _ _ => rfl, fun _ _ _ => rfl, ⟨rfl, rfl, rfl⟩, fun _ _ => rfl⟩

theorem SameReads.then {s t u : State} (h : SameReads s t) (k : SameReads t u) : SameReads s u :=
  ⟨fun a b c => (k.trans a b c).trans (h.trans a b c), fun a => (k.ctx a).trans (h.ctx a), fun a b c => (k.coh a b c).trans (h.coh a b c),
    fun a b c => (k.home a b c).trans (h.home a b c), ⟨k.me.1.trans h.me.1, k.me.2.1.trans h.me.2.1, k.me.2.2.trans h.me.2.2⟩,
    fun a b => (k.own a b).trans (h.own a b)⟩

/-- A line as it stands for the thread in a state that reads the same, with the same stores of its chunks. -/
theorem SameReads.heldLine {s t : State} (h : SameReads s t) (hs : SameStores (mySlot s) (mySlot t)) (p : Place) (nc : Bool) :
    Machine.heldLine t p nc = Machine.heldLine s p nc := by
  have own : ownLine t p = ownLine s p := by
    have ho := h.own (p.ia / 128) true
    unfold ownLine
    cases ht : l1Find (myCore t) (p.ia / 128) true <;> cases hu : l1Find (myCore s) (p.ia / 128) true <;>
      simp_all [h.home]
  unfold Machine.heldLine foundLine
  simp only [h.coh, h.home, own]
  exact slotOver_congr hs _ _ _ _

theorem SameReads.heldByte {s t : State} (h : SameReads s t) (hs : SameStores (mySlot s) (mySlot t)) (va : Nat) :
    Machine.heldByte t va = Machine.heldByte s va := by
  unfold Machine.heldByte
  simp only [h.me.1, h.me.2.2, h.trans, h.ctx, h.heldLine hs]

theorem SameStores.refl (x : Slot) : SameStores x x := .inl ⟨rfl, rfl, rfl, rfl⟩

/-! ### The steps of a hit -/

theorem sameReads_setMySlot (s : State) (x : Slot) (h : Tbl.wf s.cores = true) : SameReads s (setMySlot s x) :=
  ⟨fun a b c => transVa_setMySlot s x h a b c, fun _ => rfl, fun a b c => cohLine_setMySlot s x h a b c, fun _ _ _ => rfl,
    ⟨rfl, rfl, myCtx_setMySlot s x⟩, fun a b => by rw [l1Find_setMySlot]⟩

theorem sameReads_registered (s : State) (l : List Registered) : SameReads s { s with registered := l } :=
  ⟨fun _ _ _ => rfl, fun _ => rfl, fun _ _ _ => rfl, fun _ _ _ => rfl, ⟨rfl, rfl, rfl⟩, fun _ _ => rfl⟩

theorem sameReads_tick (s : State) : SameReads s (tick s) :=
  ⟨fun _ _ _ => rfl, fun _ => rfl, fun _ _ _ => rfl, fun _ _ _ => rfl, ⟨rfl, rfl, rfl⟩, fun _ _ => rfl⟩

/-- The registers of an L1 line that reading it gives. -/
def lineCore (l : L1Line) : Nat × Byte × BitVec 1024 × BitVec 8 := (l.line, l.key, l.data, l.tags)

theorem find_map_used (l : List L1Line) (p q : L1Line → Bool) (now : Nat) (hp : ∀ x n, p { x with used := n } = p x) :
    ((l.map fun x => if q x then { x with used := now } else x).find? p).map lineCore = (l.find? p).map lineCore := by
  induction l with
  | nil => rfl
  | cons x r ih =>
    have hx : p (if q x then { x with used := now } else x) = p x := by split <;> simp [hp]
    have hc : lineCore (if q x then { x with used := now } else x) = lineCore x := by split <;> rfl
    rw [List.map_cons, List.find?_cons, List.find?_cons, hx]
    cases p x
    · exact ih
    · simp [hc]

theorem any_map_used (l : List L1Line) (p q : L1Line → Bool) (now : Nat) (hp : ∀ x n, p { x with used := n } = p x) :
    (l.map fun x => if q x then { x with used := now } else x).any p = l.any p := by
  induction l with
  | nil => rfl
  | cons x r ih =>
    have hx : p (if q x then { x with used := now } else x) = p x := by split <;> simp [hp]
    rw [List.map_cons, List.any_cons, List.any_cons, hx, ih]

/-- A core whose L1 lines read the same. -/
def SameL1 (k j : Core) : Prop :=
  (∀ p : L1Line → Bool, (∀ x n, p { x with used := n } = p x) → (j.l1.find? p).map lineCore = (k.l1.find? p).map lineCore) ∧
    (∀ p : L1Line → Bool, (∀ x n, p { x with used := n } = p x) → j.l1.any p = k.l1.any p)

theorem sameL1_l1Use (k : Core) (line : Nat) (nc : Bool) (now : Nat) : SameL1 k (l1Use k line nc now) :=
  ⟨fun p hp => find_map_used k.l1 p _ now hp, fun p hp => any_map_used k.l1 p _ now hp⟩

/-- A search of the cores for a line of an L1, by what the line holds. -/
theorem findSome_line {β : Type} (t : Tbl Core) (c : Nat) (j : Core) (p : L1Line → Bool) (g : Nat → Nat × Byte × BitVec 1024 × BitVec 8 → β)
    (hw : Tbl.wf t = true) (hp : ∀ x n, p { x with used := n } = p x) (hj : SameL1 (Tbl.get Core.reset t c) j) :
    (Tbl.set t c j).findSome? (fun k => ((k.2.l1.find? p).map lineCore).map (g k.1)) =
      t.findSome? fun k => ((k.2.l1.find? p).map lineCore).map (g k.1) := by
  refine Tbl.findSome_set _ t c j hw ?_ ?_
  · intro y hy
    have : Tbl.get Core.reset t c = y := by simp [Tbl.get, hy]
    rw [this] at hj
    simp only [hj.1 p hp]
  · intro hy
    have : Tbl.get Core.reset t c = Core.reset := by simp [Tbl.get, hy]
    rw [this] at hj
    simp only [hj.1 p hp]
    rfl

theorem map_findSome {α β γ : Type} (f : α → Option β) (g : β → γ) (l : List α) :
    (l.findSome? f).map g = l.findSome? fun x => (f x).map g := by
  induction l with
  | nil => rfl
  | cons x r ih =>
    rw [List.findSome?_cons, List.findSome?_cons]
    cases f x
    · exact ih
    · rfl

variable (s : State) (j : Core)

theorem dirtyAt_setCore (hw : Tbl.wf s.cores = true) (c : Nat) (hj : SameL1 (coreAt s c) j) (loc : Nat) :
    (dirtyAt (setCore s c j) loc).map lineCore = (dirtyAt s loc).map lineCore := by
  unfold dirtyAt
  rw [map_findSome, map_findSome]
  have := findSome_line (β := Nat × Byte × BitVec 1024 × BitVec 8) s.cores c j (fun l => l.loc == loc && l.dirty && !l.nonCoherent)
    (fun _ x => x) hw (fun _ _ => rfl) hj
  simpa [setCore, Option.map_map, Function.comp_def] using this

theorem dirtyLine_setCore (hw : Tbl.wf s.cores = true) (c : Nat) (hj : SameL1 (coreAt s c) j) (line : Nat) :
    (dirtyLine (setCore s c j) line).map (fun x => lineCore x.2) = (dirtyLine s line).map fun x => lineCore x.2 := by
  unfold dirtyLine
  rw [map_findSome, map_findSome]
  have := findSome_line (β := Nat × Byte × BitVec 1024 × BitVec 8) s.cores c j (fun l => l.line == line && l.dirty && !l.nonCoherent)
    (fun _ x => x) hw (fun _ _ => rfl) hj
  simpa [setCore, Option.map_map, Function.comp_def] using this

theorem physPiece_setCore (hw : Tbl.wf s.cores = true) (c : Nat) (hj : SameL1 (coreAt s c) j) (p : Nat) :
    physPiece (setCore s c j) p = physPiece s p := by
  have h := dirtyAt_setCore s j hw c hj (p / 2 * 128)
  unfold physPiece
  cases ht : dirtyAt (setCore s c j) (p / 2 * 128) <;> cases hu : dirtyAt s (p / 2 * 128) <;>
    simp_all [lineCore] <;> rfl

theorem physBytes_setCore (hw : Tbl.wf s.cores = true) (c : Nat) (hj : SameL1 (coreAt s c) j) (k n : Nat) :
    physBytes (setCore s c j) k n = physBytes s k n := by
  have h := dirtyAt_setCore s j hw c hj (k / 128 * 128)
  have hg : granuleAt (setCore s c j) (k / 64) = granuleAt s (k / 64) := rfl
  unfold physBytes
  rw [physPiece_setCore s j hw c hj, hg]
  cases ht : dirtyAt (setCore s c j) (k / 128 * 128) <;> cases hu : dirtyAt s (k / 128 * 128) <;>
    simp_all [lineCore] <;> rfl

theorem readEntry_setCore (hw : Tbl.wf s.cores = true) (c : Nat) (hj : SameL1 (coreAt s c) j) (k : Nat) :
    readEntry (setCore s c j) k = readEntry s k := by
  unfold readEntry
  rw [physBytes_setCore s j hw c hj]
  rfl

theorem walk_setCore (hw : Tbl.wf s.cores = true) (c : Nat) (hj : SameL1 (coreAt s c) j) (ia : Nat) :
    walk (setCore s c j) ia = walk s ia := by
  unfold walk
  simp only [readEntry_setCore s j hw c hj, setCore_ptroot]

theorem lineCached_setCore (c : Nat) (hj : SameL1 (coreAt s c) j) (ctx : BitVec 12) (d : Origin) (ia : Nat) :
    lineCached (setCore s c j) ctx d ia = lineCached s ctx d ia := by
  have hc : ctxOf (setCore s c j) ctx = ctxOf s ctx := rfl
  cases d with
  | outside => rfl
  | cluster _ => rfl
  | core d =>
    have : ∀ nc : Bool, (coreAt (setCore s c j) d).l1.any (fun l => l.line == ia / 128 && l.nonCoherent == nc) =
        (coreAt s d).l1.any fun l => l.line == ia / 128 && l.nonCoherent == nc := by
      intro nc
      by_cases hd : d = c
      · subst hd
        rw [coreAt_setCore]
        exact hj.2 _ (fun _ _ => rfl)
      · rw [coreAt_setCore_other s c d j hd]
    simp only [coreAt] at this
    simp only [lineCached, hc, this]
    rfl

theorem gasketSlots_setCore (c : Nat) (ho : j.owner = (coreAt s c).owner) (cl : Nat) : gasketSlots (setCore s c j) cl = gasketSlots s cl := by
  have hk : ∀ d, (Tbl.get Core.reset (setCore s c j).cores d).owner = (Tbl.get Core.reset s.cores d).owner := by
    intro d
    show (coreAt (setCore s c j) d).owner = (coreAt s d).owner
    by_cases hd : d = c
    · subst hd
      rw [coreAt_setCore, ho]
    · rw [coreAt_setCore_other s c d j hd]
  unfold gasketSlots
  simp only [hk]
  rfl

theorem leafCheck_setCore (c : Nat) (ho : j.owner = (coreAt s c).owner) (ctx : BitVec 12) (o : Origin) (ia : Nat) (l : BitVec 128) (e : Nat)
    (g : Bool) : leafCheck (setCore s c j) ctx o ia l e g = leafCheck s ctx o ia l e g := by
  unfold leafCheck keyOk
  simp only [gasketSlots_setCore s j c ho]
  rfl

theorem transVa_setCore (hw : Tbl.wf s.cores = true) (c : Nat) (hj : SameL1 (coreAt s c) j) (ho : j.owner = (coreAt s c).owner)
    (ctx : BitVec 12) (d : Origin) (va : Nat) :
    transVa (setCore s c j) ctx d va = transVa s ctx d va := by
  have hc : ctxOf (setCore s c j) ctx = ctxOf s ctx := rfl
  have hi : ∀ ia, transIa (setCore s c j) ctx d ia = transIa s ctx d ia := by
    intro ia
    unfold transIa
    simp only [lineCached_setCore s j c hj, walk_setCore s j hw c hj, leafCheck_setCore s j c ho]
    rfl
  unfold transVa
  simp only [hc, hi]

theorem cohLine_setCore (hw : Tbl.wf s.cores = true) (c : Nat) (hj : SameL1 (coreAt s c) j) (key : Byte) (ia loc : Nat) :
    cohLine (setCore s c j) key ia loc = cohLine s key ia loc := by
  have h := dirtyLine_setCore s j hw c hj (ia / 128)
  have hb : lineBelow (setCore s c j) key ia loc = lineBelow s key ia loc := rfl
  unfold cohLine
  rw [hb]
  cases ht : dirtyLine (setCore s c j) (ia / 128) <;> cases hu : dirtyLine s (ia / 128) <;> simp_all [lineCore]

/-- The acting core's L1 as a hit leaves it reads the same. -/
theorem sameReads_setMyCore (hw : Tbl.wf s.cores = true) (hj : SameL1 (myCore s) j) (ho : j.owner = (myCore s).owner) :
    SameReads s (setCore s (meCore s) j) := by
  have hc : myCore (setCore s (meCore s) j) = j := coreAt_setCore s (meCore s) j
  refine ⟨transVa_setCore s j hw _ hj ho, fun _ => rfl, cohLine_setCore s j hw _ hj, fun _ _ _ => rfl, ⟨rfl, rfl, ?_⟩, ?_⟩
  · simp [myCtx, hc, ho]
  · intro line nc
    have h := hj.1 (fun l => l.line == line && l.nonCoherent == nc) (fun _ _ => rfl)
    have := congrArg (Option.map fun x : Nat × Byte × BitVec 1024 × BitVec 8 => (x.2.2.1, x.2.2.2)) h
    rw [hc]
    simpa [l1Find, lineCore, Option.map_map, Function.comp_def] using this

/-! ### The cached translation of a walk -/

theorem walk_page (s : State) (ia ib : Nat) (h : ia / 2 ^ 16 = ib / 2 ^ 16) : walk s ia = walk s ib := by
  have h34 : ia / 2 ^ 34 = ib / 2 ^ 34 := by omega
  have h25 : ia / 2 ^ 25 = ib / 2 ^ 25 := by omega
  unfold walk
  rw [h34, h25, h]

theorem leafCheck_leaf {s : State} {ctx : BitVec 12} {o : Origin} {ia : Nat} {l : BitVec 128} {e : Nat} {g : Bool} {p : Place}
    (h : leafCheck s ctx o ia l e g = .ok p) : p.leaf = l ∧ p.entry = e ∧ p.large = g ∧ p.ia = ia := by
  unfold leafCheck at h
  split at h
  · cases h
  · split at h
    · cases h
    · split at h
      · cases h
      · split at h
        · cases h
        · cases h
          exact ⟨rfl, rfl, rfl, rfl⟩

theorem relocated_tlbFill (s : State) (p : Place) (hd : Tbl.wf s.dies = true) (ia loc : Nat) :
    relocated (tlbFill s p) ia loc = relocated s ia loc := by
  unfold tlbFill
  split
  · rfl
  · unfold relocated
    congr 1
    refine Tbl.findSome_set (fun d : Nat × Die => match d.2.page with
      | some c => if c.op == 1 && c.page ≤ ia && ia < c.page + c.granules * 2048 && (ia - c.page) / 2048 < c.next
          then some (c.new + (ia - c.page)) else none
      | none => none) s.dies _ _ hd ?_ ?_
    · intro y hy
      rw [Tbl.get, hy]
      rfl
    · intro hy
      rw [Tbl.get, hy]
      rfl

/-- Keeping the translation of a completed walk changes no translation. -/
theorem transIa_tlbFill (s : State) (p : Place) (hd : Tbl.wf s.dies = true) {ctx0 : BitVec 12} {c0 : Origin}
    (hp : transIa s ctx0 c0 p.ia = .ok p) (ctx : BitVec 12) (c : Origin) (ia : Nat) :
    transIa (tlbFill s p) ctx c ia = transIa s ctx c ia := by
  have hl : ∀ l e g, leafCheck (tlbFill s p) ctx c ia l e g = leafCheck s ctx c ia l e g := by
    intro l e g
    unfold leafCheck
    have hk : (tlbFill s p).keys = s.keys := by
      unfold tlbFill
      split <;> rfl
    have hs : (tlbFill s p).cores = s.cores := by
      unfold tlbFill
      split <;> rfl
    have hk' : ∀ k, keyOk (tlbFill s p) ctx c k = keyOk s ctx c k := by
      intro k
      unfold keyOk gasketSlots
      rw [hk, hs]
    simp only [relocated_tlbFill s p hd, hk']
  have hc : lineCached (tlbFill s p) ctx c ia = lineCached s ctx c ia := by
    unfold tlbFill
    split <;> rfl
  have hr : (tlbFill s p).ptroot = s.ptroot := by
    unfold tlbFill
    split <;> rfl
  have hw : walk (tlbFill s p) ia = walk s ia := by
    unfold tlbFill
    split <;> rfl
  unfold transIa
  simp only [hc, hr, hw, hl]
  by_cases hroot : (!s.ptroot.getLsbD 0 && !lineCached s ctx c ia) = true
  · rw [if_pos hroot, if_pos hroot]
  · rw [if_neg hroot, if_neg hroot]
    cases hf : Tbl.find s.tlb (p.ia / 2 ^ 16) with
    | some v =>
      have : tlbFill s p = s := by
        unfold tlbFill
        rw [hf]
      rw [this]
    | none =>
      have ht : (tlbFill s p).tlb = Tbl.set s.tlb (p.ia / 2 ^ 16) (p.leaf, p.entry, p.large) := by
        simp only [tlbFill, hf, bumpWalks]
      rw [ht]
      by_cases hpage : ia / 2 ^ 16 = p.ia / 2 ^ 16
      · rw [hpage, Tbl.find_set_same, hf]
        have hwalk : walk s ia = .leaf p.leaf p.entry p.large := by
          rw [walk_page s ia p.ia hpage]
          unfold transIa at hp
          split at hp
          · cases hp
          · rw [hf] at hp
            simp only at hp
            cases hk : walk s p.ia with
            | leaf l e g =>
              rw [hk] at hp
              obtain ⟨h1, h2, h3, _⟩ := leafCheck_leaf hp
              rw [h1, h2, h3]
            | bad => rw [hk] at hp; cases hp
            | poisoned => rw [hk] at hp; cases hp
        rw [hwalk]
      · rw [Tbl.find_set_other _ _ _ _ hpage]

theorem sameReads_tlbFill (s : State) (p : Place) (hd : Tbl.wf s.dies = true) {ctx0 : BitVec 12} {c0 : Origin}
    (hp : transIa s ctx0 c0 p.ia = .ok p) : SameReads s (tlbFill s p) := by
  have hctx : ∀ c, ctxOf (tlbFill s p) c = ctxOf s c := by
    intro c
    unfold tlbFill
    split <;> rfl
  refine ⟨?_, hctx, ?_, ?_, ?_, ?_⟩
  · intro ctx c va
    unfold transVa
    simp only [hctx, transIa_tlbFill s p hd hp]
  · intro key ia loc
    unfold tlbFill
    split <;> rfl
  · intro key ia loc
    unfold tlbFill
    split <;> rfl
  · unfold tlbFill
    split <;> exact ⟨rfl, rfl, rfl⟩
  · intro line nc
    unfold tlbFill
    split <;> rfl

end Sys2Proof.Machine
end

