-- ==== Sys2Proof/Laws/Effect.lean ====
section
/-! SUPPORT. A chunk-ending instruction of a thread that stands alone: it issues, its chunk takes its stamp, and its effect takes place, in
one step. -/

namespace Sys2Proof

/-- Giving a key of an ordered table the value it has changes nothing. -/
theorem Tbl.set_found {α : Type} {lo : Nat} (t : Tbl α) (k : Nat) (x : α) (h : Tbl.above lo t = true) (hf : Tbl.find t k = some x) :
    Tbl.set t k x = t := by
  induction t generalizing lo with
  | nil => cases hf
  | cons p r ih =>
    obtain ⟨j, y⟩ := p
    simp only [Tbl.above, Bool.and_eq_true, decide_eq_true_eq] at h
    rw [Tbl.find] at hf
    split at hf
    · next e =>
      cases hf
      subst e
      simp [Tbl.set]
    · next e =>
      have hlt : ¬k < j := by
        intro hk
        rw [Tbl.find_above r h.2 (by omega)] at hf
        cases hf
      simp only [Tbl.set, if_neg hlt, if_neg e]
      rw [ih h.2 hf]

theorem Tbl.mem_of_find {α : Type} (t : Tbl α) (k : Nat) (x : α) (h : Tbl.find t k = some x) : (k, x) ∈ t := by
  induction t with
  | nil => cases h
  | cons p r ih =>
    obtain ⟨j, y⟩ := p
    rw [Tbl.find] at h
    split at h
    · next e => cases h; subst e; simp
    · exact List.mem_cons_of_mem _ (ih h)

namespace Machine

variable {s : State}

/-- A busy slot is in its tables, so putting it where it stands changes nothing. -/
theorem setMySlot_self (hi : s.Inv) (hb : (mySlot s).busy = true) : setMySlot s (mySlot s) = s := by
  cases hc : Tbl.find s.cores (meCore s) with
  | none =>
    exfalso
    have : mySlot s = Slot.reset := by simp [mySlot, slotAt, coreAt, Tbl.get, hc, Core.reset]
    rw [this] at hb
    cases hb
  | some k =>
    have hk : coreAt s (meCore s) = k := by simp [coreAt, Tbl.get, hc]
    cases hl : Tbl.find k.slots (meSlot s) with
    | none =>
      exfalso
      have : mySlot s = Slot.reset := by simp [mySlot, slotAt, hk, Tbl.get, hl]
      rw [this] at hb
      cases hb
    | some x =>
      have hx : mySlot s = x := by simp [mySlot, slotAt, hk, Tbl.get, hl]
      have hw : Tbl.wf k.slots = true := by
        have := hi.slots
        rw [List.all_eq_true] at this
        exact this _ (Tbl.mem_of_find _ _ _ hc)
      rw [hx]
      show setCore s (meCore s) { coreAt s (meCore s) with slots := Tbl.set (coreAt s (meCore s)).slots (meSlot s) x } = s
      rw [hk, Tbl.set_found k.slots (meSlot s) x hw hl]
      show { s with cores := Tbl.set s.cores (meCore s) k } = s
      rw [Tbl.set_found s.cores (meCore s) k hi.cores hc]

theorem parkSlot_alone (h : Alone s) : parkSlot (mySlot s) = mySlot s := by
  rw [parkSlot_empty _ h.empty]
  have := h.free.2
  cases hx : mySlot s
  simp_all

theorem endSlotChunk_alone (h : Alone s) : endSlotChunk (mySlot s) = mySlot s := by
  simp [endSlotChunk, h.fresh, Chunk.start]

/-- The checks of a chunk-ending instruction of a thread that stands alone are made in its state, and then its chunk issues and asks for its
stamp. -/
theorem chunkEnding_alone (h : Alone s) (i : Instr) (m : Bool) (d : Option Reg) (issue : State → Issue) :
    chunkEnding s i m d issue =
      match issue s with
      | .fault code info => faults (issueWalked s i code) i code info
      | .wait u => .next u
      | .go u =>
        .next (if (issueEffect u i m d).eager then tryCommit (issueEffect u i m d) (meCore s) (meSlot s) else issueEffect u i m d) := by
  have hself := setMySlot_self h.inv h.busy
  have hold : ((mySlot s).cur.hold != 0) = false := by simp [h.fresh, Chunk.start]
  have hend : endChunk (setMySlot s (parkSlot (mySlot s))) (meCore s) (meSlot s) = s := by
    rw [parkSlot_alone h, hself, endChunk_me, endSlotChunk_alone h, hself]
  have hold' : (slotAt s (meCore s) (meSlot s)).older.isSome = false := by
    have := h.first
    simp only [mySlot] at this
    simp [this]
  have hfresh : freshChunk (mySlot s) = true := by simp [freshChunk, h.fresh, Chunk.start]
  unfold chunkEnding
  rw [hold]
  simp only [Bool.false_eq_true, if_false]
  rw [hend, parkSlot_alone h, h.free.2, hold']
  simp only [Bool.false_eq_true, if_false, Bool.and_false, hfresh, Bool.not_true, Bool.false_or, bne_self_eq_false]
  all_goals rfl

/-- The same for checks that read nothing. -/
theorem endingWith_alone (h : Alone s) (i : Instr) (m : Bool) (d : Option Reg) (check : State → Check) :
    endingWith s i m d check =
      match check s with
      | .error (code, info) => faults (issueWalked s i code) i code info
      | .ok _ => .next (tryCommit (issueEffect s i m d) (meCore s) (meSlot s)) := by
  have he : (issueEffect s i m d).eager = true := h.eager
  unfold endingWith
  rw [chunkEnding_alone h]
  unfold Issue.after
  cases check s with
  | error e => rfl
  | ok _ => simp only [he, if_true]

/-- The slot of a thread that stands alone, after its chunk-ending instruction has issued. -/
theorem mySlot_issueEffect (h : Alone s) (i : Instr) (m : Bool) (d : Option Reg) :
    mySlot (issueEffect s i m d) =
      { mySlot s with
        regs := { myRegs s with pcc := nextPcc (myRegs s), pending := awaits d },
        cur := Chunk.start { myRegs s with pcc := nextPcc (myRegs s), pending := awaits d },
        older := some (effectChunk (mySlot s).cur (myRegs s) i),
        parked := m && !(awaits d).isEmpty,
        prio := (prioNow s (meCore s) (mySlot s)).prio } := by
  have hp : prioNow s (meCore s) (mySlot s) = { mySlot s with prio := (prioNow s (meCore s) (mySlot s)).prio } := by
    unfold prioNow
    split
    · split <;> rfl
    · rfl
  have h1 := h.first
  have h2 := h.free.2
  have hm : (mySlot s).regs = myRegs s := rfl
  unfold issueEffect
  rw [hp]
  dsimp only
  have hs : ∀ (k : Chunk) (r : Regs) (q : BitVec 2), k.status = .ended →
      settle { mySlot s with prio := q, cur := k, regs := r } =
        { mySlot s with prio := q, cur := Chunk.start r, regs := r, older := some k } := by
    intro k r q hk
    unfold settle
    simp only [h1, hk]
  rw [hs _ _ _ rfl]
  rw [mySlot_setMySlot]
  cases m with
  | false => simp [h2, hm]
  | true =>
    simp only [if_true, hm]
    cases d with
    | none =>
      rw [parkSlot_empty _ rfl]
      simp [awaits]
    | some r =>
      by_cases hr : r = 0
      · subst hr
        rw [parkSlot_empty _ rfl]
        simp [awaits]
      · have : awaits (some r) = [.g r none] := if_neg hr
        simp [this, parkSlot, pendReady]

/-- The older chunk of a thread that stands alone, after its chunk-ending instruction has issued. -/
theorem older_issueEffect (h : Alone s) (i : Instr) (m : Bool) (d : Option Reg) :
    (slotAt (issueEffect s i m d) (meCore s) (meSlot s)).older = some (effectChunk (mySlot s).cur (myRegs s) i) := by
  have := congrArg Slot.older (mySlot_issueEffect h i m d)
  exact this

/-- An effect that accesses nothing asks nothing of a page's owner. -/
@[simp] theorem effectPages_nil (t : State) (c : Nat) (i : Instr) : effectPages t c i [] = t := rfl

theorem inEffect_eq (i : Instr) (m : Bool) (d : Option Reg)
    (hx : effectExtents (issueEffect s i m d) (meCore s) (meSlot s) (myRegs s) i = []) :
    inEffect s i m d = setMySlot s { mySlot (issueEffect s i m d) with
      older := some { effectChunk (mySlot s).cur (myRegs s) i with status := .committing } } := by
  have hx' : effectExtents (issueEffect s i m d) (meCore s) (meSlot s) (effectChunk (mySlot s).cur (myRegs s) i).check i = [] := hx
  unfold inEffect
  dsimp only
  rw [hx', effectPages_nil]
  show setMySlot (issueEffect s i m d) _ = _
  unfold issueEffect
  rw [setMySlot_setMySlot]
  rfl

/-- An effect that leaves the thread where its instruction has put it. -/
structure Quiet (s : State) (i : Instr) (m : Bool) (d : Option Reg) (u : State) : Prop where
  turn : u.turn = s.turn
  eager : u.eager = true
  slot : mySlot u = { mySlot (inEffect s i m d) with outstanding := (mySlot u).outstanding, limit := (mySlot u).limit }
  step : (myCore u).stepping = none
  stamp : u.stamp = s.stamp
  requests : u.requests = []

theorem issueEffect_eq (i : Instr) (m : Bool) (d : Option Reg) :
    issueEffect s i m d = setMySlot s (mySlot (issueEffect s i m d)) := by
  have : ∀ x, setMySlot s x = setMySlot s (mySlot (setMySlot s x)) := fun x => by rw [mySlot_setMySlot]
  exact this _

theorem intersects_nil (p : List Nat) : intersects p [] = false := by simp [intersects]

theorem intersects_nil_left (p : List Nat) : intersects [] p = false := by simp [intersects]

/-- The one-instruction chunk of a thread that stands alone has no lines, pages or stores. -/
theorem effectChunk_alone (h : Alone s) (i : Instr) :
    effectChunk (mySlot s).cur (myRegs s) i = { Chunk.start (myRegs s) with status := .ended, check := myRegs s, count := 1, effect := some i } := by
  rw [effectChunk, h.fresh]

/-- An effect that touches nothing adds nothing to its chunk. -/
theorem withEffect_nil (t : State) (c l : Nat) (o : Chunk) (i : Instr) (ho : o.effect = some i) (hx : effectExtents t c l o.check i = []) :
    withEffect t c l o = o := by
  unfold withEffect
  rw [ho]
  simp only [hx, extentLines, List.filter_nil, List.foldl_nil, List.flatMap_nil, List.filterMap_nil, List.append_nil]
  rw [← ho]

/-- A chunk without lines meets no other. -/
theorem arbiterFree_empty (t : State) (c l : Nat) (o : Chunk) (hr : o.reads = []) (hw : o.writes = []) : arbiterFree t c l o = true := by
  have hreg : registeredHolds t c l o = false := by
    unfold registeredHolds
    simp only [hw, intersects_nil_left, Bool.or_self, Bool.and_false]
    split <;> simp
  unfold arbiterFree
  rw [hreg]
  simp only [hr, hw, intersects_nil_left, Bool.or_self, Bool.and_false, Bool.not_false, Bool.and_true, Bool.not_eq_true',
    List.any_eq_false]
  intro k _
  rw [List.any_eq_true]
  rintro ⟨x, _, hx⟩
  split at hx <;> simp at hx

/-- A chunk without non-coherent stores and discards, whose effect accesses nothing, writes no non-coherent line. -/
theorem ncWrites_nil (t : State) (c l : Nat) (o : Chunk) (i : Instr) (ho : o.effect = some i) (h1 : o.nws = []) (h2 : o.ncDiscards = [])
    (hx : effectExtents t c l o.check i = []) : ncWrites t c l o = [] := by
  unfold ncWrites
  simp [ho, h1, h2, hx]

/-- A chunk that writes no non-coherent line is held back by no atomic. -/
theorem atomicHeld_empty (t : State) (c l : Nat) (o : Chunk) (h : ncWrites t c l o = []) : atomicHeld t c l o = false := by
  unfold atomicHeld atomicsMeet
  simp only [h, List.any_nil, List.any_eq_false, Bool.false_or]
  intro x _
  split <;> simp

theorem commitState_alone (h : Alone s) (i : Instr) (m : Bool) (d : Option Reg)
    (hx : effectExtents (issueEffect s i m d) (meCore s) (meSlot s) (myRegs s) i = []) :
    commitState (issueEffect s i m d) (meCore s) (meSlot s) =
      match commitEffect (inEffect s i m d) (meCore s) (meSlot s) (effectChunk (mySlot s).cur (myRegs s) i) i with
      | .done t v => .ready t v
      | .wait => .blocked
      | .fault x w => .rejected i x w := by
  have ho := older_issueEffect h i m d
  have hst : (coreAt (issueEffect s i m d) (meCore s)).stopped = false := by
    rw [issueEffect_eq]
    exact (congrArg Core.stopped (myCore_setMySlot s _)).trans h.runs.1
  have how : (coreAt (issueEffect s i m d) (meCore s)).owner = myCtx s := by
    rw [issueEffect_eq]
    have := congrArg Core.owner (myCore_setMySlot s (mySlot (issueEffect s i m d)))
    exact this
  have hcr : ctxRuns (issueEffect s i m d) (myCtx s) = true := by
    rw [issueEffect_eq]
    exact h.runs.2.2.2
  have hx' : effectExtents (issueEffect s i m d) (meCore s) (meSlot s) (effectChunk (mySlot s).cur (myRegs s) i).check i = [] := hx
  have hin : setSlot (issueEffect s i m d) (meCore s) (meSlot s)
      { slotAt (issueEffect s i m d) (meCore s) (meSlot s) with
        older := some { effectChunk (mySlot s).cur (myRegs s) i with status := .committing } } = inEffect s i m d := by
    unfold inEffect
    dsimp only
    rw [hx', effectPages_nil]
  have hr : (effectChunk (mySlot s).cur (myRegs s) i).reads = [] := by rw [effectChunk_alone h]; rfl
  have hw : (effectChunk (mySlot s).cur (myRegs s) i).writes = [] := by rw [effectChunk_alone h]; rfl
  have hn : ncWrites (issueEffect s i m d) (meCore s) (meSlot s) (effectChunk (mySlot s).cur (myRegs s) i) = [] :=
    ncWrites_nil _ _ _ _ i rfl (by rw [effectChunk_alone h]; rfl) (by rw [effectChunk_alone h]; rfl) hx'
  have hwe := withEffect_nil (issueEffect s i m d) (meCore s) (meSlot s) (effectChunk (mySlot s).cur (myRegs s) i) i rfl hx
  have hah : addedLines (effectChunk (mySlot s).cur (myRegs s) i) (effectChunk (mySlot s).cur (myRegs s) i) = [] := by
    simp [addedLines, hr, hw]
  have hh : hostInvs (issueEffect s i m d) (effectChunk (mySlot s).cur (myRegs s) i) ++
      hostDatas (issueEffect s i m d) (effectChunk (mySlot s).cur (myRegs s) i) (effectChunk (mySlot s).cur (myRegs s) i) = [] := by
    simp [hostInvs, hostDatas, hah, hw]
  have he : effectHeld (issueEffect s i m d) (meCore s) (meSlot s) (effectChunk (mySlot s).cur (myRegs s) i)
      (effectChunk (mySlot s).cur (myRegs s) i) = false := by
    simp [effectHeld, hah]
  have h1 : (effectChunk (mySlot s).cur (myRegs s) i).status = .ended := rfl
  have h2 : (effectChunk (mySlot s).cur (myRegs s) i).effect = some i := rfl
  unfold commitState
  rw [ho]
  dsimp only
  rw [hwe, hst, how, hcr, arbiterFree_empty _ _ _ _ hr hw, atomicHeld_empty _ _ _ _ hn, he]
  simp only [h1, h2, hh, hx', effectPages_nil, bne_self_eq_false, Bool.false_eq_true, if_false, Bool.not_true, Bool.or_self, List.isEmpty_nil]
  rw [← hin]
  generalize hy : commitEffect _ (meCore s) (meSlot s) (effectChunk (mySlot s).cur (myRegs s) i) i = e
  have : commitEffect (setSlot (issueEffect s i m d) (meCore s) (meSlot s)
      { slotAt (issueEffect s i m d) (meCore s) (meSlot s) with
        older := some { effectChunk (mySlot s).cur (myRegs s) i with status := .committing } }) (meCore s) (meSlot s)
        (effectChunk (mySlot s).cur (myRegs s) i) i = e := hy
  rw [this]
  all_goals (cases e <;> rfl)

/-! ### The commit of a chunk without lines -/

theorem squashIf_never (t : State) (c l : Nat) (hit : Chunk → Bool) (h : ∀ k, hit k = false) : squashIf t c l hit = t := by
  unfold squashIf
  simp only [h, Bool.and_false, Bool.false_eq_true, if_false]
  split
  · rfl
  · split <;> rfl

theorem testSlot_nil (t : State) (c l : Nat) : testSlot t c l [] = t :=
  squashIf_never t c l _ fun k => by simp [intersects_nil_left]

theorem publish_same (t : State) (o : Chunk) (c : Nat) (h1 : o.writes = []) (h2 : o.discards = []) (h3 : o.ncDiscards = [])
    (h5 : o.nws = []) (h6 : o.pages = []) (hf : o.fetched = []) (h7 : o.reads = []) (h8 : o.misses = []) (h9 : o.ecset = []) (h10 : o.cmos = [])
    (hc : ∃ u k, t = setCore u c k) : publish t c o = t := by
  obtain ⟨u, k, rfl⟩ := hc
  have hr : (setCore u c k).remoteHolds.filter (fun h => !([] : List Nat).contains h.1) = (setCore u c k).remoteHolds := by simp
  have hp : publishedLines o = [] := by simp [publishedLines, h1]
  unfold publish publishPages publishData chunkPages
  simp only [hp, h1, h2, h3, h5, h6, hf, h7, h8, h9, h10, List.isEmpty_nil, if_true, List.foldl_nil, List.append_nil]
  rw [show ({ setCore u c k with remoteHolds := (setCore u c k).remoteHolds.filter (fun h => !([] : List Nat).contains h.1) } : State) =
    setCore u c k by rw [hr]]
  show setCore (setCore u c k) c (coreAt (setCore u c k) c) = _
  rw [setCore_setCore, coreAt_setCore]

theorem commitAcks_nil (t : State) (c : Nat) (o : Chunk) (h : o.writes = []) : commitAcks t c o = [] := by simp [commitAcks, h]

theorem stepDone_none (t : State) (c l : Nat) (o : Chunk) (h : (coreAt t c).stepping = none) : stepDone t c l o = t := by
  unfold stepDone
  simp [h]

/-- The registers of a thread whose effect has given its value. -/
def givenRegs (u : State) (ctx : BitVec 12) (v : Option Cap) (r : Regs) : Regs :=
  match v with
  | some k => { r with pending := fillPending (scrubCap u ctx k) r.pending }
  | none => r

theorem grant_effect (s0 u : State) (c l : Nat) (o : Chunk) (v : Option Cap) (x : Slot) (i : Instr) (hx : slotAt u c l = x)
    (hb : x.busy = true) (ho : o.effect = some i) (hl : hostLoad s0 c o.check i = false) (hq : u.requests = []) (hn : ncWrites s0 c l o = [])
    (h1 : o.writes = []) (h2 : o.discards = []) (h3 : o.ncDiscards = [])
    (h5 : o.nws = []) (h6 : o.pages = []) (hf : o.fetched = []) (h7 : o.reads = []) (h8 : o.misses = []) (h9 : o.ecset = []) (h10 : o.cmos = []) :
    grant s0 u c l o v =
      setSlot { u with stamp := u.stamp + 1 } c l
        { x with regs := givenRegs u (coreAt u c).owner v x.regs, cur := Chunk.start (givenRegs u (coreAt u c).owner v x.regs),
                 older := some { o with status := .committing, stamp := s0.stamp, acks := [] } } := by
  have hs : takeStamp u c l o = { u with stamp := u.stamp + 1 } := by simp [takeStamp, dropRequest, hq, h1, h7]
  have hx' : slotAt { u with stamp := u.stamp + 1 } c l = x := hx
  have ham : ∀ k, atomicsMeet (ncWrites s0 c l o) k = false := fun k => by simp [atomicsMeet, hn]
  have hpl : ∀ t : State, plazaInvalidate t [] = t := fun _ => rfl
  unfold grant
  cases v <;>
  · simp only [hs, hx', hb, Bool.not_true, Bool.false_eq_true, if_false, commitAcks_nil _ _ _ h1, ho, hl, List.append_nil, Option.isSome_some,
      if_true, List.map_nil, hpl]
    rw [publish_same]
    · simp only [h1, testSlot_nil, squashIf_never _ _ _ _ ham, ite_self, List.foldl_cons, List.foldl_nil]
      rfl
    all_goals first | assumption | exact ⟨_, _, rfl⟩

/-- A slot once the effect of its chunk is committed. -/
def afterEffect (x : Slot) (r : Regs) (w : W64) : Slot :=
  let y : Slot := { x with regs := r, cur := Chunk.start r, older := none, commitStamp := w, pin := false }
  let y := if y.parked then parkSlot y else y
  { y with cur := Chunk.start y.regs }

theorem afterMarker_empty (r : Regs) (h : r.pending = []) (m : Bool) : afterMarker m r = r := by
  unfold afterMarker
  split
  · unfold regsPark
    rw [h]
    simp only [List.foldl_nil]
    rw [← h]
  · rfl

theorem afterEffect_eq (x : Slot) (r : Regs) (w : W64) :
    afterEffect x r w = { x with regs := afterMarker x.parked r, cur := Chunk.start (afterMarker x.parked r), older := none,
                                 parked := x.parked && !r.pending.all pendReady, commitStamp := w, pin := false } := by
  unfold afterEffect
  dsimp only
  split
  · next h => simp [parkSlot_eq, h]
  · next h =>
    have : x.parked = false := by simpa using h
    simp [this, afterMarker]

/-- A park leaves the chunk as it is. -/
theorem parkSlot_cur (x : Slot) : (parkSlot x).cur = x.cur := by
  unfold parkSlot
  split <;> rfl

theorem complete_effect (u : State) (c l : Nat) (o : Chunk) (x : Slot) (r : Regs) (hb : x.busy = true) (hp : x.pin = false)
    (ho : o.status = .committing) (ha : o.acks = []) (hs : (coreAt u c).stepping = none) :
    drive (setSlot u c l { x with regs := r, cur := Chunk.start r, older := some o }) c l =
      bump (bump (setSlot u c l
        (afterEffect x r o.stamp)) (clusterOf c) 0 o.count) (clusterOf c) 1 1 := by
  have hset : ∀ (q : Regs), settle { x with regs := q, cur := Chunk.start q, older := none, commitStamp := o.stamp, pin := false } =
      { x with regs := q, cur := Chunk.start q, older := none, commitStamp := o.stamp, pin := false } := by
    intro q
    rfl
  have hcore : ∀ y, (coreAt (bump (bump (setSlot u c l y) (clusterOf c) 0 o.count) (clusterOf c) 1 1) c).stepping = none := by
    intro y
    show (coreAt (setSlot u c l y) c).stepping = none
    simpa [setSlot, updCore] using hs
  unfold drive complete
  simp only [slotAt_setSlot, ha, List.foldl_nil, ho, hp, List.isEmpty_nil, beq_self_eq_true, Bool.and_self, if_true, Bool.false_eq_true,
    if_false, setSlot_setSlot]
  rw [hset, if_pos hb, stepDone_none _ _ _ _ (hcore _)]
  congr 3
  unfold afterEffect
  dsimp only
  generalize hz : (if x.parked = true then parkSlot { x with regs := r, cur := Chunk.start r, older := none, commitStamp := o.stamp, pin := false }
    else { x with regs := r, cur := Chunk.start r, older := none, commitStamp := o.stamp, pin := false }) = z
  have hcur : z.cur = Chunk.start r := by
    rw [← hz]
    split
    · exact parkSlot_cur _
    · rfl
  simp only [hcur]
  rfl

theorem tryCommit_effect (h : Alone s) (i : Instr) (m : Bool) (d : Option Reg) (u : State) (v : Option Cap)
    (hx : effectExtents (issueEffect s i m d) (meCore s) (meSlot s) (myRegs s) i = [])
    (he : commitEffect (inEffect s i m d) (meCore s) (meSlot s) (effectChunk (mySlot s).cur (myRegs s) i) i = .done u v)
    (q : Quiet s i m d u)
    (hl : ∀ t, hostLoad t (meCore s) (myRegs s) i = false) :
    Commits s u m d v (tryCommit (issueEffect s i m d) (meCore s) (meSlot s)) := by
  have hme : meCore u = meCore s := by simp only [meCore, q.turn]
  have hms : meSlot u = meSlot s := by simp only [meSlot, q.turn]
  have hin : mySlot (inEffect s i m d) = { mySlot (issueEffect s i m d) with
      older := some { effectChunk (mySlot s).cur (myRegs s) i with status := .committing } } := by
    rw [inEffect_eq i m d hx, mySlot_setMySlot]
  have hu := q.slot
  rw [hin, mySlot_issueEffect h] at hu
  have hsl : slotAt u (meCore s) (meSlot s) = mySlot u := by rw [← hme, ← hms]; rfl
  have heag : (issueEffect s i m d).eager = true := h.eager
  have hreq : (issueEffect s i m d).requests = [] := h.first_to_ask
  have hearly : earlierGrantable (issueEffect s i m d) (meCore s) (meSlot s) = false := by simp [earlierGrantable, hreq]
  unfold tryCommit commitNow
  rw [hearly, commitState_alone h i m d hx, he, older_issueEffect h]
  simp only [Bool.false_and, Bool.false_eq_true, if_false]
  rw [withEffect_nil (issueEffect s i m d) (meCore s) (meSlot s) (effectChunk (mySlot s).cur (myRegs s) i) i rfl hx, if_pos heag]
  have hbusy : (mySlot u).busy = true := by rw [hu]; exact h.busy
  have hpin : (mySlot u).pin = false := by rw [hu]; exact h.free.1
  have hpark : (mySlot u).parked = (m && !(awaits d).isEmpty) := by rw [hu]
  have hregs : (mySlot u).regs = { myRegs s with pcc := nextPcc (myRegs s), pending := awaits d } := by rw [hu]
  have how : (coreAt u (meCore s)).owner = myCtx u := by rw [← hme]; rfl
  rw [effectChunk_alone h]
  rw [grant_effect (issueEffect s i m d) u (meCore s) (meSlot s)
    { Chunk.start (myRegs s) with status := .ended, check := myRegs s, count := 1, effect := some i } v (mySlot u) i hsl hbusy rfl (hl _) q.requests
    (ncWrites_nil _ _ _ _ i rfl rfl rfl hx) rfl rfl rfl rfl rfl rfl rfl rfl rfl rfl]
  rw [complete_effect _ _ _ _ (mySlot u) _ hbusy hpin rfl rfl (by
    have := q.step
    simp only [myCore, hme] at this
    exact this)]
  refine ⟨afterEffect (mySlot u) (givenRegs u (coreAt u (meCore s)).owner v (mySlot u).regs) s.stamp, ?_, ?_⟩
  · show _ = bump (bump (setSlot { u with stamp := u.stamp + 1 } u.turn.core.toNat u.turn.slot.toNat _) _ 0 1) _ 1 1
    rw [q.turn]
    rfl
  · rw [afterEffect_eq, hpark, hregs, how, q.stamp]
    refine ⟨?_, rfl, rfl, rfl, rfl, rfl, rfl, rfl, rfl⟩
    show afterMarker (m && !(awaits d).isEmpty) (givenRegs u (myCtx u) v _) = effectRegs s u m d v
    unfold effectRegs givenRegs
    cases m with
    | false => cases v <;> rfl
    | true =>
      by_cases ha : awaits d = []
      · have hq : ∀ r : Regs, r.pending = [] → afterMarker (true && !(awaits d).isEmpty) r = afterMarker true r := by
          intro r hr
          rw [afterMarker_empty r hr, afterMarker_empty r hr]
        cases v with
        | none => exact hq _ ha
        | some k => exact hq _ (by simp [ha, fillPending])
      · have : (true && !(awaits d).isEmpty) = true := by
          cases hd : awaits d with
          | nil => exact absurd hd ha
          | cons _ _ => rfl
        rw [this]
        cases v <;> rfl

/-- A chunk-ending instruction without lines: its check passes, its effect takes place, and the thread stands after it. -/
theorem endingWith_commits (h : Alone s) (i : Instr) (m : Bool) (d : Option Reg) (check : State → Check) (hc : check s = .ok ()) (u : State)
    (v : Option Cap) (hx : effectExtents (issueEffect s i m d) (meCore s) (meSlot s) (myRegs s) i = [])
    (he : commitEffect (inEffect s i m d) (meCore s) (meSlot s) (effectChunk (mySlot s).cur (myRegs s) i) i = .done u v)
    (q : Quiet s i m d u) (hl : ∀ t, hostLoad t (meCore s) (myRegs s) i = false) :
    ∃ t, endingWith s i m d check = .next t ∧ Commits s u m d v t := by
  rw [endingWith_alone h, hc]
  exact ⟨_, rfl, tryCommit_effect h i m d u v hx he q hl⟩

/-- A check that fails at issue. -/
theorem endingWith_faults (h : Alone s) (i : Instr) (m : Bool) (d : Option Reg) (check : State → Check) (code : Byte) (info : W64)
    (hc : check s = .error (code, info)) : endingWith s i m d check = faults (issueWalked s i code) i code info := by
  rw [endingWith_alone h, hc]

end Machine

end Sys2Proof
end

