-- ==== Sys2Proof/Laws/Handle.lean ====
section
/-! SUPPORT. The fields of a handle are the ones it was made from (R330). -/

namespace Sys2Proof.Machine

theorem capAddr_capMake (tag : Bool) (perms otype : BitVec 12) (rsv : BitVec 2) (e : BitVec 6) (t b : BitVec 16) (addr : W64) :
    capAddr (capMake tag perms otype rsv e t b addr) = addr := by
  simp only [capAddr, capMake]
  ext i hi
  rw [BitVec.getElem_extractLsb', BitVec.getLsbD_append]
  simp [hi]

theorem capAddr_handleOf (m : BitVec 12) (core : Coord) (dest holder : BitVec 12) (gen : BitVec 18) :
    capAddr (handleOf m core dest holder gen) = m ++ core ++ dest ++ holder ++ gen := capAddr_capMake _ _ _ _ _ _ _ _

theorem handleGen_handleOf (m : BitVec 12) (core : Coord) (dest holder : BitVec 12) (gen : BitVec 18) :
    handleGen (handleOf m core dest holder gen) = gen := by
  rw [handleGen, capAddr_handleOf]
  ext i hi
  rw [BitVec.getElem_extractLsb', BitVec.getLsbD_append]
  simp [hi]

theorem handleHolder_handleOf (m : BitVec 12) (core : Coord) (dest holder : BitVec 12) (gen : BitVec 18) :
    handleHolder (handleOf m core dest holder gen) = holder := by
  rw [handleHolder, capAddr_handleOf]
  ext i hi
  rw [BitVec.getElem_extractLsb', BitVec.getLsbD_append, BitVec.getLsbD_append]
  simp [hi]

theorem handleDest_handleOf (m : BitVec 12) (core : Coord) (dest holder : BitVec 12) (gen : BitVec 18) :
    handleDest (handleOf m core dest holder gen) = dest := by
  rw [handleDest, capAddr_handleOf]
  ext i hi
  rw [BitVec.getElem_extractLsb', BitVec.getLsbD_append, BitVec.getLsbD_append, BitVec.getLsbD_append]
  have h1 : ¬30 + i < 18 := by omega
  have h2 : ¬30 + i - 18 < 12 := by omega
  have h3 : 30 + i - 18 - 12 = i := by omega
  rw [if_neg h1, if_neg h2, h3, if_pos hi]
  rfl

theorem handleCore_handleOf (m : BitVec 12) (core : Coord) (dest holder : BitVec 12) (gen : BitVec 18) :
    handleCore (handleOf m core dest holder gen) = core.toNat := by
  rw [handleCore, capAddr_handleOf]
  congr 1
  ext i hi
  rw [BitVec.getElem_extractLsb', BitVec.getLsbD_append, BitVec.getLsbD_append, BitVec.getLsbD_append, BitVec.getLsbD_append]
  have h1 : ¬42 + i < 18 := by omega
  have h2 : ¬42 + i - 18 < 12 := by omega
  have h3 : ¬42 + i - 18 - 12 < 12 := by omega
  have h4 : 42 + i - 18 - 12 - 12 = i := by omega
  rw [if_neg h1, if_neg h2, if_neg h3, h4, if_pos hi]
  rfl

theorem handleModule_handleOf (m : BitVec 12) (core : Coord) (dest holder : BitVec 12) (gen : BitVec 18) :
    handleModule (handleOf m core dest holder gen) = m := by
  rw [handleModule, capAddr_handleOf]
  ext i hi
  rw [BitVec.getElem_extractLsb', BitVec.getLsbD_append, BitVec.getLsbD_append, BitVec.getLsbD_append, BitVec.getLsbD_append]
  have h1 : ¬52 + i < 18 := by omega
  have h2 : ¬52 + i - 18 < 12 := by omega
  have h3 : ¬52 + i - 18 - 12 < 12 := by omega
  have h4 : ¬52 + i - 18 - 12 - 12 < 10 := by omega
  have h5 : 52 + i - 18 - 12 - 12 - 10 = i := by omega
  rw [if_neg h1, if_neg h2, if_neg h3, if_neg h4, h5]
  rfl

/-- A handle for a core of the same package is valid for its holder, while its destination takes messages, has its generation and owns
the core (R331). -/
theorem handleValid_own {s : State} {core : Coord} {dest holder : BitVec 12} (hl : lifeTakes (ctxOf s dest).life = true) (hd : dest ≠ 0#12)
    (ho : (coreAt s core.toNat).owner = dest) : handleValid s holder (handleOf Config.moduleIndex core dest holder (ctxOf s dest).gen) = true := by
  simp [handleValid, destValid, handleHolder_handleOf, handleModule_handleOf, handleDest_handleOf, handleGen_handleOf, handleCore_handleOf, hl, hd, ho]

end Sys2Proof.Machine
end

