-- ==== Sys2Proof/Laws/Memory.lean ====
section
/-! SUPPORT. Memory keeps its canonical form under every operation on it, and what is read after a write. -/

namespace Sys2Proof

theorem NatSet.above_mono {lo hi : Nat} (h : lo ≤ hi) (l : List Nat) (hl : NatSet.above hi l = true) : NatSet.above lo l = true := by
  cases l with
  | nil => rfl
  | cons j r =>
    simp only [NatSet.above, Bool.and_eq_true, decide_eq_true_eq] at hl ⊢
    exact ⟨Nat.le_trans h hl.1, hl.2⟩

theorem NatSet.above_insert {lo : Nat} (l : List Nat) (k : Nat) (hk : lo ≤ k) (hl : NatSet.above lo l = true) :
    NatSet.above lo (NatSet.insert l k) = true := by
  induction l generalizing lo with
  | nil => simp [NatSet.insert, NatSet.above, hk]
  | cons j r ih =>
    simp only [NatSet.above, Bool.and_eq_true, decide_eq_true_eq] at hl
    simp only [NatSet.insert]
    split
    · next h => simp [NatSet.above, hk, hl.2, Nat.succ_le_of_lt h]
    · split
      · next h => subst h; simp [NatSet.above, hk, hl.2]
      · simp only [NatSet.above, Bool.and_eq_true, decide_eq_true_eq]
        exact ⟨hl.1, ih (by omega) hl.2⟩

theorem NatSet.above_filter {lo : Nat} (l : List Nat) (f : Nat → Bool) (hl : NatSet.above lo l = true) :
    NatSet.above lo (l.filter f) = true := by
  induction l generalizing lo with
  | nil => rfl
  | cons j r ih =>
    simp only [NatSet.above, Bool.and_eq_true, decide_eq_true_eq] at hl
    rw [List.filter_cons]
    split
    · simp only [NatSet.above, Bool.and_eq_true, decide_eq_true_eq]
      exact ⟨hl.1, ih hl.2⟩
    · exact NatSet.above_mono (by omega) _ (ih hl.2)

theorem NatSet.wf_insert (l : List Nat) (k : Nat) (h : NatSet.wf l = true) : NatSet.wf (NatSet.insert l k) = true :=
  NatSet.above_insert l k (Nat.zero_le k) h

theorem NatSet.wf_filter (l : List Nat) (f : Nat → Bool) (h : NatSet.wf l = true) : NatSet.wf (l.filter f) = true :=
  NatSet.above_filter l f h

theorem NatSet.wf_erase (l : List Nat) (k : Nat) (h : NatSet.wf l = true) : NatSet.wf (NatSet.erase l k) = true :=
  NatSet.above_filter l _ h

theorem NatSet.mem_erase (l : List Nat) (k j : Nat) : j ∈ NatSet.erase l k ↔ j ≠ k ∧ j ∈ l := by simp [NatSet.erase, and_comm]

namespace Machine

/-! ### Bytes -/

theorem cellsAbove_mono {lo hi : Nat} (h : lo ≤ hi) (l : List Host.Cell) (hl : cellsAbove hi l = true) : cellsAbove lo l = true := by
  cases l with
  | nil => rfl
  | cons p r =>
    obtain ⟨j, b⟩ := p
    simp only [cellsAbove, Bool.and_eq_true, decide_eq_true_eq] at hl ⊢
    exact ⟨⟨Nat.le_trans h hl.1.1, hl.1.2⟩, hl.2⟩

theorem cellsAbove_write {lo : Nat} (l : List Host.Cell) (k : Nat) (x : Byte) (hk : lo ≤ k) (hl : cellsAbove lo l = true) :
    cellsAbove lo (cellWrite l k x) = true := by
  induction l generalizing lo with
  | nil =>
    rw [cellWrite]
    split
    · rfl
    · next hx => simp only [cellsAbove, Bool.and_true, Bool.and_eq_true, decide_eq_true_eq, bne_iff_ne]; exact ⟨hk, hx⟩
  | cons p r ih =>
    obtain ⟨j, b⟩ := p
    have hj := hl
    simp only [cellsAbove, Bool.and_eq_true, decide_eq_true_eq, bne_iff_ne] at hl
    rw [cellWrite]
    split
    · next h =>
      split
      · exact hj
      · next hx =>
        simp only [cellsAbove, Bool.and_eq_true, decide_eq_true_eq, bne_iff_ne]
        exact ⟨⟨hk, hx⟩, ⟨Nat.succ_le_of_lt h, hl.1.2⟩, hl.2⟩
    · split
      · next h =>
        subst h
        split
        · exact cellsAbove_mono (by omega) r hl.2
        · next hx =>
          simp only [cellsAbove, Bool.and_eq_true, decide_eq_true_eq, bne_iff_ne]
          exact ⟨⟨hk, hx⟩, hl.2⟩
      · simp only [cellsAbove, Bool.and_eq_true, decide_eq_true_eq, bne_iff_ne]
        exact ⟨hl.1, ih (by omega) hl.2⟩

theorem cellsAbove_filter {lo : Nat} (l : List Host.Cell) (f : Host.Cell → Bool) (hl : cellsAbove lo l = true) :
    cellsAbove lo (l.filter f) = true := by
  induction l generalizing lo with
  | nil => rfl
  | cons p r ih =>
    obtain ⟨j, b⟩ := p
    simp only [cellsAbove, Bool.and_eq_true, decide_eq_true_eq] at hl
    rw [List.filter_cons]
    split
    · simp only [cellsAbove, Bool.and_eq_true, decide_eq_true_eq]
      exact ⟨hl.1, ih hl.2⟩
    · exact cellsAbove_mono (by omega) _ (ih hl.2)

/-- A key below the bound of the canonical form reads as an unlisted one. -/
theorem cellRead_above {lo k : Nat} (l : List Host.Cell) (hl : cellsAbove lo l = true) (hk : k < lo) : cellRead l k = 0 := by
  induction l generalizing lo with
  | nil => rfl
  | cons p r ih =>
    obtain ⟨j, b⟩ := p
    simp only [cellsAbove, Bool.and_eq_true, decide_eq_true_eq] at hl
    rw [cellRead, if_neg (by omega)]
    exact ih hl.2 (by omega)

/-- Reading a byte after a byte is written. -/
theorem cellRead_write {lo : Nat} (l : List Host.Cell) (k j : Nat) (x : Byte) (hl : cellsAbove lo l = true) :
    cellRead (cellWrite l k x) j = if j = k then x else cellRead l j := by
  induction l generalizing lo with
  | nil =>
    rw [cellWrite]
    split
    · next hx => rw [hx]; simp [cellRead]
    · simp only [cellRead]
      by_cases hj : j = k
      · rw [if_pos hj.symm, if_pos hj]
      · rw [if_neg (Ne.symm hj), if_neg hj]
  | cons p r ih =>
    obtain ⟨i, b⟩ := p
    have hi := hl
    simp only [cellsAbove, Bool.and_eq_true, decide_eq_true_eq, bne_iff_ne] at hl
    rw [cellWrite]
    split
    · next h =>
      split
      · next hx =>
        by_cases hj : j = k
        · rw [if_pos hj, hx, hj]
          refine cellRead_above (lo := k + 1) _ ?_ (by omega)
          simp only [cellsAbove, Bool.and_eq_true, decide_eq_true_eq, bne_iff_ne]
          exact ⟨⟨h, hl.1.2⟩, hl.2⟩
        · rw [if_neg hj]
      · rw [cellRead]
        by_cases hj : j = k
        · rw [if_pos hj.symm, if_pos hj]
        · rw [if_neg (Ne.symm hj), if_neg hj]
    · split
      · next h1 h =>
        subst h
        split
        · next hx =>
          by_cases hj : j = i
          · rw [if_pos hj, hx, hj]
            exact cellRead_above r hl.2 (by omega)
          · rw [if_neg hj, cellRead, if_neg (Ne.symm hj)]
        · rw [cellRead]
          by_cases hj : j = i
          · rw [if_pos hj.symm, if_pos hj]
          · rw [if_neg (Ne.symm hj), if_neg hj, cellRead, if_neg (Ne.symm hj)]
      · next h1 h2 =>
        rw [cellRead]
        by_cases hi : i = j
        · subst hi
          rw [if_pos rfl, if_neg h2, cellRead, if_pos rfl]
        · rw [if_neg hi, ih hl.2, cellRead, if_neg hi]

/-! ### The canonical form -/

theorem Memory.wf_iff (m : Memory) : m.wf = true ↔
    cellsAbove 0 m.bytes = true ∧ NatSet.wf m.tags = true ∧ NatSet.wf m.summary = true ∧ NatSet.wf m.poison = true := by
  simp [Memory.wf, and_assoc]

@[simp] theorem Memory.wf_empty : Memory.empty.wf = true := rfl

theorem wf_memSetByte (m : Memory) (k : Nat) (x : Byte) (h : m.wf = true) : (memSetByte m k x).wf = true := by
  rw [Memory.wf_iff] at h ⊢
  exact ⟨cellsAbove_write _ _ _ (Nat.zero_le k) h.1, h.2⟩

theorem wf_memPut (n : Nat) (m : Memory) (k v : Nat) (h : m.wf = true) : (memPut m k v n).wf = true := by
  induction n generalizing m k v with
  | zero => exact h
  | succ n ih => exact ih _ _ _ (wf_memSetByte m k _ h)

theorem wf_memSetTag (m : Memory) (k : Nat) (t : Bool) (h : m.wf = true) : (memSetTag m k t).wf = true := by
  rw [Memory.wf_iff] at h
  unfold memSetTag
  split <;> rw [Memory.wf_iff]
  · exact ⟨h.1, NatSet.wf_insert _ _ h.2.1, NatSet.wf_insert _ _ h.2.2.1, h.2.2.2⟩
  · exact ⟨h.1, NatSet.wf_erase _ _ h.2.1, h.2.2⟩

theorem wf_memPutTags (n : Nat) (m : Memory) (k v : Nat) (h : m.wf = true) : (memPutTags m k v n).wf = true := by
  induction n generalizing m k v with
  | zero => exact h
  | succ n ih => exact ih _ _ _ (wf_memSetTag m k _ h)

theorem wf_memPutLine (m : Memory) (k : Nat) (v : LineVal) (h : m.wf = true) : (memPutLine m k v).wf = true :=
  wf_memPutTags _ _ _ _ (wf_memPut _ _ _ _ h)

theorem wf_memSetPoison (m : Memory) (k : Nat) (h : m.wf = true) : (memSetPoison m k).wf = true := by
  rw [Memory.wf_iff] at h ⊢
  exact ⟨h.1, h.2.1, h.2.2.1, NatSet.wf_insert _ _ h.2.2.2⟩

theorem wf_poison_filter (m : Memory) (f : Nat → Bool) (h : m.wf = true) : ({ m with poison := m.poison.filter f } : Memory).wf = true := by
  rw [Memory.wf_iff] at h ⊢
  exact ⟨h.1, h.2.1, h.2.2.1, NatSet.wf_filter _ _ h.2.2.2⟩

theorem wf_memClearPoison (m : Memory) (k : Nat) (h : m.wf = true) : (memClearPoison m k).wf = true := wf_poison_filter m _ h

/-- A fold whose steps keep the form keeps it. -/
theorem wf_foldl {α : Type} (f : Memory → α → Memory) (hf : ∀ m a, m.wf = true → (f m a).wf = true) (l : List α) (m : Memory)
    (h : m.wf = true) : (l.foldl f m).wf = true := by
  induction l generalizing m with
  | nil => exact h
  | cons a r ih => exact ih _ (hf m a h)

theorem wf_poisonUnits (m : Memory) (k : Nat) (h : m.wf = true) : (poisonUnits m k).wf = true :=
  wf_foldl _ (fun _ _ hm => wf_memSetPoison _ _ hm) _ _ h

theorem wf_piecesToMem (s : State) (n : Nat) (m : Memory) (g : Granule) (i : Nat) (h : m.wf = true) : (piecesToMem s m g i n).wf = true := by
  induction n generalizing m i with
  | zero => exact h
  | succ n ih =>
    simp only [piecesToMem]
    apply ih
    split
    · split
      · exact wf_poisonUnits _ _ h
      · exact wf_memPutTags _ _ _ _ (wf_memPut _ _ _ _ h)
    · exact h

theorem wf_outsideMem (m : Memory) (h : m.wf = true) : (outsideMem m).wf = true := by
  rw [Memory.wf_iff] at h ⊢
  exact ⟨cellsAbove_filter _ _ h.1, NatSet.wf_filter _ _ h.2.1, NatSet.wf_filter _ _ h.2.2.1, NatSet.wf_filter _ _ h.2.2.2⟩

/-! ### Read after write -/

theorem memByte_memSetByte (m : Memory) (k j : Nat) (x : Byte) (h : m.wf = true) :
    memByte (memSetByte m k x) j = if j = k then x else memByte m j :=
  cellRead_write m.bytes k j x ((Memory.wf_iff m).1 h).1

/-- A byte after n bytes are written from k: byte j - k of the value, or what it was. -/
theorem memByte_memPut (n : Nat) (m : Memory) (k v j : Nat) (h : m.wf = true) :
    memByte (memPut m k v n) j = if k ≤ j ∧ j < k + n then BitVec.ofNat 8 (v / 256 ^ (j - k)) else memByte m j := by
  induction n generalizing m k v with
  | zero => rw [if_neg (by omega)]; rfl
  | succ n ih =>
    rw [memPut, ih _ _ _ (wf_memSetByte m k _ h), memByte_memSetByte m k j _ h]
    by_cases hj : j = k
    · subst hj
      rw [if_neg (by omega), if_pos rfl, if_pos (by omega)]
      simp
    · rw [if_neg hj]
      by_cases h1 : k + 1 ≤ j ∧ j < k + 1 + n
      · rw [if_pos h1, if_pos (by omega), Nat.div_div_eq_div_mul]
        congr 2
        rw [← Nat.pow_succ']
        congr 1
        omega
      · rw [if_neg h1, if_neg (by omega)]

theorem memByte_memSetTag (m : Memory) (k j : Nat) (t : Bool) : memByte (memSetTag m k t) j = memByte m j := by
  unfold memSetTag memByte
  split <;> rfl

theorem memByte_memPutTags (n : Nat) (m : Memory) (k v j : Nat) : memByte (memPutTags m k v n) j = memByte m j := by
  induction n generalizing m k v with
  | zero => rfl
  | succ n ih => rw [memPutTags, ih, memByte_memSetTag]

@[simp] theorem memByte_memSetPoison (m : Memory) (k j : Nat) : memByte (memSetPoison m k) j = memByte m j := rfl
@[simp] theorem memByte_memClearPoison (m : Memory) (k j : Nat) : memByte (memClearPoison m k) j = memByte m j := rfl

/-- n bytes are read as one number below 256^n. -/
theorem memBytes_lt (n : Nat) (m : Memory) (k : Nat) : memBytes m k n < 256 ^ n := by
  induction n generalizing k with
  | zero => simp [memBytes]
  | succ n ih =>
    have h := ih (k + 1)
    have hb := (memByte m k).isLt
    rw [memBytes, Nat.pow_succ]
    omega

/-- Reading depends on the bytes read alone. -/
theorem memBytes_congr (n : Nat) (m o : Memory) (k : Nat) (h : ∀ j, k ≤ j → j < k + n → memByte m j = memByte o j) :
    memBytes m k n = memBytes o k n := by
  induction n generalizing k with
  | zero => rfl
  | succ n ih => rw [memBytes, memBytes, h k (by omega) (by omega), ih (k + 1) fun j h1 h2 => h j (by omega) (by omega)]

/-- Read after write: n bytes written from k read back as the value. -/
theorem memBytes_memPut (n : Nat) (m : Memory) (k v : Nat) (h : m.wf = true) : memBytes (memPut m k v n) k n = v % 256 ^ n := by
  suffices hs : ∀ (n : Nat) (o : Memory) (k v : Nat), (∀ j, k ≤ j → j < k + n → memByte o j = BitVec.ofNat 8 (v / 256 ^ (j - k))) →
      memBytes o k n = v % 256 ^ n by
    apply hs
    intro j h1 h2
    rw [memByte_memPut n m k v j h, if_pos ⟨h1, h2⟩]
  intro n
  induction n with
  | zero => intro o k v _; simp [memBytes, Nat.mod_one]
  | succ n ih =>
    intro o k v hb
    rw [memBytes, hb k (Nat.le_refl k) (by omega), ih o (k + 1) (v / 256)]
    · rw [Nat.sub_self, Nat.pow_zero, Nat.div_one, BitVec.toNat_ofNat, Nat.pow_succ' (m := 256), Nat.mod_mul]
    · intro j h1 h2
      rw [hb j (by omega) (by omega), Nat.div_div_eq_div_mul]
      congr 2
      rw [← Nat.pow_succ']
      congr 1
      omega

/-- A write leaves every other place alone. -/
theorem memBytes_memPut_other (n i : Nat) (m : Memory) (k v a : Nat) (hw : m.wf = true) (h : a + i ≤ k ∨ k + n ≤ a) :
    memBytes (memPut m k v n) a i = memBytes m a i := by
  apply memBytes_congr
  intro j h1 h2
  rw [memByte_memPut n m k v j hw, if_neg (by omega)]

/-- A line written is read back. -/
theorem memLine_data_memPutLine (m : Memory) (k : Nat) (v : LineVal) (h : m.wf = true) : (memLine (memPutLine m k v) k).data = v.data := by
  have : memBytes (memPutLine m k v) k 128 = v.data.toNat := by
    rw [memPutLine, memBytes_congr 128 _ (memPut m k v.data.toNat 128) k fun j _ _ => memByte_memPutTags 8 _ k _ j,
      memBytes_memPut 128 m k _ h]
    exact Nat.mod_eq_of_lt (Nat.lt_of_lt_of_eq v.data.isLt (Nat.pow_mul (a := 2) (m := 8) (n := 128)))
  rw [memLine, this, BitVec.ofNat_toNat, BitVec.setWidth_eq]

end Machine
end Sys2Proof
end

