-- ==== Sys2Proof/Laws/Inv.lean ====
section
/-! SUPPORT. The state invariant and the ways a state is written: one lemma for each writer of a table, and one for a fold. -/

namespace Sys2Proof.Machine

variable {s : State}

/-- The invariant as one conjunction. -/
theorem inv_iff (s : State) : s.Inv ↔ s.mem.wf = true ∧ Tbl.wf s.cores = true ∧ (s.cores.all fun c => Tbl.wf c.2.slots) = true ∧
    Tbl.wf s.clusters = true ∧ (s.clusters.all fun c => Tbl.wf c.2.acc) = true ∧ Tbl.wf s.dies = true ∧ Tbl.wf s.contexts = true ∧
    (s.contexts.all fun c => (c.2.savedCores.all fun k => Tbl.wf k.2.slots)) = true ∧
    (s.contexts.all fun c => (c.2.savedClusters.all fun v => Tbl.wf v.2.cluster.acc)) = true ∧
    Tbl.wf s.hostHolds = true ∧ Tbl.wf s.hostLines = true :=
  ⟨fun h => ⟨h.1, h.2, h.3, h.4, h.5, h.6, h.7, h.8, h.9, h.10, h.11⟩, fun ⟨a, b, c, d, e, f, g, i, j, k, l⟩ => ⟨a, b, c, d, e, f, g, i, j, k, l⟩⟩

/-- Only the fields that the invariant speaks of matter to it. -/
theorem State.Inv.of_same {t : State} (h : s.Inv) (h1 : t.mem = s.mem) (h2 : t.cores = s.cores) (h3 : t.clusters = s.clusters)
    (h4 : t.dies = s.dies) (h5 : t.contexts = s.contexts) (h6 : t.hostHolds = s.hostHolds) (h7 : t.hostLines = s.hostLines) : t.Inv := by
  rw [inv_iff, h1, h2, h3, h4, h5, h6, h7]; exact (inv_iff s).1 h

theorem all_set {α : Type} (p : Nat × α → Bool) (t : Tbl α) (k : Nat) (x : α) (h : t.all p = true) (hx : p (k, x) = true) :
    (Tbl.set t k x).all p = true := by
  induction t with
  | nil => simp [Tbl.set, hx]
  | cons a r ih =>
    simp only [List.all_cons, Bool.and_eq_true] at h
    unfold Tbl.set
    split
    · simp [hx, h]
    · split
      · simp [hx, h]
      · simp [h, ih h.2]

theorem all_get {α : Type} (p : α → Bool) (d : α) (t : Tbl α) (k : Nat) (h : (t.all fun c => p c.2) = true) (hd : p d = true) :
    p (Tbl.get d t k) = true := by
  induction t with
  | nil => exact hd
  | cons a r ih =>
    simp only [List.all_cons, Bool.and_eq_true] at h
    simp only [Tbl.get, Tbl.find] at ih ⊢
    split
    · exact h.1
    · exact ih h.2


theorem coreAt_ok (h : s.Inv) (c : Nat) : Tbl.wf (coreAt s c).slots = true := all_get (fun k : Core => Tbl.wf k.slots) _ _ _ h.slots rfl
theorem clusterAt_ok (h : s.Inv) (c : Nat) : Tbl.wf (clusterAt s c).acc = true := all_get (fun k : Cluster => Tbl.wf k.acc) _ _ _ h.arrays rfl
theorem ctx_cores (h : s.Inv) (c : Nat) : ((Tbl.get Context.reset s.contexts c).savedCores.all fun k => Tbl.wf k.2.slots) = true :=
  all_get (fun k : Context => k.savedCores.all fun k => Tbl.wf k.2.slots) _ _ _ h.savedSlots rfl
theorem ctx_clusters (h : s.Inv) (c : Nat) : ((Tbl.get Context.reset s.contexts c).savedClusters.all fun v => Tbl.wf v.2.cluster.acc) = true :=
  all_get (fun k : Context => k.savedClusters.all fun v => Tbl.wf v.2.cluster.acc) _ _ _ h.savedArrays rfl

theorem inv_setCore (h : s.Inv) (c : Nat) (x : Core) (hx : Tbl.wf x.slots = true) : (setCore s c x).Inv :=
  { h with cores := Tbl.wf_set _ _ _ h.cores, slots := all_set _ _ _ _ h.slots hx }
theorem inv_setCluster (h : s.Inv) (c : Nat) (x : Cluster) (hx : Tbl.wf x.acc = true) : (setCluster s c x).Inv :=
  { h with clusters := Tbl.wf_set _ _ _ h.clusters, arrays := all_set _ _ _ _ h.arrays hx }
theorem inv_setDie (h : s.Inv) (c : Nat) (x : Die) : (setDie s c x).Inv := { h with dies := Tbl.wf_set _ _ _ h.dies }
theorem inv_setCtx (h : s.Inv) (c : Nat) (x : Context) (hx : (x.savedCores.all fun k => Tbl.wf k.2.slots) = true)
    (hy : (x.savedClusters.all fun v => Tbl.wf v.2.cluster.acc) = true) : (setCtx s c x).Inv :=
  { h with contexts := Tbl.wf_set _ _ _ h.contexts, savedSlots := all_set _ _ _ _ h.savedSlots hx, savedArrays := all_set _ _ _ _ h.savedArrays hy }
theorem inv_updCore (h : s.Inv) (c : Nat) (f : Core → Core) (hf : Tbl.wf (coreAt s c).slots = true → Tbl.wf (f (coreAt s c)).slots = true) : (updCore s c f).Inv :=
  inv_setCore h _ _ (hf (coreAt_ok h c))
theorem inv_setSlot (h : s.Inv) (c l : Nat) (x : Slot) : (setSlot s c l x).Inv := inv_updCore h _ _ fun k => Tbl.wf_set _ _ _ k
theorem inv_updCluster (h : s.Inv) (c : Nat) (f : Cluster → Cluster) (hf : Tbl.wf (clusterAt s c).acc = true → Tbl.wf (f (clusterAt s c)).acc = true) : (updCluster s c f).Inv :=
  inv_setCluster h _ _ (hf (clusterAt_ok h c))
theorem inv_updDie (h : s.Inv) (c : Nat) (f : Die → Die) : (updDie s c f).Inv := inv_setDie h _ _
theorem inv_updCtx (h : s.Inv) (c : Nat) (f : Context → Context)
    (hf : ∀ x : Context, (x.savedCores.all fun k => Tbl.wf k.2.slots) = true → ((f x).savedCores.all fun k => Tbl.wf k.2.slots) = true)
    (hg : ∀ x : Context, (x.savedClusters.all fun v => Tbl.wf v.2.cluster.acc) = true → ((f x).savedClusters.all fun v => Tbl.wf v.2.cluster.acc) = true) : (updCtx s c f).Inv :=
  inv_setCtx h _ _ (hf _ (ctx_cores h c)) (hg _ (ctx_clusters h c))

theorem inv_foldl {α : Type} {f : State → α → State} (hf : ∀ s a, s.Inv → (f s a).Inv) (l : List α) (h : s.Inv) : (l.foldl f s).Inv := by
  induction l generalizing s with
  | nil => exact h
  | cons a r ih => exact ih (hf _ a h)

end Sys2Proof.Machine
end

