-- ==== Sys2Proof/Tests/Slice0.lean ====
section
/-! SUPPORT. Tests: ill-formed terms; words of the spec's encodings and what they decode to; single steps on small states, with
results worked out by hand from the rules; and, for each claim, states and operands that meet what it assumes. -/

set_option maxRecDepth 100000
set_option Elab.async false

namespace Sys2Proof.Tests

open Sys2Proof Sys2Proof.Machine

/-! ### Ill-formed terms: one for each check -/

theorem test_wf_chold_low : (Instr.chold false 0).wf = false := by decide
theorem test_wf_chold_high : (Instr.chold false 65).wf = false := by decide
theorem test_wf_chold_edge : (Instr.chold false 64).wf = true := by decide
theorem test_wf_vcmpFloat : (Instr.vcmpFloat false .lt 0 1 2 .f32 1).wf = false := by decide
theorem test_wf_vcmpInt : (Instr.vcmpInt false .lt 0 1 2 .i32 1).wf = false := by decide
theorem test_wf_kand : (Instr.kand false 0 1 2).wf = false := by decide
theorem test_wf_kor : (Instr.kor false 0 1 2).wf = false := by decide
theorem test_wf_kxor : (Instr.kxor false 0 1 2).wf = false := by decide
theorem test_wf_knot : (Instr.knot false 0 1).wf = false := by decide
theorem test_wf_vmvs_32 : (Instr.vmvs false 4 3 16 .w32).wf = false ∧ (Instr.vmvs false 4 3 15 .w32).wf = true := by decide
theorem test_wf_vmvs_64 : (Instr.vmvs false 4 3 8 .w64).wf = false ∧ (Instr.vmvs false 4 3 7 .w64).wf = true := by decide
theorem test_wf_vcvt : (Instr.vcvt false 1 2 .f32 .f32 0).wf = false := by decide
theorem test_wf_arrive : (Instr.arrive false 40).wf = false ∧ (Instr.arrive false 39).wf = true := by decide
theorem test_wf_arriveNc : (Instr.arriveNc false 40).wf = false := by decide
theorem test_wf_wait : (Instr.wait false 40).wf = false := by decide
theorem test_wf_sysr : (Instr.sysr false 4 0x007).wf = false ∧ (Instr.sysr false 4 0x05f).wf = true := by decide
theorem test_wf_sysw : (Instr.sysw false 0x002 5).wf = false ∧ (Instr.sysw false 0x006 5).wf = true := by decide
theorem test_wf_syss : (Instr.syss false 0x001 5).wf = false ∧ (Instr.syss false 0x018 5).wf = true := by decide
theorem test_wf_sysc : (Instr.sysc false 0x018 5).wf = false ∧ (Instr.sysc false 0x050 5).wf = true := by decide
theorem test_wf_mldw : (Instr.mldw .bf16 0 1 0 0).wf = false ∧ (Instr.mldw .bf16 0 0 0 64).wf = false := by decide
theorem test_wf_mstrm : (Instr.mstrm .bf16 0 1 0 0 512 0 1 0).wf = false := by decide
theorem test_wf_mstore : (Instr.mstore .fp32 true false 0 0 1024 0 1).wf = false ∧ (Instr.mstore .e4m3 true false 0 0 256 0 1).wf = true := by decide
theorem test_wf_cpy : (Instr.cpy false 0 1 0 0 64 ⟨false, 0, 16⟩).wf = false := by decide
theorem test_wf_cpy2d : (Instr.cpy2d false 0 1 0 0 1 64 64 64 ⟨false, 1, 0⟩).wf = false := by decide
theorem test_wf_cpyg : (Instr.cpyg false 0 1 2 0 0 1 0 0 ⟨false, 1, 0⟩).wf = false := by decide
theorem test_wf_cfill : (Instr.cfill 0 0 64 0 ⟨false, 1, 0⟩).wf = false := by decide
theorem test_wf_cpyu : (Instr.cpyu 0 1 0 0 64 3 ⟨false, 1, 0⟩).wf = false := by decide
theorem test_wf_cpfr : (Instr.cpfr 1 0 64 false 1 ⟨false, 0, 0⟩).wf = false ∧ (Instr.cpfr 1 0 64 true 1 ⟨false, 1, 0⟩).wf = false := by decide

/-! ### Words written out from the encoding maps (R42 to R62) -/

def word (w : W32) : Option Instr := (decodeWord w).toOption

theorem test_word_add : word 0x02321400 = some (.add false 3 4 5) := by decide
theorem test_word_sextH : word 0x02638381 = some (.sextH false 6 7) := by decide
theorem test_word_sel : word 0x023217c6 = some (.sel false 3 4 5 6) := by decide
theorem test_word_lui : word 0x16312345 = some (.lui false 3 0x12345) := by decide
theorem test_word_fmadd : word 0x1a321564 = some (.fmadd false 3 4 5 true .rtz) := by decide
theorem test_word_fcvt : word 0x1a322308 = some (.fcvt false 3 4 .ld .rdn) := by decide
theorem test_word_b : word 0x20460ffe = some (.bCond false .ne 3 0 (-2)) := by decide
theorem test_word_j : word 0x22100010 = some (.j false 1 16) := by decide
theorem test_word_jc : word 0x24148000 = some (.jc false 1 9) := by decide
theorem test_word_cincaddri : word 0x2aa483e8 = some (.cincaddri false 10 9 1000) := by decide
theorem test_word_csetbndsi : word 0x2ca50064 = some (.csetbndsi false 10 10 100) := by decide
theorem test_word_ld : word 0x3c410010 = some (.ld false 4 2 16) := by decide
theorem test_word_sc : word 0x48110000 = some (.sc false 1 2 0) := by decide
theorem test_word_lc_marker : word 0xbed40040 = some (.lc true 13 8 64) := by decide
theorem test_word_amo : word 0x50531c08 = some (.amo false 5 6 7 .add true) := by decide
theorem test_word_cas : word 0x50531d20 = some (.cas false 5 6 7 false) := by decide
theorem test_word_casc : word 0x50531d40 = some (.casc false 5 6 7) := by decide
theorem test_word_ramo : word 0x52530101 = some (.ramo false 5 6 1 .add true) := by decide
theorem test_word_fences : word 0x74000220 = some (.fenceXp false) ∧ word 0x74000240 = some (.fenceIo false) ∧ word 0x74000260 = some (.cbrk false) := by decide
theorem test_word_vld : word 0x6a148000 = some (.vld false 1 9 0) ∧ word 0x6a358001 = some (.vst false 3 11 0) := by decide
theorem test_word_vfma : word 0x60708823 = some (.vfma false 7 1 2 .f32 1) := by decide
theorem test_word_vcmp : word 0x61208809 = some (.vcmpFloat false .lt 2 1 2 .f32 0) := by decide
theorem test_word_vred : word 0x6061800a = some (.vredaddFloat false 6 3 .f32 0) := by decide
theorem test_word_vshl : word 0x6284a990 = some (.vshl false 8 9 10 .i64 4) := by decide
theorem test_word_vcvt : word 0x66b1d000 = some (.vcvt false 11 3 .f8e4 .f32 0) := by decide
theorem test_word_vmvs : word 0x64419404 = some (.vmvs false 4 3 5 .w32) := by decide
theorem test_word_kpop : word 0x68510004 = some (.kpop false 5 2) := by decide
theorem test_word_vgath : word 0x6a449444 = some (.vgath false 4 9 5 .i32 2) := by decide
theorem test_word_barrier : word 0x70000021 = some (.arrive false 33) ∧ word 0x70200021 = some (.wait false 33) := by decide
theorem test_word_deque : word 0x72028000 = some (.dqpush false 5) ∧ word 0x72700162 = some (.dqsteal false 7 11) := by decide
theorem test_word_join : word 0x74020000 = some (.join false 4) ∧ word 0x74051020 = some (.suspend false 10 4) := by decide
theorem test_word_klaunch : word 0x74048060 = some (.klaunch false 9) := by decide
theorem test_word_fork : word 0x7455b480 = some (.fork false 5 11 13) := by decide
theorem test_word_cmdq : word 0x740600e0 = some (.cmdq false 12) := by decide
theorem test_word_message : word 0x740a5540 = some (.epsend false 20 21) ∧ word 0x743b0160 = some (.eprecv false 3 22) := by decide
theorem test_word_trap : word 0x74000187 = some (.trap false 7) := by decide
theorem test_word_tsread : word 0x744001e0 = some (.tsread false 4) ∧ word 0x74048200 = some (.pinv false 9) := by decide
theorem test_word_sys : word 0x76400001 = some (.sysr false 4 1) ∧ word 0x76029001 = some (.sysw false 1 5) ∧ word 0x76032018 = some (.syss false 0x18 6) := by decide
theorem test_word_vcache : word 0x78321400 = some (.vcdef false 3 4 5) ∧ word 0x783400a0 = some (.vcquery false 3 8) ∧ word 0x7834a8c0 = some (.pfrange false 3 9 10) := by decide
/-- Majors 0 and 63 and an unallocated function are no instruction (R40). -/
theorem test_word_refused : word 0 = none ∧ word 0x7e000000 = none ∧ word 0x023217ff = none := by decide

/-- Command words: opcode in bits 255:248, version 1, class, fields by R244 and R264. -/
def command (engine : Nat) (w : BitVec 256) : Option Instr := (decodeCommand (some engine) w).toOption


/-! ### Small states

Context 1 runs a thread in slot 0 of core 0, at virtual 0x10000; intermediate page p lies at virtual 0x100000 + 0x10000 × p. -/

def rootAt (a : W64) : Cap := capSetAddr capRoot a

/-- Another register file for the thread. -/
def withRegs (s : State) (r : Regs) : State := setSlot s 0 0 { slotAt s 0 0 with regs := r, cur := Chunk.start r }

/-- The placed machine with some registers. -/
def threadWith (l : Tbl Cap) : State := withRegs (placed State.reset) { placeRegs with g := l }

/-- Window 1: 1 MiB of intermediate pages. -/
def wide (s : State) : State :=
  updCtx s 1 fun c => { c with iaw := Tbl.set c.iaw 1 (1#1 ++ 0#9 ++ 20#6 ++ 0#32 ++ 0#16 ++ 0x10#48 ++ 0#16) }

/-- A leaf for intermediate page p. -/
def withPage (s : State) (p leaf : Nat) : State := { s with mem := memPut s.mem (0x90000 + 16 * p) leaf 16 }

/-- A line of page 0 in core 0's data L1, as memory holds it. -/
def withLine (s : State) (line : Nat) : State := updCore s 0 fun k => { k with l1 := ⟨line, false, false, false, 0, 0, 0x10000 + 128 * line, 0, 0⟩ :: k.l1 }

/-- Some bytes of page 0. -/
def withMem (s : State) (ia v n : Nat) : State := { s with mem := memPut s.mem (0x10000 + ia) v n }

def thread : State := threadWith []
def withPending (l : List Pend) : State := withRegs (placed State.reset) { placeRegs with pending := l }

theorem inv_placed : thread.Inv := ⟨rfl, rfl, rfl, rfl, rfl, rfl, rfl, rfl, rfl, rfl, rfl⟩

/-- What State.Inv asks, as one check. -/
def invHolds (s : State) : Bool :=
  s.mem.wf && Tbl.wf s.cores && (s.cores.all fun c => Tbl.wf c.2.slots) && Tbl.wf s.clusters && (s.clusters.all fun c => Tbl.wf c.2.acc) &&
    Tbl.wf s.dies && Tbl.wf s.contexts && (s.contexts.all fun c => c.2.savedCores.all fun k => Tbl.wf k.2.slots) &&
    (s.contexts.all fun c => c.2.savedClusters.all fun v => Tbl.wf v.2.cluster.acc) && Tbl.wf s.hostHolds && Tbl.wf s.hostLines

theorem inv_of (s : State) (h : invHolds s = true) : s.Inv := by
  simp only [invHolds, Bool.and_eq_true] at h
  obtain ⟨⟨⟨⟨⟨⟨⟨⟨⟨⟨h1, h2⟩, h3⟩, h4⟩, h5⟩, h6⟩, h7⟩, h8⟩, h9⟩, h10⟩, h11⟩ := h
  exact ⟨h1, h2, h3, h4, h5, h6, h7, h8, h9, h10, h11⟩

/-- What Alone asks, as one check. -/
def alone (s : State) : Bool :=
  invHolds s && s.eager && (mySlot s).busy &&
    decide ((mySlot s).cur = Chunk.start (myRegs s)) && (mySlot s).older.isNone && !(mySlot s).pin && !(mySlot s).parked &&
    (mySlot s).regs.pending.isEmpty && s.requests.isEmpty && !(myCore s).stopped && !(myCore s).frozen && (myCore s).stepping.isNone && ctxRuns s (myCtx s)

theorem alone_of (s : State) (h : alone s = true) : Alone s := by
  simp only [alone, Bool.and_eq_true, decide_eq_true_eq, Bool.not_eq_true', Option.isNone_iff_eq_none, List.isEmpty_iff] at h
  obtain ⟨⟨⟨⟨⟨⟨⟨⟨⟨⟨⟨⟨h1, h10⟩, h11⟩, h12⟩, h13⟩, h14⟩, h15⟩, h16⟩, h21⟩, h17⟩, h18⟩, h19⟩, h20⟩ := h
  exact ⟨inv_of s h1, h10, h11, h12, h13, ⟨h14, h15⟩, h16, h21, ⟨h17, h18, h19, h20⟩⟩

/-- What Asks asks, as one check. -/
def asks (s w : State) : Bool :=
  w.turn == s.turn && w.eager && decide (myRegs w = myRegs s) && (mySlot w).older.isNone && !(mySlot w).pin && (mySlot w).cur.nws.isEmpty &&
    w.requests.isEmpty && !(myCore w).stopped && !(myCore w).frozen && ctxRuns w (myCtx w)

theorem asks_of (s w : State) (h : asks s w = true) : Asks s w := by
  simp only [asks, Bool.and_eq_true, beq_iff_eq, decide_eq_true_eq, Bool.not_eq_true', Option.isNone_iff_eq_none, List.isEmpty_iff] at h
  obtain ⟨⟨⟨⟨⟨⟨⟨⟨⟨h1, h2⟩, h3⟩, h4⟩, h5⟩, h6⟩, h7⟩, h8⟩, h9⟩, h10⟩ := h
  exact ⟨h1, h2, h3, ⟨h4, h5⟩, h6, h7, ⟨h8, h9, h10⟩⟩

/-- What Unheld asks, as one check. -/
def unheld (s : State) (i : Instr) (d : Option Reg) : Bool :=
  let t := issueEffect s i false d
  let o := effectChunk (mySlot s).cur (myRegs s) i
  arbiterFree t (meCore s) (meSlot s) (askingChunk s i false d) && !atomicHeld t (meCore s) (meSlot s) o &&
    !effectHeld t (meCore s) (meSlot s) o (askingChunk s i false d) && (hostInvs t (askingChunk s i false d) ++ hostDatas t o (askingChunk s i false d)).isEmpty

theorem unheld_of (s : State) (i : Instr) (d : Option Reg) (h : unheld s i d = true) : Unheld s i false d := by
  simp only [unheld, Bool.and_eq_true, Bool.not_eq_true', List.isEmpty_iff] at h
  exact ⟨h.1.1.1, h.1.1.2, h.1.2, h.2⟩

/-- A state is met by a Bool of it. -/
def nexts (o : Outcome) (f : State → Bool) : Bool :=
  match o with
  | .next t => f t
  | _ => false

/-! ### Registers and results -/

theorem hyp_Results :
    -- a list of one ready entry, and one that is written twice: the last wins
    let r : Regs := { placeRegs with pending := [.g 5 (some (capInt 1)), .v 0 3, .k 7 9, .g 5 (some (capInt 2))] }
    r.pending.all pendReady = true ∧ r.pending = [.g 5 (some (capInt 1)), .v 0 3, .k 7 9] ++ .g 5 (some (capInt 2)) :: [] ∧
      (∀ p ∈ ([] : List Pend), pendIsG 5 p = false) ∧ (∀ p ∈ r.pending, pendIsG 31 p = false) ∧
      r.pending = [.g 5 (some (capInt 1))] ++ .v 0 3 :: [.k 7 9, .g 5 (some (capInt 2))] ∧
      (∀ p ∈ ([.k 7 9, .g 5 (some (capInt 2))] : List Pend), pendIsV 0 p = false) ∧
      regsG (regsPark r) 5 = capInt 2 ∧ regsV (regsPark r) 0 = 3 ∧ regsK (regsPark r) 7 = 9 := by decide +kernel

theorem hyp_RetiringFrame : thread.Inv ∧ ∃ t, Retires thread (mySlot thread) false (myRegs thread) (nextPcc (myRegs thread)) t :=
  ⟨inv_placed, retire thread false (myRegs thread) (nextPcc (myRegs thread)), retire_retires _ _ _ _⟩

/-- A list of 15 or of 16 ready entries lets a deferred result in; a full list that waits does not. -/
def fifteen : List Pend := List.replicate 15 (.g 1 (some Cap.null))

theorem hyp_IntegerDeferredResults : CanDefer thread ∧ CanDefer (withPending fifteen) ∧ CanDefer (withPending (.v 1 0 :: fifteen)) ∧
    ¬CanDefer (withPending (.g 2 none :: fifteen)) := by
  refine ⟨rfl, rfl, rfl, ?_⟩
  unfold CanDefer
  decide +kernel
theorem hyp_FloatResults : CanDefer thread := rfl
theorem hyp_FloatConversions : CanDefer thread := rfl
theorem hyp_VectorFloatResults : CanDefer thread := rfl
theorem hyp_VectorIntegerResults : CanDefer thread := rfl
theorem hyp_VectorCompares : CanDefer thread := rfl
theorem hyp_VectorReductions : CanDefer thread := rfl
theorem hyp_VectorConversions : CanDefer thread := rfl
theorem hyp_VectorMovesAndMasks : CanDefer thread ∧ (7#5).toNat < 512 / mWidth .w64 ∧ (31#5).toNat < 512 / mWidth .w16 := ⟨rfl, by decide, by decide⟩

theorem hyp_Rounding : (12 % 2 ^ 2 = 0) ∧ (2 * (6 % 2 ^ 2) = 2 ^ 2) ∧ FFmt.e4m3 ∈ [FFmt.f64, FFmt.f32, FFmt.bf16, FFmt.e5m2, FFmt.e4m3] ∧
    0 < 2 * FFmt.e4m3.signBit ∧ floatValue .e4m3 0 ≠ .nan ∧ 0xff < 2 * FFmt.e4m3.signBit ∧ floatValue .e4m3 0xfe ≠ .nan ∧
    floatValue .e4m3 0x7f = .nan ∧ floatValue .f32 0x7f800000 ≠ .nan ∧ floatValue .f32 0x7f800001 = .nan ∧ floatValue .bf16 1 ≠ .nan := by decide +kernel

theorem hyp_ControlResults :
    CanPark thread ∧ ¬CanPark (withPending [.g 1 none]) ∧
      (let v := regsG (parkedSlot (threadWith [(5, rootAt 0x10020)])).regs 5
       v.tag = true ∧ capOtype v = 0 ∧ capHas v Perm.exec = true ∧ (capAddr v).toNat % 4 = 0) ∧
      (let v := regsG (parkedSlot (threadWith [(5, capSetOtype (rootAt 0x10020) 1)])).regs 5
       v.tag = true ∧ capOtype v = 1 ∧ capHas v Perm.exec = true) ∧
      (¬CanPark (withPending (.g 2 none :: fifteen)) ∧ (mySlot (withPending (.g 2 none :: fifteen))).regs.pending.length = 16) ∧
      ((mySlot thread).regs.pending.length ≠ 16 ∧ (mySlot thread).parked = false) := by
  unfold CanPark
  decide +kernel

/-! ### Capabilities -/

theorem hyp_CapabilityFormat :
    addrRepresentable (capE (rootAt 0)).toNat (capDecode (rootAt 0)).1 (0xffffffffffffffff : W64).toNat = true ∧
      (let c := capSetBounds (rootAt 0x10000) (encodeBounds 0x10000 0x11000) 0x10000
       addrRepresentable (capE c).toNat (capDecode c).1 0x11000 = true ∧ addrRepresentable (capE c).toNat (capDecode c).1 0x30000 = false) ∧
      -- bounds at the ends of the address space, and the lengths about 0xefff
      ((0 ≤ 2 ^ 64 ∧ 0 < 2 ^ 64) ∧ (2 ^ 64 - 1 ≤ 2 ^ 64 ∧ (2 ^ 64 : Nat) ≤ 2 ^ 64) ∧ 0x10001 + 0xefff - 0x10001 ≤ 0xefff ∧ ¬ 0x10001 + 0xf000 - 0x10001 ≤ 0xefff) ∧
      (encodeBounds 0 (2 ^ 64)).hi = 2 ^ 64 ∧ (encodeBounds 0x10001 (0x10001 + 0xefff)).lo = 0x10001 ∧ (encodeBounds 0x10001 (0x10001 + 0xf000)).lo = 0x10000 := by decide +kernel

/-- A result of each deriving operation, and the tag it has. -/
theorem hyp_DerivedWithinSource :
    (match boundsFrom (rootAt 0x10000) 0x100 true with | .ok r => r.tag && capDecode r == (0x10000, 0x10100) | _ => false) = true ∧
      (withAddr (rootAt 0) 5).tag = true ∧ (match buildFrom (rootAt 0) (rootAt 0x20).img with | .ok r => r.tag | _ => false) = true ∧
      (match sentryOf (rootAt 0x10) with | .ok r => capOtype r == 1 | _ => false) = true ∧
      (match sealWith (rootAt 0x10) (rootAt 4095) with | .ok r => capOtype r == 4095 | _ => false) = true ∧
      (match unsealWith (capSetOtype (rootAt 0x10) 16) (rootAt 16) with | .ok r => capOtype r == 0 && r.tag | _ => false) = true := by decide +kernel

def twoCaps (a b : Cap) : State := threadWith [(5, a), (6, b)]

/-- The sealing types at both ends of 16 to 4,095, and the lengths of bounds about the source's end. -/
theorem hyp_CapabilityDerivations :
    (let s := twoCaps (rootAt 0x10000) (capInt 0x100)
     let a := readG s 5
     let b := readG s 6
     a.tag = true ∧ capOtype a = 0 ∧ (capAddr a).toNat + (capAddr b).toNat ≤ 2 ^ 64 ∧
       (encodeBounds (capAddr a).toNat (min ((capAddr a).toNat + (capAddr b).toNat) (2 ^ 64))).lo = 0x10000) ∧
      (∀ n ∈ [16, 4095], let s := twoCaps (rootAt 0x10000) (rootAt (BitVec.ofNat 64 n))
        let b := readG s 6
        b.tag = true ∧ capOtype b = 0 ∧ capHas b Perm.sealing = true ∧ (capDecode b).1 ≤ (capAddr b).toNat ∧ (capAddr b).toNat < (capDecode b).2 ∧
          16 ≤ (capAddr b).toNat ∧ (capAddr b).toNat ≤ 4095 ∧ capOtype (readG s 5) = 0) ∧
      (∀ n ∈ [16, 4095], let s := twoCaps (capSetOtype (rootAt 0x10000) (BitVec.ofNat 12 n)) (rootAt (BitVec.ofNat 64 n))
        capHas (readG s 6) Perm.unseal = true ∧ 16 ≤ (capOtype (readG s 5)).toNat ∧ (capOtype (readG s 5)).toNat = (capAddr (readG s 6)).toNat) ∧
      (let s := twoCaps (rootAt 0) (rootAt 0)
       let a := readG s 5
       let b := readG s 6
       a.tag = true ∧ capOtype a = 0 ∧ capHas a Perm.exec = true ∧ capOtype b = 0 ∧ capPerms b &&& ~~~(capPerms a) = 0 ∧ capRsv b = 0 ∧
         (capT b - capB b).toNat ≤ 0xefff ∧ (capDecode b).2 ≤ 2 ^ 64 ∧ (capDecode a).1 ≤ (capDecode b).1 ∧ (capDecode b).2 ≤ (capDecode a).2 ∧
         capRepresentable b = true) := by decide +kernel

/-- A capability of 0x100 bytes at 0x10000, and one without a permission. -/
def small : Cap := capSetBounds (rootAt 0x10000) (encodeBounds 0x10000 0x10100) 0x10000
def without (c : Cap) (perm : Nat) : Cap := capSetPerms c (capPerms c &&& ~~~(1#12 <<< perm))

theorem hyp_CapabilityFaults :
    (let s := twoCaps small (capInt 0x101)
     (readG s 5).tag = true ∧ capOtype (readG s 5) = 0 ∧ (capDecode (readG s 5)).2 < (encodeBounds 0x10000 0x10101).hi) ∧
      (let s := twoCaps (rootAt 0) (capSetTag (rootAt 16) false); (readG s 6).tag = false) ∧
      (let s := twoCaps (rootAt 0) (capSetOtype (rootAt 16) 1); (readG s 6).tag = true ∧ capOtype (readG s 6) ≠ 0) ∧
      (let s := twoCaps (rootAt 0) (without (rootAt 16) Perm.sealing)
       (readG s 6).tag = true ∧ capOtype (readG s 6) = 0 ∧ capHas (readG s 6) Perm.sealing = false) ∧
      (let s := twoCaps (without (rootAt 0) Perm.exec) (rootAt 0)
       (readG s 5).tag = true ∧ capOtype (readG s 5) = 0 ∧ capHas (readG s 5) Perm.exec = false ∧ capPerms (readG s 6) &&& ~~~(capPerms (readG s 5)) ≠ 0) ∧
      (let s := twoCaps (rootAt 0) (capSetOtype (rootAt 0) 2); capOtype (readG s 6) ≠ 0 ∧ capOtype (readG s 6) ≠ 1) ∧
      (let s := twoCaps Cap.null (rootAt 0); (readG s 5).tag = false ∧ (regsG (parkedSlot s).regs 5).tag = false) ∧
      (let s := twoCaps (capSetOtype (rootAt 0) 16) (rootAt 0); capOtype (regsG (parkedSlot s).regs 5) ≠ 0 ∧ capOtype (regsG (parkedSlot s).regs 5) ≠ 1) ∧
      (let s := twoCaps (without (rootAt 0) Perm.exec) (rootAt 0); capHas (regsG (parkedSlot s).regs 5) Perm.exec = false) ∧
      (let s := twoCaps (rootAt 0x10002) (rootAt 0); (capAddr (regsG (parkedSlot s).regs 5)).toNat % 4 ≠ 0) := by decide +kernel

theorem hyp_CapabilityFaults_park : CanPark (twoCaps (rootAt 0) (rootAt 0)) := rfl

/-! ### Memory -/

def okAnd {ε α : Type} (x : Except ε α) (p : α → Bool) : Bool :=
  match x with
  | .ok a => p a
  | _ => false

theorem okAnd_iff {ε α : Type} (x : Except ε α) (p : α → Bool) : okAnd x p = true ↔ ∃ a, x = .ok a ∧ p a = true := by
  cases x <;> simp [okAnd]

def allHit (s : State) (segs : List Seg) : Bool := segs.all fun g => (l1Find (myCore s) (g.p.ia / 128) (segNc s g)).isSome

/-- A scalar load through g8 meets what ScalarLoads assumes: cached, not waiting, in so many parts, in the L1 or not. -/
def loadMeets (s : State) (n parts : Nat) (hit : Bool) : Bool :=
  let t := setMySlot s (deferSlot s)
  let c := readG t 8
  okAnd (dataCheck t c (effAddr c 0) n [Perm.load] false .scalar true) fun segs =>
    !anyUncached segs && !accessWaits t segs && segs.length == parts && allHit t segs == hit

/-- The thread's g8 addresses a byte of page 0, whose first two lines are in the L1 or not. -/
def reads (a : W64) : State := threadWith [(8, rootAt a), (9, rootAt 0x10000)]
def readsHit (a : W64) : State := withLine (withLine (reads a) 0) 1

/-- The first and the last byte of a line, an access over two lines, and the last byte of the page. -/
theorem hyp_ScalarLoads :
    (reads 0x10000).Inv ∧ CanDefer (reads 0x10000) ∧ loadMeets (reads 0x10000) 1 1 false = true ∧ loadMeets (readsHit 0x10000) 8 1 true = true ∧
      loadMeets (readsHit 0x1007f) 1 1 true = true ∧ loadMeets (readsHit 0x1007d) 4 2 true = true ∧ loadMeets (reads 0x1ffff) 1 1 false = true ∧
      (readsHit 0x1007d).Inv ∧ CanDefer (readsHit 0x1007d) :=
  ⟨⟨rfl, rfl, rfl, rfl, rfl, rfl, rfl, rfl, rfl, rfl, rfl⟩, rfl, by decide +kernel, by decide +kernel, by decide +kernel, by decide +kernel,
    by decide +kernel, ⟨rfl, rfl, rfl, rfl, rfl, rfl, rfl, rfl, rfl, rfl, rfl⟩, rfl⟩

/-- A store through g8 that fits in the chunk. -/
def storeMeets (s : State) (n parts : Nat) (hit : Bool) : Bool :=
  let c := readG s 8
  okAnd (dataCheck s c (effAddr c 0) n [Perm.store] false .scalar false) fun segs =>
    !anyUncached segs && !accessWaits s segs && storeRoom s segs true == .ok && segs.length == parts && allHit s segs == hit

/-- A chunk that has written 256 lines: the boundary falls before its next store to another line. -/
def fullChunk : State :=
  let s := reads 0x1ff80
  setSlot s 0 0 { slotAt s 0 0 with cur := { (slotAt s 0 0).cur with count := 256, writes := List.range 256 } }

theorem hyp_ScalarStores :
    storeMeets (reads 0x10000) 8 1 false = true ∧ storeMeets (readsHit 0x1007f) 1 1 true = true ∧ storeMeets (readsHit 0x1007f) 2 2 true = true ∧
      (let c := readG fullChunk 8
       okAnd (dataCheck fullChunk c (effAddr c 0) 8 [Perm.store] false .scalar false) fun segs =>
         let t := endChunk fullChunk 0 0
         !anyUncached segs && !accessWaits fullChunk segs && storeRoom fullChunk segs true == .boundary && freshChunk (mySlot t) &&
           storeRoom t segs true == .ok) = true := by decide +kernel

def capLoadMeets (s : State) : Bool :=
  let t := setMySlot s (deferSlot s)
  let c := readG t 8
  okAnd (dataCheck t c (effAddr c 0) 16 [Perm.load] true .never true) fun segs => !accessWaits t segs && allHit t segs

def capStoreMeets (s : State) (src : Reg) : Bool :=
  let c := readG s 8
  let x := readG s src
  checkAccess c (effAddr c 0) 16 Perm.store true == none && (!x.tag || capHas c Perm.storeCap) &&
    (!x.tag || capHas x Perm.global || capHas c Perm.storeLocal) &&
    okAnd (dataCheck s c (effAddr c 0) 16 [] false .never false) fun segs => !accessWaits s segs && storeRoom s segs true == .ok && allHit s segs

/-- A tagged value, an untagged one, and one without GLOBAL. -/
theorem hyp_CapabilityLoadStore :
    capLoadMeets (readsHit 0x10070) = true ∧ capStoreMeets (readsHit 0x10000) 9 = true ∧ capStoreMeets (readsHit 0x10000) 0 = true ∧
      (let s := threadWith [(8, rootAt 0x10000), (9, without (rootAt 0) Perm.global)]
       capStoreMeets (withLine s 0) 9 && !capHas (readG s 9) Perm.global) = true := by decide +kernel

def atomicMeets (s : State) (n : Nat) : Bool :=
  let t := setMySlot s (deferSlot s)
  let c := readG t 8
  let a := (capAddr c).toNat
  checkAccess c a n Perm.load (n == 16) == none && capHas c Perm.store && a % n == 0 && (mayStoreCap c (readG t 9)) &&
    okAnd (dataCheck t c a n [] false .never true) fun segs => !accessWaits t segs && storeRoom t segs true == .ok && allHit t segs

theorem hyp_AtomicInstructions :
    atomicMeets (readsHit 0x1007c) 4 = true ∧ atomicMeets (readsHit 0x10078) 8 = true ∧
      (let s := readsHit 0x10070
       let c := readG s 8
       checkAccess c 0x10070 16 Perm.load false == none && capHas c Perm.store && mayStoreCap c (readG s 9) &&
         okAnd (dataCheck s c 0x10070 16 [] false .never true) fun segs => !accessWaits s segs && storeRoom s segs true == .ok && allHit s segs) = true ∧
      -- memory holds 0 at 0x10078 and g0 is 0, so a CAS of g0 finds its value and a CAS of g9 does not
      (readX (readsHit 0x10078) 0).toNat = 0 ∧ (readX (readsHit 0x10078) 9).toNat ≠ 0 ∧ seenByte (readsHit 0x10078) 0x10078 = some 0 := by decide +kernel

/-- A device page 1 and a page 2 of the host. -/
def devices (a : W64) : State := withPage (withPage (wide (threadWith [(8, rootAt a), (9, rootAt 0x10000)])) 1 (2 ^ 116 + 0xf00000000205)) 2 (2 ^ 116 + 0x50215)
/-- Window N of the core's context over line 1. -/
def nonCoherent (s : State) : State := updCtx s 1 fun c => { c with ncw := [(0, 1#1 ++ 0#22 ++ 1#41 ++ 0#23 ++ 1#41)] }

def maintains (s : State) (uncached nc : Bool) : Bool :=
  let c := readG s 8
  (okAnd (dataCheck s c (effAddr c 0) 1 [Perm.load] false .maintenance true) fun segs => anyUncached segs == uncached && !accessWaits s segs) &&
    (okAnd (dataCheck s c (effAddr c 0) 1 [Perm.load] false .maintenance false) fun segs => segs.all fun g => g.p.uncached == uncached) &&
    okAnd (dataCheck s c (effAddr c 0 / 128 * 128) 128 [Perm.store] false .maintenance false) fun segs =>
      segs.all fun g => g.p.uncached == uncached && segNc s g == nc && !accessWaits s segs && storeRoom s segs false == .ok

theorem hyp_CacheMaintenance :
    (reads 0x10080).Inv ∧ maintains (reads 0x10080) false false = true ∧ maintains (nonCoherent (reads 0x10080)) false true = true ∧
      maintains (devices 0x110000) true false = true ∧ (mySlot (reads 0x10080)).pin = false ∧
      -- an address with no window fails the check
      (okAnd (dataCheck (reads 0x90000) (readG (reads 0x90000) 8) 0x90000 1 [Perm.load] false .maintenance true) fun _ => true) = false :=
  ⟨⟨rfl, rfl, rfl, rfl, rfl, rfl, rfl, rfl, rfl, rfl, rfl⟩, by decide +kernel, by decide +kernel, by decide +kernel, rfl, by decide +kernel⟩

/-- Each check of the order fails in turn, at both ends of a capability's bounds; the last two are a page that is not there and an address
that is not a multiple of 16. -/
theorem hyp_AccessFaults :
    (let s := threadWith [(8, Cap.null)]; (readG s 8).tag = false) ∧
      (let s := threadWith [(8, capSetOtype (rootAt 0x10000) 1)]; (readG s 8).tag = true ∧ capOtype (readG s 8) ≠ 0) ∧
      (let s := threadWith [(8, without (rootAt 0x10000) Perm.store)]
       (readG s 8).tag = true ∧ capOtype (readG s 8) = 0 ∧ capHas (readG s 8) Perm.store = false) ∧
      (let c := capSetAddr small 0x100f9; c.tag = true ∧ capOtype c = 0 ∧ capHas c Perm.store = true ∧ (capDecode c).2 < 0x100f9 + 8) ∧
      (let c := capSetAddr small 0xffff; c.tag = true ∧ 0xffff < (capDecode c).1) ∧
      (checkAccess (readG (reads 0x90000) 8) 0x90000 1 Perm.store false = none ∧
        transVa (reads 0x90000) (myCtx (reads 0x90000)) (.core 0) 0x90000 = .fault 1 0) ∧
      (checkAccess (readG (devices 0x130000) 8) 0x130000 1 Perm.store false = none ∧
        transVa (devices 0x130000) (myCtx (devices 0x130000)) (.core 0) 0x130000 = .fault 2 0x30000) ∧
      (let c := capSetAddr small 0x100e8
       c.tag = true ∧ capOtype c = 0 ∧ capHas c Perm.store = true ∧ (capDecode c).1 ≤ 0x100e8 ∧ 0x100e8 + 16 ≤ (capDecode c).2 ∧ 0x100e8 % 16 ≠ 0) ∧
      CanDefer (reads 0x90000) := by
  refine ⟨?_, ?_, ?_, ?_, ?_, ?_, ?_, ?_, rfl⟩ <;> decide +kernel

/-- A vector load of two lines of words, the active elements one, all and none of them; strides and offsets that stay in page 0. -/
def vectors (k : Mask) : State :=
  withRegs (placed State.reset) { placeRegs with g := [(8, rootAt 0x10040), (9, capInt 8)], v := [(2, 0x10#512)], k := [(3, k)] }

def lanesMeet (s : State) (addr : Nat → Nat) (w n perm : Nat) (k : KReg) (reading : Bool) : Bool :=
  let l := ((List.range n).filter fun j => (readK s k).getLsbD j).map fun j => (j, addr j)
  let segs := l.flatMap fun e => laneSegs s e.2 (w / 8)
  laneCheck s (readG s 8) l (w / 8) perm reading == none && !accessWaits s segs && storeRoom s segs true == .ok

theorem hyp_VectorMemory :
    (vectors 0x8001).Inv ∧ CanDefer (vectors 0x8001) ∧
      (∀ k ∈ [0, 1, 0x8000, 0xffff], lanesMeet (vectors (BitVec.ofNat 16 k)) (fun j => 0x10040 + 4 * j) 32 16 Perm.load 3 true = true) ∧
      lanesMeet (vectors 0xffff) (fun j => 0x10040 + 4 * j) 32 16 Perm.store 3 false = true ∧
      lanesMeet (vectors 0x80) (fun j => 0x10040 + 8 * j) 64 8 Perm.load 3 true = true ∧
      lanesMeet (vectors 1) (fun _ => 0x10050) 64 8 Perm.store 3 false = true ∧
      (let s := withLine (vectors 1) 0; allHit s (laneSegs s 0x10040 4)) = true :=
  ⟨⟨rfl, rfl, rfl, rfl, rfl, rfl, rfl, rfl, rfl, rfl, rfl⟩, rfl, by decide +kernel, by decide +kernel, by decide +kernel, by decide +kernel, by decide +kernel⟩

/-! ### Instructions whose effect takes place at their commit -/

/-- The condition of a chunk-ending instruction holds, does not hold yet, or a check before its commit fails. -/
def effectKind (e : Effect) : Nat :=
  match e with
  | .done _ _ => 0
  | .wait => 1
  | .fault _ _ => 2

def kindOf (s : State) (i : Instr) (d : Option Reg) : Nat := effectKind (commitEffect (inEffect s i false d) 0 0 (effectChunk (mySlot s).cur (myRegs s) i) i)

theorem alone_thread : Alone thread := alone_of _ (by decide +kernel)

/-- Core 0 is a member, at level 0, of a group of one on channel 33, with its arrival recorded or not. -/
def member (arrived : BitVec 40) : State :=
  updCore thread 0 fun k => { k with member := [(0, 0xc000000084000001)], arrived := arrived }

/-- A context without SYSTEM on its pcc. -/
def noSystem : State := withRegs (placed State.reset) { placeRegs with pcc := without placePcc Perm.system }

/-- An engine chunk that writes line 128, of the record at 0x14000, is registered before the thread asks. -/
def conflicted (s : State) : State := { s with registered := [⟨.copy 0, 1, [], [128], true⟩] }

theorem hyp_ChunkEndingProtocol :
    Alone thread ∧ (exec (.arrive false 3) thread = chunkEnding thread (.arrive false 3) false none fun t => Issue.after t (unchecked t)) ∧
      Asks thread thread ∧ Unheld thread (.arrive false 3) false none ∧
      -- it takes place, or waits for a release, or its check before the commit fails: a handle of no context
      kindOf thread (.arrive false 3) none = 0 ∧ Alone (member (1#40 <<< 33)) ∧ kindOf (member (1#40 <<< 33)) (.wait false 33) none = 1 ∧
      kindOf (threadWith [(5, capSetOtype (rootAt 0) 2), (6, rootAt 0x10000)]) (.epsend false 5 6) none = 2 ∧
      -- its check at issue fails
      Alone noSystem ∧ exec (.snap false) noSystem = chunkEnding noSystem (.snap false) false none (fun t => Issue.after t (systemCheck t)) ∧
      (systemCheck noSystem).toOption = none :=
  ⟨alone_thread, rfl, asks_of _ _ (by decide +kernel), unheld_of _ _ _ (by decide +kernel), by decide +kernel, alone_of _ (by decide +kernel),
    by decide +kernel, by decide +kernel, alone_of _ (by decide +kernel), rfl, rfl⟩

/-- A registered chunk holds the commit back; and a read at issue waits while another core's chunk commits its line. -/
theorem hyp_ChunkEndingProtocol_waits :
    (let s := conflicted (updCore (threadWith [(6, rootAt 0x14000)]) 0 fun k => { k with mail := [⟨0, 0, 0⟩] })
     !arbiterFree (issueEffect s (.eprecv false 3 6) false (some 3)) 0 0 (askingChunk s (.eprecv false 3 6) false (some 3))) = true ∧
      (let s := updCore (threadWith [(5, rootAt 0x14000)]) 1 fun k =>
         { k with slots := [(0, { Slot.reset with busy := true, older := some { Chunk.start Regs.reset with status := .committing, writes := [128] } })] }
       okAnd (dataCheck s (readG s 5) 0x14000 32 [Perm.load] true .never true) fun segs => accessWaits s segs) = true := by
  decide +kernel

/-- Channels 0 and 39, named and not, arrived and released. -/
theorem hyp_BarrierInstructions :
    Alone (member 0) ∧ (memberAt (myCore (member 0)) 0).getLsbD 63 = true ∧ ((memberAt (myCore (member 0)) 0).extractLsb' 26 6).toNat = (33#6).toNat ∧
      (myCore (member 0)).arrived.getLsbD (33#6).toNat = false ∧ (myCore (member (1#40 <<< 33))).arrived.getLsbD (33#6).toNat = true ∧
      (∀ n < 4, ¬((memberAt (myCore (member 0)) n).getLsbD 63 = true ∧ ((memberAt (myCore (member 0)) n).extractLsb' 26 6).toNat = (39#6).toNat)) :=
  ⟨alone_of _ (by decide +kernel), by decide +kernel, by decide +kernel, by decide +kernel, by decide +kernel, by decide +kernel⟩

/-! ### Queues

The deque ring lies at virtual 0x18000 (16 entries), a record at 0x14000, a join counter at 0x15000, a launch record at 0x16000; kernel 1
runs. -/

def ring : Cap := capSetBounds (rootAt 0x18000) (encodeBounds 0x18000 0x18100) 0x18000
def kernel1 : Kernel :=
  { state := .running, live := 1, budget := 1000, left := 1000000, cls := 0, demotions := 0, charged := 0, doneCap := rootAt 0x1f000, region := [0],
    stamp := 0, time := 0, fraction := 0 }

/-- The thread belongs to kernel 1; its deque has entries from TOP to BOTTOM; `counter` stands in the join counter. -/
def queues (l : Tbl Cap) (bottom top : W32) (counter : Nat) : State :=
  let s := threadWith l
  let s := updCore s 0 fun k => { k with dqring := ring, bottom := bottom, top := top }
  let s := setSlot s 0 0 { slotAt s 0 0 with kernel := 1 }
  let s := updCtx s 1 fun c => { c with kernels := [(1, kernel1)] }
  withMem (withMem s 0x4038 0x10001000 4) 0x5000 counter 8

def record : Cap := rootAt 0x14000
def queued (l : Tbl Cap) (counter : Nat) : State := queues l 1 0 counter

theorem hyp_DequeInstructions_rings :
    (let s := queues [] 0 0 0; ringSize (coreAt s 0).dqring = 16 ∧ (coreAt s 0).bottom - (coreAt s 0).top = 0) ∧
      (let s := queues [] 15 0 0
       ((coreAt s 0).bottom - (coreAt s 0).top).toNat < ringSize (coreAt s 0).dqring ∧ okAnd (agentWriteCap s 1 (ringEntry ring 15) record) (fun _ => true) = true) ∧
      (let s := queues [] 16 0 0; ringSize (coreAt s 0).dqring ≤ ((coreAt s 0).bottom - (coreAt s 0).top).toNat) ∧
      (let s := queues [] 0x10 0xffffffff 0; ringSize (coreAt s 0).dqring ≤ ((coreAt s 0).bottom - (coreAt s 0).top).toNat) ∧
      ringSize (coreAt thread 0).dqring = 0 ∧
      (let s := queues [] 1 0 0
       okAnd (agentReadCap s 1 (ringEntry ring 0)) (fun _ => true) = true ∧ ((coreAt s 0).bottom - (coreAt s 0).top) ≠ 0) := by decide +kernel

/-- DQPUSH of a sealed record, and of one that it seals. -/
theorem hyp_DequeInstructions_push :
    Alone (queued [(8, sealRecord record)] 0) ∧
      (let s := queued [(8, sealRecord record)] 0
       let k := readG s 8
       let e := inEffect s (.dqpush false 8) false none
       k.tag && capOtype k == 3 && unheld s (.dqpush false 8) none && okAnd (checkRecord e 1 k) fun r => kernelRuns s 1 (recKernel r.flags).toNat && okAnd (dequePush e 0 k r.flags) fun _ => true) = true ∧
      (let s := queued [(8, record)] 0
       let k := readG s 8
       let e := inEffect s (.dqpush false 8) false none
       checkPerms k 0x14000 64 true [Perm.load, Perm.loadCap] == none && unheld s (.dqpush false 8) none && okAnd (checkRecord e 1 (sealRecord k)) fun r =>
         recKernel r.flags == (mySlot s).kernel && kernelRuns s 1 1 && okAnd (dequePush e 0 (sealRecord k) r.flags) fun _ => true) = true :=
  ⟨alone_of _ (by decide +kernel), by decide +kernel, by decide +kernel⟩

theorem hyp_DequeInstructions_take :
    (let s := queued [] 0
     okAnd (popBottom (inEffect s (.dqpop false 5) false (some 5)) 0) (fun _ => true) &&
       okAnd (stealTop (inEffect s (.dqsteal false 5 0) false (some 5)) 0) (fun _ => true) && (coreAt s 0).owner == myCtx s && unheld s (.dqpop false 5) (some 5) && unheld s (.dqsteal false 5 0) (some 5) && unheld s (.endThread false) none &&
       (coreAt s 1023).owner != myCtx s) = true := by decide +kernel

def counterMeets (s : State) (r : Reg) : Bool :=
  let j := readG s r
  checkPerms j (capAddr j).toNat 32 true [Perm.load, Perm.store, Perm.loadCap, Perm.storeCap] == none &&
    okAnd (peekSegs s 0 (capAddr j).toNat 32 true) fun _ => true

/-- A count of 0, of 1 without a guard, of 1 with a guard, of 2. -/
theorem hyp_DequeInstructions_join :
    (∀ n ∈ [0, 1, 2],
      let s := queued [(8, rootAt 0x15000)] n
      let e := inEffect s (.join false 8) false none
      (counterMeets s 8 && unheld s (.join false 8) none && okAnd (agentRead e 1 0x15000 8) (fun v => v == n) && okAnd (agentReadCap e 1 0x15010) (fun g => !g.tag) &&
        okAnd (agentWrite e 1 0x15000 8 (n - 1)) fun _ => true) = true) ∧
      (let s := queued [(8, rootAt 0x15000)] 1
       let s := { s with mem := memSetTag (memPut s.mem 0x15010 (sealRecord record).img.toNat 16) 0x15010 true }
       let e := inEffect s (.join false 8) false none
       counterMeets s 8 && unheld s (.join false 8) none && okAnd (agentReadCap e 1 0x15010) fun g => g.tag && okAnd (checkRecord e 1 g) fun r =>
         kernelRuns s 1 (recKernel r.flags).toNat && okAnd (agentWrite e 1 0x15000 8 0) fun u => okAnd (dequePush u 0 g r.flags) fun v =>
           okAnd (agentWriteCap v 1 0x15010 Cap.null) fun _ => true) = true := by decide +kernel

theorem hyp_DequeInstructions_suspend :
    (∀ n ∈ [0, 1],
      let s := queued [(8, rootAt 0x14040), (9, rootAt 0x15000)] n
      let k := readG s 8
      let e := inEffect s (.suspend false 8 9) false none
      (checkPerms k 0x14040 64 true [Perm.load, Perm.store, Perm.loadCap, Perm.storeCap] == none && !recordLocal (myRegs s) &&
        okAnd (peekSegs s 0 0x14040 64 false) (fun _ => true) && counterMeets s 9 && unheld s (.suspend false 8 9) none && kernelRuns s 1 1 &&
        okAnd (writeRecord e 0 0 (myRegs s) 0x14040) fun u => okAnd (agentRead u 1 0x15000 8) (fun v => v == n) &&
          okAnd (agentReadCap u 1 0x15010) (fun g => !g.tag) && okAnd (dequePush u 0 (sealRecord k) (recFlags 1 0)) (fun _ => true) &&
          okAnd (agentWriteCap u 1 0x15010 (sealRecord k)) fun _ => true) = true) ∧
      Alone (queued [(8, rootAt 0x14040), (9, rootAt 0x15000)] 0) :=
  ⟨by decide +kernel, alone_of _ (by decide +kernel)⟩

theorem hyp_DequeInstructions_launch :
    (let s := queued [(8, rootAt 0x16000)] 0
     let s := { s with mem := memSetTag (memPut s.mem 0x16030 (rootAt 0x1f000).img.toNat 16) 0x16030 true }
     checkAligned (readG s 8) 0x16000 96 32 [Perm.load, Perm.loadCap] == none && okAnd (peekSegs s 0 0x16000 96 true) fun g =>
       let w := (readSegs s g).1
       !accessWaits s g && asks s w && doneCheck (doneSeen s 0x16000) == none && unheld w (.klaunch false 8) none &&
         okAnd (readLaunch (inEffect w (.klaunch false 8) false none) 1 0x16000) fun r => doneCheck r.doneCap == none) = true := by decide +kernel

/-! ### Engine instructions, messages, and the system's -/

/-- A program at 0x14000, its cluster's lease held by core 0 or not, and n entries in each queue. -/
def engines (lease : LeaseState) (n : Nat) (l : Tbl Cap) (out : List Nat) : State :=
  let e := placeEntry0 0
  let k := Cluster.reset
  let s := setCluster (threadWith l) 0 { k with
    lease := lease, matrix := { k.matrix with queue := List.replicate n e }, copy := { k.copy with queue := List.replicate n e } }
  setSlot s 0 0 { slotAt s 0 0 with outstanding := out }

def programMeets (s : State) (x : Reg) : Bool :=
  checkPerms (readG s x) (capAddr (readG s x)).toNat 32 false [Perm.load, Perm.engine] == none && (capAddr (readG s x)).toNat % 32 == 0 &&
    okAnd (peekSegs s 0 (capAddr (readG s x)).toNat 32 true) fun _ => true

/-- MSWAP as a queued word at 0x14000. -/
def queuedWord (lease : LeaseState) (n : Nat) : State := withMem (engines lease n [(5, rootAt 0x14000)] []) 0x4000 ((encodeCommand .mswap).getD 0).toNat 32

theorem hyp_EngineInstructions :
    Alone (engines .held 15 [(5, rootAt 0x14000)] []) ∧ programMeets (engines .held 15 [(5, rootAt 0x14000)] []) 5 = true ∧
      ((clusterAt (engines .held 15 [] []) 0).lease = .held ∧ (clusterAt (engines .held 15 [] []) 0).holder.toNat = 0 % 8 ∧
        (clusterAt (engines .held 15 [] []) 0).matrix.queue.length < 16 ∧ (clusterAt (engines .held 15 [] []) 0).copy.queue.length < 16) ∧
      ¬(clusterAt (engines .free 0 [] []) 0).lease = .held ∧ (mySlot (engines .free 0 [] [])).outstanding = [] ∧
      (mySlot (engines .free 0 [] [3])).outstanding ≠ [] ∧ Alone (engines .free 0 [] [3]) ∧
      (let s := queuedWord .held 15
       okAnd (dataCheck s (readG s 5) 0x14000 32 [Perm.load] true .never true) fun g =>
         let v := (readSegs s g).2
         let w := updMyChunk (readSegs s g).1 fun q => { q with word := BitVec.ofNat 256 v }
         !accessWaits s g && okAnd (decodeCommand none (BitVec.ofNat 256 v)) (fun _ => true) && asks s w && unheld w (.cmdq false 5) none &&
           (seqOf (clusterAt w 0) false).queue.length < 16 && (clusterAt w 0).lease == .held &&
             (BitVec.ofNat 256 v).extractLsb' 240 4 == 0) = true :=
  ⟨alone_of _ (by decide +kernel), by decide +kernel, by decide +kernel, by decide +kernel, by decide +kernel, by decide +kernel,
    alone_of _ (by decide +kernel), by decide +kernel⟩

/-- A handle for core 0 of this package, held by context 1; an area of 64 bytes at 0x14000; 7 messages wait, or one, or none. -/
def mails (n : Nat) : State :=
  updCore (threadWith [(5, handleOf Config.moduleIndex 0 1 1 0), (6, rootAt 0x14000)]) 0 fun k =>
    { k with mail := List.replicate n ⟨0, 0, 0⟩ }

theorem canReserve_mails (n : Nat) (h : n < 8) : canReserve (mails n) (handleOf Config.moduleIndex 0 1 1 0) = true := by
  simp only [canReserve, handleModule_handleOf, handleDest_handleOf, handleCore_handleOf, bne_self_eq_false, Bool.false_eq_true, if_false]
  have : (coreAt (mails n) 0).mail = List.replicate n ⟨0, 0, 0⟩ := rfl
  have h1 : isOut (ctxOf (mails n) 1).life = false := rfl
  have h2 : (ctxOf (mails n) 1).parkedMsgs = [] := rfl
  simp only [h1, h2, Bool.false_eq_true, if_false, List.any_nil, Bool.not_false, Bool.and_true, decide_eq_true_eq]
  show (coreAt (mails n) 0).mail.length < 8
  rw [this, List.length_replicate]
  exact h

theorem hyp_MessageInstructions :
    Unheld (mails 7) (.epsend false 5 6) false none ∧ Unheld (mails 1) (.eprecv false 3 6) false (some 3) ∧
      okAnd (peekSegs (inEffect (mails 1) (.eprecv false 3 6) false (some 3)) 0 0x14000 64 false) (fun _ => true) = true ∧
      (readG (mails 7) 5).tag = true ∧ capOtype (handleOf 0 0 1 1 0) = 2 ∧ checkPerms (readG (mails 7) 6) 0x14000 64 true [Perm.load] = none ∧
      checkPerms (readG (mails 7) 6) 0x14000 64 true [Perm.store] = none ∧
      okAnd (peekSegs (mails 7) 0 0x14000 64 true) (fun _ => true) = true ∧ okAnd (peekSegs (mails 1) 0 0x14000 64 false) (fun _ => true) = true ∧
      handleValid (mails 7) 1 (handleOf Config.moduleIndex 0 1 1 0) = true ∧ canReserve (mails 7) (handleOf Config.moduleIndex 0 1 1 0) = true ∧
      (myCore (mails 0)).mail = [] ∧ (myCore (mails 1)).mail = [⟨0, 0, 0⟩] ∧
      -- a handle held by another context is not valid
      handleValid (mails 7) 1 (handleOf Config.moduleIndex 0 1 2 0) = false := by
  refine ⟨unheld_of _ _ _ (by decide +kernel), unheld_of _ _ _ (by decide +kernel), by decide +kernel, rfl, by decide, rfl, rfl, by decide +kernel,
    by decide +kernel, handleValid_own (core := 0) (dest := 1) rfl (by decide) rfl,
    canReserve_mails 7 (by decide), rfl, rfl, ?_⟩
  simp [handleValid, handleHolder_handleOf]

theorem hyp_MessageInstructions_alone (s : State) (h : s = updCore thread 0 fun k => { k with mail := [⟨0, 0, 0⟩] }) : Alone s := by
  subst h
  exact alone_of _ (by decide +kernel)

/-- A CLEAN that is not acknowledged, or an I/O store. -/
def busyCore (cmos : List Cmo) (stores : List IoStore) : State := updCore thread 0 fun k => { k with cmos := cmos, ioStores := stores }

/-- CHOLD 1 and CHOLD 64. -/
theorem hyp_SystemInstructions :
    capHas (myRegs thread).pcc Perm.system = true ∧ thread.armed = false ∧ ({ thread with armed := true }).armed = true ∧ Alone { thread with armed := true } ∧
      CanDefer thread ∧ (myCore (busyCore [] [])).cmos = [] ∧ (myCore (busyCore [] [])).ioStores = [] ∧ Alone (busyCore [⟨true, false, 0, 1⟩] [⟨0, 0, 8, 0⟩]) ∧
      (myCore (busyCore [⟨true, false, 0, 1⟩] [])).cmos ≠ [] ∧ (∃ x ∈ (myCore (busyCore [] [⟨0, 0, 8, 0⟩])).ioStores, x.slot = 0) ∧
      (mySlot thread).cur.hold = 0 ∧ (myCore thread).frozen = false ∧ (mySlot thread).cur.status = .executing ∧
      (1 ≤ (1#15).toNat ∧ (1#15).toNat ≤ 64) ∧ (1 ≤ (64#15).toNat ∧ (64#15).toNat ≤ 64) :=
  ⟨by decide +kernel, rfl, rfl, alone_of _ (by decide +kernel), rfl, rfl, rfl, alone_of _ (by decide +kernel), by decide +kernel,
    by decide +kernel, rfl, rfl, rfl, by decide, by decide⟩

/-- A thread inside a span of three instructions. -/
def inSpan : State := setSlot thread 0 0 { slotAt thread 0 0 with cur := { (slotAt thread 0 0).cur with hold := 3, count := 2 } }

theorem hyp_SystemChecks :
    exec (.wait false 3) inSpan = chunkEnding inSpan (.wait false 3) false none (fun t => Issue.after t (unchecked t)) ∧ (mySlot inSpan).cur.hold ≠ 0 ∧
      (myCore inSpan).frozen = false ∧ capHas (myRegs noSystem).pcc Perm.system = false ∧ Alone noSystem :=
  ⟨rfl, by decide +kernel, rfl, by decide +kernel, alone_of _ (by decide +kernel)⟩

/-! ### System registers -/

/-- A context whose REVMAP is usable; g5 has START set. -/
def revocable : State := updCtx (threadWith [(5, capInt 0x4000000000000000), (6, capInt 1)]) 1 fun c => { c with revmap := rootAt 0x18000, kernels := [(1, kernel1)] }

/-- A copy sequencer's chunk of the context is registered. -/
def registers : State := { thread with registered := [⟨.copy 0, 1, [], [], true⟩] }

theorem hyp_SystemRegisterInstructions :
    Alone revocable ∧ capHas (myRegs revocable).pcc Perm.system = true ∧ (readX revocable 5).getLsbD 62 = true ∧
      revMayStart (ctxOf revocable (myCtx revocable)) = true ∧ (readX revocable 6).getLsbD 62 = false ∧
      revMayStart (ctxOf thread (myCtx thread)) = false ∧ CanDefer thread ∧
      (∀ n ∈ [0x001, 0x006, 0x010, 0x05f], sysWaits thread 0 (BitVec.ofNat 12 n) = false) ∧
      Alone registers ∧ sysWaits registers 0 0x050 = true ∧
      (kernelAt revocable (myCtx revocable) ((capAddr (readG revocable 6)).toNat % 2 ^ 16) = some kernel1 ∧ kernel1.state = .running) ∧
      kernelAt (updCtx revocable 1 fun c => { c with kernels := [(1, { kernel1 with state := .retired })] }) 1 1 = some { kernel1 with state := .retired } :=
  ⟨alone_of _ (by decide +kernel), by decide +kernel, by decide +kernel, by decide +kernel, by decide +kernel, by decide +kernel, rfl,
    by decide +kernel, alone_of _ (by decide +kernel), by decide +kernel, by decide +kernel, by decide +kernel⟩

theorem hyp_SystemRegisterReads : (1023 < 1024 ∧ 3 < 4) ∧ (coreAt (mails 7) 0).mail.length ≤ 8 ∧ (coreAt (mails 8) 0).mail.length ≤ 8 :=
  ⟨by decide, Nat.le_of_ble_eq_true rfl, Nat.le_of_ble_eq_true rfl⟩

/-- LIMIT and LEASEMAX about both ends of their ranges, deques empty and not, and MEMBER0's words: a join with the greatest channel and
size, one with the least, a channel too great, a rank too great, a size of 0, and a leave. -/
def joins (k : Core) (w : W64) (n depth : Nat) : Bool :=
  w.getLsbD 63 && n == depth && 2 ^ 30 ≤ (w.extractLsb' 32 31).toNat && (w.extractLsb' 26 6).toNat ≤ 39 &&
    ([0, 1, 2, 3].all fun j => !(memberAt k j).getLsbD 63 || (memberAt k j).extractLsb' 26 6 != w.extractLsb' 26 6) &&
    1 ≤ (w.extractLsb' 0 11).toNat && (w.extractLsb' 0 11).toNat ≤ 1024 && (w.extractLsb' 16 10).toNat < (w.extractLsb' 0 11).toNat &&
    w.extractLsb' 11 5 == 0

theorem hyp_SystemRegisterWrites :
    (∀ w ∈ [1, 4096], 1 ≤ w % 2 ^ 13 ∧ w % 2 ^ 13 ≤ 4096) ∧ (∀ w ∈ [0, 4097, 8191, 8192], w % 2 ^ 13 = 0 ∨ 4096 < w % 2 ^ 13) ∧
      (∀ w ∈ [1, 256], 1 ≤ w % 2 ^ 9 ∧ w % 2 ^ 9 ≤ 256) ∧ (∀ w ∈ [0, 257, 511, 512], w % 2 ^ 9 = 0 ∨ 256 < w % 2 ^ 9) ∧
      ringSize (coreAt thread 0).dqring = 0 ∧ ((coreAt (queues [] 3 3 0) 0).bottom = (coreAt (queues [] 3 3 0) 0).top) ∧
      (ringSize (coreAt (queues [] 4 3 0) 0).dqring ≠ 0 ∧ (coreAt (queues [] 4 3 0) 0).bottom ≠ (coreAt (queues [] 4 3 0) 0).top) ∧
      joins (coreAt thread 0) 0xc00000009fff0400 0 0 = true ∧ joins (coreAt thread 0) 0xc00000009fff0401 0 0 = false ∧ joins (coreAt thread 0) 0xc00000009c000400 0 0 = true ∧
      joins (coreAt thread 0) 0xffffffff83ff0400 0 0 = true ∧ joins (coreAt thread 0) 0xc000000000000001 0 0 = true ∧
      joins (coreAt thread 0) 0xc0000000a0000001 0 0 = false ∧ joins (coreAt thread 0) 0xc000000000010001 0 0 = false ∧
      joins (coreAt thread 0) 0xc000000000000000 0 0 = false ∧ joins (coreAt thread 0) 0xbfffffff00000001 0 0 = false ∧
      joins (coreAt (member 0) 0) 0xc000000084000001 1 1 = false ∧ joins (coreAt (member 0) 0) 0xc000000000000001 1 1 = true ∧
      (let m := memberAt (coreAt (member 0) 0) 0
       (0 : W64).getLsbD 63 = false ∧ 2 ^ 30 ≤ (m.extractLsb' 32 31).toNat ∧ (coreAt (member 0) 0).arrived.getLsbD (m.extractLsb' 26 6).toNat = false) ∧
      (ctxOf thread (coreAt thread 0).owner).revBusy = false ∧
      (ctxOf (updCtx thread 1 fun c => { c with revBusy := true }) 1).revBusy = true := by decide +kernel

/-! ### Uncached accesses, RAMO, the virtual caches -/

def uncachedMeets (s : State) (n : Nat) (perm : Nat) (reading host : Bool) : Bool :=
  let k := readG s 8
  okAnd (dataCheck s k (effAddr k 0) n [perm] false .scalar reading) fun segs =>
    match segs with
    | [g] => g.p.uncached && isHost g.p.loc == host
    | _ => false

/-- Page 3 lies in the memory of cluster 0, page 4 after it. -/
def clusterPages (s : State) : State := withPage (withPage (wide s) 3 (2 ^ 116 + 0xe00000000005)) 4 (2 ^ 116 + 0xe00000010005)

def ramoMeets (s : State) (cl n : Nat) (owns : Bool) : Bool :=
  let k := readG s 8
  checkAccess k (capAddr k).toNat n Perm.load false == none && capHas k Perm.store && (capAddr k).toNat % n == 0 &&
    okAnd (dataCheck s k (capAddr k).toNat n [] false .never false) fun segs =>
      match segs with
      | [g] => (ownsCluster s 1 cl && isClusterMem g.p.loc && clusterOfKey g.p.loc == cl) == owns && !segPoisoned s (mySlot s) false g &&
          okAnd (peekSegs s 0 (capAddr k).toNat n true) (fun l => decide (l = [g])) &&
          (let w := enterLine (enterLine s (g.p.ia / 128) false) (g.p.ia / 128) true
           asks s w && unheld w (.ramo false 5 8 0 .add true) (some 5))
      | _ => false

theorem hyp_UncachedAndRemote :
    Alone (devices 0x110000) ∧ uncachedMeets (devices 0x110000) 8 Perm.load true false = true ∧
      uncachedMeets (devices 0x11ffff) 1 Perm.store false false = true ∧ uncachedMeets (devices 0x120000) 8 Perm.load true true = true ∧
      uncachedMeets (devices 0x12fffc) 4 Perm.store false true = true ∧
      (let s := clusterPages (threadWith [(8, rootAt 0x130008)]); ramoMeets s 0 8 true && ramoMeets s 1 8 false) = true ∧
      ramoMeets (clusterPages (threadWith [(8, rootAt 0x10004)])) 0 4 false = true ∧ Alone (clusterPages (threadWith [(8, rootAt 0x130008)])) :=
  ⟨alone_of _ (by decide +kernel), by decide +kernel, by decide +kernel, by decide +kernel, by decide +kernel, by decide +kernel, by decide +kernel,
    alone_of _ (by decide +kernel)⟩

/-- Caches of context 1: some DEFINED, the last with bindings. -/
def caches (l : Tbl VCache) (quota : W32) : State := updCtx (threadWith [(5, rootAt 0), (6, rootAt 0x14000), (7, capInt 0x1000)]) 1 fun c =>
  { c with vcs := l, quota := quota, binds := [⟨0, 0x10000, 2⟩] }

theorem hyp_VirtualCacheInstructions :
    Alone (caches [] 0) ∧
      (let b := readG (caches [] 0) 6
       checkAligned b (capAddr b).toNat 192 64 [Perm.load] = none ∧ okAnd (peekSegs (caches [] 0) 0 (capAddr b).toNat 192 true) (fun _ => true) = true) ∧
      (let a := readG (caches [] 0) 5; checkAccess a (capDecode a).1 ((capDecode a).2 - (capDecode a).1) Perm.vcbind false = none) ∧
      (let s := setCluster (caches [] 0) 0 { Cluster.reset with copy := { Sequencer.reset with queue := List.replicate 15 (placeEntry0 0) } }
       checkPerms (readG s 5) (capAddr (readG s 5)).toNat ((capAddr (readG s 7)).toNat % 2 ^ 32) false [Perm.load, Perm.vcbind] = none ∧
         (clusterAt s (myCluster s)).copy.queue.length < 16) ∧ CanDefer (caches [] 0) ∧
      -- VCQUERY of 0, 17, an UNDEFINED cache, and the last cache at the ends of what its fields hold
      16 < 17 ∧ (vcAt (ctxOf (caches [] 0) 1) 16).state = .undefined ∧
      (let x := ctxOf (caches [(16, ⟨.bound, ⟨16, List.range 1024, []⟩, none, 31, 0⟩)] 0) 1
       let v := vcAt x 16
       v.state ≠ .undefined ∧ v.parent < 32 ∧ v.geo.ways < 32 ∧ v.geo.banks.length < 2048 ∧ x.binds.length ≤ 32 ∧
         (childrenOf x 16).length < 32 ∧ vcDepth x 16 < 8) :=
  ⟨alone_of _ (by decide +kernel), by decide +kernel, by decide +kernel, by decide +kernel, rfl, by decide, by decide +kernel, by decide +kernel⟩

def defined (l : List Nat) : Tbl VCache := l.map fun i => (i, ⟨.defined, ⟨1, [i], [16 * i]⟩, none, 0, 0⟩)

/-- The refusal of a full context, of each bad descriptor, of ways that are not free, of a quota one too small; an acceptance at the quota
and with the greatest numbers; and the three answers of VCFREE. -/
theorem hyp_VirtualCacheShapes :
    (∀ i < 17, 1 ≤ i → vcState (ctxOf (caches (defined (List.range' 1 16)) 0) 1) i ≠ .undefined) ∧
      (let c := ctxOf (caches (defined (List.range' 1 15)) 0) 1; vcState c 16 = .undefined ∧ ∀ i < 16, 1 ≤ i → vcState c i ≠ .undefined) ∧
      (let c := ctxOf (caches [] 0) 1; vcState c 1 = .undefined) ∧
      -- descriptors: WAYS 0 and 17, no bank, a reserved bit, PARENT 17; and WAYS 1 and 16, PARENT 0 and 31
      ((0x1f00#64).extractLsb' 0 5).toNat = 0 ∧ 16 < ((0x1f11#64).extractLsb' 0 5).toNat ∧ (0x10001#64).extractLsb' 16 48 ≠ 0 ∧
      (16 < ((0x1101#64).extractLsb' 8 5).toNat ∧ ((0x1101#64).extractLsb' 8 5).toNat ≠ 31) ∧
      (∀ d ∈ [0x0001, 0x1f10], (BitVec.ofNat 64 d).extractLsb' 13 51 = 0 ∧ (BitVec.ofNat 64 d).extractLsb' 5 3 = 0 ∧
        1 ≤ ((BitVec.ofNat 64 d).extractLsb' 0 5).toNat ∧ ((BitVec.ofNat 64 d).extractLsb' 0 5).toNat ≤ 16) ∧
      (claimable (caches [] 0) [0, 1535] 16).isSome = true ∧
      (let s := { caches [] 0 with slices := [(0, 33)] }; (claimable s [0] 16).isNone = true ∧ (claimable s [0] 15).isSome = true) ∧
      (let c := ctxOf (caches [] 31) 1; c.quota.toNat < slicesHeld c + [0, 1535].length * 16) ∧
      (let c := ctxOf (caches [] 32) 1; slicesHeld c + [0, 1535].length * 16 ≤ c.quota.toNat) ∧
      (let c := ctxOf (caches (defined [1, 2]) 0) 1
       vcState c 1 = .defined ∧ isParent c 1 = false ∧ vcState c 3 ≠ .defined ∧ vcState c 3 ≠ .bound) ∧
      (let c := ctxOf (caches [(1, ⟨.bound, ⟨1, [1], [16]⟩, none, 0, 0⟩), (2, ⟨.bound, ⟨1, [2], [32]⟩, none, 1, 0⟩)] 0) 1
       vcState c 1 = .bound ∧ isParent c 1 = true ∧ vcState c 2 = .bound ∧ isParent c 2 = false) ∧
      (0x10#64).extractLsb' 5 59 = 0 ∧ [0, 1535].length = 2 ^ 1 := by decide +kernel

/-- A refusal gives its word and changes nothing. -/
theorem hyp_VirtualCacheShapes_refused : (vcfreeEffect thread 1 0x11).2 = 0x1106 ∧ (vcfreeEffect thread 1 0x20).2 = 2 := by decide +kernel

/-! ### The matrix array -/

/-- An entry whose table holds page 3 and page 4, both of cluster memory, at the head of cluster 0's matrix sequencer. -/
def matrixHead : Entry := { placeEntry0 0 with table := [(0, rootAt 0x130000), (1, rootAt 0x140000)] }
def matrixOf (k : Cluster) : State :=
  { setCluster (clusterPages thread) 0 { k with matrix := { k.matrix with queue := [matrixHead] } } with
    turn := ⟨0, 0, .matrix⟩,
    tlb := [(3, BitVec.ofNat 128 (2 ^ 116 + 0xe00000000005), 0x90030, false), (4, BitVec.ofNat 128 (2 ^ 116 + 0xe00000010005), 0x90040, false)] }

def plane (st : PlaneState) (mode : MFmt) : Plane := { Plane.reset with state := st, mode := mode }

/-- Lines of page 4 whose words are all 1.0, dirty in core 0's L1, so that scales read 1. -/
def ones : BitVec 1024 := BitVec.ofNat 1024 (0x3f800000 * ((2 ^ 1024 - 1) / (2 ^ 32 - 1)))
def withScales (s : State) (n : Nat) : State :=
  updCore s 0 fun k => { k with l1 := (List.range n).map fun i => ⟨0x40000 / 128 + i, false, true, false, ones, 0, 0xe00000010000 + 128 * i, 0, 0⟩ }

theorem hyp_MatrixCommands_swap :
    (matrixOf Cluster.reset).Inv ∧ matrixEntry (matrixOf Cluster.reset) (turnCluster (matrixOf Cluster.reset)) = some matrixHead ∧
      (clusterAt (matrixOf Cluster.reset) 0).loading = none ∧ (clusterAt (matrixOf Cluster.reset) 0).shadow.state ≠ .ready ∧
      (clusterAt (matrixOf { Cluster.reset with shadow := plane .ready .int8 }) 0).shadow.state = .ready ∧
      -- the last rows, all rows, no row, and one row too many
      (1 ≤ (1#11).toNat ∧ (1023#10).toNat + (1#11).toNat ≤ 1024) ∧ (1 ≤ (1024#11).toNat ∧ (0#10).toNat + (1024#11).toNat ≤ 1024) ∧
      ¬(1 ≤ (0#11).toNat ∧ (0#10).toNat + (0#11).toNat ≤ 1024) ∧ ¬(1 ≤ (2#11).toNat ∧ (1023#10).toNat + (2#11).toNat ≤ 1024) :=
  ⟨inv_of _ (by decide +kernel), by decide +kernel, by decide +kernel, by decide +kernel, by decide +kernel, by decide, by decide, by decide, by decide⟩

/-- MLDW: an offset that is not a multiple; weights at page 3 and scales at page 4 that all read 1. -/
theorem hyp_MatrixCommands_load :
    (clusterAt (matrixOf Cluster.reset) 0).matrix.position ≠ 1 ∧ (64#32).toNat % 128 ≠ 0 ∧ (32#32).toNat % 64 ≠ 0 ∧
      (let s := withScales (matrixOf Cluster.reset) 8
       let sc := areaOf matrixHead 1 0 1024
       okAnd (areasSegs s 0 1 false [sc]) fun g => !engineWaits s (.matrix 0) (linesOf g) [] && badScale s g sc.addr (agentBytes s g) 256 == none) = true ∧
      (let s := withScales (matrixOf Cluster.reset) 8
       okAnd (matrixAreas s 0 matrixHead [Perm.load, Perm.engine] [[areaOf matrixHead 0 0 65536], [areaOf matrixHead 1 0 1024]]) fun _ => true) = true := by
  decide +kernel

theorem hyp_MatrixCommands_loaded :
    (let s := matrixOf { Cluster.reset with loading := some ⟨matrixHead, .mldw .bf16 0 0 0 0, 0, 0x130000, .bf16⟩ }
     loadReady s 0 && okAnd (agentSegsFrom s (.cluster 0) 1 0x130000 65536 true) fun _ => true) = true := by decide +kernel

/-- MSTRM of one row: refused for its fields (16), a plane that is not READY (17), and modes that do not agree (18); accepted; and with its
token, its scales valid. -/
def stream1 (f : MFmt) (rows : BitVec 11) : Stream := ⟨f, 0, 1, 0, 0, 512, 1023, rows, 0⟩

theorem hyp_MatrixCommands_stream :
    streamFields { Cluster.reset with active := plane .ready .bf16 } (stream1 .bf16 2) = some 16 ∧
      streamFields Cluster.reset (stream1 .bf16 1) = some 17 ∧ streamFields { Cluster.reset with active := plane .ready .int8 } (stream1 .bf16 1) = some 18 ∧
      (let k := { Cluster.reset with active := plane .ready .e5m2 }
       let s := withScales (matrixOf k) 1
       let m := stream1 .e4m3 1
       streamFields k m == none && k.token == false && k.waiting == none && m.rows != m.rowoff &&
         okAnd (matrixAreas s 0 matrixHead [Perm.load, Perm.engine] [(streamRows m).map (actRow matrixHead m), (streamRows m).map (scaleRow matrixHead m)]) (fun _ => true) &&
         okAnd (streamSegs s 0 matrixHead m) (fun g => !engineWaits s (.matrix 0) (linesOf g) []) &&
         okAnd (agentSegsFrom s (.cluster 0) 1 (actRow matrixHead m 0).addr (rowSize .e4m3) true) (fun _ => true) &&
         okAnd (agentSegsFrom s (.cluster 0) 1 (scaleRow matrixHead m 0).addr 64 false) fun gs =>
           badScale s gs (scaleRow matrixHead m 0).addr (agentBytes s gs) 16 == none) = true ∧
      (clusterAt (matrixOf { Cluster.reset with token := true }) 0).token = true := by decide +kernel

/-- MSTORE of the last row, with the least stride each format allows. -/
theorem hyp_MatrixCommands_store :
    (1 ≤ (1#11).toNat ∧ (1023#10).toNat + (1#11).toNat ≤ 1024) ∧ (256 * outSize .fp32 ≤ (1024#16).toNat ∧ (1024#16).toNat % 64 = 0) ∧
      256 * outSize .e4m3 ≤ (256#16).toNat ∧
      (let s := matrixOf Cluster.reset
       okAnd (matrixAreas s 0 matrixHead [Perm.store, Perm.engine] [[areaOf matrixHead 0 0 1024]]) fun g => !engineWaits s (.matrix 0) [] (linesOf g)) = true := by
  decide +kernel

/-! ### The copy engine -/

/-- An entry whose table holds cluster memory (page 3) and pages 0 and 4, at the head of cluster 0's copy sequencer. -/
def copyHead : Entry := { placeEntry0 0 with table := [(0, rootAt 0x130000), (1, rootAt 0x100000), (2, rootAt 0x140000)] }
def copyOf (q : Sequencer) : State :=
  { setCluster (clusterPages thread) 0 { Cluster.reset with copy := { q with queue := [copyHead] } } with turn := ⟨0, 0, .copy⟩ }
def atPos (i : Instr) (p : Nat) : State := copyOf { Sequencer.reset with command := some i, position := p }

def runs (s : State) (plan : Plan) (sync : List Area) (rule : TagRule) (f : List Nat → List Nat) : Bool :=
  match runChunk s 0 copyHead plan sync rule f with
  | .done _ => true
  | _ => false

def copyIdle : State := copyOf Sequencer.reset
def sync4 : SyncRef := ⟨true, 2, 16⟩
def noSync : SyncRef := ⟨false, 0, 0⟩

/-- CPY of one byte, and of 4,096 tagged bytes with a sync word; the chunk at the destination's last byte before a multiple of 2,048 and the
last chunk; CFILL, CPY2D, CPFR and CSYNC beside it. -/
theorem hyp_CopyCommands_linear :
    (seqEntries (clusterAt copyIdle (turnCluster copyIdle)).copy).head? = some copyHead ∧
      copyAreas copyIdle copyHead [areaOf copyHead 1 0 1] [areaOf copyHead 0 0xffff 1] noSync = none ∧
      copyAreas copyIdle copyHead [areaOf copyHead 1 0 4096] [areaOf copyHead 0 0 4096] sync4 = none ∧
      ((areaOf copyHead 0 0 4096).addr % 16 = 0 ∧ (areaOf copyHead 1 0 4096).addr % 16 = 0 ∧ (4096#32).toNat % 16 = 0) ∧
      (clusterAt copyIdle 0).copy.command ≠ some (.cpy false 0 1 0xffff 0 1 noSync) ∧ (0#32) = 0 ∧
      runs (atPos (.cpy false 0 1 0x7ff 0 2 noSync) 0) ⟨[(0x100000, 1)], [(0x1307ff, 1)], 1⟩ [] none id = true ∧
      runs (atPos (.cpy false 0 1 0x7ff 0 2 noSync) 1) ⟨[(0x100001, 1)], [(0x130800, 1)], 1⟩ [] none id = true ∧
      runs (atPos (.cpy true 0 1 0 0 16 sync4) 0) ⟨[(0x100000, 16)], [(0x130000, 16)], 16⟩ (syncArea copyHead sync4) (some (rootAt 0x100000, rootAt 0x130000)) id = true ∧
      (clusterAt (atPos (.cpy false 0 1 0x7ff 0 2 noSync) 1) 0).copy.command = some (.cpy false 0 1 0x7ff 0 2 noSync) ∧
      runs copyIdle ⟨[], [(0x130000, 4)], 4⟩ [] none (fun _ => [fillBytes 0x01020304 0 4]) = true ∧
      copyAreas copyIdle copyHead ([0, 1].map fun k => areaOf copyHead 1 (k * 64) 4) ([0, 1].map fun k => areaOf copyHead 0 (k * 128) 4) noSync = none ∧
      runs copyIdle ⟨[], [], 2048⟩ [] none id = true ∧
      (areasCheck 16 [Perm.load, Perm.store, Perm.engine] [areaOf copyHead 2 16 16] = none ∧ inClusters copyIdle copyHead none (areaOf copyHead 2 16 16) = none) ∧
      runs copyIdle ⟨[], [(0x140010, 8)], 0⟩ [] none (fun _ => [7]) = true ∧ (39 < (40#6).toNat ∧ ¬39 < (39#6).toNat) := by decide +kernel

/-- CPYG of one element of 4 bytes and of 64 through offsets that memory holds as 0; 0 and 65,537 elements are refused. -/
theorem hyp_CopyCommands_gather :
    (let r := cpygCheck copyIdle copyHead 0 1 1 0 0 1 0 4 noSync; okAnd r (fun l => l == [0#32]) = true) ∧
      runs (copyOf { Sequencer.reset with offsets := [0] }) ⟨[(0x100000, 4)], [(0x130000, 4)], 4⟩ [] none id = true ∧
      (65536 < (65537#17).toNat ∧ (65536#17).toNat ≤ 65536 ∧ (65536#17) ≠ 0) := by decide +kernel

/-- A model key in slot 3. -/
def withKey (s : State) : State := { s with keys := [(3, .model 1 0)] }

theorem hyp_CopyCommands_unseal :
    (modelKey (withKey copyIdle) 1 3).isSome = true ∧ modelKey copyIdle 1 3 = none ∧
      copyAreas copyIdle copyHead [areaOf copyHead 1 0 (1 + 32)] [areaOf copyHead 0 0 1] noSync = none ∧
      inClusters copyIdle copyHead (some 0) (areaOf copyHead 0 0 1) = none ∧ NothingOwed copyIdle 0 ∧
      okAnd (rangesSegs copyIdle copyHead true [(0x100000, 16)]) (fun _ => true) = true ∧
      okAnd (rangesSegs copyIdle copyHead true [(0x100000 + 16 + 2048, 1)]) (fun _ => true) = true ∧ (0 < 2048 ∧ 2048 < 2049) := by
  refine ⟨by decide +kernel, by decide +kernel, by decide +kernel, by decide +kernel, ?_, by decide +kernel, by decide +kernel, by decide⟩
  intro c hc v hv
  revert hv
  rw [show c.2.savedClusters = [] from ?_]
  · intro h
    cases h
  · revert c hc
    decide +kernel

/-- The plaintext chunk of CPYU at position 2,048, its verification where the tag is another one, and its zeroing. -/
theorem hyp_CopyCommands_unseal_chunks :
    -- the first chunk, with a head that names the length, and with one that does not; and a chunk of CPFR that nothing holds
    (let s := withKey (withMem copyIdle 12 1 4)
     okAnd (rangesSegs s copyHead true [(0x100000, 16)]) (fun h => !engineWaits s (.copy 0) (linesOf h.flatten) [] && agentBytes s h.flatten / 2 ^ 96 == 1) &&
       okAnd (rangesSegs copyIdle copyHead true [(0x100000, 16)]) (fun h => agentBytes copyIdle h.flatten / 2 ^ 96 == 0) &&
       runs s ⟨[(0x100000, 16), (0x100010, 1)], [(0x130000, 1)], 1⟩ [] none (fun _ => [0]) && !warmHeld s copyHead 0x100000 2048) = true ∧
    (∀ key : List Nat, key = bytesOf 0 32 → modelKey (withKey copyIdle) 1 3 = some key) ∧
      (let s := withKey (copyOf { Sequencer.reset with command := some (.cpyu 0 1 0 0 2049 3 noSync), position := 2048 })
       runs s ⟨[(0x100000 + 16 + 2048, 1)], [(0x130800, 1)], 1⟩ [] none fun _ => [0]) = true ∧
      (let s := withKey (copyOf { Sequencer.reset with command := some (.cpyu 0 1 0 0 2049 3 noSync), position := 2049 })
       runs s ⟨[(0x100000 + 16 + 2049, 16)], [], 2049⟩ [] none id) = true ∧
      (let s := { withKey (copyOf { Sequencer.reset with command := some (.cpyu 0 1 0 0 2049 3 noSync), position := 4099 }) with eager := false }
       2 * (2049#32).toNat < (clusterAt s 0).copy.position ∧ s.eager = false) := by
  refine ⟨by decide +kernel, ?_, by decide +kernel, by decide +kernel, by decide +kernel⟩
  intro key h
  subst h
  rfl

/-- The tag that stands behind the ciphertext is the right one, or another. -/
theorem hyp_CopyCommands_tag :
    (let t := unsealTag (bytesOf 0 32) ⟨0, 0, 0, []⟩ 2049
     let g (s : State) := rangesSegs s copyHead true [(0x100000 + 16 + 2049, 16)]
     (okAnd (g copyIdle) fun l => agentBytes copyIdle l.flatten != t) &&
       let s := withMem copyIdle (16 + 2049) t 16
       okAnd (g s) fun l => agentBytes s l.flatten == t) = true := by decide +kernel

/-! ### What happens beside the instructions -/

/-- A chunk of the thread that has ended with one store to line 3. -/
def wrote3 : Chunk :=
  { Chunk.start placeRegs with status := .ended, count := 1, writes := [3], ws := [(3, bufWrite 0 1 0x5a false)] }
def withOlder (s : State) (o : Chunk) : State := setSlot s 0 0 { slotAt s 0 0 with older := some o }
def withCur (s : State) (k : Chunk) : State := setSlot s 0 0 { slotAt s 0 0 with cur := k }
def committing (acks : List Nat) : State := withOlder thread { wrote3 with status := .committing, stamp := 1, acks := acks }

/-- An ENDED chunk of core 1 that could be granted, whose request arrived before the others. -/
def asksFirst (s : State) : State :=
  { updCore s 1 fun k => { k with owner := 1, slots := [(0, { Slot.reset with busy := true, older := some { Chunk.start Regs.reset with status := .ended, count := 1, writes := [7] } })] } with
    requests := [4] }
/-- Slot 1 runs pinned, and an atomic of it has read the non-coherent line 3, which the chunk of slot 0 is to write. -/
def meetsAtomic : State :=
  let s := withOlder thread { wrote3 with writes := [], ws := [], nws := wrote3.ws }
  setSlot s 0 1 { Slot.reset with busy := true, pin := true, cur := { Chunk.start Regs.reset with count := 1, ncAtomics := [3] } }

/-- A chunk that waits behind a registered one, that can commit, and that is committing with and without acknowledgements outstanding. -/
theorem hyp_ChunkEvents_commit :
    (let s := withOlder thread wrote3
     (slotAt s 0 0).older = some wrote3 ∧ wrote3.status = .ended ∧ wrote3.effect = none ∧ (slotAt s 0 0).busy = true ∧ (coreAt s 0).stopped = false ∧
       ctxRuns s (coreAt s 0).owner = true ∧ (∀ w ∈ wrote3.writes, Tbl.get 0 s.hostHolds w = 0) ∧ atomicHeld s 0 0 wrote3 = false ∧
       earlierGrantable s 0 0 = false ∧ earlierGrantable (asksFirst s) 0 0 = true ∧ (∃ w ∈ wrote3.writes, Tbl.get 0 ({ s with hostHolds := [(3, 1)] }).hostHolds w ≠ 0) ∧
       ((slotAt meetsAtomic 0 0).older.map fun o => atomicHeld meetsAtomic 0 0 o) = some true ∧ arbiterFree s 0 0 wrote3 = true ∧
       arbiterFree { s with registered := [⟨.copy 1, 1, [3], [], true⟩] } 0 0 wrote3 = false ∧ s.eager = true ∧ ({ s with eager := false }).eager = false) ∧
      (slotAt thread 0 0).older = none ∧
      (slotAt (committing [4]) 0 0).older = some { wrote3 with status := .committing, stamp := 1, acks := [4] } ∧ 4 * 1 ∈ [4] ∧
      (slotAt (committing []) 0 0).older = some { wrote3 with status := .committing, stamp := 1 } ∧ 4 * 1 ∉ ([] : List Nat) ∧
      (slotAt (committing []) 0 0).parked = false ∧ targetAck ∉ [4] := by decide +kernel

theorem hyp_ChunkEvents_slots :
    (let s := setSlot thread 0 0 { slotAt thread 0 0 with parked := true }
     (slotAt s 0 0).parked = true ∧ (slotAt s 0 0).regs.pending.all pendReady = true) ∧
      (slotAt thread 0 0).parked = false ∧
      -- at the limit and one instruction before it
      (let s := withCur thread { Chunk.start placeRegs with count := 0x400 }
       (slotAt s 0 0).cur.status = .executing ∧ (slotAt s 0 0).cur.hold = 0 ∧ (slotAt s 0 0).cur.count ≠ 0 ∧ (slotAt s 0 0).limit.toNat ≤ (slotAt s 0 0).cur.count) ∧
      (let s := withCur thread { Chunk.start placeRegs with count := 0x3ff }; (slotAt s 0 0).cur.count < (slotAt s 0 0).limit.toNat) ∧
      -- first in arrival order, and not
      (let s := setSlot thread 0 0 { slotAt thread 0 0 with pinWait := some 5 }
       (slotAt s 0 0).pinWait = some 5 ∧ s.pinned = none ∧ (slotAt s 0 0).older = none ∧
         (coreAt s 0).stopped = false ∧ ctxRuns s (coreAt s 0).owner = true ∧
         (∀ a ∈ s.cores, ∀ b ∈ a.2.slots, ∀ j ∈ b.2.pinWait, b.2.busy = true → 5 ≤ j)) ∧
      (slotAt thread 0 0).pinWait = none ∧ (coreAt thread 0).cmos = [] ∧ (coreAt (busyCore [⟨true, true, 0, 1⟩] []) 0).cmos = [⟨true, true, 0, 1⟩] ∧
      (match transIa thread 1 (.core 0) 0 with | .ok p => !p.uncached | _ => false) = true ∧
      -- an uncached store that its target has not acknowledged
      (let s := busyCore [] [⟨0, 2 ^ 64, 4, 5⟩]; (coreAt s 0).ioStores.find? (fun q => q.slot == 0) = some ⟨0, 2 ^ 64, 4, 5⟩ ∧ (slotAt s 0 0).older = none) ∧
      -- a notice whose line has come back, one whose line is gone, and one of an active chunk
      (let s := updCore (withLine thread 3) 0 fun k => { k with notices := [3] }
       3 ∈ (coreAt s 0).notices ∧ 3 ∉ activeLines (coreAt s 0) ∧ (l1Find (coreAt s 0) 3 false).isSome = true) ∧
      (let s := updCore thread 0 fun k => { k with notices := [3] }; l1Find (coreAt s 0) 3 false = none) ∧
      (let s := updCore (withOlder thread wrote3) 0 fun k => { k with notices := [3] }; 3 ∈ activeLines (coreAt s 0)) := by decide +kernel

theorem hyp_ChunkEvents_publish :
    (let s := { updDie (withLine thread 3) (dirDie 3) fun d => { d with directory := [⟨3, false, false, 0, [some 0, none, none, none], 0⟩] } with
       tlb := [(0, BitVec.ofNat 128 (2 ^ 116 + 0x10005), 0x90000, false)] }
     (l1Find (coreAt s 0) 3 false).isSome = true ∧ dirtyLine s 3 = none ∧ (dirFind s 3).isSome = true ∧
       ∃ leaf q, Tbl.find s.tlb (3 / 512) = some (leaf, q) ∧ leafCls leaf ≠ 1) ∧
      isHost (2 ^ 64 + 0x180) = true ∧
      (LineBuf.mask (bufWrite 127 1 0x5a false)).getLsbD 127 = true ∧ (LineBuf.mask (bufWrite 127 1 0x5a false)).getLsbD 0 = false ∧
      (LineBuf.tagMask (bufWrite 112 16 0 true)).getLsbD 7 = true ∧ (LineBuf.tagMask (bufWrite 112 16 0 true)).getLsbD 0 = false := by
  refine ⟨⟨by decide +kernel, by decide +kernel, by decide +kernel, _, _, rfl, by decide +kernel⟩, ?_⟩
  decide +kernel

/-- The deque's one entry is the record at 0x14000. -/
def work : State :=
  let s := queued [] 0
  { s with mem := memSetTag (memPut s.mem 0x18000 (sealRecord record).img.toNat 16) 0x18000 true }

/-- Cores 0 to 7 are the context's, with an injection ring for class 0 at 0x18000. -/
def region8 : State :=
  let s := [1, 2, 3, 4, 5, 6, 7].foldl (fun s c => setCore s c { Core.reset with owner := 1 }) thread
  updCtx s 1 fun c => { c with dies := [(0, { CtxDie.reset with injring := [(0, ring)] })] }

/-- A launch of one cluster as a group of 8, and of a reserved bit. -/
def launch8 : Launch :=
  { entry := rootAt 0x10000, frame := Cap.null, records := rootAt 0x14000, doneCap := rootAt 0x1f000, budget := 1000000,
    shape := 0x10000020, place := 0x4400, map := Cap.null }

theorem hyp_KernelEvents_work :
    (let s := work
     (coreAt s 0).owner ≠ 0 ∧ (slotAt s 0 3).busy = false ∧ (coreAt s 0).frozen = false ∧ (coreAt s 0).stopped = false ∧ (coreAt s 0).stepping = none ∧
       (slotAt s 0 3).older = none ∧ ctxRuns s 1 = true ∧ extentsWait s 1 (acquireExtents s 0) = false ∧
       (acquire (engineCommit (extentsMark s 1 (acquireExtents s 0)) []) 0 (sourcesOf s 0)).2.isSome = true) ∧
      (let s := { work with registered := [⟨.copy 1, 1, [], [0x8000 / 128], true⟩] }; extentsWait s 1 (acquireExtents s 0) = true) ∧
      extentsWait thread 1 (acquireExtents thread 0) = false ∧
      (acquire (engineCommit (extentsMark thread 1 (acquireExtents thread 0)) []) 0 (sourcesOf thread 0)).2 = none ∧ (slotAt work 0 0).busy = true := by
  decide +kernel

/-- The launch ring at physical 0x200000 holds one entry: its capabilities' images, the words from BUDGET on, and the context's number. -/
def ringed (ctx : Nat) : State :=
  let s := updCtx region8 1 fun c => { c with hostLaunch := true, authority := capRoot }
  let img (a : W64) : Nat := (rootAt a).img.toNat
  let v := img 0x10000 + 2 ^ 256 * img 0x14000 + 2 ^ 384 * img 0x1f000 + 2 ^ 512 * 1000000 + 2 ^ 576 * 0x10000020 + 2 ^ 608 * 0x4400 + 2 ^ 768 * ctx
  { s with lrcfg := 0x200000, lrtail := 1, mem := memPut s.mem 0x200000 v 128 }

theorem hyp_KernelEvents_launch :
    (okAnd (acceptLaunch region8 1 launch8) fun r => okAnd (launchRecords region8 1 launch8 r.2 (groupHeads (coresOf r.1) (shapeGroup launch8))) fun _ => true) = true ∧
      (∀ code ∈ [1, 2, 3, 4], ∃ l ∈ [{ launch8 with shape := 0x10002020 }, { launch8 with budget := 0 }, { launch8 with place := 0x4401 },
        { launch8 with records := rootAt 0x14001 }], (match acceptLaunch region8 1 l with | .error n => n == code | .ok _ => false) = true) ∧
      -- the launch ring: empty, full (16 entries), and a tail too far on
      (thread.lrhead = thread.lrtail) ∧ (let s := { thread with lrtail := 16 }; s.lrhead ≠ s.lrtail ∧ (s.lrtail - s.lrhead).toNat ≤ lrEntries s) ∧
      (let s := { thread with lrtail := 17 }; lrEntries s < (s.lrtail - s.lrhead).toNat) ∧
      (let e (s : State) := physGet s ((s.lrcfg.extractLsb' 16 48).toNat * 2 ^ 16 + 128 * (s.lrhead.toNat % lrEntries s)) 128 8
       field (e (ringed 0)) 96 2 = 0 ∧ 4095 < field (e (ringed 4096)) 96 2 ∧ (ctxOf (ringed 2) 2).life = .free ∧ (ctxOf thread 1).hostLaunch = false ∧
         (ctxOf (updCtx (ringed 1) 1 fun c => { c with life := .saved }) 1).life = .saved ∧
         field (e { ringed 1 with mem := memPut (ringed 1).mem (0x200000 + 127) 1 1 }) 98 30 ≠ 0 ∧ anyPoison (memSetPoison (ringed 1).mem 0x200070) 0x200000 128 = true) ∧
      -- an entry that is taken, at once and after a registered chunk; one whose DONE image is no capability it may have
      (let s := ringed 1
       (match launchEntry s with
        | some (x, l) => x == 1 && doneCheck l.doneCap == none && !extentsWait s x (launchExtents s x l) &&
            extentsWait { s with registered := [⟨.copy 1, 1, [], [0xf000 / 128], true⟩] } x (launchExtents s x l)
        | none => false) = true) ∧
      launchEntry { ringed 1 with mem := memPut (ringed 1).mem 0x200030 0 16 } = none := by
  decide +kernel

theorem hyp_KernelEvents_kernels :
    kernelAt (queued [] 0) 1 1 = some kernel1 ∧ kernel1.state = .running ∧ kernelRuns (queued [] 0) 1 2 = false ∧
      (clusterAt (updCluster (queued [] 0) 0 fun k => { k with energy := [(65537, 999000000)] }) 0).energy = [((1 : BitVec 12).toNat * 65536 + (1 : BitVec 16).toNat, 999000000)] ∧
      -- one microjoule left of ENERGYLEFT, none left
      0 < kernel1.left.toInt - ((kernel1.fraction + 999999000000) / 1000000 : Nat) ∧ kernel1.left.toInt - ((kernel1.fraction + 1000000000000) / 1000000 : Nat) ≤ 0 ∧
      (0x8000000000000000#64).getLsbD 63 = true ∧ (0#64).getLsbD 63 = false ∧
      canRelease (member (1#40 <<< 33)) 1 0x40000000 33 = true ∧ canRelease (member 0) 1 0x40000000 33 = false ∧
      -- a holder of the GID on another channel holds the barrier back
      (let s := updCore (member (1#40 <<< 33)) 1 fun k => { k with owner := 1, member := [(0, 0xc000000088000001)] }
       groupHolders s 1 0x40000000 ≠ (barrierMembers s 1 0x40000000 33).map (·.1) ∧ canRelease s 1 0x40000000 33 = false) ∧ (member (1#40 <<< 33)).Inv :=
  ⟨by decide +kernel, by decide +kernel, by decide +kernel, by decide +kernel, by decide +kernel, by decide +kernel, by decide, by decide,
    by decide +kernel, by decide +kernel, by decide +kernel, inv_of _ (by decide +kernel)⟩

/-- Each offset of the aperture that the claim names is one that a 20-bit offset has, at the first and the last die and cluster. -/
theorem hyp_RegisterWriteEvents :
    (1 : BitVec 12) = (coreAt thread 0).owner ∧ (0 : BitVec 3).toNat = dieOf 0 ∧ injCount (ctxDie thread 1 0) 0 = 0 ∧
      (let s := updCtx thread 1 fun c => { c with dies := [(0, { CtxDie.reset with injring := [(3, ring)], injTail := [(3, 1)] })] }
       injCount (ctxDie s 1 0) 3 ≠ 0) ∧
      (∀ n ∈ [0x040, 0x047], sysWaits thread 0 (BitVec.ofNat 12 n) = false ∧ sysWaits registers 0 (BitVec.ofNat 12 n) = true) ∧
      (∀ n ∈ [0x050, 0x05f], sysWaits thread 0 (BitVec.ofNat 12 n) = false ∧ sysWaits registers 0 (BitVec.ofNat 12 n) = true) ∧
      (∀ n ∈ [0x80000, 0x80008, 0x80040, 0x80188, 0x801a0, 0x801a8, 0x80010 + 7 * 0x1000, 0x80018 + 7 * 0x1000, 0x801c0 + 7 * 0x1000,
        127 * 0x1000 + 8, 127 * 0x1000, 0x88000], (BitVec.ofNat 20 n).toNat / 8 * 8 = n) ∧
      ({ thread with doors := List.replicate 63 0 }).doors.length < 64 ∧ 64 ≤ ({ thread with doors := List.replicate 64 0 }).doors.length ∧
      thread.ready = true ∧ State.reset.ready = false ∧ thread.lrhead = thread.lrtail ∧ ({ thread with lrtail := 1 }).lrhead ≠ ({ thread with lrtail := 1 }).lrtail ∧
      (12#64).toNat % 16 ≤ 12 ∧ 12 < (13#64).toNat % 16 ∧ thread.armed = false ∧
      (let s := { thread with armed := true, latchAt := 0 }; s.armed = true ∧ s.latchAt ≤ s.time) ∧
      (let s := { thread with armed := true, latchAt := 1 }; s.armed = true ∧ s.time < s.latchAt) := by decide +kernel

/-- Core 0 waits for the lease with an ENDED MLEASE. -/
def waits0 : State := withOlder thread { Chunk.start placeRegs with status := .ended, count := 1, effect := some (.mlease false) }
def streamOf (token : Bool) (waiting : Option Nat) : State :=
  matrixOf { Cluster.reset with token := token, waiting := waiting, matrix := { Sequencer.reset with command := some (.mstrm .bf16 0 1 0 0 512 0 1 0) } }

theorem hyp_EngineEvents_lease :
    ((clusterAt waits0 0).lease = .free ∧ leaseOwed waits0 0 = none ∧ ((clusterAt waits0 0).order.find? fun i => (leaseWaiters waits0 0).contains i) = some 0) ∧
      leaseWaiters thread 0 = [] ∧ (clusterAt (engines .held 0 [] []) 0).lease = .held ∧ (clusterAt (engines .free 0 [] []) 0).lease ≠ .held ∧
      (∃ e ∈ seqEntries (clusterAt (engines .held 1 [] []) 0).matrix, e.core.toNat % 8 = (clusterAt (engines .held 1 [] []) 0).holder.toNat) ∧
      ((clusterAt (engines .held 0 [] []) 0).loading = none ∧ seqEntries (clusterAt (engines .held 0 [] []) 0).matrix = []) ∧
      16 < (17#64).toNat % 32 ∧ (16#64).toNat % 32 ≤ 16 ∧ (0#64).toNat % 32 ≤ 16 := by decide +kernel

theorem hyp_EngineEvents_stream :
    (let s := streamOf false (some 0); tokenAt s 0 (ringPlace 0) = some 0 ∧ (clusterAt s 0).waiting = some 0) ∧
      (clusterAt thread 0).waiting = none ∧ (clusterAt thread 0).matrix.command = none ∧
      (let s := streamOf true none
       (clusterAt s 0).matrix.command = some (.mstrm .bf16 0 1 0 0 512 0 1 0) ∧ (seqEntries (clusterAt s 0).matrix).head? = some matrixHead ∧ (clusterAt s 0).token = true ∧
         Machine.streaming s 0 = false ∧ Machine.streaming { s with registered := [⟨.matrix 0, 1, [], [], true⟩] } 0 = true) ∧
      (clusterAt (streamOf false (some 0)) 0).token = false ∧ (clusterAt (streamOf false none) 0).waiting = none ∧
      -- a chunk of a program that is charged below the bound
      (let e := { matrixHead with program := some (rootAt 0x14000) }
       let k := clusterAt (matrixOf { Cluster.reset with lease := .held, used := 3, bound := 5 }) 0
       e.program ≠ none ∧ k.lease = .held ∧ k.holder.toNat = e.core.toNat % 8 ∧ k.used + 1 < k.bound) := by decide +kernel

theorem hyp_EngineEvents_revocation :
    revMayStart (ctxOf thread 1) = false ∧ revMayStart (ctxOf revocable 1) = true ∧ (ctxOf thread 1).sweep = [] ∧
      (let s := updCtx thread 1 fun c => { c with revBusy := true, sweep := [0] }
       (ctxOf s 1).sweep = [0] ∧ engineWaits s (.sweep 1) (sweepReads s 1 0) (sweepWrites s 1 0) = false ∧
         engineWaits { withLine s 3 with registered := [⟨.copy 1, 1, [], [3], true⟩] } (.sweep 1) (sweepReads (withLine s 3) 1 0) (sweepWrites (withLine s 3) 1 0) = true) ∧
      (let s := updCtx thread 1 fun c => { c with revBusy := true }
       (ctxOf s 1).revBusy = true ∧ (ctxOf s 1).sweep = [] ∧
         ∀ k ∈ s.clusters, ∀ copy, (seqOf k.2 copy).check = true → ∀ e ∈ seqEntries (seqOf k.2 copy), e.ctx ≠ 1) ∧
      (let s := updCtx (updSeq (engines .held 1 [] []) 0 true fun q => { q with check := true }) 1 fun c => { c with revBusy := true }
       ∃ k ∈ s.clusters, (seqOf k.2 true).check = true ∧ ∃ e ∈ seqEntries (seqOf k.2 true), e.ctx = 1) := by decide +kernel

/-- A context in some state of life, its core stopped or not. -/
def living (life : Life) (stopped : Bool) : State :=
  updCtx (updCore thread 0 fun k => { k with stopped := stopped }) 1 fun c => { c with life := life }
def savedIn (s : State) (v : SavedCluster) : State := updCtx s 1 fun c => { c with savedClusters := [(0, v)] }

theorem hyp_SwitchEvents_stop :
    (let s := updCore thread 0 fun k => { k with switchAt := 0 }
     (coreAt s 0).switchAt ≠ BitVec.allOnes 64 ∧ (coreAt s 0).switchAt ≤ s.time ∧ (coreAt s 0).stopped = false ∧ ctxRuns s (coreAt s 0).owner = true) ∧
      (coreAt thread 0).switchAt = BitVec.allOnes 64 ∧ (let s := updCore thread 0 fun k => { k with switchAt := 1 }; ¬(coreAt s 0).switchAt ≤ s.time) ∧
      saveDue thread 0 = none ∧ saveDue (living .switching true) 0 = some 1 ∧ (ctxOf (living .switching true) 1).life = .switching ∧
      invHolds (living .switching true) = true ∧ savedReady thread 1 = false ∧
      savedReady (savedIn (living .switching true) ⟨Cluster.reset, false, false, true⟩) 1 = true ∧
      releasePending (living .switching true) 1 = false ∧ releasePending (member (1#40 <<< 33)) 1 = true ∧
      savedNow (ctxOf (savedIn thread ⟨Cluster.reset, false, false, false⟩) 1) 0 = false ∧
      leaseOf (updCluster (living .switching true) 0 fun k => { k with lease := .held, lastCtx := 1 }) 0 1 = true ∧ Tbl.find (ctxOf thread 1).savedClusters 0 = none ∧
      -- the head of the queue is the context's: its stream is drained first; two cores of one time
      ((seqEntries (clusterAt (engines .held 1 [] []) 0).matrix).head?.map (·.ctx)) = some 1 ∧
      (let s := [0, 1].foldl (fun s c => updCore s c fun k => { k with owner := 1, switchAt := 0 }) thread; ∀ c < 2, stopDue s c = true) ∧
      (∃ e ∈ seqEntries (clusterAt (engines .held 1 [] []) 0).copy, e.ctx = 1) := by decide +kernel

theorem hyp_SwitchEvents_resume :
    (ctxOf thread 1).transit = [] ∧ (ctxOf (updCtx thread 1 fun c => { c with transit := [⟨0, 0, ⟨0, 0, 0⟩, 0, 0⟩] }) 1).transit = [⟨0, 0, ⟨0, 0, 0⟩, 0, 0⟩] ∧
      (ctxOf thread 1).life ≠ .resuming ∧
      (let s := updCtx (living .resuming true) 1 fun c => { c with resumeAt := 0 }; (ctxOf s 1).life = .resuming ∧ (ctxOf s 1).resumeAt ≤ s.time) ∧
      (let s := updCtx (living .resuming true) 1 fun c => { c with resumeAt := 1 }; s.time < (ctxOf s 1).resumeAt) ∧
      (clusterAt (engines .held 0 [] []) 0).lease ≠ .free ∧
      (let s := savedIn thread ⟨{ Cluster.reset with lease := .held }, true, false, false⟩
       (clusterAt s 0).lease = .free ∧ leaseOwed s 0 = some 1 ∧ (Tbl.find (ctxOf s 1).savedClusters 0).isSome = true) ∧
      freedReady thread 1 = false ∧ freedReady (living .terminating false) 1 = true := by decide +kernel

/-! ### Cornerstone -/

/-- A request block at 0x20000, of a context and with some fields: offset, bytes, value. -/
def blockOf (ctx : Nat) (l : List (Nat × Nat × Nat)) : Nat := l.foldl (fun b f => b + f.2.2 * 2 ^ (8 * f.1)) (ctx * 2 ^ 16)
def asking (s : State) (ctx : Nat) (l : List (Nat × Nat × Nat)) : State :=
  { s with mem := memPut s.mem 0x20000 (blockOf ctx l) 64, doors := [0x20000] }
/-- The block at the head of the queue is this one, with this operation. -/
def asksFor (s : State) (op : Nat) : Bool := atHead s 0x20000 op
def block (s : State) : Nat := readRequest s 0x20000

/-- One byte that must be zero is not, for each operation's list of fields; and at the ends of the named ranges all are well. -/
theorem hyp_CornerstoneOperations_reserved :
    (∀ named ∈ [[(32, 1), (36, 4), (40, 8), (48, 8)], [(32, 16), (48, 1)], [(32, 2), (34, 2), (36, 2)], [], [(32, 4), (40, 8)], [(32, 1)],
        [(40, 8), (48, 4)], [(40, 8)]],
      reservedZero (block (asking thread 1 [(63, 1, 1)])) named = false ∧ reservedZero (block (asking thread 1 [(6, 2, 0x100)])) named = false ∧
        reservedZero (block (asking thread 1 [])) named = true) ∧
      (∀ op < 12, asksFor (asking thread 1 [(0, 2, op), (63, 1, 1)]) op = true ∧ asksFor thread op = false) ∧
      reservedZero (block (asking thread 1 [(32, 16, 2 ^ 128 - 1), (48, 1, 255)])) [(32, 16), (48, 1)] = true := by decide +kernel

/-- A save area of the least size, and one byte less; the flags' ends; and no free id. -/
theorem hyp_CornerstoneOperations_create :
    (let b := block (asking thread 0 [(0, 2, 1), (32, 1, 7), (36, 4, 5), (40, 8, 2 ^ 36 - 2 ^ 30), (48, 8, 188488 * 1024)])
     reqOp b = 1 ∧ field b 32 1 = 7 ∧ field b 40 8 = 2 ^ 36 - 2 ^ 30 ∧ field b 48 8 = 188488 * 1024 ∧ saveAreaOk (field b 40 8) (field b 48 8) = true ∧
       reservedZero b [(32, 1), (36, 4), (40, 8), (48, 8)] = true) ∧
      field (block (asking thread 0 [(32, 1, 8)])) 32 1 = 8 ∧ saveAreaOk 0 (188488 * 1024 - 1) = false ∧ saveAreaOk 1 (188488 * 1024) = false ∧
      saveAreaOk (2 ^ 36 - 2 ^ 16) (188488 * 1024) = false ∧ freeId thread = some 2 := by decide +kernel

/-- Every id has had its last generation. -/
theorem find_each {α : Type} (v : α) (n : Nat) : ∀ l : List Nat, n ∈ l → Tbl.find (l.map fun i => (i + 1, v)) (n + 1) = some v := by
  intro l
  induction l with
  | nil => simp
  | cons a l ih =>
    intro h
    simp only [List.map_cons, Tbl.find]
    split
    · rfl
    · exact ih ((List.mem_cons.mp h).resolve_left (by omega))
def spent : State := { thread with gens := (upTo 4094).map fun i => (i + 1, 0x3ffff) }
theorem hyp_CornerstoneOperations_create_none : freeId spent = none := by
  refine List.find?_eq_none.mpr fun i hi => ?_
  obtain ⟨j, hj, rfl⟩ := List.mem_map.mp hi
  have h : Tbl.get 0 spent.gens (j + 1) = 0x3ffff := by
    simp only [Tbl.get, spent, find_each _ j _ hj, Option.getD_some]
  have h : (Tbl.get 0 spent.gens (j + 1)).toNat = genMax := by rw [h]; rfl
  simp only [Bool.and_eq_true, bne_iff_ne, ne_eq, not_and, Decidable.not_not]
  exact fun _ => h

/-- GRANT and RETURN of cores 8 to 15 to a context, at its states and at the ends of the contexts' range. -/
def granting (s : State) (ctx : Nat) (mask : Nat) : State := asking s ctx [(0, 2, 2), (32, 16, 2), (48, 1, mask)]
def sealing (n : Nat) (l : Nat) : State := { thread with keys := (upTo n).map fun i => (l + i, .seal 1 0) }

theorem hyp_CornerstoneOperations_grant :
    (let s := granting thread 1 255
     let b := block s
     asksFor s 2 = true ∧ asksFor (asking thread 1 [(0, 2, 3)]) 3 = true ∧ 1 ≤ reqCtx b ∧ reqCtx b ≤ 4094 ∧ (ctxOf s 1).life = .running ∧ reservedZero b [(32, 16), (48, 1)] = true ∧
       (∀ c ∈ maskedCores (field b 32 16) (field b 48 1), (coreAt s c).owner = 0) ∧ (∀ k ∈ markedClusters (field b 32 16), k ∉ s.unavailable) ∧
       (ctxOf s 1).conf = false ∧ (∀ k ∈ markedClusters (field b 32 16), gasketLoad s k 1 = 0) ∧
       -- cores 32 to 39 stand on the second die, where the context has none yet
       (∀ c ∈ maskedCores (2 ^ 4) 255, dieOf c = 1 ∧ dieOf c ∉ (coresOwned s 1).map dieOf)) ∧
      holdsLease (updCluster thread 0 fun k => { k with lease := .held }) 0 = true ∧ holdsLease thread 0 = false ∧
      reqCtx (block (granting thread 0 1)) = 0 ∧ reqCtx (block (granting thread 4094 1)) = 4094 ∧ reqCtx (block (granting thread 4095 1)) = 4095 ∧
      (ctxOf thread 2).life = .free ∧
      -- taken: a core with an owner; a cluster that is unavailable; part of a cluster for a confidential context; 17 keys
      (∃ c ∈ maskedCores 1 1, (coreAt thread c).owner ≠ 0) ∧ (∃ k ∈ markedClusters 2, k ∈ ({ thread with unavailable := [1] }).unavailable) ∧
      field (block (granting thread 1 254)) 48 1 ≠ 0xff ∧ gasketLoad (sealing 16 1) 1 1 = 16 ∧ gasketLoad (sealing 17 1) 1 1 = 17 ∧
      -- RETURN: a core that is the context's own and runs a thread, and one that runs none
      (∃ y ∈ (coreAt thread 0).slots, y.2.busy = true) ∧
      (∀ c ∈ maskedCores 1 1, (coreAt (updCore thread 0 fun k => { k with slots := [] }) c).owner = 1 ∧
        ∀ y ∈ (coreAt (updCore thread 0 fun k => { k with slots := [] }) c).slots, y.2.busy = false) := by decide +kernel

/-- REVOKE at the last generation and before it; the last key slot, and none; 15 and 16 keys at the gasket. -/
theorem hyp_CornerstoneOperations_keys :
    (let s := asking thread 1 [(0, 2, 5)]
     asksFor s 5 = true ∧ asksFor (asking thread 1 [(0, 2, 6)]) 6 = true ∧ reservedZero (block s) [] = true ∧ (ctxOf s (BitVec.ofNat 12 (reqCtx (block s)))).life ∈ liveStates ∧ (ctxOf s 1).gen.toNat ≠ 2 ^ 18 - 1) ∧
      (ctxOf (updCtx thread 1 fun c => { c with gen := 0x3ffff }) 1).gen.toNat = 2 ^ 18 - 1 ∧
      freeKeySlot (sealing 15 1) = some 16 ∧ freeKeySlot thread = some 1 ∧
      (∃ c ∈ coresOwned (sealing 16 1) 1, 16 ≤ gasketLoad (sealing 16 1) (clusterOf c) 1) ∧
      (∀ c ∈ coresOwned (sealing 15 1) 1, gasketLoad (sealing 15 1) (clusterOf c) 1 < 16) := by decide +kernel

theorem hyp_CornerstoneOperations_keys_none : freeKeySlot (sealing 255 1) = none := by
  refine List.find?_eq_none.mpr fun i hi => ?_
  obtain ⟨j, hj, rfl⟩ := List.mem_map.mp hi
  have e : (sealing 255 1).keys = (upTo 255).map fun i => (i + 1, KeySlot.seal 1 0) := List.map_congr_left fun i _ => by rw [Nat.add_comm]
  simp only [Tbl.get, e, find_each _ j _ hj, Option.getD_some, isEmptySlot, Bool.false_eq_true, not_false_eq_true]

/-- FREESLOT of the context's own seal and model keys, of another's, and of slot 0. -/
theorem hyp_CornerstoneOperations_free :
    (let s := asking { thread with keys := [(3, .seal 1 0), (255, .model 1 0), (7, .model 2 0)] } 1 [(0, 2, 8), (32, 1, 255)]
     let b := block s
     asksFor s 8 = true ∧ reservedZero b [(32, 1)] = true ∧ field b 32 1 = 255 ∧ Tbl.get .empty s.keys 255 = .model 1 0 ∧ Tbl.get .empty s.keys 3 = .seal 1 0 ∧
       keyOwnedBy 1 (Tbl.get .empty s.keys 7) = false ∧ keyOwnedBy 1 (Tbl.get .empty s.keys 0) = false) := by decide +kernel

/-- RESUME of a context that is saved: its core free, taken, and a save area with poison. -/
def saved (owner : BitVec 12) : State :=
  updCtx (updCore (asking thread 1 [(0, 2, 10), (40, 8, 0x1234)]) 0 fun k => { k with owner := owner }) 1 fun c =>
    { c with life := .saved, savedCores := [(0, Core.reset)], saveBase := 0x100000, saveSize := 188488 * 1024 }
theorem hyp_CornerstoneOperations_resume :
    (let s := saved 0
     let b := block s
     asksFor s 10 = true ∧ asksFor (asking thread 1 [(0, 2, 11)]) 11 = true ∧ reservedZero b [(40, 8)] = true ∧ reqCtx b = 1 ∧ field b 40 8 = 0x1234 ∧ (ctxOf s 1).life = .saved ∧
       (∀ k ∈ (ctxOf s 1).savedCores, (coreAt s k.1).owner = 0) ∧ anyPoison s.mem (ctxOf s 1).saveBase.toNat (ctxOf s 1).saveSize.toNat = false ∧
       anyPoison (memSetPoison s.mem 0x100000) (ctxOf s 1).saveBase.toNat (ctxOf s 1).saveSize.toNat = true) ∧
      (∃ k ∈ (ctxOf (saved 2) 1).savedCores, (coreAt (saved 2) k.1).owner ≠ 0) ∧ (ctxOf thread 1).life ≠ .saved ∧
      (ctxOf (living .terminating false) 1).life = .terminating ∧ (ctxOf (living .saved false) 1).life ∈ liveStates := by decide +kernel

/-- MINT of a handle to core 0 for holder 4,095, this module named, whichever it is. -/
def minting (m : Nat) : State :=
  { thread with mem := memPut thread.mem 0x20000 (blockOf 1 [(0, 2, 4), (34, 2, 0xfff)] + m * 2 ^ (8 * 36)) 64, doors := [0x20000] }
theorem ctxOf_mem (s : State) (x : Memory) (l : List W64) (c : BitVec 12) : ctxOf { s with mem := x, doors := l } c = ctxOf s c := rfl
theorem coreAt_mem (s : State) (x : Memory) (l : List W64) (c : Nat) : coreAt { s with mem := x, doors := l } c = coreAt s c := rfl
theorem block_put (b : Nat) (h : b < 256 ^ 64) : block { thread with mem := memPut thread.mem 0x20000 b 64, doors := [0x20000] } = b := by
  have e : block { thread with mem := memPut thread.mem 0x20000 b 64, doors := [0x20000] } = memBytes (memPut thread.mem 0x20000 b 64) 0x20000 64 + 2 ^ (8 * 64) * 0 := rfl
  rw [e, Nat.mul_zero, Nat.add_zero]
  exact (memBytes_memPut 64 _ _ _ (by decide +kernel)).trans (Nat.mod_eq_of_lt h)
theorem field_low (c m off n : Nat) (h : off + n ≤ 36) : field (c + m * 2 ^ (8 * 36)) off n = field c off n := by
  have e : 2 ^ (8 * 36) = 2 ^ (8 * (36 - (off + n))) * (2 ^ (8 * off) * 2 ^ (8 * n)) := by
    rw [← Nat.pow_add, ← Nat.pow_add]; congr 1; omega
  simp only [field]
  rw [← Nat.mod_mul_right_div_self, ← Nat.mod_mul_right_div_self, e, ← Nat.mul_assoc, Nat.add_mul_mod_self_right]
theorem field_high (c m off n : Nat) (hc : c < 2 ^ (8 * 36)) (h : 36 ≤ off) : field (c + m * 2 ^ (8 * 36)) off n = field m (off - 36) n := by
  have e : 2 ^ (8 * off) = 2 ^ (8 * 36) * 2 ^ (8 * (off - 36)) := by rw [← Nat.pow_add]; congr 1; omega
  simp only [field]
  rw [e, ← Nat.div_div_eq_div_mul, Nat.add_mul_div_right _ _ (Nat.two_pow_pos _), Nat.div_eq_of_lt hc, Nat.zero_add]
theorem field_of_lt (m off n : Nat) (h : m < 2 ^ (8 * off)) : field m off n = 0 := by simp only [field, Nat.div_eq_of_lt h, Nat.zero_mod]

theorem hyp_CornerstoneOperations_mint :
    let s := minting Config.moduleIndex.toNat
    let b := block s
    s.doors.head? = some 0x20000 ∧ reqOp b = 4 ∧ reservedZero b [(32, 2), (34, 2), (36, 2)] = true ∧ reqCtx b = 1 ∧ (ctxOf s 1).life ∈ liveStates ∧ field b 32 2 = 0 ∧ (coreAt s 0).owner = 1 ∧
      field b 34 2 = 0xfff ∧ field b 36 2 = Config.moduleIndex.toNat := by
  have hm := Config.moduleIndex.isLt
  generalize Config.moduleIndex.toNat = m at hm ⊢
  have hc : blockOf 1 [(0, 2, 4), (34, 2, 0xfff)] < 2 ^ (8 * 36) := by decide +kernel
  have hb : block (minting m) = blockOf 1 [(0, 2, 4), (34, 2, 0xfff)] + m * 2 ^ (8 * 36) := by
    refine block_put _ (Nat.lt_of_lt_of_le (Nat.add_lt_add_of_lt_of_le hc (Nat.mul_le_mul_right (2 ^ (8 * 36)) (Nat.le_of_lt hm))) ?_)
    decide +kernel
  have hx : ctxOf (minting m) 1 = ctxOf thread 1 := ctxOf_mem _ _ _ _
  have hk : coreAt (minting m) 0 = coreAt thread 0 := coreAt_mem _ _ _ _
  simp only [hb, hx, hk]
  have low (off n : Nat) (h : off + n ≤ 36) := field_low (blockOf 1 [(0, 2, 4), (34, 2, 0xfff)]) m off n h
  have high (off n : Nat) (h : 36 ≤ off) := field_high (blockOf 1 [(0, 2, 4), (34, 2, 0xfff)]) m off n hc h
  refine ⟨rfl, (low 0 2 (by omega)).trans (by decide +kernel), ?_, ?_, by decide +kernel, ?_, by decide +kernel, ?_, ?_⟩
  · have k : ∀ i < 6, ([(32, 2), (34, 2), (36, 2)].any fun r => decide (r.1 ≤ 32 + i) && decide (32 + i < r.1 + r.2)) = true := by decide
    simp only [reservedZero, Bool.and_eq_true, beq_iff_eq, List.all_eq_true, Bool.or_eq_true]
    refine ⟨(low 6 2 (by omega)).trans (by decide +kernel), fun i hi => ?_⟩
    by_cases h : i < 6
    · exact .inl (k i h)
    · refine .inr ((high (32 + i) 1 (by omega)).trans (field_of_lt m _ 1 (Nat.lt_of_lt_of_le hm ?_)))
      exact Nat.le_trans (by decide : 2 ^ 12 ≤ 2 ^ 16) (Nat.pow_le_pow_right (by omega) (by omega))
  · exact (low 2 2 (by omega)).trans (by decide +kernel)
  · exact (low 32 2 (by omega)).trans (by decide +kernel)
  · exact (low 34 2 (by omega)).trans (by decide +kernel)
  · refine (high 36 2 (by omega)).trans ?_
    simp only [field, Nat.sub_self, Nat.mul_zero, Nat.pow_zero, Nat.div_one]
    exact Nat.mod_eq_of_lt (Nat.lt_trans hm (by decide))

/-- MODELKEY: a wrapped key whose tag is right, and one whose tag is not; no session; a session that is not attested. -/
def wrapped : Nat :=
  bytesVal (bytesOf 7 12 ++ bytesOf 9 32 ++ gcmTag (bytesOf 0 32) (bytesOf 7 12) (bytesOf 5 4 ++ bytesOf 1 2) (bytesOf 9 32))
def keyed (w : Nat) : State :=
  { asking { thread with mem := memPut thread.mem 0x30000 w 60 } 1 [(0, 2, 7), (32, 4, 5), (40, 8, 0x30000)] with sessions := [⟨6, 0, false⟩, ⟨5, 0, true⟩] }
theorem hyp_CornerstoneOperations_model :
    (let s := keyed wrapped
     let b := block s
     asksFor s 7 = true ∧ reservedZero b [(32, 4), (40, 8)] = true ∧ reqCtx b = 1 ∧ freeKeySlot s = some 1 ∧
       (s.sessions.find? fun z => z.id.toNat == field b 32 4 && z.attested) = some ⟨5, 0, true⟩ ∧
       (unwrapKey 0 5 1 (physGet s (field b 40 8) 60 4)).isSome = true) ∧
      unwrapKey 0 5 1 (physGet (keyed (wrapped + 1)) 0x30000 60 4) = none ∧
      (thread.sessions.find? fun z => z.id.toNat == 5 && z.attested) = none := by decide +kernel

/-! The roster of every module, 1 its serial. The key is the point R - G and the signature twice the hash e of the roster, R being the
point with x = e: e × w and r × w are then 1, and G + (R - G) = R. -/

def rosterHead : List Nat := bytesOf 1 8 ++ bytesOf 2304 2 ++ bytesOf 0 6 ++ ((upTo 2304).map fun i => bytesOf i 2).flatten
def rosterHash : Nat := 0x71424e53b1d2e747d4b4faff5408b51d26334cf5682473957a8acdd15f552005b9c8b034357a2a08b3ed21328d6248c0
def rosterKey : BitVec 768 := BitVec.ofNat 768 (bytesVal
  (bytesOfBE 0x3a0d654a59438c4d66f8fac7e56e5a305200e43b5e42e0c3064330f38c239cab7803fa1519f4432828a51fb3a01bd0d7 48 ++
   bytesOfBE 0xea823f1327395f39a361c70cfd3cc35011fbac599a3591fc98b4822675ff707a6698036c82a717619e2c5435851fb10d 48))
def rosterVal : Nat := bytesVal (rosterHead ++ bytesOfBE rosterHash 48 ++ bytesOfBE rosterHash 48)
/-- The roster stands at 0x30000, in dirty lines of core 1. -/
def rosterState : State :=
  let s := asking { thread with fmKey := some rosterKey } 0 [(0, 2, 9), (40, 8, 0x30000), (48, 4, 4720)]
  updCore s 1 fun k => { k with l1 := (upTo 37).map fun i => ⟨4096 + i, false, true, true, BitVec.ofNat 1024 (rosterVal / 2 ^ (1024 * i)), 0, 0x30000 + 128 * i, 0, 0⟩ }

theorem getD_bytesOf (k : Nat) : ∀ v j : Nat, j < k → (bytesOf v k).getD j 0 = v / 256 ^ j % 256 := by
  induction k with
  | zero => intro v j h; omega
  | succ k ih =>
    intro v j h
    cases j with
    | zero => simp [bytesOf]
    | succ j =>
      rw [bytesOf, List.getD_cons_succ, ih _ _ (by omega), Nat.div_div_eq_div_mul, Nat.pow_succ', ]

theorem roster_bytes :
    let b := block rosterState
    asksFor rosterState 9 = true ∧ reservedZero b [(40, 8), (48, 4)] = true ∧ field b 48 4 = 4720 ∧ physGet rosterState (field b 40 8) 4720 (4720 / 64 + 2) = rosterVal := by
  decide +kernel

theorem roster_signed : rosterSigned rosterState (bytesOf rosterVal 4720) = true ∧ bytesVal ((bytesOf rosterVal 4720).take 8) = 1 ∧
    (∀ y ∈ ((bytesOf rosterVal 4720).drop 10).take 6, y = 0) ∧ (bytesOf rosterVal 4720).getD 8 0 + 256 * (bytesOf rosterVal 4720).getD 9 0 = 2304 := by
  decide +kernel

theorem roster_modules : rosterModules (bytesOf rosterVal 4720) 2304 = upTo 2304 := by
  have h : rosterModules (bytesOf rosterVal 4720) 2304 =
      (upTo 2304).map fun i => rosterVal / 256 ^ (16 + 2 * i) % 256 + 256 * (rosterVal / 256 ^ (17 + 2 * i) % 256) := by
    refine List.map_congr_left fun i hi => ?_
    have := List.mem_range.mp hi
    rw [getD_bytesOf _ _ _ (by omega), getD_bytesOf _ _ _ (by omega)]
  rw [h]
  decide +kernel

theorem hyp_CornerstoneOperations_roster :
    let mods := rosterModules (bytesOf rosterVal 4720) 2304
    Config.moduleIndex.toNat ∈ mods ∧ (∀ m ∈ mods, m < 4096) ∧ rosterState.roster = [] ∧
      (1 ≤ ({ rosterState with roster := [0], rosterSerial := 1 }).rosterSerial.toNat) ∧
      (({ rosterState with roster := [0] }).rosterSerial.toNat < 1) ∧ ¬ (114 ≤ field (block (asking thread 0 [(48, 4, 113)])) 48 4) ∧
      ¬ (field (block (asking thread 0 [(48, 4, 4721)])) 48 4 ≤ 4720) := by
  have h := Config.modulePlace.isLt
  refine ⟨?_, ?_, rfl, by decide +kernel, by decide +kernel, by decide +kernel, by decide +kernel⟩
  · rw [roster_modules]
    refine List.mem_range.mpr ?_
    simp only [Config.moduleIndex, BitVec.toNat_ofNat]
    omega
  · rw [roster_modules]
    intro m hm
    have := List.mem_range.mp hm
    omega

/-! ### Pages, the walks of a virtual cache, ports and partners -/

/-- A large page at intermediate page 512, a host page at page 8. -/
def morePages : State := { withPage thread 8 (2 ^ 116 + 0x50015) with mem := memPut (withPage thread 8 (2 ^ 116 + 0x50015)).mem 0x80010 (2 ^ 116 + 0x2000005) 16 }
def movingTo (dest : W64) : State := updDie morePages 0 fun d => { d with pgdest := dest }
def command1 (op next granules : Nat) (waits : List Nat) : PageCommand :=
  { op := op, page := 0, granules := granules, next := next, old := 0x10000, new := 0x50000, waits := waits }
def commanded (c : PageCommand) : State := updDie thread 0 fun d => { d with page := some c }

theorem hyp_CacheAndPageEvents_pages :
    (dieAt morePages 0).page = none ∧ (dieAt (commanded (command1 1 0 32 [])) 0).page ≠ none ∧ 1 % 8 ≠ 0 ∧
      tableLeaf morePages (16 * 2 ^ 16) = none ∧
      (∃ l e, tableLeaf morePages 0 = some (l, e, false) ∧ (leafLoc l).toNat < 2 ∧
        leafUsable (leafMove l ((0x50000#64).extractLsb' 16 48) ((0x50000#64).extractLsb' 0 2)) false = true ∧
        leafUsable (leafMove l ((0x100000000000#64).extractLsb' 16 48) 0) false = false ∧
        -- the frame it is to move to has been retired, or has not
        (∃ f ∈ framesFrom (leafPlace (leafMove l ((0x50000#64).extractLsb' 16 48) ((0x50000#64).extractLsb' 0 2)) false 0) false, f ∈ ({ morePages with retired := [5] }).retired) ∧
        ∀ f ∈ framesFrom (leafPlace (leafMove l ((0x50000#64).extractLsb' 16 48) ((0x50000#64).extractLsb' 0 2)) false 0) false, f ∉ morePages.retired) ∧ 1 < ((0x50002#64).extractLsb' 0 2).toNat ∧
      (∃ l e, tableLeaf morePages (520 * 2 ^ 16) = some (l, e, true) ∧ 520 % 512 ≠ 0 ∧ 520 % 8 = 0) ∧
      (∃ l e, tableLeaf morePages (512 * 2 ^ 16) = some (l, e, true) ∧ 512 % 512 = 0 ∧
        leafUsable (leafMove l ((0x4000000#64).extractLsb' 16 48) ((0x4000000#64).extractLsb' 0 2)) true = true) ∧
      (∃ l e, tableLeaf morePages (8 * 2 ^ 16) = some (l, e, false) ∧ 2 ≤ (leafLoc l).toNat) := by
  refine ⟨by decide +kernel, by decide +kernel, by decide, by decide +kernel, ⟨_, _, rfl, ?_⟩, by decide, ⟨_, _, rfl, ?_⟩, ⟨_, _, rfl, ?_⟩, ⟨_, _, rfl, ?_⟩⟩ <;>
    decide +kernel

theorem hyp_CacheAndPageEvents_chunks :
    (∀ c ∈ (dieAt thread 0).page, c.op ≠ 1) ∧
      (let c := command1 1 31 32 []
       let s := commanded c
       let lines := granuleLines ((c.page + 2048 * c.next) / 2048)
       (dieAt s 0).page = some c ∧ c.next < c.granules ∧ engineWaits s (.migrate 0) lines lines = false ∧
         engineWaits { s with registered := [⟨.copy 1, 1, [496], [], true⟩] } (.migrate 0) lines lines = true ∧ anyPoison s.mem (c.old + 2048 * c.next) 2048 = false ∧
         anyPoison (memSetPoison s.mem (0x10000 + 2048 * 31)) (c.old + 2048 * c.next) 2048 = true) ∧
      (let c := command1 1 32 32 []
       c.granules ≤ c.next ∧ (leafAt (commanded c) c.page).isSome = true) ∧
      (let c := command1 3 0 32 []; c.op = 3 ∧ c.waits = [] ∧ (leafAt (commanded c) c.page).isSome = true) ∧
      (let c := command1 3 0 32 [5]; c.waits ≠ []) ∧
      -- a flip to host whose chunk may go, and one behind a registered reader of a line that a core holds
      (let c := command1 2 0 32 []
       flipWaits (commanded c) 0 c = false ∧
         flipWaits (updDie { withLine thread 3 with registered := [⟨.copy 1, 1, [3], [], true⟩] } 0 fun d => { d with page := some c }) 0 c = true) ∧ 5 ≠ 0 ∧ 0 ≤ 5 * 128 ∧ 5 * 128 < 0 + 2 ^ 16 := by decide +kernel

/-- Cache 3 of context 1, in some state; its old slice holds a granule at way 0 of bank 5's set 0. -/
def shaping (st : VcState) (banks : Tbl Granule) : State :=
  { caches [(3, ⟨st, ⟨1, [5], [80, 81]⟩, some ⟨1, [5], [80]⟩, 0, 4⟩)] 0 with banks := banks }
def granule0 : Granule := { addr := 0, present := 1, dirty := 0, tags := 0, data := 0, owner := 1, loc := 0x10000, key := 0, used := 0 }
theorem hyp_CacheAndPageEvents_walks :
    (let s := shaping .reshaping []
     (vcAt (ctxOf s 1) 3).state = .reshaping ∧ oldGranule s (ctxOf s 1) 3 = none) ∧
      (let s := shaping .reshaping [(2560, granule0)]
       (vcAt (ctxOf s 1) 3).state = .reshaping ∧ oldGranule s (ctxOf s 1) 3 = some 2560 ∧ Tbl.find s.banks 2560 = some granule0 ∧
         ((geometryWays s (vcAt (ctxOf s 1) 3).geo (granule0.addr * 2048)).find? fun w => !Tbl.has s.banks w) = some 2561) ∧
      (vcAt (ctxOf (shaping .reparenting []) 1) 3).state = .reparenting ∧ (vcAt (ctxOf (shaping .draining []) 1) 3).state = .draining ∧
      (vcAt (ctxOf thread 1) 3).state ∉ [VcState.reshaping, .reparenting, .draining] := by decide +kernel

/-- A port in some state. -/
def ported (n : Nat) (st : PortState) : State := setPort thread n ⟨st, 0, true⟩

theorem hyp_PortEvents :
    (0 < 24 ∧ (portAt thread 0).state = .down ∧ (portAt thread 23).state = .down ∧ 24 ≤ (24#5).toNat ∧ (portAt (ported 1 .training) 1).state = .training ∧ isJvx 1 = false ∧
        (portAt (ported 2 .training) 2).state = .training ∧ isJvx 2 = true) ∧
      ((portAt (ported 0 .negotiating) 0).state = .negotiating ∧ (2#16).getLsbD 1 = true ∧ (1#16).getLsbD 1 = false ∧ (4#16).getLsbD 2 = true) ∧
      (let s := { State.reset with bootErr := 2 }; s.bootErr ≠ 0 ∧ s.ready = false) ∧
      (thread.bootErr = 0 ∧ (portAt (ported 1 .active) 1).state = .active ∧ (portAt thread 1).state ≠ .active) ∧
      ((portAt (ported 0 .resetting) 0).state = .resetting ∧ (∀ x ∈ (ported 0 .resetting).contexts, x.2.conf = true → x.2.life ≠ .terminating) ∧
        ¬∀ x ∈ (updCtx thread 1 fun c => { c with conf := true, life := .terminating }).contexts, x.2.conf = true → x.2.life ≠ .terminating) ∧
      (invHolds (ported 0 .active) = true ∧ ∀ x ∈ (ported 0 .active).contexts, x.1 < 4096) ∧
      ((ctxOf (updCtx thread 1 fun c => { c with conf := true }) 1).conf = true ∧ (ctxOf thread 1).conf = false ∧ (ctxOf thread 1).life ≠ .free ∧ (1#12) ≠ 0 ∧ (ctxOf thread 2).life = .free) ∧
      (0 ∉ thread.locks ∧ thread.locks.length < 64 ∧ 7 ∈ ({ thread with locks := [7] }).locks ∧
        64 ≤ ({ thread with locks := upTo 64 }).locks.length ∧ ({ thread with locks := upTo 63 }).locks.length < 64) ∧
      thread.fmKey = none ∧ ({ thread with fmKey := some 5 }).fmKey ≠ none := by decide +kernel

/-- Ports 0 and 20 ACTIVE, module 9 on the roster, a host page at page 8. -/
def linked : State := { setPort (setPort morePages 0 ⟨.active, 2, true⟩) 20 ⟨.active, 0, true⟩ with roster := [9] }
def isSomePlace (s : State) (l : Nat) (f : Place → Bool) : Bool := match linePlace s l with | some p => f p | none => false

theorem hyp_CoherenceEvents_lines :
    invHolds linked = true ∧ linePlace linked 0x2000 = none ∧
      isSomePlace linked (8 * 512) (fun p => isHost p.loc && !p.uncached && !decide (p.loc < 2 ^ 64)) = true ∧
      isSomePlace linked 0 (fun p => decide (p.loc < 2 ^ 64) && !p.uncached && portActive linked 0 && !isHost p.loc && exposes linked p.loc && p.key == 0) = true ∧
      isSomePlace linked 0 (fun p => !exposes { linked with exposed := [(0x50000, 0x10000)] } p.loc) = true ∧
      lineHeld linked linked.registered 0 = false ∧ lineHeld { withOlder linked { wrote3 with status := .committing } with bisnp := [] } [] 3 = true ∧
      -- a chunk that is registered for the line and has not started, while the line's back-invalidate is out
      (let s := { linked with registered := [⟨.copy 0, 1, [], [0], false⟩], bisnp := [0] }; ¬∃ r ∈ s.registered, r.started = true ∨ 0 ∉ s.bisnp) ∧
      isSomePlace linked 1 (fun p => decide (p.loc < 2 ^ 64) && !portActive linked 1) = true ∧ 9 ∈ linked.roster ∧ 8 ∉ linked.roster ∧
      (∀ r ∈ linked.registered, intersects [0] r.writes = false) ∧
      (∃ r ∈ ({ linked with registered := [⟨.copy 0, 1, [], [0], true⟩] }).registered, intersects [0] r.writes = true) ∧
      (let s := updCore linked 0 fun k => { k with l1 := [⟨0, false, true, true, 5, 0, 0x10000, 0, 0⟩] }; (dirtyLine s 0).isSome = true) ∧
      Tbl.get 0 ({ linked with hostLines := [(4096, 2)] }).hostLines 4096 ≠ 0 ∧ (leafAt linked 0).isSome = true ∧
      (1#12).toNat ≠ 4095 ∧ (4095#12).toNat = 4095 := by decide +kernel

theorem hyp_CoherenceEvents_snoops :
    0 ∉ linked.bisnp ∧
      (let s := { linked with bisnp := [0, 3], hostHolds := [(0, 2)] }
       0 ∈ s.bisnp ∧ invHolds s = true ∧ 0 ∉ s.bisnpInv ∧ Tbl.get 0 s.hostHolds 0 ≠ 0 ∧ (linePlace s 0).isSome = true) ∧
      (let s := { linked with bisnp := [0], bisnpInv := [0] }; 0 ∈ s.bisnp ∧ 0 ∈ s.bisnpInv) := by
  decide +kernel

/-- A reduction group of this module alone, and one that waits for module 4,096, which there is not. -/
def contribution0 : Contribution := ⟨5, 0xf, 1, none⟩
def reducing (l : List Nat) : Reduction := ⟨l, .i32, 0x10000, [(2, contribution0)]⟩
theorem hyp_CoherenceEvents_reductions :
    (let s := { thread with reductions := [(7, reducing [Config.moduleIndex.toNat])] }
     Tbl.find s.reductions 7 = some (reducing [Config.moduleIndex.toNat]) ∧
       Tbl.find (reducing [Config.moduleIndex.toNat]).contrib 2 = some contribution0 ∧
       allContributions thread (reducing [Config.moduleIndex.toNat]) contribution0.data [] = some [5]) ∧
      allContributions thread (reducing [4096]) contribution0.data [] = none ∧ Tbl.find thread.reductions 7 = none ∧
      (¬((∃ n, 2 ≤ n ∧ n < 20 ∧ (portAt thread n).state = .active ∧ (portAt thread n).version = 1) ∨
          Config.moduleIndex.toNat ∉ [Config.moduleIndex.toNat])) ∧
      (let s := setPort thread 19 ⟨.active, 1, true⟩; (portAt s 19).state = .active ∧ (portAt s 19).version = 1) ∧
      Config.moduleIndex.toNat ∉ ([] : List Nat) ∧ 15 < 64 / elemBytes .i32 ∧ 7 < 64 / elemBytes .i64 := by
  have h := Config.moduleIndex.isLt
  refine ⟨⟨rfl, rfl, ?_⟩, ?_, rfl, ?_, by decide +kernel, by simp, by decide, by decide⟩
  · simp only [allContributions, reducing, List.mapM_cons, beq_self_eq_true, if_true, List.mapM_nil]
    rfl
  · have : (4096 == Config.moduleIndex.toNat) = false := by rw [beq_eq_false_iff_ne]; omega
    simp only [allContributions, reducing, List.mapM_cons, this]
    rfl
  · rintro (⟨n, -, -, h, -⟩ | h)
    · exact absurd h (by rw [show portAt thread n = Port.reset from rfl]; decide)
    · exact h (by simp)

def registered8 : State := { linked with regions := [(3, ⟨1, small, 7⟩)] }
theorem hyp_CoherenceEvents_regions :
    small.tag = true ∧ (1#12) ≠ 0 ∧ regionOk linked 1 small = true ∧ regionOk linked 2 small = false ∧ Cap.null.tag = false ∧
      (upTo 65536).find? (fun i => ((Tbl.find registered8.regions i).map (·.ctx)).getD 0 == 0) = some 0 ∧
      (let s := registered8
       Tbl.find s.regions ((0x000307#24).toNat / 256) = some ⟨1, small, 7⟩ ∧ (7 : Byte).toNat = (0x000307#24).toNat % 256 ∧ capHas small Perm.store = true ∧
         (capDecode small).1 + 0xff + 1 ≤ (capDecode small).2 ∧ ¬(capDecode small).1 + 0x100 + 1 ≤ (capDecode small).2 ∧ portActive s 20 = true) ∧
      portActive thread 20 = false ∧ Tbl.find registered8.regions 4 = none ∧
      1 ≤ 2048 - 0x107ff % 2048 ∧ okAnd (agentSegs registered8 1 0x107ff 1 false) (fun _ => true) = true := by
  refine ⟨by decide +kernel, by decide, by decide +kernel, by decide +kernel, rfl, ?_, by decide +kernel, by decide +kernel, rfl, by decide, by decide +kernel⟩
  rw [upTo, List.range_succ_eq_map]
  rfl

/-! ### Faults, the supervisor, start-up, the step -/

theorem hyp_FaultFreezes :
    ((mySlot thread).cur.hold = 0 ∧ (myCore thread).frozen = false ∧ (coreAt thread 0).frozen = false) ∧
      ((mySlot inSpan).cur.hold ≠ 0 ∧ (myCore inSpan).frozen = false) ∧
      (coreAt (updCore thread 0 fun k => { k with frozen := true }) 0).frozen = true ∧
      (let x := slotAt (withCur thread { Chunk.start placeRegs with count := 1 }) 0 0
       x.cur.hold = 0 ∧ x.cur.status = .executing ∧ x.cur.count ≠ 0 ∧ x.older = none) ∧
      (let x := slotAt (withCur (withOlder thread wrote3) { Chunk.start placeRegs with count := 1 }) 0 0
       x.cur.hold = 0 ∧ x.cur.status = .executing ∧ x.cur.count ≠ 0 ∧ x.older = some wrote3) ∧
      -- a slot that runs pinned with nothing to commit, and one with a chunk to commit; codes of a fetch and not
      (let x := slotAt (setSlot thread 0 0 { slotAt thread 0 0 with pin := true }) 0 0
       x.pin = true ∧ x.older = none ∧ x.cur.status = .executing ∧ x.cur.count = 0) ∧
      (let x := slotAt (setSlot thread 0 0 { slotAt thread 0 0 with pin := true, cur := { Chunk.start placeRegs with count := 1 } }) 0 0
       x.pin = true ∧ x.cur.count ≠ 0) ∧
      (13 : Byte).toNat ∈ [2, 3, 4, 5, 7, 8, 13] ∧ (18 : Byte).toNat ∉ [2, 3, 4, 5, 7, 8, 13] := by decide +kernel

/-- A packet of core 0, and the core frozen, with or without it, its slot as it is or free. -/
def packet0 : Packet :=
  { ctx := 1, code := 1, slot := 0, source := 0, unit := false, coord := 0, pcc := 0x10000, word := 0, info := 0, stamp := 0, time := 0, kernel := 0, modIdx := 0 }
def halted (r : Option Packet) (f : Core → Core) : State := updCore thread 0 fun k => f { k with frozen := true, report := r }

theorem hyp_SupervisorEvents_packets :
    (let s := halted (some packet0) id
     (coreAt s 0).frozen = true ∧ (coreAt s 0).report = some packet0 ∧ (dieAt s 0).inbox0.length < 256 ∧ ∀ i < 4, slotStopped s 0 i = true) ∧
      (let s := updDie thread 0 fun d => { d with inbox0 := List.replicate 256 packet0 }; ¬(dieAt s 0).inbox0.length < 256) ∧
      (let s := updDie thread 0 fun d => { d with supReset := true, inbox1 := List.replicate 255 packet0 }; (dieAt s 0).supReset = true ∧ (dieAt s 0).inbox1.length < 256) ∧
      (slotAt thread 0 1).busy = false ∧ (let s := withCur thread { Chunk.start placeRegs with count := 1 }; (slotAt s 0 0).busy = true ∧ (slotAt s 0 0).cur.count ≠ 0) ∧
      (let s := committing [3]; (slotAt s 0 0).busy = true ∧ ∃ o, (slotAt s 0 0).older = some o ∧ o.status = .committing) := by
  refine ⟨by decide +kernel, by decide +kernel, by decide +kernel, by decide +kernel, by decide +kernel, by decide +kernel, _, rfl, by decide +kernel⟩

theorem hyp_SupervisorEvents_commands :
    (let k := coreAt (halted none id) 0; k.frozen = true ∧ k.report = none ∧ k.endSlot = 0 ∧ k.held = []) ∧
      (coreAt (halted none fun k => { k with held := [packet0] }) 0).held = [packet0] ∧
      (coreAt (halted none fun k => { k with endSlot := 0xf }) 0).endSlot.getLsbD 3 = true ∧ (coreAt thread 0).frozen = false ∧
      (slotAt (halted none id) 0 3).busy = false ∧ (slotAt (halted none id) 0 0).busy = true ∧
      -- DBGCTL: nothing, HALT alone, RESUME alone, STEP alone
      ((0#64).getLsbD 0 = false ∧ (0#64).getLsbD 1 = (0#64).getLsbD 2 ∧ (6#64).getLsbD 1 = (6#64).getLsbD 2) ∧
      ((1#64).getLsbD 0 = true ∧ (2#64).getLsbD 1 = true ∧ (2#64).getLsbD 2 = false ∧ (4#64).getLsbD 2 = true ∧ (4#64).getLsbD 1 = false) ∧
      -- the window's offsets: registers 0 and 31, the engine table's ends, offsets that name nothing
      (0x100#12).toNat = 0x100 + 16 * (0#5).toNat ∧ (0x2f0#12).toNat = 0x100 + 16 * (31#5).toNat ∧ (0x470#12).toNat = 0x400 + 16 * 7 ∧
      (∀ n ∈ [0x018, 0x03f, 0x0d8, 0x0ff, 0x30f, 0x328, 0x3f0, 0x488, 0x580, 0xff0], windowReg (BitVec.ofNat 12 n).toNat = none) ∧
      -- some bytes of g31, of e7, of a k register, of pcc; the last byte of a register, and all of it
      (∀ x ∈ [(0x2f0, 0x108 - 0x100, 8, 16), (0x470, 15, 1, 16), (0x0c0, 3, 2, 16), (0x310, 0, 16, 16), (0x080, 63, 1, 64)],
        1 ≤ x.2.2.1 ∧ x.2.1 + x.2.2.1 ≤ x.2.2.2 ∧ windowReg (x.1 + x.2.1) = some (x.1, x.2.2.2)) ∧
      (∀ x ∈ [(0x008, 8), (0x040, 64), (0x500, 8), (0x508, 8), (0x540, 64), (0x600, 16)], windowReg (x.1 + x.2 - 1) = some x) ∧
      -- a write is cut where a register begins, and between two bytes that are in none
      windowReg (0x100 + 16) = some (0x110, 16) ∧ windowReg (0x018 + 4) = none ∧
      -- a report that has not left: the inbox is full, or a slot has not stopped
      (let s := updDie (halted (some packet0) id) 0 fun d => { d with inbox0 := List.replicate 256 packet0 }
       (coreAt s 0).report = some packet0 ∧ ¬(dieAt s 0).inbox0.length < 256 ∧ (coreAt s 0).endSlot = 0 ∧ (slotAt s 0 0).busy = true) ∧
      (let s := setSlot (halted (some packet0) id) 0 0 { slotAt thread 0 0 with cur := { Chunk.start placeRegs with count := 1 } }
       slotStopped s 0 0 = false ∧ (ctxOf s (coreAt s 0).owner).life ≠ .terminating) ∧
      atInstruction packet0 = true ∧ atInstruction { packet0 with code := 17 } = false ∧
      (ctxOf (updCtx (halted (some packet0) fun k => { k with held := [packet0] }) 1 fun c => { c with life := .terminating }) 1).life = .terminating ∧
      -- the window shows the three kinds of a pending entry
      (let s := setSlot (halted none id) 0 0 { slotAt thread 0 0 with regs := { placeRegs with pending := [.g 5 (some (capInt 1)), .v 3 2, .k 1 4] } }
       let shown (i : Nat) := (slotAt s 0 (coreAt (updCore s 0 fun k => { k with selPend := BitVec.ofNat 5 i }) 0).selSlot.toNat).regs.pending[i]?
       (coreAt s 0).frozen = true ∧ shown 0 = some (.g 5 (some (capInt 1))) ∧ shown 1 = some (.v 3 2) ∧ shown 2 = some (.k 1 4)) ∧
      sysAllows .w 0x006 = true ∧ sysAllows .w 0x002 = false ∧ sysAllows .w 0x010 = true ∧ (sysAllows .r 0x007 = false ∧ sysAllows .w 0x007 = false) ∧
      -- SRTAG: an image that may be tagged, and one that may not
      (let s := updCtx (halted none fun k => { k with dqring := ⟨false, (rootAt 0).img⟩, srIndex := 0x010 }) 1 fun c => { c with authority := capRoot }
       (sysRead s 0 0 0x010).img = (rootAt 0).img ∧ tagAllowed s 0 (sysRead s 0 0 0x010).img = true) ∧
      tagAllowed (halted none id) 0 (rootAt 0).img = false ∧ (1#128).getLsbD 0 = true ∧ (2#128).getLsbD 0 = false := by decide +kernel

theorem hyp_SupervisorEvents_ecc :
    ((thread.cores.all fun c => (c.2.l1.find? fun x => x.line == 5).isNone) = true) ∧
      ((coreAt (withLine thread 5) 0).l1.find? fun x => x.line == 5).isSome = true ∧ 2 ^ 48 - 1 < 2 ^ 48 ∧ 2 ^ 48 ≤ 2 ^ 48 ∧
      isClusterMem 0xe00000000000 = true ∧ isClusterMem 0x10000 = false ∧ (coreAt thread 0).owner ≠ 0 ∧ (coreAt thread 1).owner = 0 ∧
      (let s := engines .held 0 [] []; (clusterAt s 0).lease ≠ .free ∧ (coreAt s (8 * 0 + (clusterAt s 0).holder.toNat)).owner ≠ 0) ∧
      (clusterAt thread 0).lease = .free ∧ (ctxOf thread 1).life ≠ .free ∧ (ctxOf thread 1).life ≠ .terminating ∧ invHolds thread = true ∧
      (1535#11).toNat < 1536 ∧ 1536 ≤ (1536#11).toNat ∧ 5 * 32 + 0 ∉ thread.spares ∧ 160 ∈ ({ thread with spares := [160] }).spares ∧
      (Tbl.find (shaping .bound [(2560, granule0)]).banks ((5 * 32 + 0) * 16 + 0)).isSome = true ∧
      Tbl.find thread.banks 2560 = none ∧ ({ granule0 with dirty := 1 }).dirty.getLsbD (0#5).toNat = true ∧
      (let s := updCore (halted none id) 1 fun k => { k with owner := 1 }
       ((coreAt s 0).owner = 1 ∧ (coreAt s 0).frozen = true ∧ (coreAt s 0).report = none) ∧ (coreAt s 1).owner = 1 ∧ (coreAt s 1).frozen = false) := by decide +kernel

/-- The phases of start-up, and a map at the ends of what repair takes. -/
def phased (n : BitVec 3) : State := { State.reset with phase := n }
theorem hyp_BootEvents :
    (∀ n < 4, let s := phased (BitVec.ofNat 3 n); s.ready = false ∧ s.bootErr = 0 ∧ s.phase.toNat = n) ∧
      (let s := { State.reset with bootErr := 2, phase := 2 }; s.bootErr ≠ 0 ∧ s.ready = false) ∧
      (4 * 2 ^ 32 + 2 ∉ (phased 2).repairs ∧ 2 ^ 32 + 9 ∈ ({ phased 2 with repairs := [2 ^ 32 + 9] }).repairs) ∧
      (.other ∈ [FailedUnit.core 3, .other] ∧ .other ∉ [FailedUnit.core 3]) ∧
      (3000 < (3001#16).toNat ∧ 2700 ≤ (2700#16).toNat ∧ (3000#16).toNat ≤ 3000 ∧ (2699#16).toNat < 2700) ∧
      (({ thread with calm := 98 }).calm < 99 ∧ 99 ≤ ({ thread with calm := 99 }).calm) ∧
      ((dieAt thread 0).tokenCount.toNat ≤ 16 ∧ (let d := dieAt (updDie thread 0 fun d => { d with tokenCount := 15, lowered := 1 }) 0; d.tokenCount.toNat < 16 ∧ d.lowered ≠ 0)) ∧
      ((∀ i < 8, ∀ x ∈ (coreAt thread (8 * 1 + i)).slots, x.2.busy = false) ∧ ∀ copy, seqEntries (seqOf (clusterAt thread 1) copy) = []) ∧
      (∃ x ∈ (coreAt thread 0).slots, x.2.busy = true) ∧ State.reset.mem.wf = true ∧
      (let s := updCore { morePages with hostLines := [(4096, 2)] } 0 fun k => { k with l1 := [⟨4096, false, true, true, 5, 0, 2 ^ 64 + 0x50000, 0, 0⟩] }
       s.hostLines = [(4096, 2)] ∧ deviceDirty s 4096 = true ∧ hostPlace s 4096 = some (2 ^ 64 + 0x50000) ∧ isHost (2 ^ 64 + 0x50000) = true) := by
  decide +kernel

/-- What a step of an agent asks, as one check of the state it acts on. -/
def actsAs (s : State) (a : Agent) : Bool := (nextInput s).isNone && (due (askForInput s)).isNone && decide (nextAgent (askForInput s) = some a)

theorem hyp_StepRuns_thread :
    (let s := State.reset.withFetchWord 32 0x02321400
     actsAs s ⟨0, 0, .slot⟩ && okAnd (fetchWord (takeClassNow (withTurn s ⟨0, 0, .slot⟩))) fun r =>
       (fetchHeld (takeClassNow (withTurn s ⟨0, 0, .slot⟩))).isNone && r.2 == 0x02321400 &&
         okAnd (decodeWord r.2) fun i => nexts (exec i (fetchReach (takeClassNow (withTurn s ⟨0, 0, .slot⟩)) r.1)) fun _ => true) = true ∧
      (let s := State.reset.withFetchWord 32 0
       actsAs s ⟨0, 0, .slot⟩ && okAnd (fetchWord (takeClassNow (withTurn s ⟨0, 0, .slot⟩))) fun r =>
         (fetchHeld (takeClassNow (withTurn s ⟨0, 0, .slot⟩))).isNone && r.2 == 0 && (decodeWord r.2).toOption.isNone &&
           nexts (exec (.illegal r.2) (fetchReach (takeClassNow (withTurn s ⟨0, 0, .slot⟩)) r.1)) fun _ => true) = true ∧
      (let s := withRegs thread { placeRegs with pcc := Cap.null }
       actsAs s ⟨0, 0, .slot⟩ && (fetchWord (takeClassNow (withTurn s ⟨0, 0, .slot⟩))).toOption.isNone) = true := by decide +kernel

theorem hyp_StepRuns_engines :
    (let s := State.reset.withFetchWord 256 ((encodeCommand .mswap).getD 0).toNat
     actsAs s ⟨0, 0, .matrix⟩ && (seqHeld (withTurn s ⟨0, 0, .matrix⟩) 0 false).isNone && (match seqFetch (withTurn s ⟨0, 0, .matrix⟩) 0 false with | .command i => nexts (exec i s) fun _ => true | _ => false)) = true ∧
      (let s := State.reset.withFetchWord 256 (2 ^ 240)
       actsAs s ⟨0, 0, .copy⟩ && (seqHeld (withTurn s ⟨0, 0, .copy⟩) 0 true).isNone && (match seqFetch (withTurn s ⟨0, 0, .copy⟩) 0 true with | .fault _ _ _ => true | _ => false)) = true := by decide +kernel

/-- A fetch and a command word's read that wait: a COMMITTING chunk of core 1 has written their line. -/
def lineTaken (s : State) (line : Nat) : State :=
  updCore s 1 fun k => { k with slots := [(0, { Slot.reset with busy := true, older := some { Chunk.start Regs.reset with status := .committing, writes := [line], acks := [targetAck] } })] }
theorem hyp_StepRuns_held :
    (let s := lineTaken (State.reset.withFetchWord 32 0x02321400) 0
     actsAs s ⟨0, 0, .slot⟩ && okAnd (fetchWord (takeClassNow (withTurn s ⟨0, 0, .slot⟩))) (fun _ => true) && (fetchHeld (takeClassNow (withTurn s ⟨0, 0, .slot⟩))).isSome) = true ∧
      (let s := lineTaken (setCluster { thread with turn := ⟨0, 0, .copy⟩ } 0
         { Cluster.reset with copy := { Sequencer.reset with queue := [{ placeEntry0 0 with program := some (rootAt 0x14000) }] } }) 128
       (seqHeld (withTurn s ⟨0, 0, .copy⟩) 0 true).isSome) = true := by decide +kernel

theorem hyp_StepRuns_events :
    (let s := { thread with inputs := [.eccCorrectable 0] }
     inputReady s (.eccCorrectable 0) && decide (nextInput s = some (.eccCorrectable 0, [])) && nexts (exec (.eccCorrectable 0) { s with inputs := [] }) fun _ => true) = true ∧
      -- an input that waits, with no answer behind it, and while a cut in time is due
      (let s := { thread with inputs := [.hostSnpinv 0], registered := [⟨.copy 1, 1, [], [0], true⟩] }
       !inputReady s (.hostSnpinv 0) && !timeDue s && (nextInput s).isNone) = true ∧
      (let s := { thread with inputs := [.hostSnpinv 0], armed := true, latchAt := 0 }
       !inputReady s (.hostSnpinv 0) && timeDue s && (nextInput s).isNone) = true ∧
      ((due State.reset).isSome && State.reset.inputs.isEmpty) = true ∧
      (let s := { State.reset with phase := 4, ready := true }; (nextInput s).isNone && (due (askForInput s)).isNone && (nextAgent (askForInput s)).isNone && s.ready) = true ∧
      (let s := { State.reset with bootErr := 2 }; (nextInput s).isNone && (due (askForInput s)).isNone && (nextAgent (askForInput s)).isNone && !s.ready) = true := by decide +kernel

theorem hyp_StepRuns_fetch :
    (let c := (myRegs thread).pcc
     c.tag && capOtype c == 0 && capHas c Perm.exec && decide ((capDecode c).1 ≤ (capAddr c).toNat) && decide ((capAddr c).toNat + 4 ≤ (capDecode c).2) &&
       (capAddr c).toNat % 4 == 0 &&
       (match transFetch thread (capAddr c).toNat with
        | .ok p => !p.uncached && !memPoisoned thread.mem p.loc && !locLost thread p.ia p.loc && !nonCoherentLine (ctxOf thread (myCtx thread)) (p.ia / 128)
        | _ => false)) = true ∧
      capHas (without placePcc Perm.exec) Perm.exec = false ∧ (without placePcc Perm.exec).tag = true ∧
      (let s := withRegs thread { placeRegs with pcc := rootAt 0x30000 }
       (checkPerms (myRegs s).pcc 0x30000 4 true [Perm.exec]).isNone && (match transFetch s 0x30000 with | .fault _ _ => true | _ => false)) = true ∧
      -- a fetch of a page PRIVATE to no core, of an uncached page, and of a poisoned word
      (match transFetch thread 0x10000 with | .ok p => fetchMisses thread p && (privateOwner thread p).isNone | _ => false) = true ∧
      (let s := withRegs (devices 0) { placeRegs with pcc := rootAt 0x110000 }
       (checkPerms (myRegs s).pcc 0x110000 4 true [Perm.exec]).isNone && (match transFetch s 0x110000 with | .ok p => p.uncached | _ => false)) = true ∧
      (let s := { thread with mem := memSetPoison thread.mem 0x10000 }
       (match transFetch s 0x10000 with | .ok p => !p.uncached && memPoisoned s.mem p.loc | _ => false)) = true := by decide +kernel

theorem hyp_DecodeEncode :
    (Instr.add false 3 4 5).wf = true ∧ encodeWord (.add false 3 4 5) = some 0x02321400 ∧ Instr.mswap.wf = true ∧ (encodeCommand .mswap).isSome = true ∧
      (decodeWord 0x02321400).toOption = some (.add false 3 4 5) := by decide +kernel

theorem hyp_StepKeepsInv : invHolds State.reset = true ∧ nexts (step State.reset) (fun t => invHolds t) = true ∧
    (let s := State.reset.withFetchWord 32 0x02321400; invHolds s && nexts (step s) invHolds) = true := by decide +kernel

/-! ### Single steps

Each result is worked out by hand from the rule named, or is an example that the manual itself gives. The instruction carries a marker where
its result is deferred, so that the register holds it afterwards. -/

/-- What an instruction makes of a register of the thread. -/
def gives (s : State) (i : Instr) (r : Reg) : Option Cap := match exec i s with | .next t => some (regsG (mySlot t).regs r) | _ => none
def givesV (s : State) (i : Instr) (r : Reg) : Option Vec := match exec i s with | .next t => some (regsV (mySlot t).regs r) | _ => none
def ints (a b : W64) : State := threadWith [(3, capInt 0x77), (4, capInt a), (5, capInt b)]
def int (v : W64) : Option Cap := some (capInt v)

/-- R73: sums wrap, differences go below zero, and a capability's tag and upper half are not copied (R67). -/
theorem test_add : gives (ints 0xffffffffffffffff 2) (.add false 3 4 5) 3 = int 1 ∧ gives (twoCaps (rootAt 5) (capInt 1)) (.add false 3 5 6) 3 = int 6 := by decide +kernel
theorem test_sub : gives (ints 3 5) (.sub false 3 4 5) 3 = int 0xfffffffffffffffe := by decide +kernel
theorem test_sra : gives (ints 0x8000000000000000 0x7f) (.sra false 3 4 5) 3 = int 0xffffffffffffffff ∧ gives (ints 1 64) (.shl false 3 4 5) 3 = int 1 := by decide +kernel
theorem test_ror : gives (ints 0x8000000000000001 1) (.ror false 3 4 5) 3 = int 0xc000000000000000 := by decide +kernel
theorem test_slt : gives (ints 0xffffffffffffffff 0) (.slt false 3 4 5) 3 = int 1 ∧ gives (ints 0xffffffffffffffff 0) (.sltu false 3 4 5) 3 = int 0 := by decide +kernel
theorem test_mulh : gives (ints 0xffffffffffffffff 2) (.mulh true 3 4 5) 3 = int 0xffffffffffffffff ∧ gives (ints 0xffffffffffffffff 2) (.mulhu true 3 4 5) 3 = int 1 := by decide +kernel
theorem test_div : gives (ints 0x8000000000000000 0xffffffffffffffff) (.div true 3 4 5) 3 = int 0x8000000000000000 ∧ gives (ints 0xfffffffffffffff9 2) (.div true 3 4 5) 3 = int 0xfffffffffffffffd := by decide +kernel
theorem test_rem : gives (ints 7 0) (.rem true 3 4 5) 3 = int 7 ∧ gives (ints 0xfffffffffffffff9 2) (.rem true 3 4 5) 3 = int 0xffffffffffffffff := by decide +kernel
theorem test_divu_zero : gives (ints 7 0) (.divu true 3 4 5) 3 = int 0xffffffffffffffff := by decide +kernel
theorem test_clz : gives (ints 0 0) (.clz false 3 4) 3 = int 64 ∧ gives (ints 0x10 0) (.ctz false 3 4) 3 = int 4 := by decide +kernel
theorem test_sel : gives (ints 8 9) (.sel false 3 4 5 3) 3 = int 8 ∧ gives (ints 8 9) (.sel false 3 4 5 0) 3 = int 9 := by decide +kernel
/-- R67: g0 takes nothing. R75: `lui g3, -1` gives 0xffff_ffff_ffff_f000. -/
theorem test_g0 : gives (ints 8 9) (.add false 0 4 5) 0 = int 0 := by decide +kernel
theorem test_lui : gives thread (.lui false 3 (-1)) 3 = int 0xfffffffffffff000 := by decide +kernel
/-- R76: the thread's pcc stands at 0x10000; its bounds stay. -/
theorem test_aupcc : gives thread (.aupcc false 3 (-1)) 3 = some (rootAt 0xfffc) := by decide +kernel
/-- R69: a deferred result is not in the register file before the park, and an immediate one takes its place. -/
theorem test_deferred : gives (ints 6 7) (.mul false 3 4 5) 3 = int 0x77 ∧ gives (ints 6 7) (.mul true 3 4 5) 3 = int 42 := by decide +kernel
theorem test_last_writer : gives (withPending [.g 3 (some (capInt 100))]) (.addi true 3 0 5) 3 = int 5 := by decide +kernel

/-- R78 to R82, on the words of 1.5, 2, -0.5 and the infinities. -/
theorem test_fadd : gives (ints 0x3ff8000000000000 0x4000000000000000) (.fadd true 3 4 5 true .rne) 3 = int 0x400c000000000000 := by decide +kernel
theorem test_fdiv : gives (ints 0xbf800000 0) (.fdiv true 3 4 5 false .rne) 3 = int 0xff800000 ∧ gives (ints 0 0) (.fdiv true 3 4 5 false .rne) 3 = int 0x7fc00000 := by decide +kernel
theorem test_fcvt : gives (ints 0xbfe0000000000000 0) (.fcvt true 3 4 .ld .rdn) 3 = int 0xffffffffffffffff ∧
    gives (ints 0xbfe0000000000000 0) (.fcvt true 3 4 .lud .rdn) 3 = int 0 := by decide +kernel
theorem test_fclass : gives (ints 0xfff0000000000000 0) (.fclass true 3 4 true) 3 = int 0x108 ∧ gives (ints 0 0) (.fclass true 3 4 true) 3 = int 1 := by decide +kernel
theorem test_fmin : gives (ints 0x80000000 0) (.fmin true 3 4 5 false) 3 = int 0x80000000 ∧ gives (ints 0x7f800001 0) (.fmin true 3 4 5 false) 3 = int 0x7fc00000 := by decide +kernel

/-- R83 to R85: where the next instruction stands, and the link. -/
theorem test_bcond : nexts (exec (.bCond false .ltu 4 5 (-2)) (ints 1 2)) (fun t => (capAddr (mySlot t).regs.pcc).toNat == 0xfff8) = true ∧
    nexts (exec (.bCond false .lt 4 5 (-2)) (ints 1 0xffffffffffffffff)) (fun t => (capAddr (mySlot t).regs.pcc).toNat == 0x10004) = true := by decide +kernel
theorem test_j : gives thread (.j false 1 16) 1 = some (capSetOtype (rootAt 0x10004) 1) := by decide +kernel
theorem test_jc : nexts (exec (.jc false 5 5) (threadWith [(5, capSetOtype (rootAt 0x10100) 1)]))
    (fun t => (mySlot t).regs.pcc == rootAt 0x10100 && regsG (mySlot t).regs 5 == capSetOtype (rootAt 0x10004) 1) = true := by decide +kernel
/-- R85: an untagged target faults with code CAPTAG, 2, at the JC itself. -/
theorem test_jc_untagged : nexts (exec (.jc false 1 5) (threadWith [(5, capInt 0x10100)]))
    (fun t => (coreAt t 0).frozen && ((coreAt t 0).report.map fun p => (p.code, p.pcc)) == some (2, 0x10000)) = true := by decide +kernel

/-- R109, R121, R122: a byte is sign-extended, and a store is in the chunk alone until the chunk commits. -/
theorem test_lb : gives (withMem (reads 0x10011) 0x10 0x807f 2) (.lb true 3 8 0) 3 = int 0xffffffffffffff80 ∧
    gives (withMem (reads 0x10011) 0x10 0x807f 2) (.lbu true 3 8 (-1)) 3 = int 0x7f := by decide +kernel
theorem test_sd : nexts (exec (.sd false 4 8 8) (threadWith [(4, capInt 5), (8, rootAt 0x10100)]))
    (fun t => memBytes t.mem 0x10108 8 == 0 && (mySlot t).cur.writes == [2] && (match exec (.ld true 3 8 8) t with
      | .next u => regsG (mySlot u).regs 3 == capInt 5 | _ => false)) = true := by decide +kernel
/-- R113: bounds past the source's end fault. -/
theorem test_csetbnds : nexts (exec (.csetbnds false 3 5 6) (twoCaps small (capInt 0x101))) (fun t => (coreAt t 0).frozen) = true ∧
    ((gives (twoCaps small (capInt 0x10)) (.csetbnds false 3 5 6) 3).map capDecode) = some (0x10000, 0x10010) := by decide +kernel

/-- R158: an inactive lane keeps its value; R36: the sum of sixteen ones. -/
def lanesOf (f : Nat → Nat) : Vec := vecOf 32 16 f
def vecs (l : Tbl Vec) : State := withRegs (placed State.reset) { placeRegs with v := l, k := [(1, 0x8001)] }
theorem test_vadd : givesV (vecs [(1, lanesOf fun i => i), (2, lanesOf fun _ => 0xffffffff), (3, lanesOf fun _ => 9)]) (.vaddInt true 3 1 2 .i32 1) 3 =
    some (lanesOf fun i => if i = 0 then 0xffffffff else if i = 15 then 14 else 9) := by decide +kernel
theorem test_vredadd : givesV (vecs [(1, lanesOf fun _ => 0x3f800000)]) (.vredaddFloat true 3 1 .f32 0) 3 = some (lanesOf fun i => if i = 0 then 0x41800000 else 0) := by decide +kernel
theorem test_kpop : gives (vecs []) (.kpop false 3 1) 3 = int 2 ∧ gives (vecs []) (.kpop false 3 0) 3 = int 16 := by decide +kernel
/-- R169: sixteen words from 0x100f0 on, under bounds that end at 0x10100: the last twelve lanes fail with CAPBOUNDS, 3. -/
theorem test_vld_bounds : nexts (exec (.vld false 3 5 0) (threadWith [(5, capSetAddr small 0x100f0)]))
    (fun t => ((coreAt t 0).report.map fun p => (p.code, p.info)) == some (3, 0xfff0)) = true := by decide +kernel

/-- R234: TRAP freezes the core with code 17 and its number; the thread's pcc is past it. -/
theorem test_trap : nexts (exec (.trap false 7) thread) (fun t => ((coreAt t 0).report.map fun p => (p.code, p.info, p.pcc)) == some (17, 7, 0x10000) &&
    (coreAt t 0).frozen && (capAddr (mySlot t).regs.pcc).toNat == 0x10004) = true := by decide +kernel
/-- R132: AMO answers what was there and leaves the sum. -/
theorem test_amo : nexts (exec (.amo true 3 8 4 .add true) (withMem (threadWith [(4, capInt 5), (8, rootAt 0x10100)]) 0x100 7 8))
    (fun t => regsG (mySlot t).regs 3 == capInt 7 && (match exec (.ld true 9 8 0) t with | .next u => regsG (mySlot u).regs 9 == capInt 12 | _ => false)) = true := by decide +kernel

/-- R244, R264: command words, field by field, opcode first. -/
theorem test_command_mstrm : command 0 0x1310000000000000000000010010000500000200000000800000004000000021 = some (.mstrm .e4m3 1 2 0x40 0x80 0x200 5 16 1) := by decide +kernel
theorem test_command_cpy : command 1 0x2111000300000020000000000000000000001000000002000000010000000432 = some (.cpy true 2 3 0x100 0x200 0x1000 ⟨true, 4, 0x20⟩) := by decide +kernel
theorem test_command_cfill : command 1 0x24110000000000000000000012345678000000400000000000000100000000_02 = some (.cfill 2 0x100 0x40 0x12345678 ⟨false, 0, 0⟩) := by decide +kernel
/-- R63: another version, another engine's class, a reserved bit. -/
theorem test_command_refused : command 0 (0x122000 <<< 232) = none ∧ command 1 (0x121000 <<< 232) = none ∧ command 0 (0x121000 <<< 232 + 1) = none ∧
    command 0 (0x121000 <<< 232) = some .mswap := by decide +kernel

/-- R329: CREATE answers id 2, the lowest that is free, and GRANT gives cores 8 and 15, which its bitmap and mask name. -/
theorem test_create : nexts (exec (.create 0x20000) (asking thread 0 [(0, 2, 1), (40, 8, 2 ^ 36 - 2 ^ 30), (48, 8, 2 ^ 28)]))
    (fun t => (ctxOf t 2).life == .created && memBytes t.mem 0x20004 2 == 0 && memBytes t.mem 0x20008 8 == 2 && memTag t.mem 0x20010) = true := by decide +kernel
theorem test_grant : nexts (exec (.grant 0x20000) (asking thread 1 [(0, 2, 2), (32, 16, 2), (48, 1, 0x81)]))
    (fun t => (coreAt t 8).owner == 1 && (coreAt t 9).owner == 0 && (coreAt t 15).owner == 1 && t.csDone == 1) = true := by decide +kernel

/-! ### Further cases that the claims name -/

theorem hyp_Rounding_overflow :
    (FFmt.f32, 2 ^ 24 - 1, (104 : Int)) ∈ [(FFmt.f64, 2 ^ 53 - 1, (971 : Int)), (FFmt.f32, 2 ^ 24 - 1, 104), (FFmt.bf16, 255, 120), (FFmt.e5m2, 7, 13), (FFmt.e4m3, 14, 5)] ∧
      2 ^ 24 - 1 < roundTo .rne false (2 ^ 128) (-(0 : Nat)) 104 ∧ 14 < roundTo .rtz true (15 * 32 * 4) (-(2 : Nat)) 5 ∧
      7 < roundTo .rup false (7 * 2 ^ 13 + 1) (-(0 : Nat)) 13 ∧ ¬7 < roundTo .rdn false (7 * 2 ^ 13 + 1) (-(0 : Nat)) 13 := by decide +kernel

/-- Bounds that cannot be encoded exactly, and past the end; the authorities of a seal and an unseal, each check failing in turn. -/
theorem hyp_CapabilityFaults_more :
    (encodeBounds 0x10001 (0x10001 + 0xf000)).lo ≠ 0x10001 ∧
      (2 ^ 64 < (2 ^ 64 - 1) + (2#15).toNat ∧ (capDecode small).2 < (encodeBounds 0x10000 (0x10000 + (0x101#15).toNat)).hi ∧
        (encodeBounds 0xffff (0xffff + (0x10#15).toNat)).lo < (capDecode small).1) ∧
      (let b := without (rootAt 16) Perm.unseal; b.tag = true ∧ capOtype b = 0 ∧ capHas b Perm.unseal = false) ∧
      (let b := capSetAddr small 0x10100
       b.tag = true ∧ capOtype b = 0 ∧ capHas b Perm.sealing = true ∧ capHas b Perm.unseal = true ∧ (capDecode b).2 ≤ (capAddr b).toNat) ∧
      (∀ n ∈ [15, 4096], let b := rootAt (BitVec.ofNat 64 n)
        ¬((capAddr b).toNat < (capDecode b).1 ∨ (capDecode b).2 ≤ (capAddr b).toNat) ∧ ((capAddr b).toNat < 16 ∨ 4095 < (capAddr b).toNat)) ∧
      capOtype (capSetOtype (rootAt 0) 1) ≠ 0 ∧ (capOtype (capSetOtype (rootAt 0) 16)).toNat ≠ (capAddr (rootAt 17)).toNat ∧
      (let b := capSetOtype (without (rootAt 0) Perm.exec) 1; capOtype b = 1 ∧ capHas b Perm.exec = false ∧ capPerms b &&& ~~~(capPerms (rootAt 0)) = 0) ∧
      -- CBUILD: a reserved bit, bounds outside the authority's (no image's own address leaves its representable region)
      capRsv (⟨false, (rootAt 0).img ||| (1#128 <<< 102)⟩ : Cap) ≠ 0 ∧ (capDecode small).2 < (capDecode (rootAt 0)).2 := by decide +kernel

/-! A miss whose fill evicts nothing. -/

theorem lone_holds (s : State) (ia j k : Nat) (h : s.banks.length ≤ 1) (hj : holdsPiece s j ia = true) (hk : holdsPiece s k ia = true) : j = k := by
  unfold holdsPiece at hj hk
  match hb : s.banks with
  | [] => rw [hb] at hj; simp [Tbl.find] at hj
  | [(a, g)] =>
    rw [hb] at hj hk
    by_cases h1 : a = j
    · by_cases h2 : a = k
      · rw [← h1, ← h2]
      · simp [Tbl.find, h2] at hk
    · simp [Tbl.find, h1] at hj
  | _ :: _ :: _ => rw [hb] at h; simp at h

def easyPiece (s : State) (c : Context) (ia : Nat) : Bool :=
  match pathOf c ia with
  | [] => false
  | v :: rest =>
    ((v :: rest).all fun x => (vcAt c x).state != .reshaping) && decide (s.banks.length ≤ 1) &&
      match findWay s (waysOf s c v ia) ia with
      | some _ => true
      | none => (waysOf s c v ia).any fun k => !Tbl.has s.banks k

theorem easyPiece_of (s : State) (c : Context) (ia : Nat) (h : easyPiece s c ia = true) : EasyPiece s c ia := by
  unfold easyPiece at h
  split at h
  · cases h
  · rename_i v rest hp
    simp only [Bool.and_eq_true, List.all_eq_true, decide_eq_true_eq] at h
    refine ⟨v, rest, hp, fun x hx => bne_iff_ne.mp (h.1.1 x hx), ?_⟩
    have alone := fun j k hj hk => lone_holds s ia j k h.1.2 hj hk
    have last := h.2
    split at last
    · rename_i k hk
      cases hh : holdsPiece s k ia
      · exact .inr ⟨.inl ⟨k, hk, hh⟩, alone⟩
      · exact .inl ⟨k, hk, hh⟩
    · rename_i hk
      simp only [List.any_eq_true, Bool.not_eq_true'] at last
      exact .inr ⟨.inr ⟨hk, last⟩, alone⟩

def easyMiss (t : State) (g : Seg) : Bool :=
  let line := g.p.ia / 128
  let pc := pathCtx g.p (myCtx t)
  let c := ctxOf t pc
  (l1Find (myCore t) line (segNc t g)).isNone && decide (((myCore t).l1.filter fun x => x.line % 128 == line % 128).length < 8) && Tbl.wf t.banks &&
    !locLost t g.p.ia g.p.loc &&
    (segNc t g || (((privateOwner t g.p).isNone || privateOwner t g.p == some (meCore t)) && (dirtyLine t line).isNone &&
      decide (((dieAt t (dirDie line)).directory.filter fun e => dirSet e.line == dirSet line).length < 16) &&
      pathOf c (line * 128 + 64) == pathOf c (line * 128) && easyPiece t c (line * 128) &&
      easyPiece (fetchPiece t c pc g.p.key (line * 128) (g.p.loc / 128 * 128)) c (line * 128 + 64)))

theorem easyMiss_of (t : State) (g : Seg) (h : easyMiss t g = true) : EasyMiss t g := by
  simp only [easyMiss, Bool.and_eq_true, Bool.or_eq_true, decide_eq_true_eq, Bool.not_eq_true', Option.isNone_iff_eq_none, beq_iff_eq] at h
  refine ⟨h.1.1.1.1, h.1.1.1.2, h.1.1.2, h.1.2, fun hn => ?_⟩
  have c := h.2.resolve_left (by rw [hn]; decide)
  exact ⟨c.1.1.1.1.1, c.1.1.1.1.2, .inr c.1.1.1.2, c.1.1.2, easyPiece_of _ _ _ c.1.2, easyPiece_of _ _ _ c.2⟩

def lone (t : State) (segs : List Seg) : Bool :=
  match segs with
  | [g] => easyMiss t g
  | _ => false

/-- A load, a store, LC, SC, a PF and a lane of a vector access miss so; a load of a page PRIVATE to the core, and one of a non-coherent line. -/
theorem hyp_misses :
    (okAnd (dataCheck (reads 0x1007f) (readG (reads 0x1007f) 8) 0x1007f 1 [Perm.load] false .scalar true) (lone (reads 0x1007f)) &&
      okAnd (dataCheck (reads 0x10000) (readG (reads 0x10000) 8) 0x10000 8 [Perm.store] false .scalar false) (lone (reads 0x10000)) &&
      okAnd (dataCheck (reads 0x10010) (readG (reads 0x10010) 8) 0x10010 16 [Perm.load] true .never true) (lone (reads 0x10010)) &&
      okAnd (dataCheck (reads 0x10010) (readG (reads 0x10010) 8) 0x10010 16 [] false .never false) (lone (reads 0x10010)) &&
      okAnd (dataCheck (reads 0x10080) (readG (reads 0x10080) 8) 0x10080 1 [Perm.load] false .maintenance true) (lone (reads 0x10080)) &&
      lone (vectors 1) (laneSegs (vectors 1) 0x10040 4) &&
      (let s := nonCoherent (reads 0x10080)
       okAnd (dataCheck s (readG s 8) 0x10080 1 [Perm.load] false .scalar true) fun l => lone s l && l.all fun g => segNc s g) &&
      (let s := withPage (reads 0x10000) 0 (2 ^ 116 + 2 ^ 64 + 0x10005)
       okAnd (dataCheck s (readG s 8) 0x10000 1 [Perm.load] false .scalar true) fun l => lone s l && l.all fun g => privateOwner s g.p == some 0)) = true := by
  decide +kernel

/-- DISCARD of a line of a page PRIVATE to core 3; PF of an address whose check fails, and of an uncached one. -/
theorem hyp_CacheMaintenance_private :
    (let s := withPage (reads 0x10080) 0 (2 ^ 116 + 2 ^ 64 + 3 * 2 ^ 66 + 0x10005)
     okAnd (dataCheck s (readG s 8) 0x10080 128 [Perm.store] false .maintenance false) fun l =>
       l.all fun g => privateOwner s g.p == some 3 && !segNc s g && !g.p.uncached) = true ∧
      (okAnd (dataCheck (devices 0x110000) (readG (devices 0x110000) 8) 0x110000 1 [Perm.load] false .maintenance true) anyUncached) = true ∧
      (match dataCheck (reads 0x90000) (readG (reads 0x90000) 8) 0x90000 1 [Perm.load] false .maintenance true with | .error _ => true | _ => false) = true := by
  decide +kernel

/-! Faults of accesses. -/

/-- The places of the parts of an access, where its translation succeeds. -/
def placesAt (s : State) (a n : Nat) : Except (Nat × Nat) (List (Nat × Nat × Option Place)) := transParts s (myCtx s) (.core (meCore s)) (lineParts a n (n / 128 + 2))
/-- Page 8 lies in the host's memory, whose port is down. -/
def hostPage (a : W64) : State := withPage (wide (threadWith [(8, rootAt a), (9, rootAt 0x10000)])) 8 (2 ^ 116 + 0x50015)
def withPoison (s : State) (k : Nat) : State := { s with mem := memSetPoison s.mem k }

theorem hyp_AccessFaults_poison :
    (let s := withPoison (reads 0x10008) 0x10000
     checkAccess (readG s 8) 0x10008 8 Perm.load false == none && okAnd (placesAt s 0x10008 8) fun l =>
       (placesOf l).all (fun g => !g.p.uncached) && (placesOf l).any fun g => segPoisoned s (mySlot s) (segNc s g) g) = true ∧
      (let s := withPoison (reads 0x10008) 0x90000
       okAnd (placesAt s 0x10008 8) fun l => (placesOf l).length != l.length) = true ∧
      (let s := hostPage 0x180000
       checkAccess (readG s 8) 0x180000 8 Perm.load false == none && okAnd (placesAt s 0x180000 8) fun l =>
         (placesOf l).all (fun g => !g.p.uncached) && (placesOf l).any fun g => segLost s g) = true ∧
      CanDefer (withPoison (reads 0x10008) 0x10000) ∧ CanDefer (hostPage 0x180000) ∧
      -- a store to a device register at an address that is no multiple of its size, before and after the park, and with a park that waits
      (checkAccess (readG (devices 0x110001) 8) 0x110001 8 Perm.store false == none && okAnd (placesAt (devices 0x110001) 0x110001 8) fun l =>
        (placesOf l).any fun g => g.p.uncached) = true ∧ CanPark (devices 0x110001) ∧
      ¬CanPark (setSlot (devices 0x110001) 0 0 { slotAt (devices 0x110001) 0 0 with regs := { myRegs (devices 0x110001) with pending := [.g 1 none] } }) := by
  refine ⟨by decide +kernel, by decide +kernel, by decide +kernel, rfl, rfl, by decide +kernel, rfl, ?_⟩
  unfold CanPark
  decide +kernel

theorem hyp_AccessFaults_atomic :
    (let c := without (rootAt 0x10000) Perm.store; checkAccess c 0x10000 8 Perm.load false = none ∧ capHas c Perm.store = false) ∧
      (checkAccess (rootAt 0x10004) 0x10004 8 Perm.load false = none ∧ 0x10004 % 8 ≠ 0) ∧ 0x10008 % 16 ≠ 0 ∧
      (match transVa (reads 0x90000) (myCtx (reads 0x90000)) (.core 0) 0x90000 with | .fault _ _ => true | _ => false) = true ∧
      (match transVa (devices 0x110000) 1 (.core 0) 0x110000 with | .ok p => p.uncached | _ => false) = true ∧
      (let s := withPoison (reads 0x10008) 0x10000
       match transVa s 1 (.core 0) 0x10008 with | .ok p => !p.uncached && segPoisoned s (mySlot s) false ⟨0x10008, 8, p⟩ | _ => false) = true ∧
      CanDefer (devices 0x110000) := by
  refine ⟨?_, ?_, by decide, ?_, ?_, ?_, rfl⟩ <;> decide +kernel

/-- A vector access of all its lanes, through g8: no tag, a seal, no permission, bounds that end or begin inside it, a wrong alignment, a page
that is not there after the eighth lane, and poison under the first four lanes. -/
def vec8 (c : Cap) : State := withRegs (placed State.reset) { placeRegs with g := [(8, c), (9, capInt 4)], k := [(3, 0xffff)] }
theorem hyp_AccessFaults_vector :
    (Cap.null.tag = false ∧ (regsK (myRegs (vec8 Cap.null)) 3).getLsbD 0 = true) ∧ capOtype (capSetOtype (rootAt 0) 1) ≠ 0 ∧ capHas (without (rootAt 0) Perm.load) Perm.load = false ∧
      ((capDecode small).2 < 0x100f0 + 4 * 15 + 4 ∧ 0xfff0 + 4 * 0 < (capDecode small).1 ∧ ¬(capDecode small).2 < 0x100f0 + 4 * 3 + 4) ∧ (0x10042 + 4 * 0) % 4 ≠ 0 ∧
      (let s := vec8 (rootAt 0x1ffe0)
       (∀ j < 8, laneCause s (0x1ffe0 + 4 * j) 4 = none) ∧ laneCause s (0x1ffe0 + 4 * 8) 4 = some 1 ∧ ∀ j < 16, (0x1ffe0 + 4 * j) % 4 = 0) ∧
      (let s := withPoison (vec8 (rootAt 0x10000)) 0x10000
       lanePoisoned s true 0x10000 4 = true ∧ lanePoisoned s true 0x10010 4 = false ∧ ∀ j < 16, laneCause s (0x10000 + 4 * j) 4 = none) ∧ CanDefer (vec8 Cap.null) := by
  refine ⟨?_, ?_, ?_, ?_, ?_, ?_, ?_, rfl⟩ <;> decide +kernel

/-- A pass may start where core 1 is another context's; the chunks of the context are squashed first. -/
theorem hyp_SystemRegisterInstructions_scrub :
    (let s := updCore revocable 1 fun k => { k with owner := 2 }
     let q := squashContext s 1
     revMayStart (ctxOf s 1) = true ∧ (ctxOf s 1).savedCores = [] ∧ (ctxOf s 1).savedClusters = [] ∧ (ctxOf s 1).parkedMsgs = [] ∧
       ((Tbl.find q.cores 0).map (·.owner)) = some 1 ∧ ((Tbl.find q.cores 1).map (·.owner)) = some 2 ∧
       ((Tbl.find q.cores 0).bind fun k => (Tbl.find k.slots 0).map (·.busy)) = some true) ∧
      Tbl.find (ctxOf (queued [] 0) 1).kernels (slotAt (queued [] 0) 0 0).kernel.toNat = some kernel1 := by decide +kernel

theorem hyp_MessageInstructions_more :
    okAnd (peekSegs (inEffect (mails 7) (.epsend false 5 6) false none) 0 0x14000 64 true) (fun _ => true) = true := by decide +kernel

theorem hyp_VirtualCacheInstructions_mask :
    (okAnd (peekSegs (inEffect (caches [] 0) (.vcdef false 5 5 6) false (some 5)) 0 0x14000 192 true) (fun _ => true) &&
      okAnd (peekSegs (inEffect (caches [] 0) (.vcreshape false 5 5 6) false (some 5)) 0 0x14000 192 true) (fun _ => true)) = true := by decide +kernel

/-- Cache 3 of context 1 in some state, with a binding or not. -/
def cache3 (st : VcState) (binds : List Binding) (quota : W32) : Context :=
  ctxOf (updCtx (caches [(3, ⟨st, ⟨1, [5], [80]⟩, none, 0, 0⟩), (4, ⟨.bound, ⟨1, [6], [96]⟩, none, 31, 0⟩)] quota) 1 fun c => { c with binds := binds }) 1

/-- VCRESHAPE of cache 3 to two ways of one bank: too few free ways, over the quota, in another state, at the quota in DEFINED and in BOUND. -/
theorem hyp_VirtualCacheShapes_reshape :
    (let d : W64 := 0x30002
     d.extractLsb' 21 43 = 0 ∧ d.extractLsb' 5 11 = 0 ∧ (d.extractLsb' 0 5).toNat = 2 ∧ (d.extractLsb' 16 5).toNat = 3) ∧
      (claimable (caches [] 0) [7] 2).isSome = true ∧ claimable { caches [] 0 with badBanks := [7] } [7] 2 = none ∧
      ((vcAt (cache3 .defined [] 0) 3).state = .defined ∧ 0 < slicesHeld (cache3 .defined [] 0) - 1 + 2 ∧ slicesHeld (cache3 .defined [] 3) - 1 + 2 ≤ 3) ∧
      ((vcAt (cache3 .bound [] 0) 3).state = .bound ∧ 0 < slicesHeld (cache3 .bound [] 0) + 2 ∧ slicesHeld (cache3 .bound [] 4) + 2 ≤ 4) ∧
      ((vcAt (cache3 .reshaping [] 4) 3).state ≠ .defined ∧ (vcAt (cache3 .reshaping [] 4) 3).state ≠ .bound ∧ slicesHeld (cache3 .reshaping [] 4) + 2 ≤ 4) ∧
      (0x110002#64).extractLsb' 21 43 = 0 ∧ 16 < ((0x110002#64).extractLsb' 16 5).toNat := by decide +kernel

/-- VCBIND of page 0 to cache 3 and to the common cache (0): what is refused, a new binding, and one that is replaced or removed. -/
def authority (a : W64) : Cap := capSetBounds (rootAt a) (encodeBounds a.toNat (a.toNat + 0x10000)) a
def shapes (binds : List Binding) : State := updCtx (caches [(3, ⟨.defined, ⟨1, [5], [80]⟩, none, 0, 0⟩)] 0) 1 fun c => { c with binds := binds }
theorem hyp_VirtualCacheShapes_bind :
    ((3#64).extractLsb' 5 59 = 0 ∧ ((17#64).extractLsb' 0 5).toNat ≠ 0 ∧ 16 < ((17#64).extractLsb' 0 5).toNat) ∧
      vcState (ctxOf (shapes []) 1) 3 = .defined ∧ isParent (ctxOf (shapes []) 1) 3 = false ∧
      authorityImage (shapes []) 1 (authority 0x10000) = some (0, 0x10000) ∧ authorityImage (shapes []) 1 (authority 0x90000) = none ∧
      isParent (ctxOf (caches [(3, ⟨.defined, ⟨1, [5], [80]⟩, none, 0, 0⟩), (4, ⟨.defined, ⟨1, [6], [96]⟩, none, 3, 0⟩)] 0) 1) 3 = true ∧
      (authorityImage (shapes []) 1 small = some (0, 0x100) ∧ 0x100 % 65536 ≠ 0) ∧
      32 ≤ (ctxOf (shapes (List.replicate 32 ⟨0x20000, 0x10000, 3⟩)) 1).binds.length ∧
      ((List.replicate 32 (⟨0x20000, 0x10000, 3⟩ : Binding)).find? fun x => x.base == 0 && x.len == 0x10000) = none ∧
      (∃ x ∈ (ctxOf (shapes [⟨0, 0x20000, 3⟩]) 1).binds, x.base < 0 + 0x10000 ∧ 0 < x.base + x.len) ∧
      (∀ x ∈ (ctxOf (shapes [⟨0x10000, 0x10000, 3⟩]) 1).binds, ¬(x.base < 0 + 0x10000 ∧ 0 < x.base + x.len)) ∧
      ((ctxOf (shapes [⟨0, 0x10000, 3⟩]) 1).binds.find? fun x => x.base == 0 && x.len == 0x10000) = some ⟨0, 0x10000, 3⟩ := by decide +kernel

/-- VCREPARENT of cache 3: PARENT 17; 4, UNDEFINED, or with a binding; 3 itself; a child in another state; a binding that the authority does not
cover; and 4 as the parent, in DEFINED and in BOUND. -/
theorem hyp_VirtualCacheShapes_reparent :
    ((0x403#64).extractLsb' 13 51 = 0 ∧ (0x403#64).extractLsb' 5 3 = 0 ∧ ((0x403#64).extractLsb' 8 5).toNat = 4) ∧ ((0x1103#64).extractLsb' 8 5).toNat = 17 ∧
      vcState (ctxOf (shapes []) 1) 4 = .undefined ∧ (∃ x ∈ (cache3 .defined [⟨0, 0x10000, 4⟩] 0).binds, x.leaf = 4) ∧
      (chainOf (cache3 .defined [] 0) 3).contains 3 = true ∧
      (reparentBad (cache3 .defined [] 0) 3 4 = false ∧ (vcAt (cache3 .defined [] 0) 3).state = .defined ∧ vcState (cache3 .defined [] 0) 4 = .bound) ∧
      (reparentBad (cache3 .bound [⟨0, 0x10000, 3⟩] 0) 3 4 = false ∧ (vcAt (cache3 .bound [⟨0, 0x10000, 3⟩] 0) 3).state = .bound) ∧
      (let c := cache3 .bound [⟨0, 0x10000, 3⟩] 0
       ∀ x ∈ c.binds, (chainOf c x.leaf).contains 3 = true → 0 ≤ x.base ∧ x.base + x.len ≤ 0 + 0x10000) ∧
      (let c := cache3 .bound [⟨0x20000, 0x10000, 3⟩] 0
       ∃ x ∈ c.binds, (chainOf c x.leaf).contains 3 = true ∧ ¬(x.base + x.len ≤ 0 + 0x10000)) ∧
      (reparentBad (cache3 .draining [] 0) 3 4 = false ∧ (vcAt (cache3 .draining [] 0) 3).state ≠ .defined) ∧
      reparentBad (cache3 .defined [] 0) 3 31 = false := by decide +kernel

/-- A course whose products hold a NaN, both infinities, one infinity, or only finite values. -/
theorem hyp_MatrixCommands_courses :
    floatMul (floatValue .e4m3 0x7f) (floatValue .e4m3 0x38) = .nan ∧ floatMul (floatValue .e5m2 0x7c) (floatValue .e4m3 0x38) = .inf false ∧
      floatMul (floatValue .e5m2 0xfc) (floatValue .e4m3 0x38) = .inf true ∧ floatMul (floatOfInt (signedOf 8 0)) (floatOfInt (signedOf 8 0x81)) = .zero true ∧
      MFmt.int8 ≠ .bf16 ∧ ¬128 ≤ 127 ∧ 128 ≤ 255 := by decide +kernel

/-- A copy of one range; a place whose line may be written home; a tag that is kept; a sync word with a target and without. -/
theorem hyp_CopyCommands_range :
    (okAnd (agentSegsFrom copyIdle (entryOrigin copyHead) copyHead.ctx (0x100000 % 2 ^ 64) 16 true) fun g =>
      okAnd (agentSegsFrom copyIdle (entryOrigin copyHead) copyHead.ctx (0x130000 % 2 ^ 64) 16 false) fun h =>
        !engineWaits copyIdle (.copy 0) (linesOf g) (linesOf h) && h.all fun x => (reductionOf x.p.loc).isNone) = true ∧
      (let c := capDecode (rootAt 0)
       (1 : Nat).testBit 0 = true ∧ capHas (rootAt 0) Perm.loadCap = true ∧ capHas (rootAt 0) Perm.storeCap = true ∧ c.2 = 2 ^ 64) ∧
      (5 + 2 ^ 32 * 3) % 2 ^ 32 ≠ 0 ∧ (2 ^ 32 * 3) % 2 ^ 32 = 0 ∧ 127 + 1 ≤ 128 ∧ (entryOrigin copyHead = .cluster 0) := by decide +kernel

/-- Banks that hold one granule at most, so that no piece stands twice. -/
theorem onePool_lone (s : State) (line : Nat) (h : s.banks.length ≤ 1) : OnePool s line := by
  intro i _ a ha b hb _ _ _ _
  match hs : s.banks with
  | [] => rw [hs] at ha; cases ha
  | [x] =>
    rw [hs, List.mem_singleton] at ha hb
    rw [ha, hb]
  | _ :: _ :: _ => rw [hs] at h; simp at h

/-- A line of page 0 that may be written home, its granule in a bank or not. -/
def homeMeets (s : State) : Bool :=
  okAnd (match transIa s 1 (.core 0) 0x180 with | .ok p => Except.ok p | .fault a b => .error (a, b) | .poisoned _ => .error (0, 0)) fun p =>
    s.mem.wf && Tbl.wf s.banks && decide (s.banks.length ≤ 1) && !isHost p.loc && !locLost s p.ia p.loc
theorem hyp_AtHome :
    homeMeets thread = true ∧ homeMeets { thread with banks := [(2560, granule0)] } = true ∧ ∀ line, OnePool { thread with banks := [(2560, granule0)] } line :=
  ⟨by decide +kernel, by decide +kernel, fun _ => onePool_lone _ _ (by decide)⟩

/-- A revocation pass whose bitmap, at 0x18000, paints granule 0 of 64 bytes; line 3 holds a capability of it, and another. -/
def painting : State :=
  let s := updCtx (threadWith []) 1 fun c => { c with revBusy := true, revmap := ring }
  let s := { s with mem := memPut s.mem 0x18000 1 1 }
  { s with mem := memSetTag (memPut s.mem 0x10180 (capSetBounds (rootAt 0) (encodeBounds 0 0x20) 0).img.toNat 16) 0x10180 true }
theorem hyp_EngineEvents_sweep :
    (match sweepPlace (quietLine painting 3) 1 3 with
     | some p =>
       let q := quietLine painting 3
       paintedUnits q 1 (cohLine q p.key p.ia p.loc) == 1 && q.mem.wf && Tbl.wf q.banks && decide (q.banks.length ≤ 1) && !isHost p.loc && !locLost q p.ia p.loc
     | none => false) = true ∧
      (match sweepPlace (quietLine painting 5) 1 5 with
       | some p => let q := quietLine painting 5; paintedUnits q 1 (cohLine q p.key p.ia p.loc) == 0
       | none => false) = true ∧
      sweepPlace (quietLine thread 5000) 1 5000 = none ∧
      -- the capability is painted, the root is
      painted painting 1 (capSetBounds (rootAt 0) (encodeBounds 0 0x20) 0) = true ∧ painted painting 1 (rootAt 0x10000) = true ∧
      painted painting 1 (capSetBounds (rootAt 64) (encodeBounds 64 96) 64) = false ∧
      (ctxOf painting 1).savedCores = [] ∧ (ctxOf painting 1).savedClusters = [] ∧ (ctxOf painting 1).parkedMsgs = [] ∧
      ((Tbl.find painting.cores 0).map (·.owner)) = some 1 := by decide +kernel

/-- Slot 0 waits to start pinned on a core that is frozen. -/
theorem hyp_ChunkEvents_frozen :
    (let s := setSlot (halted none id) 0 0 { slotAt (halted none id) 0 0 with pinWait := some 5 }
     (slotAt s 0 0).pinWait = some 5 ∧ (coreAt s 0).frozen = true ∧ ∃ a ∈ s.cores, a.2.frozen = true) ∧
      (let s := setSlot thread 0 0 { slotAt thread 0 0 with pinWait := some 5 }; (coreAt s 0).frozen = false ∧ s.pinned = none) ∧
      -- a host line in a chunk that is about to commit
      (∃ w ∈ wrote3.writes, Tbl.get 0 ({ thread with hostHolds := [(3, 1)] }).hostHolds w ≠ 0) := by decide +kernel

/-- Cores 0 to 39 are the context's, on two dies. -/
def region40 : State :=
  let s := { thread with cores := (upTo 40).map fun c => (c, if c = 0 then coreAt thread 0 else { Core.reset with owner := 1 }) }
  updCtx s 1 fun c => { c with dies := [(0, { CtxDie.reset with injring := [(0, ring)] })] }
/-- A launch of two groups of three on one cluster, whose last two cores belong to none; and of one group of forty across two dies. -/
theorem hyp_KernelEvents_members :
    (let l := { launch8 with shape := 0x1000000c }
     okAnd (acceptLaunch region8 1 l) fun r =>
       (groupHeads (coresOf r.1) (shapeGroup l)).length == 2 && (coresOf r.1).length == 8 && shapeGroup l == 3 &&
         okAnd (launchRecords region8 1 l r.2 (groupHeads (coresOf r.1) (shapeGroup l))) fun _ => true) = true ∧
      (let l := { launch8 with shape := 0x100000a0, place := 0x14400 }
       okAnd (acceptLaunch region40 1 l) fun r =>
         (groupHeads (coresOf r.1) (shapeGroup l)).length == 1 && dieOf ((coresOf r.1).getD 0 0) == 0 && dieOf ((coresOf r.1).getD 39 0) == 1) = true ∧
      (ringed 1).ready = true ∧ (ringed 1).lrhead ≠ (ringed 1).lrtail ∧ ({ ringed 1 with ready := false }).ready = false ∧
      -- a KCANCEL that waits behind a registered chunk, and one that does not
      (let s := { queued [] 0 with registered := [⟨.copy 1, 1, [], [0xf000 / 128], true⟩] }
       kernelRuns s 1 1 = true ∧ extentsWait s 1 (kcancelExtents s 1 1) = true ∧ extentsWait (queued [] 0) 1 (kcancelExtents (queued [] 0) 1 1) = false) := by
  decide +kernel

/-- A context that is to be saved: its save area, its core without anything outstanding, and with an uncached store outstanding. -/
theorem hyp_SwitchEvents_save :
    (let s := updCtx (savedIn (living .switching true) ⟨Cluster.reset, false, false, true⟩) 1 fun c => { c with saveBase := 0x100000, saveSize := 188488 * 1024 }
     let x := ctxOf s 1
     savedReady s 1 = true ∧ invHolds s = true ∧ x.savedCores = [] ∧ x.revBusy = false ∧ x.conf = false ∧ x.saveBase.toNat % 16 = 0 ∧ (coresOwned s 1).length ≤ 1024 ∧
       (coresOwned s 1)[0]? = some 0) ∧
      savedReady (updCore (savedIn (living .switching true) ⟨Cluster.reset, false, false, true⟩) 0 fun k => { k with ioStores := [⟨0, 2 ^ 64, 4, 5⟩] }) 1 = false ∧
      -- a message that parks: its context is out, or its core has room
      (let p : Parked := ⟨0, 0, ⟨0, 0, 0⟩, 0, 0⟩
       let s (l : Life) := updCtx (living l true) 1 fun c => { c with transit := [p] }
       isOut (ctxOf (s .saved) 1).life = true ∧ isOut (ctxOf (s .running) 1).life = false ∧ (coreAt (s .running) 0).mail.length < 8 ∧
         (ctxOf (s .saved) 1).conf = false ∧ (s .saved).mem.wf = true) ∧
      (coreAt (mails 8) 0).mail.length = 8 ∧
      -- a cluster where the context holds no core, but where an entry of it is left
      (let s := updCore (engines .held 1 [] []) 0 fun k => { k with owner := 2 }
       coresIn s 1 0 = [] ∧ ∃ e ∈ seqEntries (clusterAt s 0).copy, e.ctx = 1) := by decide +kernel

/-- RESUME of a saved core whose queue has room. -/
theorem hyp_CornerstoneOperations_refill :
    (let s := saved 0
     (ctxOf s 1).revBusy = false ∧ Tbl.wf (ctxOf s 1).savedCores = true ∧ Tbl.find (ctxOf s 1).savedCores 0 = some Core.reset ∧ Core.reset.mail.length ≤ 8) ∧
      (let s := asking { thread with keys := [(3, .seal 1 0), (255, .model 1 0)] } 0x1005 [(0, 2, 8), (32, 1, 3)]
       reqCtx (block s) = 0x1005 ∧ ¬reqCtx (block s) < 4096) := by decide +kernel

/-- A granule that is moved between two frames of memory; an entry of the table in the page buffer. -/
theorem hyp_CacheAndPageEvents_moves :
    thread.mem.wf = true ∧ 0x10000 % 2048 = 0 ∧ 0x50000 % 2048 = 0 ∧ isClusterMem 0x10000 = false ∧ isClusterMem 0x50000 = false ∧
      (let s := { thread with tlb := [(0, BitVec.ofNat 128 (2 ^ 116 + 0x10005), 0x90000, false)] }
       Tbl.find s.tlb 0 = some (BitVec.ofNat 128 (2 ^ 116 + 0x10005), 0x90000, false)) ∧
      (leafAt (commanded (command1 2 0 32 [])) 0).isSome = true ∧ leafAt (commanded (command1 2 0 32 [])) (16 * 2 ^ 16) = none := by decide +kernel

/-- A granule that is evicted: clean, dirty with nothing above it but memory, and dirty with its copy in the cache above. -/
def dirtyGranule : Granule := { granule0 with dirty := 1 }
theorem hyp_CacheAndPageEvents_evict :
    (let s := { thread with banks := [(2560, granule0)] }
     Tbl.find s.banks 2560 = some granule0 ∧ Tbl.wf s.banks = true ∧ s.mem.wf = true ∧ granule0.dirty = 0) ∧
      (let s := { thread with banks := [(2560, dirtyGranule)] }
       Tbl.find s.banks 2560 = some dirtyGranule ∧ dirtyGranule.dirty ≠ 0 ∧ dirtyGranule.loc % 2048 = 0 ∧ dirtyGranule.dirty.getLsbD 0 = true ∧
         dirtyGranule.dirty.getLsbD 31 = false ∧ locLost s (dirtyGranule.addr * 2048) dirtyGranule.loc = false) ∧
      (let s := { caches [(3, ⟨.bound, ⟨1, [5], [80]⟩, none, 0, 0⟩)] 0 with banks := [(2560, granule0), (3072, dirtyGranule)] }
       let u := { s with banks := Tbl.erase s.banks 3072 }
       Tbl.find s.banks 3072 = some dirtyGranule ∧ Tbl.wf s.banks = true ∧ (vcAt (ctxOf s 1) 3).state ≠ .reshaping ∧
         findWay u (waysOf u (ctxOf s 1) 3 (dirtyGranule.addr * 2048)) (dirtyGranule.addr * 2048) = some 2560 ∧ Tbl.find u.banks 2560 = some granule0) := by
  decide +kernel

/-- Interfaces that are locked already, and that cannot be locked; ports of each kind; a lost line of a host that is back. -/
theorem hyp_PortEvents_more :
    (7 ∈ ({ thread with locks := [7] }).locks ∧ 1 ∉ thread.locks ∧ (ctxOf thread 2).life = .free ∧ (ctxOf thread 1).life ≠ .free ∧
        64 ≤ ({ thread with locks := upTo 64 }).locks.length) ∧
      (0 < 2 ∧ (portAt (ported 1 .active) 1).state = .active ∧ hostsLine linked (8 * 512) = true ∧ hostsLine linked 0 = false ∧ 8 * 512 % 2 = 0) := by
  decide +kernel

/-- Lines that the island answers for, a filter with room and a full one, what a partner owns, and lines and partners that are lost. -/
theorem hyp_CoherenceEvents_more :
    (let islanded := { linked with island := [4096] }
     isSomePlace islanded 4096 (fun p => isHost p.loc && decide (4096 ∈ (peerRead islanded 4096 p).island) && decide (4096 ∉ (peerRead linked 4096 p).island))) = true ∧
      (let s := { linked with hostHolds := [(1, 1), (2, 2)], filterLines := 2 }
       let l := s.hostHolds.filter fun h => h.1 != 0 && h.2 != 0 && dirDie h.1 == dirDie 0 && !s.bisnpInv.contains h.1
       l.head? = some (1, 1) ∧ s.filterLines ≤ l.length ∧ l.length < 3) ∧
      Tbl.wf ({ linked with remoteOwns := [(0, 9)] }).remoteOwns = true ∧ Tbl.find ({ linked with remoteOwns := [(0, 9)] }).remoteOwns 0 = some 9 ∧
      ownedBy linked 9 = [] ∧ ownedBy { linked with remoteOwns := [(0, 9)] } 9 = [0] ∧
      (let s := { linked with hostHolds := [(0, 2)] }; Tbl.get 0 s.hostHolds 0 = 2 ∧ (linePlace s 0).isSome = true) ∧
      (let s := { linked with bisnp := [0] }; 0 ∈ s.bisnp ∧ invHolds s = true) ∧ Tbl.find linked.remoteOwns 0 ≠ some 4095 ∧ Tbl.get 0 linked.hostHolds 0 ≠ 2 ∧ 0 ∉ linked.bisnp := by
  decide +kernel

/-- A port with version 2 of the link protocol, and with version 1; a queue pair that there is. -/
theorem hyp_CoherenceEvents_links :
    reductionLink (setPort thread 19 ⟨.active, 2, true⟩) = true ∧ reductionLink (setPort thread 19 ⟨.active, 1, true⟩) = false ∧ reductionLink thread = false ∧
      5 ∈ ({ registered8 with queuePairs := [5] }).queuePairs ∧ 5 ∉ registered8.queuePairs ∧
      (let s := updCtx { registered8 with queuePairs := [5] } 1 fun c => { c with life := .running }
       (rdmaPut s 1 0x10000 [1] 2).2 = true ∧ (rdmaPut s 1 0x90000 [1] 2).2 = false) := by decide +kernel

/-- What the window of a frozen core is written with: one byte of g31, two bytes of k1, an image of pcc; a register that allows no write. -/
theorem hyp_SupervisorEvents_bytes :
    (0x2f1 = 0x100 + 16 * (31#5).toNat + 1 ∧ 1 + 1 ≤ 16) ∧ (0x0c2 = 0x0c0 + 2 ∧ 2 + 2 ≤ 16) ∧ (0x318 = 0x310 + 8 ∧ 8 + 8 ≤ 16) ∧
      (0x022#12).toNat > 0x012 ∧ sysAllows .w 0x002 = false ∧ sysAllows .r 0x002 = true ∧ sysAllows .r 0x7ff = false ∧ sysAllows .w 0x7ff = false ∧
      tagAllowed region8 0 (rootAt 0).img = false ∧ tagAllowed (ringed 1) 0 (rootAt 0).img = true ∧ tagAllowed (ringed 1) 0 (2 ^ 102 : BitVec 128) = false ∧
      (0x010 : Nat) ∈ [0x010, 0x014, 0x015, 0x016, 0x017, 0x019] ∧ (0x006 : Nat) ∉ [0x010, 0x014, 0x015, 0x016, 0x017, 0x019] := by decide +kernel

/-- Errors: a byte of memory whose page is found; a bank's last number, and one that there is not; a dirty piece and a clean one. -/
theorem hyp_SupervisorEvents_errors :
    0x10000 < 2 ^ 48 ∧ (1535#11).toNat < 1536 ∧ 1536 ≤ (1536#11).toNat ∧ dirtyGranule.dirty.getLsbD (0#5).toNat = true ∧
      dirtyGranule.dirty.getLsbD (1#5).toNat = false ∧ isClusterMem 0xe00000000000 = true := by decide +kernel

end Sys2Proof.Tests
end

section
/-! PROOFS. The machine as power comes on (R366): every table is empty, so that each place reads its own reset; memory lists nothing, so that
it reads zero; and the invariant that every step keeps holds of it. -/

namespace Sys2Proof.Machine

/-! ### What each place of the reset machine reads -/

@[simp] theorem coreAt_reset (n : Nat) : coreAt State.reset n = Core.reset := rfl
@[simp] theorem slotAt_reset (n l : Nat) : slotAt State.reset n l = Slot.reset := rfl
@[simp] theorem clusterAt_reset (n : Nat) : clusterAt State.reset n = Cluster.reset := rfl
@[simp] theorem dieAt_reset (d : Nat) : dieAt State.reset d = Die.reset := rfl
@[simp] theorem ctxOf_reset (ctx : BitVec 12) : ctxOf State.reset ctx = Context.reset := rfl
@[simp] theorem portAt_reset (n : Nat) : portAt State.reset n = Port.reset := rfl
@[simp] theorem mem_reset : State.reset.mem = Memory.empty := rfl

/-! ### What empty memory and an empty register file read -/

@[simp] theorem memByte_empty (a : Nat) : memByte Memory.empty a = 0 := rfl
@[simp] theorem memTag_empty (a : Nat) : memTag Memory.empty a = false := rfl
@[simp] theorem memPoisoned_empty (a : Nat) : memPoisoned Memory.empty a = false := rfl

@[simp] theorem regsG_reset (r : Reg) : regsG Regs.reset r = Cap.null := by
  unfold regsG
  split
  · rfl
  · exact Tbl.get_nil _ _

@[simp] theorem regsV_reset (r : Reg) : regsV Regs.reset r = 0 := Tbl.get_nil _ _

/-- k0 is no stored register: it reads all ones at reset as ever (R5). -/
theorem regsK_reset (k : KReg) (hk : k ≠ 0) : regsK Regs.reset k = 0 := by
  unfold regsK
  rw [if_neg hk]
  exact Tbl.get_nil _ _

/-! ### The invariant -/

theorem memory_wf_empty : Memory.empty.wf = true := rfl

/-- An empty table is in canonical form, and what all its entries must be holds of none. -/
theorem inv_reset : State.reset.Inv where
  mem := memory_wf_empty
  cores := rfl
  slots := rfl
  clusters := rfl
  arrays := rfl
  dies := rfl
  contexts := rfl
  savedSlots := rfl
  savedArrays := rfl
  hostHolds := rfl
  hostLines := rfl

/-! ### The reset values of each structure -/

theorem memory_reads_empty (a : Nat) :
    memByte Memory.empty a = 0 ∧ memTag Memory.empty a = false ∧ memPoisoned Memory.empty a = false :=
  ⟨memByte_empty a, memTag_empty a, memPoisoned_empty a⟩

theorem context_reset_life : Context.reset.life = .free := rfl

theorem port_reset_state : Port.reset.state = .down := rfl

theorem cluster_reset_fields : Cluster.reset.lease = .free ∧ Cluster.reset.leaseMax = 32 ∧ Cluster.reset.acc = [] := ⟨rfl, rfl, rfl⟩

theorem die_reset_fields : Die.reset.tokenCount = 16 ∧ Die.reset.pgerr = 0 ∧ Die.reset.eccCount = 0 := ⟨rfl, rfl, rfl⟩

theorem core_reset_fields : Core.reset.owner = 0 ∧ Core.reset.switchAt = BitVec.allOnes 64 ∧ Core.reset.frozen = false ∧
    Core.reset.member = [] := ⟨rfl, rfl, rfl, rfl⟩

theorem slot_reset_regs : Slot.reset.regs = Regs.reset := rfl

/-- A slot without a thread: LIMIT 1024, nothing pending, and each register of its file zero. -/
theorem slot_reset_fields : Slot.reset.busy = false ∧ Slot.reset.limit = 1024 ∧ Slot.reset.regs.pending = [] ∧
    ∀ r k, regsG Slot.reset.regs r = Cap.null ∧ regsV Slot.reset.regs r = 0 ∧ (k ≠ 0 → regsK Slot.reset.regs k = 0) := by
  rw [slot_reset_regs]
  exact ⟨rfl, rfl, rfl, fun r k => ⟨regsG_reset r, regsV_reset r, regsK_reset k⟩⟩

/-- Settles O57: each place reads the reset of its structure, whose fields are known; the package's own registers stand in State.reset. -/
theorem resetState : Obligations.ResetState := by
  simp only [Obligations.ResetState, mem_reset, ctxOf_reset, portAt_reset, clusterAt_reset, dieAt_reset, coreAt_reset, slotAt_reset,
    true_and]
  obtain ⟨howner, hswitch, hfrozen, hmember⟩ := core_reset_fields
  exact ⟨inv_reset, rfl, rfl, rfl, rfl, rfl, rfl, rfl, rfl, rfl, rfl, rfl, rfl, rfl, rfl, memory_reads_empty,
    fun _ => context_reset_life, fun _ => port_reset_state, fun _ => cluster_reset_fields, fun _ => die_reset_fields,
    fun _ => ⟨howner, hswitch, hfrozen, hmember, fun _ => slot_reset_fields⟩⟩

end Sys2Proof.Machine
end

section
/-! PROOFS. The three register files of a thread: a write of a register is what that register reads afterwards, unless it is g0 or k0, and
every other register of its file and of the other two reads as before (R5, R67, R158). -/

namespace Sys2Proof.Machine

/-! ### The registers of the other two files -/

section OtherFiles
variable (r : Regs)

@[simp] theorem regsK_regsSetG (d : Reg) (c : Cap) (j : KReg) : regsK (regsSetG r d c) j = regsK r j :=
  regsK_congr (regsSetG_k r d c) j

@[simp] theorem regsV_regsSetG (d : Reg) (c : Cap) (w : Reg) : regsV (regsSetG r d c) w = regsV r w :=
  regsV_congr (regsSetG_v r d c) w

@[simp] theorem regsG_regsSetK (k : KReg) (x : Mask) (n : Reg) : regsG (regsSetK r k x) n = regsG r n :=
  regsG_congr (regsSetK_g r k x) n

@[simp] theorem regsV_regsSetK (k : KReg) (x : Mask) (w : Reg) : regsV (regsSetK r k x) w = regsV r w :=
  regsV_congr (regsSetK_v r k x) w

@[simp] theorem regsG_regsSetV (e : Reg) (v : Vec) (n : Reg) : regsG (regsSetV r e v) n = regsG r n :=
  regsG_congr (regsSetV_g r e v) n

@[simp] theorem regsK_regsSetV (e : Reg) (v : Vec) (j : KReg) : regsK (regsSetV r e v) j = regsK r j :=
  regsK_congr (regsSetV_k r e v) j

end OtherFiles

/-- Settles O1: the hard-wired reads, then each file read back after a write of it, then each file after a write of another, then the
discarded writes. -/
theorem hardwiredRegisters : Obligations.HardwiredRegisters := by
  intro r n d c j k x w e v
  refine ⟨regsG_zero r, regsK_zero r, ?_, ?_, ?_, ?_, ?_, ?_, ?_, ?_, ?_, regsSetG_zero r c, regsSetK_zero r x⟩
  · exact regsG_regsSetG r d n c
  · exact regsK_regsSetK r k j x
  · exact regsV_regsSetV r e w v
  · exact regsK_regsSetG r d c j
  · exact regsG_regsSetK r k x n
  · exact regsV_regsSetG r d c w
  · exact regsV_regsSetK r k x w
  · exact regsG_regsSetV r e v n
  · exact regsK_regsSetV r e v j

end Sys2Proof.Machine
end
